-- ==== Sys2Proof/Word.lean ====
section
/-! DEFINITION. The word types of the model. -/
namespace Sys2Proof

/-- A 64-bit scalar word (R50). -/
abbrev Word := BitVec 64

/-- One byte. -/
abbrev Byte := BitVec 8

/-- The 32-bit value of an I/O register (R343). -/
abbrev Reg32 := BitVec 32

end Sys2Proof
end

