-- ==== Sys2Proof/Syntax.lean ====
section
/-! DEFINITION. The commands of the block: one constructor of `Instr` per row of the opcode table, with the row's
operands. An instruction form carries the raw fields of its encoding (R45, R142, R150, R284, R377), reserved fields
included, so that the checks of R46 are made by the meanings. -/
namespace Sys2Proof

/-- A unit that issues instructions: a compute core, a Caller core or a link sequencer. -/
inductive UnitId where
  | core (c : Fin 64)
  | caller (n : Fin 4)
  | seq (l : Fin 48)
  deriving DecidableEq, Repr

/-- An agent that accesses a register of the I/O space (R345). -/
inductive Agent where
  | host (p : Fin 4)
  | caller (n : Fin 4)
  | core (c : Fin 64)
  | debug
  deriving DecidableEq, Repr

/-- Form S1 (R45). -/
structure S1 where
  arg7 : BitVec 7
  deriving DecidableEq, Repr

/-- Form S2-R (R45). -/
structure S2R where
  rs2 : BitVec 5
  rs1 : BitVec 5
  fn : BitVec 4
  rd : BitVec 5
  w : Bool
  deriving DecidableEq, Repr

/-- Form S2-I (R45), the immediate assembled. -/
structure S2I where
  imm : BitVec 10
  rs1 : BitVec 5
  rd : BitVec 5
  deriving DecidableEq, Repr

/-- Form S2-B (R45), the offset assembled. -/
structure S2B where
  off : BitVec 12
  rs1 : BitVec 5
  cond : BitVec 3
  deriving DecidableEq, Repr

/-- Form S2-J (R45), the offset assembled. -/
structure S2J where
  off : BitVec 20
  deriving DecidableEq, Repr

/-- Form S2-L (R45). -/
structure S2L where
  len : BitVec 14
  rs : BitVec 5
  rsv : BitVec 1
  deriving DecidableEq, Repr

/-- Form S2-T (R45). -/
structure S2T where
  tok : BitVec 6
  n : BitVec 4
  rsvA : BitVec 4
  rs : BitVec 5
  rsvB : BitVec 1
  deriving DecidableEq, Repr

/-- Form S2-S (R45). -/
structure S2S where
  sr : BitVec 6
  rsvA : BitVec 8
  r : BitVec 5
  rsvB : BitVec 1
  deriving DecidableEq, Repr

/-- Form S4-I (R45). -/
structure S4I where
  rd : BitVec 5
  rs1 : BitVec 5
  imm : BitVec 32
  sub : BitVec 4
  deriving DecidableEq, Repr

/-- Form S4-B (R45). -/
structure S4B where
  rs1 : BitVec 5
  rs2 : BitVec 5
  cond : BitVec 3
  off : BitVec 18
  rsvA : BitVec 11
  rsvB : BitVec 4
  deriving DecidableEq, Repr

/-- Form S4-P (R45). -/
structure S4P where
  r : BitVec 5
  rs1 : BitVec 5
  cap : BitVec 4
  off : BitVec 17
  rsvA : BitVec 11
  rsvB : BitVec 4
  deriving DecidableEq, Repr

/-- Form S4-U (R45, R49): `opnd` is bits [37:14]. -/
structure S4U where
  rowsM1 : BitVec 7
  rbM1 : BitVec 4
  wte : Bool
  wtok : BitVec 6
  opnd : BitVec 24
  sub : BitVec 4
  deriving DecidableEq, Repr

/-- Form S2-C (R377). -/
structure S2C where
  rs : BitVec 5
  ca : BitVec 4
  cb : BitVec 4
  rsvA : BitVec 1
  fn : BitVec 4
  rsvB : BitVec 2
  deriving DecidableEq, Repr

/-- Form S2-V (R142). -/
structure S2V where
  vs2 : BitVec 5
  vs1 : BitVec 5
  fn : BitVec 4
  vd : BitVec 5
  msk : Bool
  deriving DecidableEq, Repr

/-- Form S4-V (R150). -/
structure S4V where
  vr : BitVec 5
  rs1 : BitVec 5
  msk : Bool
  wte : Bool
  wtok : BitVec 6
  rs2 : BitVec 5
  iw : Bool
  rsv : BitVec 18
  sub : BitVec 4
  deriving DecidableEq, Repr

/-- The form of the sequencer instructions (R284): `rsv` is bits [50:14]. -/
structure S4Q where
  rs1 : BitVec 5
  rsv : BitVec 37
  sub : BitVec 4
  deriving DecidableEq, Repr

/-- The size of a scalar access (R52). -/
inductive LSize where
  | b | h | w | d
  deriving DecidableEq, Repr

/-- What the symbol code of a DRAM read finds (R177, R178): nothing, one failing symbol, two or more that it detects, or
more than two that it misses or takes for one other symbol. -/
inductive Ecc where
  | clean
  | corrected (sym : Fin 36)
  | uncorrectable
  | escaped (sym : Option (Fin 36))
  deriving DecidableEq, Repr

/-- A pin with a glitch filter (R395). -/
inductive FilterPin where
  | perst | therm | alert
  deriving DecidableEq, Repr

/-- A received slot-0 header (R280), with the receiver's own stamps of R269 in ps. -/
structure Slot0Hdr where
  beat : BitVec 48
  lock : Bool
  hops : BitVec 8
  tstamp : BitVec 64
  techo : BitVec 64
  t2 : BitVec 64
  t3 : BitVec 64
  deriving DecidableEq, Repr

/-- A received slot header with SCHED = 1 (R280). -/
structure SlotHdr where
  beat : BitVec 48
  slot : BitVec 3
  nflit : BitVec 8
  stream : BitVec 8
  deriving DecidableEq, Repr

/-- The four 8-byte words of an ID record (R277); of a pod on a bridge link only the generation that it reports counts
(R276). -/
structure IdRecord where
  fp : BitVec 64
  w1 : BitVec 64
  uid : BitVec 64
  w3 : BitVec 64
  gen : Nat := 0
  deriving DecidableEq, Repr

/-- What a link's receiver finds (R293): a corrected codeword, an uncorrectable one, or a flit whose CRC fails. -/
inductive FlitErr where
  | corrected | codeword | crc
  deriving DecidableEq, Repr

/-- A best-effort packet (R296, R298). -/
structure BePacket where
  daddr : BitVec 64
  src : BitVec 20
  dest : BitVec 20
  seqNo : Nat
  inject : BitVec 48
  data : List Byte
  deriving DecidableEq, Repr

/-- An acknowledgement of best-effort traffic (R298): the link whose sequencer sent the request, and the request's number. -/
structure BeAck where
  link : Fin 48
  seqNo : Nat
  deriving DecidableEq, Repr

/-- A bridge frame whose CRC is good (R323). -/
structure BridgeFrame where
  typ : BitVec 8
  gen : BitVec 8
  len : BitVec 16
  step : BitVec 32
  offset : BitVec 64
  scale : BitVec 32
  credits : BitVec 32
  outc : BitVec 8
  payload : List Byte
  deriving DecidableEq, Repr

/-- A DRAM bank (R169, R171). -/
inductive BankId where
  | stacked (s : Fin 16) (ch : Fin 64) (b : Fin 32)
  | far (ch : Fin 64) (b : Fin 32)
  deriving DecidableEq, Repr

/-- A host access: CXL.mem (R339), the BOOT window of BAR4 (R404), BAR0 (R343), or a read of BAR2 (R350). -/
inductive MemOp where
  | read (n : Nat)
  | readEcc (n : Nat) (ecc : Ecc)
  | write (data : List Byte)
  | bootRead (n : Nat)
  | bootWrite (data : List Byte)
  | bar0Read (n : Nat)
  | bar0Write (data : List Byte)
  | bar2Read (n : Nat)
  deriving DecidableEq, Repr

/-- A debug port (R445, R446). -/
inductive DbgPort where
  | tap
  | host (p : Fin 4)
  | caller (n : Fin 4)
  deriving DecidableEq, Repr

/-- The fields of a debug command word beside OP (R446). -/
structure DbgWord where
  unit : BitVec 8
  addr : BitVec 48
  data : BitVec 64
  deriving DecidableEq, Repr

/-- The commands: one constructor per row of the opcode table. -/
inductive Instr where
  /-- NOP (R47). -/
  | nop (u : UnitId) (f : S1)
  /-- WAITTOK (R67). -/
  | waittok (u : UnitId) (f : S1)
  /-- WAITTOK_N (R67). -/
  | waittokN (u : UnitId) (f : S2T)
  /-- TOKEN_WAIT_SATISFIED (R67). -/
  | tokenWaitSatisfied (u : UnitId)
  /-- TOKEN_TIMEOUT (R69). -/
  | tokenTimeout (c : Fin 64)
  /-- SIGTOK (R68). -/
  | sigtok (u : UnitId) (f : S1)
  /-- SIGTOK_R (R68). -/
  | sigtokR (u : UnitId) (f : S2T)
  /-- SIGTOK_RELEASE (R68). -/
  | sigtokRelease (u : UnitId)
  /-- FENCE (R71). -/
  | fence (u : UnitId) (f : S1)
  /-- LFENCE (R72). -/
  | lfence (u : UnitId) (f : S1)
  /-- RET (R50). -/
  | ret (u : UnitId) (f : S1)
  /-- ERET (R386). -/
  | eret (u : UnitId) (f : S1)
  /-- CINV (R187). -/
  | cinv (u : UnitId) (f : S1)
  /-- ALU (R47). -/
  | alu (u : UnitId) (f : S2R)
  /-- ADDI (R47). -/
  | addi (u : UnitId) (f : S2I)
  /-- ANDI (R47). -/
  | andi (u : UnitId) (f : S2I)
  /-- ORI (R47). -/
  | ori (u : UnitId) (f : S2I)
  /-- XORI (R47). -/
  | xori (u : UnitId) (f : S2I)
  /-- SHLI (R47). -/
  | shli (u : UnitId) (f : S2I)
  /-- SHRI (R47). -/
  | shri (u : UnitId) (f : S2I)
  /-- SRAI (R47). -/
  | srai (u : UnitId) (f : S2I)
  /-- LD (R52). -/
  | ld (u : UnitId) (sz : LSize) (f : S2I)
  /-- LDU (R52). -/
  | ldu (u : UnitId) (sz : LSize) (f : S2I)
  /-- ST (R52). -/
  | st (u : UnitId) (sz : LSize) (f : S2I)
  /-- IN (R53). -/
  | inp (u : UnitId) (f : S2I)
  /-- OUT (R53). -/
  | outp (u : UnitId) (f : S2I)
  /-- BR (R47). -/
  | br (u : UnitId) (f : S2B)
  /-- BR_LONG (R47). -/
  | brLong (u : UnitId) (f : S4B)
  /-- J (R47). -/
  | j (u : UnitId) (f : S2J)
  /-- CALL (R50). -/
  | call (u : UnitId) (f : S2J)
  /-- LOOP (R60). -/
  | loop (u : UnitId) (f : S2L)
  /-- MFSR (R51). -/
  | mfsr (u : UnitId) (f : S2S)
  /-- MTSR (R51). -/
  | mtsr (u : UnitId) (f : S2S)
  /-- LI (R47). -/
  | li (u : UnitId) (f : S4I)
  /-- PLD (R54). -/
  | pld (u : UnitId) (f : S4P)
  /-- PST (R54). -/
  | pst (u : UnitId) (f : S4P)
  /-- LOAD_DATA_ARRIVAL (R55). -/
  | loadDataArrival (u : UnitId) (ecc : Ecc)
  /-- MERGING_BUFFER_DRAIN (R185). -/
  | mergingBufferDrain (u : UnitId)
  /-- TLD (R83). -/
  | tld (u : UnitId) (f : S4U)
  /-- TST (R83). -/
  | tst (u : UnitId) (f : S4U)
  /-- TZERO (R85). -/
  | tzero (u : UnitId) (f : S4U)
  /-- TREL (R97). -/
  | trel (u : UnitId) (f : S4U)
  /-- TSAVE (R98). -/
  | tsave (u : UnitId) (f : S4U)
  /-- TRESTORE (R98). -/
  | trestore (u : UnitId) (f : S4U)
  /-- TILE_ROW_ARRIVAL (R86). -/
  | tileRowArrival (c : Fin 64) (ecc : Ecc)
  /-- MSEAT (R105). -/
  | mseat (u : UnitId) (f : S4U)
  /-- MMA (R119). -/
  | mma (u : UnitId) (f : S4U)
  /-- MMAF (R130). -/
  | mmaf (u : UnitId) (f : S4U)
  /-- MZERO (R115). -/
  | mzero (u : UnitId) (f : S4U)
  /-- MANCHOR (R117). -/
  | manchor (u : UnitId) (f : S4U)
  /-- MDRAIN (R125). -/
  | mdrain (u : UnitId) (f : S4U)
  /-- MWAIT (R122). -/
  | mwait (u : UnitId) (f : S4U)
  /-- ARRAY_INSTRUCTION_START (R120). -/
  | arrayInstructionStart (c : Fin 64)
  /-- ARRAY_INSTRUCTION_COMPLETE (R121). -/
  | arrayInstructionComplete (c : Fin 64) (k : Nat)
  /-- VSETL (R139). -/
  | vsetl (u : UnitId) (f : S2I)
  /-- VECTOR_INTEGER (R143). -/
  | vectorInteger (u : UnitId) (f : S2V)
  /-- VECTOR_FLOAT (R145). -/
  | vectorFloat (u : UnitId) (f : S2V)
  /-- VECTOR_FMA (R143). -/
  | vectorFma (u : UnitId) (f : S2V)
  /-- VECTOR_FUNCTION (R145). -/
  | vectorFunction (u : UnitId) (f : S2V)
  /-- VECTOR_COMPARE (R145). -/
  | vectorCompare (u : UnitId) (f : S2V)
  /-- VECTOR_MASK_OP (R141). -/
  | vectorMaskOp (u : UnitId) (f : S2V)
  /-- VECTOR_REDUCTION (R147). -/
  | vectorReduction (u : UnitId) (f : S2V)
  /-- VCVT (R146). -/
  | vcvt (u : UnitId) (f : S2V)
  /-- VMV (R143). -/
  | vmv (u : UnitId) (f : S2V)
  /-- VBCAST (R143). -/
  | vbcast (u : UnitId) (f : S2V)
  /-- VMVX (R148). -/
  | vmvx (u : UnitId) (f : S2V)
  /-- VINS (R148). -/
  | vins (u : UnitId) (f : S2V)
  /-- VMPOP (R143). -/
  | vmpop (u : UnitId) (f : S2V)
  /-- VLD (R150). -/
  | vld (u : UnitId) (f : S4V)
  /-- VLDS (R150). -/
  | vlds (u : UnitId) (f : S4V)
  /-- VLDFF (R156). -/
  | vldff (u : UnitId) (f : S4V)
  /-- VGTH (R150). -/
  | vgth (u : UnitId) (f : S4V)
  /-- VGTHFF (R156). -/
  | vgthff (u : UnitId) (f : S4V)
  /-- VST (R151). -/
  | vst (u : UnitId) (f : S4V)
  /-- VSCT (R151). -/
  | vsct (u : UnitId) (f : S4V)
  /-- VMLD (R150). -/
  | vmld (u : UnitId) (f : S4V)
  /-- VMST (R150). -/
  | vmst (u : UnitId) (f : S4V)
  /-- TBROW (R157). -/
  | tbrow (u : UnitId) (f : S4U)
  /-- TBCOL (R157). -/
  | tbcol (u : UnitId) (f : S4U)
  /-- UPD_MOM (R249). -/
  | updMom (u : UnitId) (f : S4U)
  /-- UPD_WGT (R250). -/
  | updWgt (u : UnitId) (f : S4U)
  /-- UPD_ROW (R255). -/
  | updRow (u : UnitId) (f : S4U)
  /-- UPD_START (R252). -/
  | updStart (c : Fin 64)
  /-- SQ (R193). -/
  | sq (u : UnitId) (f : S4U)
  /-- TRANSFER_START (R207). -/
  | transferStart (c : Fin 64)
  /-- STREAMER_REQUEST (R205). -/
  | streamerRequest (c : Fin 64) (k : Nat) (ecc : Ecc)
  /-- TRANSFER_COMPLETE (R208). -/
  | transferComplete (c : Fin 64) (k : Nat)
  /-- CMOV (R377). -/
  | cmov (u : UnitId) (f : S2C)
  /-- CNULL (R377). -/
  | cnull (u : UnitId) (f : S2C)
  /-- CNARROW (R378). -/
  | cnarrow (u : UnitId) (f : S2C)
  /-- CPERM (R378). -/
  | cperm (u : UnitId) (f : S2C)
  /-- CGET (R377). -/
  | cget (u : UnitId) (f : S2C)
  /-- CLDS (R378). -/
  | clds (u : UnitId) (f : S2C)
  /-- CSTS (R378). -/
  | csts (u : UnitId) (f : S2C)
  /-- CCLRS (R378). -/
  | cclrs (u : UnitId) (f : S2C)
  /-- CMINT (R379). -/
  | cmint (u : UnitId) (f : S2C)
  /-- WESP (R379). -/
  | wesp (u : UnitId) (f : S2C)
  /-- CCALL (R380). -/
  | ccall (u : UnitId) (f : S2C)
  /-- LARM (R289). -/
  | larm (u : UnitId) (f : S4Q)
  /-- LWAITB (R284). -/
  | lwaitb (u : UnitId) (f : S4Q)
  /-- LWAITB_COMPLETE (R284). -/
  | lwaitbComplete (l : Fin 48)
  /-- BEPUT (R298). -/
  | beput (u : UnitId) (f : S4Q)
  /-- ICU_ARBITRATION (R390). -/
  | icuArbitration
  /-- INTERRUPT_ENTRY (R391). -/
  | interruptEntry (n : Fin 4)
  /-- EOI (R392). -/
  | eoi (a : Agent) (v : Reg32)
  /-- SWSET (R388). -/
  | swset (a : Agent) (v : Reg32)
  /-- GLITCH_FILTER_CHANGE (R395). -/
  | glitchFilterChange (p : FilterPin) (level : Bool)
  /-- JOB_START_BEAT (R14). -/
  | jobStartBeat
  /-- OUTCOME_BEAT (R217). -/
  | outcomeBeat
  /-- COMMIT_BEAT (R221). -/
  | commitBeat
  /-- CMTWAIT (R219). -/
  | cmtwait (u : UnitId) (f : S2I)
  /-- STEP_SCALARS_READY (R244). -/
  | stepScalarsReady
  /-- PREREPORT (R259). -/
  | prereport (a : Agent) (v : Reg32)
  /-- STOP (R231). -/
  | stop
  /-- STOP_RECEIVED (R231). -/
  | stopReceived (l : Fin 48)
  /-- JOB_IRQ_DEADLINE (R432). -/
  | jobIrqDeadline
  /-- BEAT_EVALUATION (R270). -/
  | beatEvaluation
  /-- SLOT0_HEADER_RECEIVED (R269). -/
  | slot0HeaderReceived (l : Fin 48) (h : Slot0Hdr)
  /-- HOLDOVER_START (R271). -/
  | holdoverStart
  /-- HOLDOVER_TIMEOUT (R271). -/
  | holdoverTimeout
  /-- REF_LOST (R265). -/
  | refLost
  /-- REF_RETURN (R265). -/
  | refReturn
  /-- BEAT_CHAIN_INPUT (R267). -/
  | beatChainInput (count : BitVec 48)
  /-- LANE_LOCK (R275). -/
  | laneLock (l : Fin 48)
  /-- TRAIN_FAIL (R275). -/
  | trainFail (l : Fin 48)
  /-- LANE_LOCK_LOSS (R275). -/
  | laneLockLoss (l : Fin 48)
  /-- ID_RECORD_RECEIVED (R277). -/
  | idRecordReceived (l : Fin 48) (r : IdRecord)
  /-- SLOT_START (R290). -/
  | slotStart (l : Fin 48)
  /-- SLOT_HEADER_RECEIVED (R291). -/
  | slotHeaderReceived (l : Fin 48) (h : SlotHdr)
  /-- SLOT_RECEIVE_COMPLETE (R291). -/
  | slotReceiveComplete (l : Fin 48) (payload : List Byte)
  /-- FLIT_ERROR (R293). -/
  | flitError (l : Fin 48) (touchesScheduled : Bool) (e : FlitErr)
  /-- BE_PACKET_FORWARD (R297). -/
  | bePacketForward (l : Fin 48) (vc : Bool)
  /-- BE_PACKET_DELIVERY (R298). -/
  | bePacketDelivery (l : Fin 48) (p : BePacket)
  /-- BE_ACKNOWLEDGEMENT (R298). -/
  | beAcknowledgement (a : BeAck)
  /-- BOW_SEAL (R309). -/
  | bowSeal
  /-- BOW_RECEIVE (R311). -/
  | bowReceive (l : Fin 48) (payload : List Byte)
  /-- BOW_SETTLE (R313). -/
  | bowSettle
  /-- REEL_RECEIVE (R321). -/
  | reelReceive (l : Fin 48) (payload : List Byte)
  /-- BRIDGE_WINDOW_OPEN (R324). -/
  | bridgeWindowOpen (n : Fin 8)
  /-- BRIDGE_DATA_FRAME (R324). -/
  | bridgeDataFrame (n : Fin 8) (fr : BridgeFrame)
  /-- BRIDGE_CREDIT_FRAME (R323). -/
  | bridgeCreditFrame (n : Fin 8) (fr : BridgeFrame)
  /-- BRIDGE_NAK_FRAME (R323). -/
  | bridgeNakFrame (n : Fin 8) (fr : BridgeFrame)
  /-- BRIDGE_FRAME_CRC_FAIL (R323). -/
  | bridgeFrameCrcFail (n : Fin 8)
  /-- BRIDGE_STOP_FRAME (R329). -/
  | bridgeStopFrame (n : Fin 8) (fr : BridgeFrame)
  /-- BRIDGE_STOP_ACK_FRAME (R329). -/
  | bridgeStopAckFrame (n : Fin 8) (fr : BridgeFrame)
  /-- BRIDGE_STOP_REPEAT (R329). -/
  | bridgeStopRepeat (n : Fin 8)
  /-- BRIDGE_WINDOW_END (R325). -/
  | bridgeWindowEnd (n : Fin 8)
  /-- BRIDGE_SCAN_DONE (R326). -/
  | bridgeScanDone (n : Fin 8)
  /-- BRIDGE_CONVERSION (R327). -/
  | bridgeConversion (n : Fin 8)
  /-- BRIDGE_RETURN_START (R328). -/
  | bridgeReturnStart (n : Fin 8)
  /-- BANK_ADMISSION (R174). -/
  | bankAdmission (b : BankId)
  /-- BANK_TURN (R172). -/
  | bankTurn (b : BankId) (ecc : Ecc)
  /-- SCRUB (R180). -/
  | scrub (addr : BitVec 44) (ecc : Ecc)
  /-- CXL_MEM_ACCESS (R339). -/
  | cxlMemAccess (p : Fin 4) (dpa : Nat) (op : MemOp)
  /-- CXL_LINK_RESET (R336). -/
  | cxlLinkReset (p : Fin 4)
  /-- REGISTER_WRITE (R344). -/
  | registerWrite (a : Agent) (off : BitVec 24) (v : Reg32)
  /-- COMMIT (R4). -/
  | commit (a : Agent) (page : BitVec 12) (v : Reg32)
  /-- CNT_LO_READ (R304). -/
  | cntLoRead (a : Agent)
  /-- DOORBELL (R351). -/
  | doorbell (p : Fin 4) (v : Reg32)
  /-- MBACK (R351). -/
  | mback (p : Fin 4) (v : Reg32)
  /-- MAILBOX_SLOT_WRITE (R351). -/
  | mailboxSlotWrite (p : Fin 4) (off : BitVec 19) (data : List Byte)
  /-- MAILBOX_NOP (R357). -/
  | mailboxNop (p : Fin 4)
  /-- STATUS (R357). -/
  | status (p : Fin 4)
  /-- ATTEST (R413). -/
  | attest (p : Fin 4)
  /-- ATTEST_DONE (R413). -/
  | attestDone (p : Fin 4)
  /-- JOB_LOAD (R358). -/
  | jobLoad (p : Fin 4)
  /-- FIGURE_FETCH_DONE (R358). -/
  | figureFetchDone (p : Fin 4)
  /-- JOB_START (R361). -/
  | jobStart (p : Fin 4)
  /-- JOB_ABORT (R362). -/
  | jobAbort (p : Fin 4)
  /-- RESET_PARTITION (R363). -/
  | resetPartition (p : Fin 4)
  /-- PARTITION_ASSIGN (R338). -/
  | partitionAssign (p : Fin 4)
  /-- SET_COORDINATE (R278). -/
  | setCoordinate (p : Fin 4)
  /-- LINK_ENABLE (R363). -/
  | linkEnable (p : Fin 4)
  /-- LINK_PERSONALITY (R363). -/
  | linkPersonality (p : Fin 4)
  /-- KEY_INSTALL (R415). -/
  | keyInstall (p : Fin 4)
  /-- KEY_INSTALL_DONE (R415). -/
  | keyInstallDone (p : Fin 4)
  /-- DEBUG_UNLOCK (R451). -/
  | debugUnlock (p : Fin 4)
  /-- FUSE_PROGRAM (R416). -/
  | fuseProgram (p : Fin 4)
  /-- FUSE_PROGRAM_DONE (R416). -/
  | fuseProgramDone (p : Fin 4) (readBackOk : Bool)
  /-- FREEZE (R442). -/
  | freeze (p : Fin 4)
  /-- THAW (R442). -/
  | thaw (p : Fin 4)
  /-- INPUT_RISE (R399). -/
  | inputRise
  /-- INPUT_RANGE (R399). -/
  | inputRange (mv : BitVec 16)
  /-- INPUT_LOSS (R399). -/
  | inputLoss (mv : BitVec 16)
  /-- RAIL_FAULT (R400). -/
  | railFault
  /-- PWR_OK (R400). -/
  | pwrOk (strap : BitVec 2)
  /-- DEVRST (R401). -/
  | devrst (a : Agent) (v : Reg32)
  /-- FUSE_LOAD (R402). -/
  | fuseLoad
  /-- PWR_SAMPLE (R411). -/
  | pwrSample (tj : BitVec 12) (iin : BitVec 16)
  /-- BOOT_GO (R405). -/
  | bootGo (a : Agent) (v : Reg32)
  /-- BUNDLE_VERIFY (R408). -/
  | bundleVerify
  /-- DRAM_TRAINING_DONE (R408). -/
  | dramTrainingDone (badStack : Option (Fin 16)) (badFmc : Option (Fin 16))
  /-- CLAIM (R430). -/
  | claim (a : Agent)
  /-- DONE (R430). -/
  | done (a : Agent) (v : Reg32)
  /-- XPTEST_WRITE (R426). -/
  | xptestWrite (a : Agent) (v : Reg32)
  /-- XPTEST_READ (R426). -/
  | xptestRead (a : Agent) (v : Reg32)
  /-- CALLER_WDOG (R434). -/
  | callerWdog (n : Fin 4)
  /-- WDKICK (R434). -/
  | wdkick (a : Agent) (n : Fin 4) (v : Reg32)
  /-- RECPOST (R439). -/
  | recpost (a : Agent) (c : Fin 64) (v : Reg32)
  /-- POST (R439). -/
  | post (a : Agent) (v : Reg32)
  /-- RECORD_ADMISSION (R438). -/
  | recordAdmission
  /-- SPILL (R441). -/
  | spill
  /-- RATE_LIMIT_REFILL (R440). -/
  | rateLimitRefill
  /-- RDDATA (R443). -/
  | rddata (a : Agent)
  /-- SPRDDATA (R443). -/
  | sprddata (a : Agent)
  /-- SNPDATA (R437). -/
  | snpdata (a : Agent)
  /-- PMDATA (R262). -/
  | pmdata (a : Agent)
  /-- SNAP_TRIG_FIRE (R437). -/
  | snapTrigFire (a : Agent) (page : BitVec 12) (v : Reg32)
  /-- SNAPSHOT (R437). -/
  | snapshot (page : BitVec 12)
  /-- DBG_NOP (R447). -/
  | dbgNop (p : DbgPort) (w : DbgWord)
  /-- HALT (R449). -/
  | halt (p : DbgPort) (w : DbgWord)
  /-- RESUME (R447). -/
  | resume (p : DbgPort) (w : DbgWord)
  /-- STEP (R449). -/
  | step (p : DbgPort) (w : DbgWord)
  /-- RDREG (R448). -/
  | rdreg (p : DbgPort) (w : DbgWord)
  /-- WRREG (R448). -/
  | wrreg (p : DbgPort) (w : DbgWord)
  /-- RDP (R447). -/
  | rdp (p : DbgPort) (w : DbgWord)
  /-- WRP (R447). -/
  | wrp (p : DbgPort) (w : DbgWord)
  /-- RDD (R447). -/
  | rdd (p : DbgPort) (w : DbgWord)
  /-- WRD (R447). -/
  | wrd (p : DbgPort) (w : DbgWord)
  /-- RDIO (R447). -/
  | rdio (p : DbgPort) (w : DbgWord)
  /-- WRIO (R447). -/
  | wrio (p : DbgPort) (w : DbgWord)
  /-- SETBP (R447). -/
  | setbp (p : DbgPort) (w : DbgWord)
  /-- SETWP (R447). -/
  | setwp (p : DbgPort) (w : DbgWord)
  /-- SYSHALT (R453). -/
  | syshalt (p : DbgPort) (w : DbgWord)
  /-- SYSRESUME (R454). -/
  | sysresume (p : DbgPort) (w : DbgWord)
  /-- RDSTATE (R450). -/
  | rdstate (p : DbgPort) (w : DbgWord)
  /-- HALT_RECEIVED (R453). -/
  | haltReceived (l : Fin 48) (h r : BitVec 48)
  /-- SYSHALT_BEAT (R454). -/
  | syshaltBeat
  /-- SYSRESUME_BEAT (R454). -/
  | sysresumeBeat
  /-- TAP_RESET (R445). -/
  | tapReset
  /-- EXTEST (R445). -/
  | extest (pins : BitVec 32)
  /-- IDCODE (R445). -/
  | idcode
  /-- SAMPLE_PRELOAD (R445). -/
  | samplePreload (pins : BitVec 32)
  /-- BYPASS (R445). -/
  | bypass (ir : BitVec 8)
  /-- SMBUS_BLOCK_WRITE (R463). -/
  | smbusBlockWrite (data : List Byte) (pec : Option Byte)
  /-- SMBUS_BLOCK_READ (R463). -/
  | smbusBlockRead
  /-- ALERT_RESPONSE (R463). -/
  | alertResponse
  /-- MCH_FRAME (R467). -/
  | mchFrame (data : List Byte)
  /-- STEP_START (R333). -/
  | stepStart
  /-- BAD_OPCODE (R356). -/
  | badOpcode (p : Fin 4)
  /-- UNDEFINED_INSTRUCTION (R46). -/
  | undefinedInstruction (u : UnitId) (w : BitVec 56)
  /-- VECTOR_DATA_ARRIVAL (R159). -/
  | vectorDataArrival (c : Fin 64) (ecc : Ecc)
  /-- PREFETCH_FILL (R188). -/
  | prefetchFill (c : Fin 64) (ecc : Ecc)
  /-- SEQ_WAITTOK_TIMEOUT (R285). -/
  | seqWaittokTimeout (l : Fin 48)
  /-- DEVICE_RESET_AFTER_STOP (R401). -/
  | deviceResetAfterStop
  /-- RECEIVE_SLOT_PASSES (R291). -/
  | receiveSlotPasses (l : Fin 48)
  /-- CXL_LINK_UP (R336). -/
  | cxlLinkUp (p : Fin 4)
  deriving DecidableEq, Repr

end Sys2Proof
end

