-- ==== Sys2Proof/Decode.lean ====
section
/-! DEFINITION. The decoder that the host asks for, and the instruction words (R44-R48). No row of the opcode table gives
its command bits, so no word of the host's spells a command; an instruction arrives as a command with the fields of its word,
and `decodeWord` says which command a word of program memory is. -/
namespace Sys2Proof

/-- The command that a word spells by the table's bits: none, since no row of the table gives bits. -/
def decodeTableWord (_nbits _w : Nat) : Option Instr := none

/-! ### The forms (R45) -/

/-- Bits lo + n - 1 to lo of an instruction word. -/
abbrev piece (w : BitVec 56) (lo n : Nat) : BitVec n := w.extractLsb' lo n

/-- The word of an instruction whose syllables, from the lowest address, are these (R44). -/
def wordOf (s0 s1 s2 s3 : BitVec 14) : BitVec 56 := s3 ++ s2 ++ s1 ++ s0

def formS1 (w : BitVec 56) : S1 := { arg7 := piece w 0 7 }
def formS2R (w : BitVec 56) : S2R :=
  { rs2 := piece w 23 5, rs1 := piece w 18 5, fn := piece w 14 4, rd := piece w 1 5, w := w.getLsbD 0 }
def formS2I (w : BitVec 56) : S2I :=
  { imm := piece w 23 5 ++ piece w 14 4 ++ piece w 0 1, rs1 := piece w 18 5, rd := piece w 1 5 }
def formS2B (w : BitVec 56) : S2B :=
  { off := piece w 23 5 ++ piece w 14 4 ++ piece w 0 3, rs1 := piece w 18 5, cond := piece w 3 3 }
def formS2J (w : BitVec 56) : S2J := { off := piece w 14 14 ++ piece w 0 6 }
def formS2L (w : BitVec 56) : S2L := { len := piece w 14 14, rs := piece w 1 5, rsv := piece w 0 1 }
def formS2T (w : BitVec 56) : S2T :=
  { tok := piece w 22 6, n := piece w 18 4, rsvA := piece w 14 4, rs := piece w 1 5, rsvB := piece w 0 1 }
def formS2S (w : BitVec 56) : S2S := { sr := piece w 22 6, rsvA := piece w 14 8, r := piece w 1 5, rsvB := piece w 0 1 }
def formS4I (w : BitVec 56) : S4I :=
  { rd := piece w 51 5, rs1 := piece w 46 5, imm := piece w 14 32, sub := piece w 0 4 }
def formS4B (w : BitVec 56) : S4B :=
  { rs1 := piece w 51 5, rs2 := piece w 46 5, cond := piece w 43 3, off := piece w 25 18, rsvA := piece w 14 11
    rsvB := piece w 0 4 }
def formS4P (w : BitVec 56) : S4P :=
  { r := piece w 51 5, rs1 := piece w 46 5, cap := piece w 42 4, off := piece w 25 17, rsvA := piece w 14 11
    rsvB := piece w 0 4 }
def formS4U (w : BitVec 56) : S4U :=
  { rowsM1 := piece w 49 7, rbM1 := piece w 45 4, wte := w.getLsbD 44, wtok := piece w 38 6, opnd := piece w 14 24
    sub := piece w 0 4 }
/-- Form S2-C (R377). -/
def formS2C (w : BitVec 56) : S2C :=
  { rs := piece w 23 5, ca := piece w 19 4, cb := piece w 15 4, rsvA := piece w 14 1, fn := piece w 2 4, rsvB := piece w 0 2 }
/-- Form S2-V (R142). -/
def formS2V (w : BitVec 56) : S2V :=
  { vs2 := piece w 23 5, vs1 := piece w 18 5, fn := piece w 14 4, vd := piece w 1 5, msk := w.getLsbD 0 }
/-- Form S4-V (R150). -/
def formS4V (w : BitVec 56) : S4V :=
  { vr := piece w 51 5, rs1 := piece w 46 5, msk := w.getLsbD 45, wte := w.getLsbD 44, wtok := piece w 38 6
    rs2 := piece w 33 5, iw := w.getLsbD 32, rsv := piece w 14 18, sub := piece w 0 4 }
/-- The form of the sequencer instructions (R284). -/
def formS4Q (w : BitVec 56) : S4Q := { rs1 := piece w 51 5, rsv := piece w 14 37, sub := piece w 0 4 }

/-! ### The opcodes (R47, R48) -/

/-- One syllable, by OP5 (R47). -/
def decodeS1 (u : UnitId) (w : BitVec 56) : Option Instr :=
  let f := formS1 w
  match (piece w 7 5).toNat with
  | 0 => some (.nop u f)
  | 1 => some (.waittok u f)
  | 2 => some (.sigtok u f)
  | 3 => some (.fence u f)
  | 4 => some (.lfence u f)
  | 5 => some (.ret u f)
  | 6 => some (.eret u f)
  | 7 => some (.cinv u f)
  | _ => none

/-- The capability instructions, by OP6 and FN4 (R377); a reserved FN4 goes to an instruction that raises ILLEGAL on it. -/
def decodeCap (u : UnitId) (op : Nat) (f : S2C) : Option Instr :=
  match op, f.fn.toNat with
  | 0x28, 1 => some (.cnull u f)
  | 0x28, _ => some (.cmov u f)
  | 0x29, _ => some (.cnarrow u f)
  | 0x2A, _ => some (.cperm u f)
  | 0x2B, _ => some (.cget u f)
  | 0x2C, 1 => some (.csts u f)
  | 0x2C, 2 => some (.cclrs u f)
  | 0x2C, _ => some (.clds u f)
  | 0x2D, 1 => some (.wesp u f)
  | 0x2D, _ => some (.cmint u f)
  | 0x2E, _ => some (.ccall u f)
  | _, _ => none

/-- The vector register forms, by OP6 and FN4 (R143). -/
def decodeVec (u : UnitId) (op : Nat) (w : BitVec 56) : Option Instr :=
  let f := formS2V w
  match op, f.fn.toNat with
  | 0x30, _ => some (.vsetl u (formS2I w))
  | 0x31, _ => some (.vectorInteger u f)
  | 0x32, _ => some (.vectorFloat u f)
  | 0x33, _ => some (.vectorFma u f)
  | 0x34, _ => some (.vectorFunction u f)
  | 0x35, _ => some (.vectorCompare u f)
  | 0x36, _ => some (.vectorMaskOp u f)
  | 0x37, _ => some (.vectorReduction u f)
  | 0x38, _ => some (.vcvt u f)
  | 0x39, 1 => some (.vbcast u f)
  | 0x39, 2 => some (.vmvx u f)
  | 0x39, 3 => some (.vins u f)
  | 0x39, 4 => some (.vmpop u f)
  | 0x39, _ => some (.vmv u f)
  | _, _ => none

/-- Two syllables, by OP6 (R47, R48). -/
def decodeS2 (u : UnitId) (w : BitVec 56) : Option Instr :=
  let i := formS2I w
  match (piece w 6 6).toNat with
  | 0x00 => some (.alu u (formS2R w))
  | 0x01 => some (.addi u i)
  | 0x02 => some (.andi u i)
  | 0x03 => some (.ori u i)
  | 0x04 => some (.xori u i)
  | 0x05 => some (.shli u i)
  | 0x06 => some (.shri u i)
  | 0x07 => some (.srai u i)
  | 0x10 => some (.ld u .b i)
  | 0x11 => some (.ld u .h i)
  | 0x12 => some (.ld u .w i)
  | 0x13 => some (.ld u .d i)
  | 0x14 => some (.ldu u .b i)
  | 0x15 => some (.ldu u .h i)
  | 0x16 => some (.ldu u .w i)
  | 0x18 => some (.st u .b i)
  | 0x19 => some (.st u .h i)
  | 0x1A => some (.st u .w i)
  | 0x1B => some (.st u .d i)
  | 0x1C => some (.inp u i)
  | 0x1D => some (.outp u i)
  | 0x20 => some (.br u (formS2B w))
  | 0x21 => some (.j u (formS2J w))
  | 0x22 => some (.call u (formS2J w))
  | 0x23 => some (.loop u (formS2L w))
  | 0x24 => some (.waittokN u (formS2T w))
  | 0x25 => some (.sigtokR u (formS2T w))
  | 0x26 => some (.mfsr u (formS2S w))
  | 0x27 => some (.mtsr u (formS2S w))
  | op => if op < 0x30 then decodeCap u op (formS2C w) else decodeVec u op w

/-- Four syllables, by OP8 (R47, R48, R82, R118, R150, R193, R245, R284). -/
def decodeS4 (u : UnitId) (w : BitVec 56) : Option Instr :=
  let f := formS4U w
  let v := formS4V w
  match (piece w 4 8).toNat with
  | 0x00 => some (.li u (formS4I w))
  | 0x02 => some (.brLong u (formS4B w))
  | 0x03 => some (.pld u (formS4P w))
  | 0x04 => some (.pst u (formS4P w))
  | 0x40 => some (.vld u v)
  | 0x41 => some (.vlds u v)
  | 0x42 => some (.vldff u v)
  | 0x43 => some (.vgth u v)
  | 0x44 => some (.vgthff u v)
  | 0x45 => some (.vst u v)
  | 0x46 => some (.vsct u v)
  | 0x47 => some (.vmld u v)
  | 0x48 => some (.vmst u v)
  | 0x50 => some (.tbrow u f)
  | 0x51 => some (.tbcol u f)
  | 0x80 => some (.tld u f)
  | 0x81 => some (.tst u f)
  | 0x82 => some (.tzero u f)
  | 0x83 => some (.trel u f)
  | 0x84 => some (.tsave u f)
  | 0x85 => some (.trestore u f)
  | 0xA0 => some (.mseat u f)
  | 0xA1 => some (.mma u f)
  | 0xA2 => some (.mmaf u f)
  | 0xA3 => some (.mzero u f)
  | 0xA4 => some (.manchor u f)
  | 0xA5 => some (.mdrain u f)
  | 0xA6 => some (.mwait u f)
  | 0xC0 => some (.updMom u f)
  | 0xC1 => some (.updWgt u f)
  | 0xC2 => some (.updRow u f)
  | 0xC8 => some (.sq u f)
  | 0xD0 => some (.larm u (formS4Q w))
  | 0xD1 => some (.lwaitb u (formS4Q w))
  | 0xD2 => some (.beput u (formS4Q w))
  | _ => none

/-- The command that an instruction word is on unit `u` (R44-R48): none for an opcode that no table assigns, which is
UNDEFINED_INSTRUCTION. An IN whose address is that of UPD.CMTWAIT is the command CMTWAIT (R219). -/
def decodeWord (u : UnitId) (w : BitVec 56) : Option Instr :=
  match (piece w 12 2).toNat with
  | 0 => decodeS1 u w
  | 1 => decodeS2 u w
  | 2 => decodeS4 u w
  | _ => none

end Sys2Proof
end

