-- ==== Sys2Proof/Config.lean ====
section
/-! DEFINITION. What the spec leaves to the implementation: constants without a body, so that no proof can use a value
of them (log entries 3, 8 and 14). -/
namespace Sys2Proof.Config

/-- A value the spec calls undefined or unspecified: one fresh value per counter (log entry 3). -/
opaque freeValue : Nat → BitVec 64

/-- The boot nonce drawn at the n-th device reset (R348, R401; log entry 3). -/
opaque nonce : Nat → BitVec 64

/-- SLH-DSA-SHAKE-256s signature verification of FIPS 205: key, context, message, signature (R406, R414, R416). -/
opaque slhVerify256s : List Byte → List Byte → List Byte → List Byte → Bool

/-- SLH-DSA-SHAKE-192f signing of FIPS 205: the 72 secret and public seed bytes, context, message (R412, R413). -/
opaque slhSign192f : List Byte → List Byte → List Byte → List Byte

/-- The 48-byte public key of slh_keygen_internal for SLH-DSA-SHAKE-192f (R412). -/
opaque slhPublic192f : List Byte → List Byte

/-- ML-KEM.KeyGen_internal of FIPS 203 for ML-KEM-1024: the encapsulation key of seeds d and z (R412). -/
opaque mlkemPublic : List Byte → List Byte → List Byte

/-- ML-KEM.Decaps of FIPS 203 for ML-KEM-1024: seeds d and z, ciphertext (R415). -/
opaque mlkemDecaps : List Byte → List Byte → List Byte → List Byte

/-- The digest of the boot ROM at stepping B0, which the spec does not state (R404, R407). -/
opaque romDigest : List Byte

end Sys2Proof.Config
end

