-- ==== Sys2Proof/Machine/Regs.lean ====
section
/-! DEFINITION. The register pages of the I/O space (R342, R346) and the field map of every register: offset in its
page, count and stride of repeated registers, and the fields with their class (R3) and reset value. The tables follow
the field maps of the rules named in the rows' comments. -/
namespace Sys2Proof.Machine

/-- The block types of the page table (R342). -/
inductive PageKind where
  | dev | hp | boot | sec | fuse | pwr | beat | icu | err | recd | dbg | core | caller | clus | link | fmc | cxl | red
  | upd | strm
  deriving DecidableEq, Repr

/-- Field classes (R3). -/
inductive FClass where
  | h | l | s | ro | wo
  deriving DecidableEq, Repr

/-- A field: bits hi:lo, class and reset value. -/
structure Fld where
  hi : Nat
  lo : Nat
  cls : FClass
  reset : Nat
  deriving DecidableEq, Repr

/-- A register, or `count` registers `stride` bytes apart. -/
structure RegRow where
  off : Nat
  count : Nat
  stride : Nat
  flds : List Fld
  deriving DecidableEq, Repr

/-- The block of an I/O page and its instance (R342); none for a page that no row lists. -/
def pageKind (k : Nat) : Option (PageKind × Nat) :=
  if k = 0 then some (.dev, 0)
  else if 1 ≤ k ∧ k ≤ 4 then some (.hp, k - 1)
  else if k = 0x8 then some (.boot, 0)
  else if k = 0x9 then some (.sec, 0)
  else if k = 0xA then some (.fuse, 0)
  else if k = 0xB then some (.pwr, 0)
  else if k = 0xC then some (.beat, 0)
  else if k = 0xD then some (.icu, 0)
  else if k = 0xE then some (.err, 0)
  else if k = 0xF then some (.recd, 0)
  else if k = 0x10 then some (.dbg, 0)
  else if 0x20 ≤ k ∧ k ≤ 0x5F then some (.core, k - 0x20)
  else if 0x60 ≤ k ∧ k ≤ 0x63 then some (.caller, k - 0x60)
  else if 0x70 ≤ k ∧ k ≤ 0x7F then some (.clus, k - 0x70)
  else if 0x80 ≤ k ∧ k ≤ 0xAF then some (.link, k - 0x80)
  else if 0xB0 ≤ k ∧ k ≤ 0xBF then some (.fmc, k - 0xB0)
  else if k = 0xC0 then some (.cxl, 0)
  else if k = 0xC8 then some (.red, 0)
  else if k = 0xD0 then some (.upd, 0)
  else if 0x100 ≤ k ∧ k ≤ 0x13F then some (.strm, k - 0x100)
  else none

/-- The TYPE code of a block (R342). -/
def PageKind.code : PageKind → Nat
  | .dev => 0x1
  | .hp => 0x2
  | .boot => 0x3
  | .sec => 0x4
  | .fuse => 0x5
  | .pwr => 0x6
  | .beat => 0x7
  | .icu => 0x8
  | .err => 0x9
  | .recd => 0xa
  | .dbg => 0xb
  | .core => 0x10
  | .caller => 0x11
  | .clus => 0x12
  | .link => 0x13
  | .fmc => 0x14
  | .cxl => 0x15
  | .red => 0x16
  | .upd => 0x17
  | .strm => 0x18

/-- The common page header (R346, R436). -/
def headerRegs : List RegRow :=
  [⟨0x0, 1, 0, [⟨31, 24, .ro, 0x0⟩, ⟨15, 0, .ro, 0x0⟩]⟩, -- PAGE_ID R346: TYPE, INSTANCE
   ⟨0x4, 1, 0, [⟨15, 8, .ro, 0x1⟩, ⟨7, 0, .ro, 0x0⟩]⟩, -- PAGE_REV R346: MAJOR, MINOR
   ⟨0xc, 1, 0, [⟨31, 31, .ro, 0x0⟩, ⟨30, 30, .ro, 0x0⟩, ⟨29, 29, .ro, 0x0⟩, ⟨28, 0, .ro, 0x0⟩]⟩, -- STATUS R346: RUN, SHADOW_PEND, ERR, BLOCK
   ⟨0x10, 1, 0, [⟨0, 0, .wo, 0x0⟩]⟩, -- COMMIT R346: GO
   ⟨0x14, 1, 0, [⟨31, 31, .s, 0x0⟩, ⟨30, 30, .s, 0x0⟩, ⟨29, 29, .s, 0x0⟩, ⟨28, 28, .s, 0x0⟩, ⟨15, 0, .ro, 0x0⟩]⟩, -- ERR_STAT R436: F, J, D, C, LAST
   ⟨0x18, 1, 0, [⟨2, 1, .h, 0x0⟩, ⟨0, 0, .h, 0x0⟩]⟩, -- ERR_SEV_MAP R436: CTO, DTO
   ⟨0x1c, 1, 0, [⟨1, 1, .l, 0x0⟩, ⟨0, 0, .l, 0x0⟩]⟩, -- EVT_MASK R436: MD, MC
   ⟨0x20, 8, 4, [⟨31, 31, .l, 0x0⟩, ⟨11, 2, .l, 0x0⟩]⟩, -- SNAP_SEL R436: EN, WOFF
   ⟨0x40, 1, 0, [⟨7, 7, .wo, 0x0⟩, ⟨6, 6, .l, 0x0⟩, ⟨5, 5, .l, 0x0⟩, ⟨4, 4, .l, 0x0⟩, ⟨3, 3, .l, 0x0⟩, ⟨2, 2, .l, 0x0⟩, ⟨1, 1, .l, 0x0⟩]⟩, -- SNAP_TRIG R436: FIRE, ONSTOP, ONJEND, ONF, ONJ, OND, ONC
   ⟨0x44, 1, 0, [⟨0, 0, .l, 0x0⟩]⟩] -- LOCK R346: WL

/-- Registers of a DEV page. -/
def devRegs : List RegRow :=
  [⟨0x100, 1, 0, [⟨31, 0, .ro, 0x10001⟩]⟩, -- PARTNO R348: CODE
   ⟨0x104, 1, 0, [⟨7, 0, .ro, 0xb0⟩]⟩, -- STEP R348: STEPPING
   ⟨0x108, 1, 0, [⟨2, 0, .ro, 0x1⟩]⟩, -- STATE R348: STATE
   ⟨0x10c, 1, 0, [⟨2, 2, .ro, 0x0⟩, ⟨1, 0, .ro, 0x0⟩]⟩, -- BIF R348: BAD, BIF
   ⟨0x110, 1, 0, [⟨31, 0, .ro, 0x0⟩]⟩, -- UID_LO R348: UID
   ⟨0x114, 1, 0, [⟨31, 0, .ro, 0x0⟩]⟩, -- UID_HI R348: UID
   ⟨0x118, 1, 0, [⟨31, 0, .ro, 0x0⟩]⟩, -- NONCE_LO R348: NONCE
   ⟨0x11c, 1, 0, [⟨31, 0, .ro, 0x0⟩]⟩, -- NONCE_HI R348: NONCE
   ⟨0x120, 1, 0, [⟨31, 31, .ro, 0x0⟩, ⟨30, 30, .ro, 0x0⟩, ⟨29, 29, .ro, 0x0⟩, ⟨1, 0, .ro, 0x0⟩]⟩, -- FIG R348: LOADED, LOADING, JOB, OWNER
   ⟨0x124, 1, 0, [⟨31, 0, .ro, 0x0⟩]⟩, -- FIGFP_LO R348: FP
   ⟨0x128, 1, 0, [⟨31, 0, .ro, 0x0⟩]⟩] -- FIGFP_HI R348: FP

/-- Registers of a HP page. -/
def hpRegs : List RegRow :=
  [⟨0x100, 1, 0, [⟨4, 4, .ro, 0x0⟩, ⟨3, 3, .ro, 0x0⟩, ⟨2, 2, .ro, 0x0⟩, ⟨1, 1, .ro, 0x0⟩, ⟨0, 0, .ro, 0x0⟩]⟩, -- RIGHTS R349: PRESENT, EVT, MEM, JOB, DEV
   ⟨0x104, 1, 0, [⟨31, 12, .h, 0x0⟩]⟩, -- PTT_LO R349: ADDR
   ⟨0x108, 1, 0, [⟨11, 0, .h, 0x0⟩]⟩, -- PTT_HI R349: ADDR
   ⟨0x10c, 1, 0, [⟨10, 0, .h, 0x0⟩]⟩, -- HWSIZE R349: GIB
   ⟨0x110, 1, 0, [⟨31, 0, .ro, 0x0⟩]⟩, -- CTR_LO R349: CTR
   ⟨0x114, 1, 0, [⟨31, 0, .ro, 0x0⟩]⟩, -- CTR_HI R349: CTR
   ⟨0x118, 1, 0, [⟨31, 0, .ro, 0x0⟩]⟩, -- JHEAD R349: JSEQ
   ⟨0x11c, 1, 0, [⟨0, 0, .ro, 0x0⟩]⟩, -- KEYSTAT R349: KEY
   ⟨0x120, 1, 0, [⟨4, 4, .s, 0x0⟩, ⟨3, 3, .s, 0x0⟩, ⟨2, 2, .s, 0x0⟩, ⟨1, 1, .s, 0x0⟩, ⟨0, 0, .s, 0x0⟩]⟩, -- IRQ R349: ICU, REC, ERR, JOB, MB
   ⟨0x124, 1, 0, [⟨4, 0, .l, 0x0⟩]⟩, -- IRQEN R349: EN
   ⟨0x130, 4, 8, [⟨13, 0, .ro, 0x0⟩]⟩, -- HDMBASE R349: BASE
   ⟨0x134, 4, 8, [⟨13, 0, .ro, 0x0⟩]⟩] -- HDMSIZE R349: SIZE

/-- Registers of a BOOT page. -/
def bootRegs : List RegRow :=
  [⟨0x100, 1, 0, [⟨31, 28, .ro, 0x0⟩, ⟨27, 24, .ro, 0x0⟩, ⟨23, 16, .ro, 0x0⟩]⟩, -- STAT R418: PHASE, ERR, UNIT
   ⟨0x104, 1, 0, [⟨31, 0, .wo, 0x0⟩]⟩] -- GO R418: LEN

/-- Registers of a SEC page. -/
def secRegs : List RegRow :=
  [⟨0x100, 1, 0, [⟨31, 31, .ro, 0x0⟩, ⟨7, 0, .ro, 0x0⟩]⟩, -- STAT R418: IDREADY, M7CNT
   ⟨0x200, 128, 4, [⟨31, 0, .ro, 0x0⟩]⟩, -- M R418: WORD
   ⟨0x400, 8, 4, [⟨31, 0, .ro, 0x0⟩]⟩, -- VHASH R418: WORD
   ⟨0x420, 8, 4, [⟨31, 0, .ro, 0x0⟩]⟩, -- OHASH R418: WORD
   ⟨0x440, 12, 4, [⟨31, 0, .ro, 0x0⟩]⟩] -- IDPK R418: WORD

/-- Registers of a FUSE page. -/
def fuseRegs : List RegRow :=
  [⟨0x100, 1, 0, [⟨31, 31, .ro, 0x0⟩, ⟨30, 30, .ro, 0x0⟩, ⟨29, 26, .ro, 0x0⟩, ⟨25, 22, .ro, 0x0⟩, ⟨21, 19, .ro, 0x7⟩, ⟨6, 0, .ro, 0x0⟩]⟩, -- STAT R418: LOADED, BAD, OWNERV, REVOKE, ACTIVE, SVN
   ⟨0x104, 1, 0, [⟨31, 0, .ro, 0x0⟩]⟩, -- OPTIONS R418: BITS
   ⟨0x108, 1, 0, [⟨15, 0, .ro, 0x0⟩]⟩] -- REPAIRCNT R418: COUNT

/-- Registers of a PWR page. -/
def pwrRegs : List RegRow :=
  [⟨0x100, 1, 0, [⟨31, 31, .ro, 0x1⟩, ⟨30, 30, .ro, 0x0⟩]⟩, -- STAT R411: PWR_OK, TWARN
   ⟨0x104, 1, 0, [⟨15, 0, .ro, 0x0⟩]⟩, -- VIN R411: MV
   ⟨0x108, 1, 0, [⟨15, 0, .ro, 0x0⟩]⟩, -- IIN R411: MA
   ⟨0x10c, 1, 0, [⟨11, 0, .ro, 0x0⟩]⟩, -- TJ R411: Q
   ⟨0x110, 1, 0, [⟨31, 24, .h, 0x69⟩, ⟨23, 16, .h, 0x5f⟩, ⟨15, 8, .h, 0x54⟩]⟩, -- LIMITS R411: TTRIP, TWARN, ILIM
   ⟨0x114, 1, 0, [⟨31, 31, .s, 0x0⟩, ⟨30, 30, .s, 0x0⟩, ⟨29, 29, .s, 0x0⟩]⟩, -- TRIP R411: TJ, OC, VIN
   ⟨0x118, 1, 0, [⟨31, 0, .wo, 0x0⟩]⟩] -- DEVRST R411: KEY

/-- Registers of a BEAT page. -/
def beatRegs : List RegRow :=
  [⟨0x100, 1, 0, [⟨31, 16, .h, 0x0⟩, ⟨1, 1, .h, 0x0⟩, ⟨0, 0, .h, 0x0⟩]⟩, -- CFG R304: SYSID, SRC, ROLE
   ⟨0x104, 1, 0, [⟨19, 13, .ro, 0x0⟩, ⟨12, 6, .ro, 0x0⟩, ⟨5, 0, .ro, 0x0⟩]⟩, -- COORD R304: X, Y, Z
   ⟨0x108, 1, 0, [⟨19, 13, .ro, 0x0⟩, ⟨12, 6, .ro, 0x0⟩, ⟨5, 0, .ro, 0x0⟩]⟩, -- TSIZE R304: SX_M1, SY_M1, SZ_M1
   ⟨0x10c, 1, 0, [⟨31, 31, .ro, 0x0⟩, ⟨30, 30, .s, 0x0⟩, ⟨29, 29, .ro, 0x0⟩, ⟨28, 28, .ro, 0x0⟩, ⟨13, 6, .ro, 0xff⟩, ⟨5, 0, .ro, 0x3f⟩]⟩, -- BSTAT R304: LOCK, REF_LOST, HOLDOVER, CHAIN, HOPS, PARENT
   ⟨0x110, 1, 0, [⟨31, 0, .ro, 0x0⟩]⟩, -- OFFSET R304: THETA
   ⟨0x114, 1, 0, [⟨31, 0, .ro, 0x0⟩]⟩, -- CNT_LO R304: COUNT
   ⟨0x118, 1, 0, [⟨15, 0, .ro, 0x0⟩]⟩, -- CNT_HI R304: COUNT
   ⟨0x11c, 1, 0, [⟨31, 0, .ro, 0x0⟩]⟩] -- UNLOCKS R304: COUNT

/-- Registers of a ICU page. -/
def icuRegs : List RegRow :=
  [⟨0x8, 1, 0, [⟨0, 0, .l, 0x1⟩]⟩, -- CTRL R395: GDIS
   ⟨0x100, 8, 4, [⟨31, 0, .ro, 0x0⟩]⟩, -- PEND R395: PEND
   ⟨0x120, 4, 4, [⟨20, 16, .ro, 0x0⟩, ⟨15, 8, .ro, 0x0⟩, ⟨3, 0, .ro, 0x0⟩]⟩, -- ISSTAT R395: DEPTH, TOP, RPRIO
   ⟨0x130, 1, 0, [⟨7, 0, .wo, 0x0⟩]⟩, -- EOI R395: SOURCE
   ⟨0x140, 4, 4, [⟨3, 0, .l, 0x0⟩]⟩, -- TPR R395: TPR
   ⟨0x150, 1, 0, [⟨23, 16, .l, 0xa⟩, ⟨15, 8, .l, 0xa⟩, ⟨7, 0, .l, 0xa⟩]⟩, -- GFILT R395: N_ALERT, N_THERM, N_PERST
   ⟨0x154, 1, 0, [⟨7, 0, .wo, 0x0⟩]⟩, -- SWSET R395: SOURCE
   ⟨0x158, 1, 0, [⟨31, 16, .ro, 0x0⟩, ⟨9, 8, .ro, 0x0⟩, ⟨7, 0, .ro, 0x0⟩]⟩, -- ORDER R395: COUNT, CORE, SOURCE
   ⟨0x400, 256, 4, [⟨31, 31, .ro, 0x0⟩, ⟨30, 30, .ro, 0x0⟩, ⟨17, 14, .l, 0x0⟩, ⟨13, 10, .l, 0xf⟩, ⟨9, 9, .l, 0x0⟩, ⟨8, 8, .l, 0x0⟩, ⟨3, 0, .l, 0x0⟩]⟩] -- SRC R395: PEND, INSVC, HOSTP, TARGET, TRIG, EN, PRIO

/-- Registers of a ERR page. -/
def errRegs : List RegRow :=
  [⟨0x100, 1, 0, [⟨1, 0, .l, 0x2⟩]⟩, -- CTRL R435: HOSTMIN
   ⟨0x104, 1, 0, [⟨31, 31, .s, 0x0⟩, ⟨30, 30, .s, 0x0⟩, ⟨9, 8, .ro, 0x0⟩, ⟨7, 0, .ro, 0x0⟩]⟩, -- HSTAT R435: PREEMPT, FORCE, HSEV, SLOTS
   ⟨0x108, 1, 0, [⟨31, 31, .ro, 0x0⟩, ⟨1, 0, .ro, 0x0⟩]⟩, -- CLAIM R435: VALID, SEV
   ⟨0x10c, 1, 0, [⟨1, 0, .wo, 0x0⟩]⟩, -- DONE R435: SEV
   ⟨0x110, 4, 32, [⟨24, 16, .ro, 0x0⟩, ⟨15, 0, .ro, 0x0⟩]⟩, -- REC_ID R435: PAGE, CODE
   ⟨0x114, 4, 32, [⟨31, 0, .ro, 0x0⟩]⟩, -- REC_BEAT_LO R435: BEAT
   ⟨0x118, 4, 32, [⟨31, 16, .ro, 0x0⟩, ⟨15, 0, .ro, 0x0⟩]⟩, -- REC_BEAT_HI R435: OVF, BEAT
   ⟨0x11c, 4, 32, [⟨31, 0, .ro, 0x0⟩]⟩, -- REC_INFO R435: INFO
   ⟨0x120, 4, 32, [⟨31, 0, .ro, 0x0⟩]⟩, -- REC_ADDR_LO R435: ADDR
   ⟨0x124, 4, 32, [⟨31, 0, .ro, 0x0⟩]⟩, -- REC_ADDR_HI R435: ADDR
   ⟨0x190, 4, 4, [⟨31, 0, .ro, 0x0⟩]⟩, -- CNT R435: COUNT
   ⟨0x1a0, 1, 0, [⟨31, 31, .s, 0x0⟩, ⟨30, 30, .ro, 0x0⟩, ⟨29, 29, .s, 0x0⟩, ⟨28, 23, .ro, 0x0⟩, ⟨22, 17, .ro, 0x0⟩, ⟨16, 14, .ro, 0x0⟩]⟩, -- XPLOG R435: VALID, UE, OVF, MEM, UNIT, CLASS
   ⟨0x1a4, 1, 0, [⟨17, 0, .ro, 0x0⟩]⟩, -- XPBLK R435: BLOCK
   ⟨0x1a8, 1, 0, [⟨15, 8, .ro, 0x0⟩, ⟨7, 0, .ro, 0x0⟩]⟩, -- XPSYN R435: CS, RS
   ⟨0x1ac, 1, 0, [⟨31, 0, .ro, 0x0⟩]⟩, -- XPCE R435: COUNT
   ⟨0x1b0, 1, 0, [⟨31, 0, .ro, 0x0⟩]⟩, -- XPUE R435: COUNT
   ⟨0x1c0, 1, 0, [⟨31, 30, .wo, 0x0⟩, ⟨29, 24, .wo, 0x0⟩, ⟨23, 18, .wo, 0x0⟩, ⟨17, 0, .wo, 0x0⟩]⟩, -- XPTEST R435: OP, MEM, UNIT, BLOCK
   ⟨0x1c4, 1, 0, [⟨31, 0, .l, 0x0⟩]⟩, -- XPDATA_LO R435: DATA
   ⟨0x1c8, 1, 0, [⟨31, 0, .l, 0x0⟩]⟩, -- XPDATA_HI R435: DATA
   ⟨0x1cc, 1, 0, [⟨26, 24, .ro, 0x0⟩, ⟨17, 16, .l, 0x0⟩, ⟨15, 8, .l, 0x0⟩, ⟨7, 0, .l, 0x0⟩]⟩] -- XPCHK R435: TCLASS, VS, COL, ROW

/-- Registers of a REC page. -/
def recdRegs : List RegRow :=
  [⟨0x100, 1, 0, [⟨0, 0, .l, 0x1⟩]⟩, -- CTRL R443: SPEN
   ⟨0x104, 1, 0, [⟨31, 31, .ro, 0x0⟩, ⟨30, 30, .s, 0x0⟩, ⟨29, 29, .s, 0x0⟩]⟩, -- STAT R443: FROZEN, HOLDOVF, SPLAG
   ⟨0x108, 1, 0, [⟨31, 0, .ro, 0x0⟩]⟩, -- SEQ R443: COUNT
   ⟨0x10c, 1, 0, [⟨19, 0, .ro, 0x0⟩]⟩, -- WRPTR R443: OFF
   ⟨0x110, 1, 0, [⟨23, 0, .ro, 0x0⟩]⟩, -- SPWR R443: OFF
   ⟨0x114, 1, 0, [⟨19, 2, .l, 0x0⟩]⟩, -- RDADDR R443: OFF
   ⟨0x118, 1, 0, [⟨31, 0, .ro, 0x0⟩]⟩, -- RDDATA R443: DATA
   ⟨0x11c, 1, 0, [⟨23, 2, .l, 0x0⟩]⟩, -- SPRDADDR R443: OFF
   ⟨0x120, 1, 0, [⟨31, 0, .ro, 0x0⟩]⟩, -- SPRDDATA R443: DATA
   ⟨0x124, 1, 0, [⟨31, 16, .ro, 0x0⟩, ⟨14, 0, .ro, 0x0⟩]⟩, -- HOLDCNT R443: LOST, BYTES
   ⟨0x128, 1, 0, [⟨13, 5, .l, 0x0⟩, ⟨4, 0, .l, 0x0⟩]⟩, -- SNPSEL R443: PAGE, ENTRY
   ⟨0x12c, 1, 0, [⟨31, 0, .ro, 0x0⟩]⟩, -- SNPDATA R443: DATA
   ⟨0x130, 1, 0, [⟨20, 3, .l, 0x0⟩]⟩, -- POSTADDR R439: OFF
   ⟨0x134, 1, 0, [⟨31, 31, .ro, 0x0⟩, ⟨30, 16, .wo, 0x0⟩, ⟨10, 0, .wo, 0x0⟩]⟩, -- POST R439: BUSY, CODE, LEN
   ⟨0x400, 256, 4, [⟨15, 8, .l, 0x0⟩, ⟨7, 0, .l, 0x0⟩]⟩] -- RLIM R443: BURST, RATE

/-- Registers of a DBG page. -/
def dbgRegs : List RegRow :=
  [⟨0x100, 1, 0, [⟨31, 29, .ro, 0x0⟩, ⟨28, 28, .ro, 0x0⟩, ⟨27, 27, .ro, 0x0⟩, ⟨26, 26, .ro, 0x0⟩]⟩, -- STAT R455: UNLOCKED, TAINT, HPEND, HALTED
   ⟨0x104, 1, 0, [⟨31, 0, .ro, 0x0⟩]⟩, -- HOFF_LO R455: OFF
   ⟨0x108, 1, 0, [⟨15, 0, .ro, 0x0⟩]⟩, -- HOFF_HI R455: OFF
   ⟨0x110, 4, 4, [⟨31, 0, .l, 0x0⟩]⟩, -- CMD R455: WORD
   ⟨0x120, 4, 4, [⟨31, 0, .ro, 0x0⟩]⟩] -- RSP R455: WORD

/-- Registers of a CORE page. -/
def coreRegs : List RegRow :=
  [⟨0x100, 1, 0, [⟨16, 0, .h, 0x0⟩]⟩, -- ENTRY R75: PC
   ⟨0x104, 1, 0, [⟨27, 22, .ro, 0x0⟩, ⟨21, 21, .ro, 0x0⟩, ⟨20, 18, .ro, 0x0⟩, ⟨17, 15, .ro, 0x0⟩, ⟨14, 14, .ro, 0x0⟩, ⟨13, 13, .ro, 0x0⟩]⟩, -- CSTAT R75: WTOK, WAITING, LBASE, LD, HALTED, FATAL
   ⟨0x108, 1, 0, [⟨31, 0, .h, 0x0⟩]⟩, -- TOKWDOG R75: LIMIT
   ⟨0x10c, 1, 0, [⟨31, 0, .ro, 0x0⟩]⟩, -- WAITMAX R75: AC
   ⟨0x110, 1, 0, [⟨16, 0, .ro, 0x0⟩]⟩, -- WAITPC R75: PC
   ⟨0x114, 1, 0, [⟨16, 0, .ro, 0x0⟩]⟩, -- PCSNAP R75: PC
   ⟨0x118, 8, 4, [⟨31, 28, .ro, 0x0⟩, ⟨27, 24, .ro, 0x0⟩, ⟨23, 20, .ro, 0x0⟩, ⟨19, 16, .ro, 0x0⟩, ⟨15, 12, .ro, 0x0⟩, ⟨11, 8, .ro, 0x0⟩, ⟨7, 4, .ro, 0x0⟩, ⟨3, 0, .ro, 0x0⟩]⟩, -- TOKCNT R75: TOK7, TOK6, TOK5, TOK4, TOK3, TOK2, TOK1, TOK0
   ⟨0x140, 1, 0, [⟨17, 0, .ro, 0x0⟩]⟩, -- LCPC R397: PC
   ⟨0x144, 1, 0, [⟨31, 0, .ro, 0x0⟩]⟩, -- LCSTAT R397: STATUS
   ⟨0x148, 1, 0, [⟨31, 31, .s, 0x0⟩, ⟨12, 12, .ro, 0x0⟩, ⟨11, 8, .ro, 0x0⟩, ⟨7, 0, .ro, 0x0⟩]⟩, -- LCCAUSE R397: VALID, KIND, WHY, CAUSE
   ⟨0x150, 1, 0, [⟨20, 3, .l, 0x0⟩]⟩, -- RECADDR R439: OFF
   ⟨0x154, 1, 0, [⟨31, 31, .ro, 0x0⟩, ⟨30, 16, .wo, 0x0⟩, ⟨10, 0, .wo, 0x0⟩]⟩, -- RECPOST R439: BUSY, CODE, LEN
   ⟨0x180, 16, 4, [⟨23, 16, .h, 0x0⟩, ⟨15, 0, .h, 0x0⟩]⟩] -- DOM R374: HOME, ENTER

/-- Registers of a CALLER page. -/
def callerRegs : List RegRow :=
  [⟨0x100, 1, 0, [⟨15, 0, .l, 0x0⟩]⟩, -- WDOG R435: LIMIT
   ⟨0x104, 1, 0, [⟨31, 0, .wo, 0x0⟩]⟩, -- WDKICK R435: ANY
   ⟨0x140, 1, 0, [⟨17, 0, .ro, 0x0⟩]⟩, -- LCPC R397: PC
   ⟨0x144, 1, 0, [⟨31, 0, .ro, 0x0⟩]⟩, -- LCSTAT R397: STATUS
   ⟨0x148, 1, 0, [⟨31, 31, .s, 0x0⟩, ⟨12, 12, .ro, 0x0⟩, ⟨11, 8, .ro, 0x0⟩, ⟨7, 0, .ro, 0x0⟩]⟩, -- LCCAUSE R397: VALID, KIND, WHY, CAUSE
   ⟨0x180, 16, 4, [⟨23, 16, .h, 0x0⟩, ⟨15, 0, .h, 0x0⟩]⟩] -- DOM R374: HOME, ENTER

/-- Registers of a CLUS page. -/
def clusRegs : List RegRow :=
  [⟨0x100, 1, 0, [⟨7, 0, .h, 0x18⟩]⟩, -- MEMCTL R190: SCRUB_H
   ⟨0x104, 1, 0, [⟨31, 31, .s, 0x0⟩, ⟨30, 30, .ro, 0x0⟩, ⟨29, 29, .s, 0x0⟩, ⟨16, 11, .ro, 0x0⟩, ⟨10, 6, .ro, 0x0⟩, ⟨5, 0, .ro, 0x0⟩]⟩, -- ECCINFO R190: VALID, UE, OVF, CH, BANK, SYM
   ⟨0x108, 1, 0, [⟨31, 0, .ro, 0x0⟩]⟩, -- ECCADDR_LO R190: ADDR
   ⟨0x10c, 1, 0, [⟨11, 0, .ro, 0x0⟩]⟩, -- ECCADDR_HI R190: ADDR
   ⟨0x110, 1, 0, [⟨31, 0, .ro, 0x0⟩]⟩, -- CECNT R190: COUNT
   ⟨0x114, 1, 0, [⟨31, 0, .ro, 0x0⟩]⟩, -- UECNT R190: COUNT
   ⟨0x118, 1, 0, [⟨10, 5, .l, 0x0⟩, ⟨4, 0, .l, 0x0⟩]⟩, -- BCSEL R190: CH, BANK
   ⟨0x11c, 1, 0, [⟨31, 16, .ro, 0x0⟩, ⟨15, 0, .ro, 0x0⟩]⟩, -- BCCNT R190: UE, CE
   ⟨0x120, 8, 4, [⟨31, 31, .h, 0x0⟩, ⟨10, 5, .h, 0x0⟩, ⟨4, 0, .h, 0x0⟩]⟩, -- BDIS R190: EN, CH, BANK
   ⟨0x180, 4, 4, [⟨16, 16, .l, 0x1⟩, ⟨15, 8, .l, 0xff⟩, ⟨5, 0, .l, 0x0⟩]⟩, -- DCCTL R190: PFEN, ALLOC, LOCK
   ⟨0x200, 4, 4, [⟨23, 16, .ro, 0x0⟩, ⟨10, 6, .ro, 0x0⟩, ⟨5, 5, .ro, 0x0⟩, ⟨4, 4, .ro, 0x0⟩, ⟨3, 3, .ro, 0x0⟩, ⟨2, 2, .ro, 0x0⟩]⟩, -- ARRSTAT R134: PW, QDEPTH, MMAF, STREAM, SEATB, SEATA
   ⟨0x210, 4, 4, [⟨2, 2, .s, 0x0⟩, ⟨1, 1, .s, 0x0⟩, ⟨0, 0, .s, 0x0⟩]⟩, -- ARRFLAG R134: POISON_DRAINED, INEXACT_DRAINED, GNF
   ⟨0x220, 4, 4, [⟨31, 0, .ro, 0x0⟩]⟩, -- FP8SAT R134: COUNT
   ⟨0x230, 4, 4, [⟨31, 0, .ro, 0x0⟩]⟩, -- GG16SAT R134: COUNT
   ⟨0x240, 4, 4, [⟨31, 0, .ro, 0x0⟩]⟩, -- STREAMAC R134: COUNT
   ⟨0x250, 4, 4, [⟨31, 0, .ro, 0x0⟩]⟩] -- SEATWAIT R134: COUNT

/-- Registers of a LINK page. -/
def linkRegs : List RegRow :=
  [⟨0x100, 1, 0, [⟨31, 28, .ro, 0x0⟩, ⟨27, 26, .ro, 0x0⟩, ⟨25, 25, .ro, 0x0⟩, ⟨24, 23, .ro, 0x0⟩, ⟨22, 17, .ro, 0x0⟩, ⟨16, 13, .ro, 0x0⟩]⟩, -- LSTAT R305: STATE, PERS, PARENT, NBYP, PLINK, LANES
   ⟨0x104, 1, 0, [⟨19, 0, .ro, 0x0⟩]⟩, -- PCOORD R305: COORD
   ⟨0x108, 1, 0, [⟨31, 0, .ro, 0x0⟩]⟩, -- DELAY R305: PS
   ⟨0x10c, 1, 0, [⟨31, 0, .ro, 0x0⟩]⟩, -- FECCE R305: COUNT
   ⟨0x110, 1, 0, [⟨31, 0, .ro, 0x0⟩]⟩, -- FECUE R305: COUNT
   ⟨0x114, 1, 0, [⟨12, 0, .h, 0x0⟩]⟩, -- SEQENTRY R305: PC
   ⟨0x118, 1, 0, [⟨31, 24, .ro, 0x0⟩, ⟨23, 16, .ro, 0x0⟩, ⟨9, 5, .ro, 0x0⟩, ⟨4, 0, .ro, 0x0⟩]⟩, -- QSTAT R305: TXBUSY, RXFULL, RXQ, TXQ
   ⟨0x11c, 1, 0, [⟨31, 24, .ro, 0x0⟩, ⟨15, 0, .ro, 0xffff⟩]⟩, -- MINSLACK R305: STREAM, NS
   ⟨0x120, 1, 0, [⟨7, 0, .l, 0x0⟩]⟩, -- SLKSEL R305: STREAM
   ⟨0x124, 1, 0, [⟨15, 0, .ro, 0xffff⟩]⟩] -- SLKVAL R305: NS

/-- Registers of a FMC page. -/
def fmcRegs : List RegRow :=
  [⟨0x100, 1, 0, [⟨7, 0, .h, 0x18⟩]⟩, -- MEMCTL R190: SCRUB_H
   ⟨0x104, 1, 0, [⟨31, 31, .s, 0x0⟩, ⟨30, 30, .ro, 0x0⟩, ⟨29, 29, .s, 0x0⟩, ⟨12, 11, .ro, 0x0⟩, ⟨10, 6, .ro, 0x0⟩, ⟨5, 0, .ro, 0x0⟩]⟩, -- ECCINFO R190: VALID, UE, OVF, CH, BANK, SYM
   ⟨0x108, 1, 0, [⟨31, 0, .ro, 0x0⟩]⟩, -- ECCADDR_LO R190: ADDR
   ⟨0x10c, 1, 0, [⟨11, 0, .ro, 0x0⟩]⟩, -- ECCADDR_HI R190: ADDR
   ⟨0x110, 1, 0, [⟨31, 0, .ro, 0x0⟩]⟩, -- CECNT R190: COUNT
   ⟨0x114, 1, 0, [⟨31, 0, .ro, 0x0⟩]⟩, -- UECNT R190: COUNT
   ⟨0x118, 1, 0, [⟨6, 5, .l, 0x0⟩, ⟨4, 0, .l, 0x0⟩]⟩, -- BCSEL R190: CH, BANK
   ⟨0x11c, 1, 0, [⟨31, 16, .ro, 0x0⟩, ⟨15, 0, .ro, 0x0⟩]⟩, -- BCCNT R190: UE, CE
   ⟨0x120, 8, 4, [⟨31, 31, .h, 0x0⟩, ⟨6, 5, .h, 0x0⟩, ⟨4, 0, .h, 0x0⟩]⟩] -- BDIS R190: EN, CH, BANK

/-- Registers of a CXL page. -/
def cxlRegs : List RegRow :=
  []

/-- Registers of a RED page. -/
def redRegs : List RegRow :=
  [⟨0x100, 1, 0, [⟨23, 0, .h, 0x0⟩]⟩, -- BOWSEAL R332: OFF
   ⟨0x104, 1, 0, [⟨23, 0, .h, 0x0⟩]⟩, -- BOWSETTLE R332: OFF
   ⟨0x108, 1, 0, [⟨28, 19, .h, 0x0⟩, ⟨18, 16, .h, 0x1⟩, ⟨13, 0, .h, 0x0⟩]⟩, -- BOWCFG R332: NRX, GENEXP, NB
   ⟨0x10c, 1, 0, [⟨31, 0, .h, 0x0⟩]⟩, -- LOCAL_LO R332: ADDR
   ⟨0x110, 1, 0, [⟨31, 0, .h, 0x0⟩]⟩, -- LOCAL_HI R332: ADDR
   ⟨0x114, 1, 0, [⟨31, 0, .h, 0x0⟩]⟩, -- AGREE_LO R332: ADDR
   ⟨0x118, 1, 0, [⟨31, 0, .h, 0x0⟩]⟩, -- AGREE_HI R332: ADDR
   ⟨0x11c, 1, 0, [⟨5, 0, .h, 0x0⟩]⟩, -- AGREETOK R332: TOK
   ⟨0x120, 1, 0, [⟨31, 0, .h, 0x0⟩]⟩, -- AGREEMASK_LO R332: MASK
   ⟨0x124, 1, 0, [⟨31, 0, .h, 0x0⟩]⟩, -- AGREEMASK_HI R332: MASK
   ⟨0x128, 1, 0, [⟨31, 30, .ro, 0x0⟩, ⟨29, 26, .ro, 0x0⟩, ⟨25, 25, .ro, 0x0⟩, ⟨24, 24, .ro, 0x0⟩, ⟨23, 23, .ro, 0x0⟩, ⟨22, 20, .ro, 0x0⟩, ⟨19, 10, .ro, 0x0⟩]⟩, -- BOWRES R332: OUTCOME, CAUSE, SETTLED, NF, FPDIS, GENMASK, NRXDONE
   ⟨0x12c, 1, 0, [⟨31, 0, .ro, 0x0⟩]⟩, -- STEPMIN R332: COUNT
   ⟨0x130, 1, 0, [⟨31, 0, .ro, 0x0⟩]⟩, -- STEPMAX R332: COUNT
   ⟨0x134, 1, 0, [⟨31, 0, .ro, 0xffffffff⟩]⟩, -- NFSRC R332: COORD
   ⟨0x200, 8, 64, [⟨31, 31, .h, 0x0⟩, ⟨30, 29, .h, 0x0⟩, ⟨28, 23, .h, 0x0⟩, ⟨22, 10, .h, 0x0⟩, ⟨9, 5, .h, 0x0⟩]⟩, -- BRCFG R332: EN, GEN, LINK, B0, BSH
   ⟨0x204, 8, 64, [⟨23, 0, .h, 0x0⟩]⟩, -- BRW0 R332: OFF
   ⟨0x208, 8, 64, [⟨23, 0, .h, 0x0⟩]⟩, -- BRW1 R332: OFF
   ⟨0x20c, 8, 64, [⟨31, 0, .h, 0x0⟩]⟩, -- BRCOUNT R332: COUNT
   ⟨0x210, 8, 64, [⟨31, 0, .h, 0x0⟩]⟩, -- BRIN_LO R332: ADDR
   ⟨0x214, 8, 64, [⟨31, 0, .h, 0x0⟩]⟩, -- BRIN_HI R332: ADDR
   ⟨0x218, 8, 64, [⟨31, 0, .h, 0x0⟩]⟩, -- BRGG_LO R332: ADDR
   ⟨0x21c, 8, 64, [⟨31, 0, .h, 0x0⟩]⟩, -- BRGG_HI R332: ADDR
   ⟨0x220, 8, 64, [⟨31, 31, .h, 0x0⟩, ⟨13, 8, .h, 0x0⟩, ⟨5, 0, .h, 0x0⟩]⟩, -- BRTOK R332: TEN, TCORE, TOK
   ⟨0x224, 8, 64, [⟨23, 0, .h, 0x0⟩]⟩] -- BRRW R332: OFF
  ++
  [⟨0x228, 8, 64, [⟨31, 0, .h, 0x0⟩]⟩, -- BRRLEN R332: BYTES
   ⟨0x22c, 8, 64, [⟨31, 0, .h, 0x0⟩]⟩, -- BRRET_LO R332: ADDR
   ⟨0x230, 8, 64, [⟨31, 0, .h, 0x0⟩]⟩, -- BRRET_HI R332: ADDR
   ⟨0x234, 8, 64, [⟨31, 31, .ro, 0x0⟩, ⟨30, 30, .ro, 0x0⟩, ⟨29, 29, .ro, 0x0⟩, ⟨28, 28, .ro, 0x0⟩, ⟨27, 27, .s, 0x0⟩]⟩, -- BRSTAT R332: COMPLETE, NF, FOLDED, CONVERTED, PODSTOP
   ⟨0x238, 8, 64, [⟨31, 0, .ro, 0x0⟩]⟩, -- BRSTEP R332: STEP
   ⟨0x23c, 8, 64, [⟨31, 0, .ro, 0x0⟩]⟩] -- BRSAT R332: COUNT

/-- Registers of a UPD page. -/
def updRegs : List RegRow :=
  [⟨0x100, 1, 0, [⟨31, 0, .h, 0x0⟩]⟩, -- STEPCNT R235: COUNT
   ⟨0x104, 1, 0, [⟨31, 0, .h, 0x0⟩]⟩, -- SKIPCNT R235: COUNT
   ⟨0x108, 1, 0, [⟨31, 24, .h, 0x0⟩, ⟨23, 8, .h, 0x0⟩, ⟨7, 0, .h, 0x0⟩]⟩, -- LSCALE R235: CSKIP, RUN, LSE
   ⟨0x10c, 1, 0, [⟨31, 31, .ro, 0x0⟩, ⟨27, 26, .ro, 0x0⟩, ⟨25, 24, .ro, 0x0⟩, ⟨23, 0, .ro, 0x0⟩]⟩, -- STEPSTAT R235: TORN, OUTCOME, PHASE, NSTEP
   ⟨0x110, 1, 0, [⟨31, 0, .ro, 0x0⟩]⟩, -- CMTWAIT R235: LSCALE
   ⟨0x114, 1, 0, [⟨31, 0, .ro, 0x0⟩]⟩, -- ARRIVED_LO R235: MASK
   ⟨0x118, 1, 0, [⟨31, 0, .ro, 0x0⟩]⟩, -- ARRIVED_HI R235: MASK
   ⟨0x11c, 1, 0, [⟨31, 0, .ro, 0x0⟩]⟩, -- SUPPRESSED R235: COUNT
   ⟨0x120, 1, 0, [⟨31, 31, .ro, 0x0⟩, ⟨15, 0, .ro, 0x0⟩]⟩, -- CKSTAT R235: READY, SEQ
   ⟨0x124, 1, 0, [⟨31, 0, .ro, 0x0⟩]⟩, -- CKSTEP R235: COUNT
   ⟨0x128, 1, 0, [⟨31, 0, .ro, 0x0⟩]⟩, -- CKSKIP R235: COUNT
   ⟨0x12c, 1, 0, [⟨31, 0, .ro, 0x0⟩]⟩, -- CKLSCALE R235: VALUE
   ⟨0x130, 1, 0, [⟨23, 0, .h, 0x0⟩]⟩, -- STEPPER R235: P
   ⟨0x134, 1, 0, [⟨23, 0, .h, 0x0⟩]⟩, -- OUTOFF R235: OFF
   ⟨0x138, 1, 0, [⟨23, 0, .h, 0x0⟩]⟩, -- CMTOFF R235: OFF
   ⟨0x13c, 1, 0, [⟨31, 24, .h, 0x0⟩, ⟨23, 20, .h, 0x0⟩, ⟨19, 16, .h, 0x0⟩, ⟨15, 8, .h, 0x0⟩, ⟨7, 0, .h, 0x0⟩]⟩, -- LSPOL R235: SKIPLIM, UP, DOWN, MAX, MIN
   ⟨0x140, 1, 0, [⟨15, 0, .h, 0x0⟩]⟩, -- LSINT R235: INTERVAL
   ⟨0x144, 1, 0, [⟨15, 0, .h, 0x0⟩]⟩, -- CKCFG R235: EVERY
   ⟨0x148, 1, 0, [⟨31, 0, .h, 0x0⟩]⟩, -- JOBEND R235: BATCHES
   ⟨0x180, 16, 8, [⟨22, 0, .h, 0x0⟩]⟩, -- DRBASE R235: BASE
   ⟨0x184, 16, 8, [⟨22, 0, .h, 0x0⟩]⟩, -- DRSIZE R235: SIZE
   ⟨0x200, 1, 0, [⟨31, 31, .ro, 0x0⟩]⟩, -- SCALSTAT R262: READY
   ⟨0x204, 1, 0, [⟨31, 0, .ro, 0x1⟩]⟩, -- SCALT R262: T
   ⟨0x208, 1, 0, [⟨1, 1, .s, 0x0⟩, ⟨0, 0, .s, 0x0⟩]⟩] -- UFLAGS R262: WCSAT, RCSAT
  ++
  [⟨0x20c, 1, 0, [⟨31, 31, .s, 0x0⟩, ⟨11, 0, .ro, 0x0⟩]⟩, -- PRESTAT R262: PRE_STALE, LAST
   ⟨0x210, 1, 0, [⟨31, 0, .ro, 0x0⟩]⟩, -- PRECNT R262: COUNT
   ⟨0x214, 1, 0, [⟨11, 0, .wo, 0x0⟩]⟩, -- PREREPORT R262: INDEX
   ⟨0x220, 1, 0, [⟨21, 2, .l, 0x0⟩]⟩, -- PMADDR R262: ADDR
   ⟨0x224, 1, 0, [⟨31, 0, .ro, 0x0⟩]⟩] -- PMDATA R262: DATA

/-- Registers of a STRM page. -/
def strmRegs : List RegRow :=
  [⟨0x100, 1, 0, [⟨22, 14, .ro, 0x0⟩, ⟨13, 10, .ro, 0x0⟩, ⟨9, 4, .ro, 0x0⟩]⟩, -- QSTAT R212: TAGS, ACTIVE, QDEPTH
   ⟨0x104, 1, 0, [⟨2, 2, .s, 0x0⟩, ⟨1, 1, .s, 0x0⟩, ⟨0, 0, .s, 0x0⟩]⟩, -- FLAGS R212: NF_SAT, NF_INF, NF_NAN
   ⟨0x108, 1, 0, [⟨31, 31, .s, 0x0⟩, ⟨7, 0, .ro, 0x0⟩]⟩, -- FAULT R212: VALID, CAUSE
   ⟨0x10c, 1, 0, [⟨20, 0, .ro, 0x0⟩]⟩, -- FDESC R212: OFF
   ⟨0x110, 1, 0, [⟨31, 0, .ro, 0x0⟩]⟩, -- FADDR_LO R212: ADDR
   ⟨0x114, 1, 0, [⟨31, 0, .ro, 0x0⟩]⟩, -- FADDR_HI R212: ADDR
   ⟨0x118, 1, 0, [⟨8, 0, .ro, 0x0⟩]⟩, -- TAGMAX R212: MAX
   ⟨0x11c, 1, 0, [⟨31, 0, .ro, 0x0⟩]⟩, -- ADMWAIT R212: COUNT
   ⟨0x120, 1, 0, [⟨31, 0, .ro, 0x0⟩]⟩, -- BYTES_LO R212: COUNT
   ⟨0x124, 1, 0, [⟨31, 0, .ro, 0x0⟩]⟩] -- BYTES_HI R212: COUNT

/-- The block-specific registers of a page of kind `k`. -/
def PageKind.regs : PageKind → List RegRow
  | .dev => devRegs
  | .hp => hpRegs
  | .boot => bootRegs
  | .sec => secRegs
  | .fuse => fuseRegs
  | .pwr => pwrRegs
  | .beat => beatRegs
  | .icu => icuRegs
  | .err => errRegs
  | .recd => recdRegs
  | .dbg => dbgRegs
  | .core => coreRegs
  | .caller => callerRegs
  | .clus => clusRegs
  | .link => linkRegs
  | .fmc => fmcRegs
  | .cxl => cxlRegs
  | .red => redRegs
  | .upd => updRegs
  | .strm => strmRegs

/-- The row that holds page offset `o`, if any. -/
def RegRow.find : List RegRow → Nat → Option RegRow
  | [], _ => none
  | r :: rs, o =>
    if r.off ≤ o ∧ o < r.off + r.count * max r.stride 4 ∧ (o - r.off) % max r.stride 4 = 0 then some r
    else RegRow.find rs o

/-- The register at I/O offset `a` (R342); ICU.CTRL and the page header come before the block's registers. -/
def regAt (a : Nat) : Option RegRow :=
  match pageKind (a / 0x1000) with
  | none => none
  | some (k, _) =>
    if a % 0x1000 = 8 ∧ k ≠ .icu then some ⟨8, 1, 0, []⟩
    else if a % 0x1000 < 0x100 ∧ a % 0x1000 ≠ 8 then RegRow.find headerRegs (a % 0x1000)
    else RegRow.find k.regs (a % 0x1000)

/-- The bits of a field as a mask. -/
def Fld.mask (f : Fld) : Nat := (2 ^ (f.hi - f.lo + 1) - 1) * 2 ^ f.lo

/-- The mask of the fields of class `c`. -/
def RegRow.mask (r : RegRow) (c : FClass) : Reg32 :=
  BitVec.ofNat 32 ((r.flds.filter fun f => f.cls = c).foldl (fun m f => m + f.mask) 0)

/-- The reset value of a register. -/
def RegRow.resetVal (r : RegRow) : Reg32 :=
  BitVec.ofNat 32 (r.flds.foldl (fun m f => m + f.reset * 2 ^ f.lo) 0)

/-- The fixed fields of the ICU source registers (R388). -/
def icuFixed (n : Nat) : Option (Reg32 × Reg32) :=
  if n = 0 ∨ n = 1 then some (0x30F, 0x30F)
  else if 0xA0 ≤ n ∧ n ≤ 0xDF then some (0x200, 0x200)
  else none

/-- The reset value of the register at I/O offset `a`: the default of `State.io` (R346, R388, R401). -/
def ioReset (a : Nat) : Reg32 :=
  match pageKind (a / 0x1000) with
  | none => 0
  | some (k, i) =>
    if a % 0x1000 = 0 then BitVec.ofNat 32 (k.code * 2 ^ 24 + i)
    else
      match regAt a with
      | none => 0
      | some r =>
        if k = .icu ∧ 0x400 ≤ a % 0x1000 ∧ a % 0x1000 < 0x800 then
          match icuFixed ((a % 0x1000 - 0x400) / 4) with
          | some (m, v) => (r.resetVal &&& ~~~m) ||| v
          | none => r.resetVal
        else r.resetVal

/-- I/O offset `o` of page `p`. -/
abbrev ioa (p o : Nat) : Nat := p * 0x1000 + o

end Sys2Proof.Machine
end

