-- ==== Sys2Proof/Machine/Tab.lean ====
section
/-! DEFINITION. Sparse tables: lists of (key, value) pairs in one canonical form, keys strictly rising and no entry
equal to its default. The memory, the register file and the I/O registers are such tables. -/
namespace Sys2Proof.Machine

/-- A sparse table from keys to values. -/
abbrev Tab (α : Type) := List (Nat × α)

/-- The value at `k`, or the default. -/
def Tab.get {α : Type} (d : Nat → α) : Tab α → Nat → α
  | [], k => d k
  | (j, v) :: t, k => if k = j then v else if k < j then d k else Tab.get d t k

/-- Insert or replace the entry of `k`. -/
def Tab.insert {α : Type} (k : Nat) (v : α) : Tab α → Tab α
  | [] => [(k, v)]
  | (j, w) :: t =>
    if k < j then (k, v) :: (j, w) :: t
    else if k = j then (k, v) :: t
    else (j, w) :: Tab.insert k v t

/-- Remove the entry of `k`. -/
def Tab.erase {α : Type} (k : Nat) : Tab α → Tab α
  | [] => []
  | (j, w) :: t => if k < j then (j, w) :: t else if k = j then t else (j, w) :: Tab.erase k t

/-- Write `v` at `k`: writing the default removes the entry, so that equal tables are equal lists. -/
def Tab.put {α : Type} [DecidableEq α] (d : Nat → α) (t : Tab α) (k : Nat) (v : α) : Tab α :=
  if v = d k then Tab.erase k t else Tab.insert k v t

/-- Every key of the table is above `k`. -/
def Tab.above {α : Type} (k : Nat) : Tab α → Bool
  | [] => true
  | (j, _) :: _ => decide (k < j)

/-- The canonical form: keys rise strictly and no entry equals its default. -/
def Tab.wf {α : Type} [DecidableEq α] (d : Nat → α) : Tab α → Bool
  | [] => true
  | (j, v) :: t => decide (v ≠ d j) && Tab.above j t && Tab.wf d t

/-- Remove every entry whose key satisfies `p`. -/
def Tab.drop {α : Type} (p : Nat → Bool) (t : Tab α) : Tab α := t.filter fun e => !p e.1

end Sys2Proof.Machine
end

