-- ==== Sys2Proof/Machine/State.lean ====
section
/-! DEFINITION. The state of the block as plain data, its reset value, and the two closed lists of stop reasons. -/
namespace Sys2Proof.Machine

/-- No meaning of this model ends in a fault: every condition of the spec has an effect (an exception, an error report
or a discarded access). The one constructor stands for a stop that nothing raises; it would be safe. -/
inductive Fault where
  | unused
  deriving DecidableEq, Repr

/-- Why a command has no meaning. -/
inductive Refusal where
  /-- The command has no meaning yet: raised only by an arm of `exec` (safe: the run stops). -/
  | notModelled (mnemonic : String)
  deriving DecidableEq, Repr

/-- An open load shadow (R55): `left` instructions remain before the write of `rd`; `data` is the value, read at issue and
again when a DRAM bank admits its request (R187), and `arrived` says that it has returned. `commit` marks an IN from
UPD.CMTWAIT (R219), whose value the commit gives; `fill` is the cache line that the arrival installs (R184). A load of
`bytes` bytes from a DRAM bank keeps in `own` those that the merging buffer gave it; `bad` says that its data is
poisoned (R178). `stamp` numbers the load among the core's accesses. -/
structure Shadow where
  rd : Nat
  left : Nat
  data : Word
  arrived : Bool
  pc : BitVec 18
  addr : Word
  phys : Nat
  commit : Bool
  fill : Option Nat
  bytes : Nat := 0
  signed : Bool := false
  own : List (Nat × Byte) := []
  bad : Bool := false
  stamp : Nat := 0
  deriving DecidableEq, Repr

/-- A token wait in progress (R67): since when, and the instruction that waits. -/
structure Wait where
  tok : Nat
  need : Nat
  since : Nat
  instr : Instr
  deriving DecidableEq, Repr

/-- An entry of the merging buffer (R185): one 64-byte line, the bytes it holds, its partition address, age and
stamp. Stamps number a core's loads and queued instructions in program order (R100, R174, R207). -/
structure MbEntry where
  line : Nat
  va : Word
  bytes : List (Nat × Byte)
  born : Nat
  stamp : Nat
  deriving DecidableEq, Repr

/-- A valid line of a data cache (R184): its line address and its last use. -/
structure CLine where
  line : Nat
  used : Nat
  deriving DecidableEq, Repr

/-- A cached translation (R168, R206): page number, level of the leaf and the leaf entry. -/
structure TlbEntry where
  page : Nat
  level : Nat
  entry : BitVec 64
  deriving DecidableEq, Repr

/-- A stride detector (R188). -/
structure Detector where
  pc : BitVec 18
  line : Nat
  stride : Int
  used : Nat
  deriving DecidableEq, Repr

/-- A tile or seat tag (R78, R105). -/
structure Tag where
  rows : Nat
  rb : Nat
  fmt : Nat
  deriving DecidableEq, Repr

/-- An instruction in a unit's queue with the scalar values it captured at issue, VL at issue (R139), the PC and
the tile that it will read, whatever else its issue fixed, and its stamp. `phys` are the physical addresses that its
issue translated (R109, R152). A vector load on its way keeps in `own` the bytes that its core's stores gave it (R151) and
in `bad` the elements whose data is poisoned (R156, R178); `spans` are the ranges of memory that a queued instruction will
access: partition address, bytes, written (R151, R251). -/
structure QOp where
  instr : Instr
  vals : List Word
  vl : BitVec 32
  pc : BitVec 18
  tile : Option Nat
  aux : List Int
  stamp : Nat := 0
  phys : List Nat := []
  own : List (Nat × Byte) := []
  bad : List Nat := []
  spans : List (Nat × Nat × Bool) := []
  deriving DecidableEq, Repr

/-- A token release of SIGTOK or SIGTOK.R that is under way (R68). -/
structure Release where
  core : Nat
  tok : Nat
  n : Nat
  deriving DecidableEq, Repr

/-- A tile row that is loaded (R86, R87): its physical pieces, the bytes read, those of them that the core's own stores
gave (R84) and the places of poisoned ones (R90), with the stamp and PC of its instruction. -/
structure RowOp where
  tile : Nat
  row : Nat
  phys : List (Nat × Nat)
  bytes : List Byte
  own : List (Nat × Byte)
  bad : List Nat
  stamp : Nat
  pc : BitVec 18
  deriving DecidableEq, Repr

/-- A row that is stored (R84, R87): its partition address, its pieces (partition address, physical address, bytes), and
the tile row that it comes from, or the bytes themselves. -/
structure RowStore where
  va : Nat
  pieces : List (Nat × Nat × Nat)
  src : Option (Nat × Nat)
  bytes : List Byte
  deriving DecidableEq, Repr

/-- A tile instruction that has issued and waits in the tile queue for its interlocks (R74, R100): the tiles it reads and
writes, the rows it clears first (tile, first row, rows, bytes a row), and the rows it loads and stores. -/
structure TileOp where
  stamp : Nat
  pc : BitVec 18
  reads : List Nat
  writes : List Nat
  clears : List (Nat × Nat × Nat × Nat)
  loads : List RowOp
  stores : List RowStore
  deriving DecidableEq, Repr

/-- A read of a GATHER window (R201): partition address, bytes, and whom it serves: row, place in the row, place in the
read, bytes. -/
structure GRead where
  va : Nat
  n : Nat
  serves : List (Nat × Nat × Nat × Nat)
  deriving DecidableEq, Repr

/-- A queued or active Streamer transfer (R193, R195): the eight descriptor words, the queued addresses, the
capabilities of the SQ, the descriptor's stage offset, how far the walk has got, the bytes written to D space, which
become visible at completion (R187, R216): partition address, physical address, bytes; and the stamp of the SQ. `asked`
says that the next read has reached its banks (R174, R205), `seen` are the bytes that their admissions found, by physical
address, with their poison (R187, R209), `buf` the bytes read of an element or block not yet whole (R203, R205), `plan` the
reads of a GATHER window still to make (R201). -/
structure XFer where
  desc : List Word
  src : Word
  dst : Word
  cs : BitVec 128
  cd : BitVec 128
  off : Nat
  srcTile : Option Nat
  dstTile : Option Nat
  active : Bool
  run : Nat
  pos : Nat
  bytes : Nat
  held : List (Nat × Nat × List Byte)
  stamp : Nat
  asked : Bool := false
  seen : List (Nat × Byte × Bool) := []
  buf : List Byte := []
  plan : List GRead := []
  deriving DecidableEq, Repr

/-- What a unit that executes Smiop holds beside its registers, tokens and capabilities. -/
structure Hart where
  pc : BitVec 18 := 0
  ls : Tab (BitVec 18) := []
  le : Tab (BitVec 18) := []
  lc : Tab (BitVec 32) := []
  ld : Nat := 0
  lbase : Nat := 0
  shadows : List Shadow := []
  wait : Option Wait := none
  run : Bool := false
  halted : Bool := false
  fatal : Bool := false
  reason : BitVec 8 := 0
  haltReq : Option (BitVec 8) := none
  stepping : Option Nat := none
  haltAt : Nat := 0
  bps : Tab (BitVec 64) := []
  wps : Tab (BitVec 64) := []
  esp : BitVec 32 := 0
  capdepth : Nat := 0
  mbuf : List MbEntry := []
  cache : Tab (Option CLine) := []
  fills : List (Nat × Nat) := []
  deadFills : List (Nat × Nat) := []
  dcctl : Option Reg32 := none
  tlb : List TlbEntry := []
  strmTlb : List TlbEntry := []
  dets : List Detector := []
  rels : List Release := []
  vl : BitVec 32 := 0x8000
  vresume : BitVec 32 := 0
  tprog : BitVec 32 := 0
  tags : Tab (Option Tag) := []
  tileRows : List RowOp := []
  tq : List TileOp := []
  seats : Tab (Option Tag) := []
  modes : BitVec 8 := 0
  anchors : Tab Int := []
  aq : List QOp := []
  arun : List QOp := []
  mwait : Bool := false
  vq : List QOp := []
  vloads : List QOp := []
  xq : List XFer := []
  admSince : Option Nat := none
  stamps : Nat := 0
  posting : Bool := false
  insvc : List (Nat × Nat) := []
  taken : Option Nat := none
  wdStart : Nat := 0
  deriving DecidableEq, Repr

/-- A transmit image (R287): SENDING or OPEN, its fill count and the time of its last fill. -/
structure TxImg where
  sending : Bool := false
  fill : Nat := 0
  fillAt : Nat := 0
  deriving DecidableEq, Repr

/-- A receive image (R287): 0 EMPTY, 1 FILLING, 2 FULL; written length, NFLIT, KIND and format of its receive. -/
structure RxImg where
  st : Nat := 0
  len : Nat := 0
  nflit : Nat := 0
  kind : Nat := 0
  x64 : Bool := false
  deriving DecidableEq, Repr

/-- A slot descriptor (R288). -/
structure SDesc where
  lo : BitVec 64
  hi : BitVec 64
  deriving DecidableEq, Repr

/-- A best-effort request that waits for its acknowledgement (R298). -/
structure BeReq where
  seqNo : Nat
  dest : BitVec 20
  ten : Bool
  tok : Nat
  deriving DecidableEq, Repr

/-- A best-effort packet at a link, waiting to leave (R297). -/
structure BeHop where
  vc : Bool
  pkt : BePacket
  deriving DecidableEq, Repr

/-- What a link and its buffers hold (R274, R275, R287, R289, R294, R297). `lastSlot` numbers the last slot that has
started on the link (R280). `arr` is the local time at which the partner's
last slot-0 header arrived (TECHO, R269). -/
structure Link where
  st : Nat := 0
  pers : Nat := 0
  nbyp : Nat := 0
  plink : Nat := 0
  lanes : Nat := 0
  trainAt : Nat := 0
  delays : List Int := []
  thetas : List Int := []
  seen : Bool := false
  plock : Bool := false
  phops : Nat := 0
  idrec : Option IdRecord := none
  txq : List SDesc := []
  rxq : List SDesc := []
  lastTx : Option Nat := none
  lastRx : Option Nat := none
  tx : Tab TxImg := []
  rx : Tab RxImg := []
  cur : Option SDesc := none
  quiet : Bool := false
  slack : Tab Nat := []
  minSlack : Nat := 0xFFFF
  minStream : Nat := 0
  sentData : Bool := false
  hops : List BeHop := []
  beOut : List BeReq := []
  beSeq : Nat := 0
  lwait : Option Nat := none
  lastSlot : Option Nat := none
  arr : BitVec 64 := 0
  deriving DecidableEq, Repr

/-- The record of the Bow accumulator (R308, R309). -/
structure Bow where
  stepmin : Nat
  stepmax : Nat
  nf : Bool
  fpdis : Bool
  genmask : Nat
  nfsrc : Nat
  nb : Nat
  exps : List Int
  deriving DecidableEq, Repr

/-- What a bridge holds beside its RED registers (R323-R329): `steps` are the first, the least and the greatest STEP tag of
the step's frames, `sent` the frames it has sent, newest first, `ended` that the step's window has ended, `stopBeat` the beat of
its last STOP frame. -/
structure Bridge where
  credit : Nat := 0
  grant : Nat := 0
  got : List (Nat × Nat) := []
  scales : List (Nat × Nat × BitVec 32) := []
  steps : Option (Nat × Nat × Nat) := none
  exps : Tab Int := []
  closed : Bool := true
  stopping : Bool := false
  ret : Option Nat := none
  sent : List (List Byte) := []
  ended : Bool := false
  stopBeat : BitVec 48 := 0
  scanning : Bool := false
  converting : Bool := false
  deriving DecidableEq, Repr

/-- A mailbox command that is ACTIVE with result ACCEPTED (R351, R366). -/
structure Active where
  slot : Nat
  opcode : Nat
  jseq : Nat
  abeat : BitVec 48
  deriving DecidableEq, Repr

/-- What a host partition holds beside its HP page (R335, R341, R350, R355). -/
structure Part where
  slots : Tab Nat := []
  order : List Nat := []
  active : Option Active := none
  key : Option (List Byte) := none
  cxlUp : Bool := true
  pba : BitVec 8 := 0
  msix : List Nat := []
  deriving DecidableEq, Repr

/-- Who writes D space (R216). -/
inductive Writer where
  | core (c : Nat) | strm (c : Nat) | seq (l : Nat) | other
  deriving DecidableEq, Repr

/-- The stores that a write belongs to, for the check of R216: their writer, the partition addresses of the range they
cover, and the first addresses of those that this part of them counts and reports. -/
structure Guard where
  w : Writer
  va : Nat
  n : Nat
  leads : List Nat
  deriving DecidableEq, Repr

/-- A request to a DRAM bank (R174): the requester's I/O page, the sector or line, its DRAM row, direction, pass count
and promotion (R173); since when it is presented; the stamp of its transfer where a Streamer asks (R205); the stamp of
the load that it reads for; the bytes of a store that its admission makes visible (R187), whether they carry poison
(R178), and their guard. -/
structure BReq where
  page : Nat
  addr : Nat
  row : Nat
  write : Bool
  passes : Nat
  promoted : Bool
  since : Option Nat := none
  strm : Option Nat := none
  rdr : Option Nat := none
  data : List (Nat × Byte) := []
  poison : Bool := false
  guard : Option Guard := none
  deriving DecidableEq, Repr

/-- A DRAM bank (R172): its queue, the requests waiting for admission and the open row. -/
structure Bank where
  queue : List BReq := []
  waiting : List BReq := []
  openRow : Option Nat := none
  ce : Nat := 0
  ue : Nat := 0
  deriving DecidableEq, Repr

/-- The fuse array (R402). -/
structure Fuses where
  trim : BitVec 2048 := 0
  repairs : Nat := 0
  options : BitVec 32 := 0
  uid : BitVec 64 := 0
  seed : List Byte := List.replicate 32 0
  vhash : List Byte := List.replicate 32 0
  ohash : Tab (List Byte) := []
  ovalid : BitVec 4 := 0
  oprog : BitVec 4 := 0
  revoke : BitVec 4 := 0
  svn : Nat := 0
  damaged : Bool := false
  deriving DecidableEq, Repr

/-- The time base and beat discipline (R264-R271): `time` is the model's clock in fifths of an ac, `count` and `sub` the
beat count and the fifths since its edge; a fifth is 2,000/11 ps, and `frac` are the elevenths of a ps beyond the last
whole one. `stepNext` says that the parent's next slot-0 header sets the count (R268),
`fresh` that the next evaluation is the first against a new parent (R271). -/
structure BeatSt where
  time : Nat := 0
  count : BitVec 48 := 0
  sub : Nat := 0
  frac : Nat := 0
  rate : Int := 0
  step : Int := 0
  good : Nat := 0
  bad : Nat := 0
  hold : Option (BitVec 48) := none
  refLost : Bool := false
  stepNext : Bool := false
  fresh : Bool := false
  latch : BitVec 16 := 0
  deriving DecidableEq, Repr

/-- The loaded figure and the job (R213, R359, R361). `stepNo` is the current step; `edge` says which of its edges have
passed: 0 none, 1 seal, 2 settle, 3 outcome, 4 commit; `ckWait` that the next outcome edge completes a checkpoint (R228);
`gnfSince` that a GNF bit became 1 since the last seal edge (R316), `evaluating` the step number and loss scale exponent
of the step scalars under evaluation (R243, R244), `agreed` the exponents agreed at the settle (R314, R327). -/
structure JobSt where
  linkset : BitVec 48 := 0
  pers : BitVec 96 := 0
  coord : Nat := 0
  fetching : Option (Nat × Nat) := none
  wantDigest : List Byte := []
  pending : Option (BitVec 48) := none
  start : BitVec 48 := 0
  time0 : Nat := 0
  bow : Option Bow := none
  stepNo : Nat := 0
  edge : Nat := 0
  ckWait : Bool := false
  gnfSince : Bool := false
  evaluating : Option (Nat × Int) := none
  agreed : List Int := []
  deriving DecidableEq, Repr

/-- STOP and the interrupts that follow it (R231, R432). `forced` says that HSTAT.FORCE was set before the STOP that is due
took effect; `since` is the time at which STOP last took effect (R401), `parts` are the partitions that held the job then
(R341). -/
structure StopSt where
  due : Option Nat := none
  active : Bool := false
  forceAt : Option Nat := none
  forced : Bool := false
  hostRecs : BitVec 4 := 0
  resetAfter : Bool := false
  since : Nat := 0
  parts : BitVec 4 := 0
  deriving DecidableEq, Repr

/-- A record offered to the device recorder (R429, R439). -/
structure Offer where
  page : Nat
  code : Nat
  sev : Nat
  payload : List Byte
  poster : Option Nat := none
  deriving DecidableEq, Repr

/-- The recorders (R437-R442): offered records, bytes in the holding buffer, records of the ring not yet spilled (offset,
length), rate-limit tokens spent and suppressed counts per entry, snapshot triggers (page, cause, error), snapshots taken
per page, and the word that SNPDATA returns next. -/
structure RecSt where
  offers : List Offer := []
  heldEnd : Nat := 0
  unspilled : List (Nat × Nat) := []
  spent : Tab Nat := []
  supp : Tab Nat := []
  trigs : List (Nat × Nat × Nat) := []
  snapSeq : Tab Nat := []
  snpWord : Nat := 0
  postBusy : Bool := false
  deriving DecidableEq, Repr

/-- The interrupt controller (R388-R395). -/
structure IcuSt where
  pend : BitVec 256 := 0
  level : BitVec 256 := 0
  target0 : BitVec 4 := 0xF
  perst : Bool := true
  therm : Bool := true
  alert : Bool := true
  deriving DecidableEq, Repr

/-- The debug layer (R445-R454). -/
structure DbgSt where
  h : Option (BitVec 48) := none
  r : Option (BitVec 48) := none
  frozen : Bool := false
  tapRsp : BitVec 128 := 0
  ir : BitVec 8 := 1
  bscan : BitVec 32 := 0
  deriving DecidableEq, Repr

/-- Rails, input and the sideband (R399, R400, R411, R463, R464). -/
structure PwrSt where
  rising : Bool := false
  on : Bool := true
  lockout : Bool := false
  strap : BitVec 2 := 0
  hot : Nat := 0
  smbPtr : BitVec 24 := 0
  bootLen : Nat := 0
  boots : Nat := 0
  deriving DecidableEq, Repr

/-- Everything of the device that is not one of the sparse tables of `State`. -/
structure Dev where
  beat : BeatSt := {}
  harts : Tab Hart := []
  links : Tab Link := []
  bridges : Tab Bridge := []
  parts : Tab Part := []
  banks : Tab Bank := []
  fuses : Fuses := {}
  job : JobSt := {}
  stop : StopSt := {}
  recd : RecSt := {}
  icu : IcuSt := {}
  dbg : DbgSt := {}
  pwr : PwrSt := {}
  readData : List Byte := []
  readPoison : Bool := false
  lastOut : List Byte := []
  free : Nat := 0
  deriving DecidableEq, Repr

/-- The state of the block. The sparse tables are canonical (`Tab.wf`):
`mem` the bytes of D space and of the internal SRAMs (R162, R419), `xp` check bits and poison per 8-byte block where
they are not those of an ordinary write (R420), `io` the active values of the I/O registers (R3, R342), `shadow` their
pending shadows (value in bits 31:0, mask in bits 63:32, R4), `caps` capability registers and Capability Stores (R372,
R373), `regs` the scalar registers (R50), `toks` the operand tokens (R66). `pending` is the queue of commands. -/
structure State where
  mem : List Host.Cell
  xp : Tab (BitVec 19)
  io : Tab Reg32
  shadow : Tab (BitVec 64)
  caps : Tab (BitVec 128)
  regs : Tab Word
  toks : Tab Nat
  dev : Dev
  pending : List Instr
  deriving DecidableEq, Repr

/-- The device right after a device reset at PWR_OK, before fuse load (R401): every register at its reset value
(the tables list nothing), nothing pending. -/
def State.reset : State :=
  { mem := [], xp := [], io := [], shadow := [], caps := [], regs := [], toks := [], dev := {}, pending := [] }

end Sys2Proof.Machine
end

