-- ==== Sys2Proof/Machine/Prog.lean ====
section
/-! DEFINITION. The one way in which a command changes the state: a meaning is a program over a closed list of
effects, so that whatever holds of every effect holds of every command. -/
namespace Sys2Proof.Machine

/-- The primitive effects. Each writes one entry of a sparse table, clears a range of one, or changes `dev`. -/
inductive Eff where
  | mem (a : Nat) (v : Byte)
  | memClear (lo n : Nat)
  | xp (k : Nat) (v : BitVec 19)
  | xpClear (lo n : Nat)
  | io (a : Nat) (v : Reg32)
  | ioClear
  | shadow (a : Nat) (v : BitVec 64)
  | shadowClear
  | cap (k : Nat) (v : BitVec 128)
  | capClear
  | reg (k : Nat) (v : Word)
  | regClear (lo n : Nat)
  | tok (k : Nat) (v : Nat)
  | tokClear (lo n : Nat)
  | dev (f : Dev → Dev)

/-- What an unlisted byte of memory reads as (R420; log entry 6). -/
def memDefault : Nat → Byte := fun _ => 0

/-- The canonical form of the memory. -/
def Memory.wf (m : List Host.Cell) : Bool := Tab.wf memDefault m

/-- The effect on the state. A capability is never written to c0 or to Store entry 0 (R372, R373), a scalar register
never to s0 (R50), and a token stops at 15 (R66). -/
def Eff.apply (s : State) : Eff → State
  | .mem a v => { s with mem := Tab.put memDefault s.mem a v }
  | .memClear lo n => { s with mem := Tab.drop (fun k => decide (lo ≤ k ∧ k < lo + n)) s.mem }
  | .xp k v => { s with xp := Tab.put (fun _ => 0) s.xp k v }
  | .xpClear lo n => { s with xp := Tab.drop (fun k => decide (lo ≤ k ∧ k < lo + n)) s.xp }
  | .io a v => { s with io := Tab.put ioReset s.io a v }
  | .ioClear => { s with io := [] }
  | .shadow a v => { s with shadow := Tab.put (fun _ => 0) s.shadow a v }
  | .shadowClear => { s with shadow := [] }
  | .cap k v => if k % 256 = 0 then s else { s with caps := Tab.put (fun _ => 0) s.caps k v }
  | .capClear => { s with caps := [] }
  | .reg k v => if k % 32 = 0 then s else { s with regs := Tab.put (fun _ => 0) s.regs k v }
  | .regClear lo n => { s with regs := Tab.drop (fun k => decide (lo ≤ k ∧ k < lo + n)) s.regs }
  | .tok k v => { s with toks := Tab.put (fun _ => 0) s.toks k (min v 15) }
  | .tokClear lo n => { s with toks := Tab.drop (fun k => decide (lo ≤ k ∧ k < lo + n)) s.toks }
  | .dev f => { s with dev := f s.dev }

/-- A program: effects in order, each chosen from the state as the effects before it leave it. -/
inductive Prog where
  | done
  | eff (e : Eff) (k : Prog)
  | ask (k : State → Prog)

/-- The state that a program leaves. -/
def Prog.run : Prog → State → State
  | .done, s => s
  | .eff e k, s => k.run (e.apply s)
  | .ask k, s => (k s).run s

/-- One program after another. -/
def Prog.andThen : Prog → Prog → Prog
  | .done, q => q
  | .eff e k, q => .eff e (k.andThen q)
  | .ask k, q => .ask fun s => (k s).andThen q

/-- Programs in order. -/
def block : List Prog → Prog
  | [] => .done
  | p :: ps => p.andThen (block ps)

/-- One program for each element, in order. -/
def forEach {α : Type} : List α → (α → Prog) → Prog
  | [], _ => .done
  | x :: xs, f => (f x).andThen (forEach xs f)

/-- A program that runs only under a condition. -/
def onlyIf (c : Prop) [Decidable c] (p : Prog) : Prog := if c then p else .done

/-- One effect. -/
def Eff.prog (e : Eff) : Prog := .eff e .done

/-- Choose a program from the state. -/
abbrev ask (k : State → Prog) : Prog := .ask k

/-- The outcome of a command. -/
abbrev Out := Host.Outcome State Fault Refusal

/-- The next state after a program, powered or not. -/
def performAlways (p : Prog) (s : State) : Out := .next (p.run s)

/-- The next state after a program; a device without power does nothing (R398). -/
def perform (p : Prog) (s : State) : Out := .next (if s.dev.pwr.on then p.run s else s)

end Sys2Proof.Machine
end

