-- ==== Sys2Proof/Machine/Ops.lean ====
section
/-! DEFINITION. The named operations over the state: units and their registers, tokens, links, partitions, I/O
registers as raw values, time, interrupt sources and host interrupts. -/
namespace Sys2Proof

/-- The number of a unit: its UNIT code of R446. -/
def UnitId.num : UnitId → Nat
  | .core c => c.val
  | .caller n => 64 + n.val
  | .seq l => 128 + l.val

end Sys2Proof

namespace Sys2Proof.Machine

/-! ### Bits -/

/-- Bits hi:lo of a number. -/
def bits (v hi lo : Nat) : Nat := v / 2 ^ lo % 2 ^ (hi - lo + 1)

/-- Bit `i` of a number. -/
def bitAt (v i : Nat) : Bool := v / 2 ^ i % 2 = 1

/-- `v` with bits hi:lo replaced by `x`. -/
def putBits (v : Reg32) (hi lo x : Nat) : Reg32 :=
  BitVec.ofNat 32 (v.toNat - bits v.toNat hi lo * 2 ^ lo + x % 2 ^ (hi - lo + 1) * 2 ^ lo)

/-- A number read as a two's-complement integer of `w` bits. -/
def signedOf (w v : Nat) : Int := if v % 2 ^ w < 2 ^ (w - 1) then (v % 2 ^ w : Nat) else (v % 2 ^ w : Nat) - (2 ^ w : Nat)

/-- An integer as `w` two's-complement bits. -/
def unsignedOf (w : Nat) (i : Int) : Nat := (i % (2 ^ w : Nat)).toNat

/-- The little-endian bytes of a number (R2). -/
def toBytes : Nat → Nat → List Byte
  | 0, _ => []
  | n + 1, v => BitVec.ofNat 8 v :: toBytes n (v / 256)

/-- The number that little-endian bytes spell (R2). -/
def ofBytes : List Byte → Nat
  | [] => 0
  | b :: bs => b.toNat + 256 * ofBytes bs

/-- The numbers lo, lo + 1, …, lo + n - 1. -/
def range (lo : Nat) : Nat → List Nat
  | 0 => []
  | n + 1 => lo :: range (lo + 1) n

/-- Bits of a number that are set below `n`, ascending. -/
def bitsSet (n v : Nat) : List Nat := (range 0 n).filter fun i => bitAt v i

/-! ### Units -/

/-- What unit `u` holds. -/
def State.hart (s : State) (u : Nat) : Hart := Tab.get (fun _ => {}) s.dev.harts u

/-- What link `l` holds. -/
def State.link (s : State) (l : Nat) : Link := Tab.get (fun _ => {}) s.dev.links l

/-- What bridge `n` holds. -/
def State.bridge (s : State) (n : Nat) : Bridge := Tab.get (fun _ => {}) s.dev.bridges n

/-- What partition `p` holds. -/
def State.part (s : State) (p : Nat) : Part := Tab.get (fun _ => {}) s.dev.parts p

/-- What DRAM bank `b` holds. -/
def State.bank (s : State) (b : Nat) : Bank := Tab.get (fun _ => {}) s.dev.banks b

/-- Change what a unit holds. -/
def modHart (u : Nat) (f : Hart → Hart) : Prog :=
  (Eff.dev fun d => { d with harts := Tab.insert u (f (Tab.get (fun _ => {}) d.harts u)) d.harts }).prog

/-- Change what a link holds. -/
def modLink (l : Nat) (f : Link → Link) : Prog :=
  (Eff.dev fun d => { d with links := Tab.insert l (f (Tab.get (fun _ => {}) d.links l)) d.links }).prog

/-- Change what a bridge holds. -/
def modBridge (n : Nat) (f : Bridge → Bridge) : Prog :=
  (Eff.dev fun d => { d with bridges := Tab.insert n (f (Tab.get (fun _ => {}) d.bridges n)) d.bridges }).prog

/-- Change what a partition holds. -/
def modPart (p : Nat) (f : Part → Part) : Prog :=
  (Eff.dev fun d => { d with parts := Tab.insert p (f (Tab.get (fun _ => {}) d.parts p)) d.parts }).prog

/-- Change what a DRAM bank holds. -/
def modBank (b : Nat) (f : Bank → Bank) : Prog :=
  (Eff.dev fun d => { d with banks := Tab.insert b (f (Tab.get (fun _ => {}) d.banks b)) d.banks }).prog

/-- Change `dev`. -/
def modDev (f : Dev → Dev) : Prog := (Eff.dev f).prog

/-- Change the job state. -/
def modJob (f : JobSt → JobSt) : Prog := modDev fun d => { d with job := f d.job }

/-- Change the recorder state. -/
def modRec (f : RecSt → RecSt) : Prog := modDev fun d => { d with recd := f d.recd }

/-- Change the beat state. -/
def modBeat (f : BeatSt → BeatSt) : Prog := modDev fun d => { d with beat := f d.beat }

/-- Change the STOP state. -/
def modStop (f : StopSt → StopSt) : Prog := modDev fun d => { d with stop := f d.stop }

/-- Change the ICU state. -/
def modIcu (f : IcuSt → IcuSt) : Prog := modDev fun d => { d with icu := f d.icu }

/-- Change the debug state. -/
def modDbg (f : DbgSt → DbgSt) : Prog := modDev fun d => { d with dbg := f d.dbg }

/-- Change the power state. -/
def modPwr (f : PwrSt → PwrSt) : Prog := modDev fun d => { d with pwr := f d.pwr }

/-- Bytes returned to an outside reader (log entry 10). -/
def answer (b : List Byte) : Prog := modDev fun d => { d with readData := b, readPoison := false }

/-- Bytes returned to an outside reader with a poison indication (R178, R339, R367). -/
def answerPoison (b : List Byte) : Prog := modDev fun d => { d with readData := b, readPoison := true }

/-- The bytes last put on a wire (log entry 10). -/
def transmit (b : List Byte) : Prog := modDev fun d => { d with lastOut := b }

/-- Scalar register `r` of unit `u`; s0 reads zero (R50). -/
def State.reg (s : State) (u r : Nat) : Word := if r % 32 = 0 then 0 else Tab.get (fun _ => 0) s.regs (u * 32 + r % 32)

/-- Write scalar register `r` of unit `u`; a write to s0 is discarded (R50). -/
def setReg (u r : Nat) (v : Word) : Prog := (Eff.reg (u * 32 + r % 32) v).prog

/-- Token `t` of unit `u` (R66). -/
def State.tok (s : State) (u t : Nat) : Nat := Tab.get (fun _ => 0) s.toks (u * 64 + t)

/-- Write token `t` of unit `u`. -/
def setTok (u t v : Nat) : Prog := (Eff.tok (u * 64 + t) v).prog

/-- A capability (R369). -/
abbrev Cap := BitVec 128

/-- Capability register `r` of unit `u` (R372). -/
def State.creg (s : State) (u r : Nat) : Cap := if r = 0 then 0 else Tab.get (fun _ => 0) s.caps (u * 512 + r)

/-- Entry `e` of the Capability Store of unit `u` (R373). -/
def State.store (s : State) (u e : Nat) : Cap :=
  if e = 0 then 0 else Tab.get (fun _ => 0) s.caps (u * 512 + 256 + e)

/-- Where a byte of an internal SRAM stands in `mem` and `xp`: memory identifier of R424, unit and byte offset. -/
def sram (m unit off : Nat) : Nat := 2 ^ 48 + m * 2 ^ 40 + unit * 2 ^ 24 + off

/-- The number of a capability among a core's blocks of MEM 0x0A (R424): Store entries 0–255, then c0–c15. -/
abbrev capIx (r : Nat) : Nat := 256 + r

/-- Check bits of an ordinary write of the two blocks of a capability (R419, R423). -/
def capFresh (u ix : Nat) : Prog :=
  block [(Eff.xp (sram 0xA u (16 * ix) / 8) 0).prog, (Eff.xp (sram 0xA u (16 * ix) / 8 + 1) 0).prog]

/-- Write capability register `r`; a write to c0 is discarded (R372). -/
def setCreg (u r : Nat) (v : Cap) : Prog := block [(Eff.cap (u * 512 + r) v).prog, capFresh u (capIx r)]

/-- Write Store entry `e`; a write to entry 0 is discarded (R373). -/
def setStore (u e : Nat) (v : Cap) : Prog := block [(Eff.cap (u * 512 + 256 + e) v).prog, capFresh u e]

/-! ### I/O registers as stored -/

/-- The active value of the register at I/O offset `a`. -/
def State.ioVal (s : State) (a : Nat) : Reg32 := Tab.get ioReset s.io a

/-- Set the active value of the register at I/O offset `a`. -/
def ioSet (a : Nat) (v : Reg32) : Prog := (Eff.io a v).prog

/-- Field hi:lo of the register at `a`. -/
def State.fld (s : State) (a hi lo : Nat) : Nat := bits (s.ioVal a).toNat hi lo

/-- Set field hi:lo of the register at `a`. -/
def setFld (a hi lo x : Nat) : Prog := ask fun s => ioSet a (putBits (s.ioVal a) hi lo x)

/-- Set the bits of `m` in the register at `a` (an S bit whose event occurs, R3). -/
def setMask (a : Nat) (m : Reg32) : Prog := ask fun s => ioSet a (s.ioVal a ||| m)

/-- Add `n` to field hi:lo, stopping at its maximum. -/
def satAdd (a hi lo n : Nat) : Prog :=
  ask fun s => setFld a hi lo (min (s.fld a hi lo + n) (2 ^ (hi - lo + 1) - 1))

/-- The 64-bit value of the register pair LO, HI at `a` and `a + 4`. -/
def State.pair (s : State) (a : Nat) : Nat := (s.ioVal a).toNat + 2 ^ 32 * (s.ioVal (a + 4)).toNat

/-- Set the register pair at `a` and `a + 4`. -/
def setPair (a v : Nat) : Prog := block [ioSet a (BitVec.ofNat 32 v), ioSet (a + 4) (BitVec.ofNat 32 (v / 2 ^ 32))]

/-- I/O page of compute core `c`, Caller core, cluster, link, Streamer, FMC, partition. -/
abbrev corePage (c : Nat) : Nat := 0x20 + c
abbrev callerPage (n : Nat) : Nat := 0x60 + n
abbrev clusPage (k : Nat) : Nat := 0x70 + k
abbrev linkPage (l : Nat) : Nat := 0x80 + l
abbrev fmcPage (i : Nat) : Nat := 0xB0 + i
abbrev hpPage (p : Nat) : Nat := 1 + p
abbrev strmPage (c : Nat) : Nat := 0x100 + c

/-- The I/O page of a unit. -/
def unitPage (u : Nat) : Nat := if u < 64 then corePage u else if u < 128 then callerPage (u - 64) else linkPage (u - 128)

/-- DEV.FIG and its fields (R348). -/
abbrev aFig : Nat := 0x120
abbrev aState : Nat := 0x108

/-- A job runs on the device (DEV.FIG.JOB). -/
def State.job (s : State) : Bool := s.fld aFig 29 29 = 1

/-- A figure is loaded. -/
def State.loaded (s : State) : Bool := s.fld aFig 31 31 = 1

/-- The partition that loaded, or is loading, the figure. -/
def State.owner (s : State) : Nat := s.fld aFig 1 0

/-- DEV.STATE: 1 INIT, 2 READY, 3 RUN, 4 HALT, 5 STOP, 6 FATAL (R409). -/
def State.devState (s : State) : Nat := s.fld aState 2 0

/-- A job has started: its start beat has come (R361). -/
def State.jobOn (s : State) : Bool := s.job && s.dev.job.pending.isNone

/-- STATUS.RUN of a page, by kind (R75, R190, R212, R235, R304, R305, R332, R349, R411, R455): of some pages while a job
runs, of the others from its start. -/
def State.running (s : State) (page : Nat) : Bool :=
  match pageKind page with
  | some (.core, c) => (s.hart c).run
  | some (.hp, p) => s.job && s.owner = p
  | some (.clus, _) | some (.fmc, _) | some (.strm, _) | some (.upd, _) | some (.red, _) => s.jobOn
  | some (.beat, _) | some (.link, _) | some (.pwr, _) | some (.dbg, _) => s.job
  | _ => false

/-- The partition has lanes, by the BIF straps as sampled (R334). -/
def State.present (s : State) (p : Nat) : Bool :=
  match s.dev.pwr.strap.toNat with
  | 1 => decide (p < 2)
  | 2 => decide (p < 4)
  | _ => decide (p = 0)

/-- The partition holds right bit `b`: 0 DEV, 1 JOB, 2 MEM, 3 EVT (R337). -/
def State.right (s : State) (p b : Nat) : Bool := s.fld (ioa (hpPage p) 0x100) b b = 1

/-! ### Time -/

/-- Fifths of an ac per beat: 1.024 µs at 1.1 GHz. -/
def beatLen : Nat := 5632

/-- The local beat count (R264). -/
def State.beat (s : State) : BitVec 48 := s.dev.beat.count

/-- The job beat: the beat count minus DBG.HOFF, or the beat frozen by a system halt (R454). -/
def State.jobBeat (s : State) : BitVec 48 :=
  match s.dev.dbg.frozen, s.dev.dbg.h with
  | true, some h => h
  | _, _ => s.beat - BitVec.ofNat 48 (s.pair (ioa 0x10 0x104))

/-- DBG.HOFF (R454). -/
def State.hoff (s : State) : BitVec 48 := BitVec.ofNat 48 (s.pair (ioa 0x10 0x104))

/-- Job beat `b` can come while no system halt holds it back: none is in effect, and a pending one lies later (R454). -/
def State.reach (s : State) (b : BitVec 48) : Bool :=
  !s.dev.dbg.frozen &&
    match s.dev.dbg.h with
    | some h => decide ((b - h).toInt < 0)
    | none => true

/-- Advance the local clock by `n` fifths of an ac. -/
def advance (n : Nat) : Prog :=
  modBeat fun b =>
    { b with
      time := b.time + n
      count := b.count + BitVec.ofNat 48 ((b.sub + n) / beatLen)
      sub := (b.sub + n) % beatLen }

/-- One ac passes: what the block does when no command waits (log entry 4). -/
def clockTick (s : State) : State := (advance 5).run s

/-- Move the local clock to time `t` when it lies ahead (log entry 4). -/
def advanceTime (t : Nat) : Prog := ask fun s => onlyIf (s.dev.beat.time < t) (advance (t - s.dev.beat.time))

/-- ac from time `t` to now. -/
def State.acSince (s : State) (t : Nat) : Nat := (s.dev.beat.time - t) / 5

/-- A fresh free value (log entry 3). -/
def State.freeVal (s : State) : BitVec 64 := Config.freeValue s.dev.free

/-- Count a free value as used. -/
def useFree : Prog := modDev fun d => { d with free := d.free + 1 }

/-! ### Host interrupts and interrupt sources -/

/-- Set bit `b` of HP.IRQ of partition `p`; when it becomes 1 while enabled, the vector is sent, or held pending while
the lanes are down or the vector is masked (R341, R336). -/
def hpIrq (p b : Nat) : Prog :=
  ask fun s =>
    let a := ioa (hpPage p) 0x120
    let masked := bitAt (Tab.get memDefault s.mem (2 ^ 48 + 0x10 * 2 ^ 40 + p * 2 ^ 24 + 0xF000 + 16 * b + 12)).toNat 0
    block
      [setMask a (BitVec.ofNat 32 (2 ^ b)),
       onlyIf (s.fld a b b = 0 ∧ s.fld (ioa (hpPage p) 0x124) b b = 1) <|
         modPart p fun x =>
           if x.cxlUp && !masked then { x with msix := x.msix ++ [b] }
           else { x with pba := x.pba ||| BitVec.ofNat 8 (2 ^ b) }]

/-- The address of ICU.SRCn. -/
abbrev srcAddr (n : Nat) : Nat := ioa 0xD (0x400 + 4 * n)

/-- An event of ICU source `n` (R389): PEND is set; a source routed to hosts sets HP.IRQ.ICU (R394). A reserved source
never becomes pending (R388). -/
def icuEvent (n : Nat) : Prog :=
  if n = 0x0F ∨ 0xE0 ≤ n then .done
  else ask fun s =>
    let src := (s.ioVal (srcAddr n)).toNat
    let hosts := if s.fld (ioa 0xD 8) 0 0 = 0 then (bitsSet 4 (bits src 17 14)).filter fun p => s.present p else []
    let consumed := hosts ≠ [] ∧ bits src 13 10 = 0 ∧ bitAt src 9
    block
      [forEach hosts fun p => hpIrq p 4,
       modIcu fun i => if consumed then i else { i with pend := i.pend ||| BitVec.ofNat 256 (2 ^ n) }]

/-- The condition of a level source begins or ends (R389). -/
def icuLevel (n : Nat) (on : Bool) : Prog :=
  ask fun s =>
    let was := s.dev.icu.level.getLsbD n
    block
      [modIcu fun i =>
        { i with level := if on then i.level ||| BitVec.ofNat 256 (2 ^ n)
                          else i.level &&& ~~~(BitVec.ofNat 256 (2 ^ n)) },
       onlyIf (on ∧ ¬was) (icuEvent n),
       onlyIf (¬on ∧ was ∧ s.fld (srcAddr n) 9 9 = 0)
         (modIcu fun i => { i with pend := i.pend &&& ~~~(BitVec.ofNat 256 (2 ^ n)) })]

/-- The device drives ALERT_N (R464). -/
def State.drivesAlert (s : State) : Bool :=
  s.fld (ioa 0xB 0x100) 30 30 = 1 || s.fld (ioa 0xB 0x114) 31 29 ≠ 0 || s.devState = 6 || s.fld (ioa 0xA 0x100) 30 30 = 1

/-- ICU source 0x0E follows ALERT_N, and is held inactive while the device drives the line itself (R388, R464). -/
def alertSync : Prog := ask fun s => icuLevel 0xE (!s.dev.icu.alert && !s.drivesAlert)

/-- The ICU source of a block, for the blocks that have one (R388). -/
def pageSource (page : Nat) : Option Nat :=
  match pageKind page with
  | some (.core, c) => some (0x10 + c)
  | some (.link, l) => some (0x50 + l)
  | some (.fmc, i) => some (0x80 + i)
  | some (.clus, k) => some (0x90 + k)
  | some (.pwr, _) => some 0x0B
  | _ => none

/-- The partitions that hold a job: the figure's owner and every partition with EVT (R341). -/
def State.jobParts (s : State) : List Nat := (range 0 4).filter fun p => s.right p 3 || (s.loaded && s.owner = p)

end Sys2Proof.Machine
end

