-- ==== Sys2Proof/Machine/FloatFmt.lean ====
section
/-! DEFINITION. Number formats and exact arithmetic (R20-R42): decoding, rounding, encoding, accumulator contributions,
gradient formats and the correctly rounded functions of R145. -/
namespace Sys2Proof.Machine

/-- The element formats. -/
inductive Fmt where
  | e4m3 | e5m2 | e2m3 | e3m2 | e2m1 | int8 | mxint8 | q16 | bf16 | fp32
  deriving DecidableEq, Repr

/-- A decoded number: sign, magnitude `m * 2^e`; or an infinity; or NaN. -/
inductive Num where
  | fin (neg : Bool) (m : Nat) (e : Int)
  | inf (neg : Bool)
  | nan
  deriving DecidableEq, Repr

/-- A floating-point code with `mb` mantissa bits, `eb` exponent bits and least exponent `emin` (R20). -/
def decodeFloat (mb eb : Nat) (emin : Int) (c : Nat) : Bool × Nat × Nat × Num :=
  let s := bitAt c (mb + eb)
  let e := bits c (mb + eb - 1) mb
  let m := c % 2 ^ mb
  let v := if e = 0 then Num.fin s m (emin - mb) else Num.fin s (2 ^ mb + m) (emin - mb + (e - 1))
  (s, e, m, v)

/-- An integer code (R21). -/
def decodeInt (w : Nat) (e : Int) (c : Nat) : Num :=
  let v := signedOf w c
  .fin (decide (v < 0)) v.natAbs e

/-- The value of an element code (R20, R21, R35). -/
def decodeFmt (f : Fmt) (c : Nat) : Num :=
  match f with
  | .e4m3 =>
    let (_, e, m, v) := decodeFloat 3 4 (-6) c
    if e = 15 ∧ m = 7 then .nan else v
  | .e5m2 =>
    let (s, e, m, v) := decodeFloat 2 5 (-14) c
    if e = 31 then (if m = 0 then .inf s else .nan) else v
  | .e2m3 => (decodeFloat 3 2 0 c).2.2.2
  | .e3m2 => (decodeFloat 2 3 (-2) c).2.2.2
  | .e2m1 => (decodeFloat 1 2 0 c).2.2.2
  | .int8 => decodeInt 8 0 c
  | .mxint8 => decodeInt 8 (-6) c
  | .q16 => decodeInt 16 (-14) c
  | .bf16 =>
    let (s, e, m, v) := decodeFloat 7 8 (-126) c
    if e = 255 then (if m = 0 then .inf s else .nan) else v
  | .fp32 =>
    let (s, e, m, v) := decodeFloat 23 8 (-126) c
    if e = 255 then (if m = 0 then .inf s else .nan) else v

/-- Bits of an element. -/
def Fmt.width : Fmt → Nat
  | .e4m3 | .e5m2 | .int8 | .mxint8 => 8
  | .e2m3 | .e3m2 => 6
  | .e2m1 => 4
  | .q16 | .bf16 => 16
  | .fp32 => 32

/-- `v * 2^-n` rounded to nearest even (R31). -/
def rneShift (v n : Int) : Int :=
  if n ≤ 0 then v * 2 ^ (-n).toNat
  else
    let d : Int := 2 ^ n.toNat
    let q := v / d
    let r := v - q * d
    let half : Int := 2 ^ (n.toNat - 1)
    if half < r ∨ (r = half ∧ q % 2 = 1) then q + 1 else q

/-- Conversion parameters (R35): mantissa bits, exponent bits, least exponent, greatest finite magnitude `maxM * 2^maxE`,
whether overflow saturates, and the codes of infinity and NaN (R36). -/
structure FParam where
  mb : Nat
  eb : Nat
  emin : Int
  maxM : Nat
  maxE : Int
  sat : Bool
  infCode : Nat
  nanCode : Nat

/-- FP32 (R35). -/
def pFp32 : FParam := { mb := 23, eb := 8, emin := -126, maxM := 2 ^ 24 - 1, maxE := 104, sat := false,
                        infCode := 0x7F800000, nanCode := 0x7FC00000 }

/-- BF16 (R35). -/
def pBf16 : FParam := { mb := 7, eb := 8, emin := -126, maxM := 255, maxE := 120, sat := false,
                        infCode := 0x7F80, nanCode := 0x7FC0 }

/-- E4M3 (R35, R36). -/
def pE4m3 : FParam := { mb := 3, eb := 4, emin := -6, maxM := 14, maxE := 5, sat := true, infCode := 0x7F, nanCode := 0x7F }

/-- E5M2 (R35, R36). -/
def pE5m2 : FParam := { mb := 2, eb := 5, emin := -14, maxM := 7, maxE := 13, sat := true, infCode := 0x7C, nanCode := 0x7E }

/-- The sign bit of a format. -/
def FParam.signBit (p : FParam) : Nat := 2 ^ (p.mb + p.eb)

/-- Compare magnitudes `a * 2^e` and `b * 2^f`: the first is greater. -/
def magGt (a : Nat) (e : Int) (b : Nat) (f : Int) : Bool :=
  let g := min e f
  decide (b * 2 ^ (f - g).toNat < a * 2 ^ (e - g).toNat)

/-- Convert an exact finite value to a code (R35); the second part says that it saturated. `neg` is the sign that a zero
result takes. -/
def toFloat (p : FParam) (neg : Bool) (m : Nat) (e : Int) : Nat × Bool :=
  let s := if neg then p.signBit else 0
  if m = 0 then (s, false)
  else
    let x : Int := (Nat.log2 m : Int) + e
    let qe := max x p.emin - p.mb
    let r := (rneShift m (qe - e)).toNat
    if r = 0 then (s, false)
    else if magGt r qe p.maxM p.maxE then
      if p.sat then
        let l := Nat.log2 p.maxM
        (s + ((l + p.maxE - p.emin + 1).toNat * 2 ^ p.mb + (p.maxM * 2 ^ p.mb / 2 ^ l - 2 ^ p.mb)), true)
      else (s + p.infCode, false)
    else
      let l := Nat.log2 r
      let y : Int := l + qe
      if y < p.emin then (s + r, false)
      else (s + (y - p.emin + 1).toNat * 2 ^ p.mb + (r * 2 ^ p.mb / 2 ^ l - 2 ^ p.mb), false)

/-- Round a number to a format; every NaN is canonical, and an infinity without a code is NaN (R36, R42). -/
def roundTo (p : FParam) (n : Num) : Nat × Bool :=
  match n with
  | .nan => (p.nanCode, false)
  | .inf s => (p.infCode + (if s ∧ p.infCode ≠ p.nanCode then p.signBit else 0), false)
  | .fin s m e => toFloat p s m e

/-- An exact integer multiple of 2^e, with +0 for zero. -/
def numOf (v e : Int) : Num := .fin (decide (v < 0)) v.natAbs e

/-- Negation. -/
def Num.neg : Num → Num
  | .fin s m e => .fin (!s) m e
  | .inf s => .inf (!s)
  | .nan => .nan

/-- The exact sum under IEEE 754 (R38, R42). -/
def Num.add : Num → Num → Num
  | .nan, _ | _, .nan => .nan
  | .inf s, .inf t => if s = t then .inf s else .nan
  | .inf s, _ => .inf s
  | _, .inf t => .inf t
  | .fin s m e, .fin t n f =>
    let g := min e f
    let a : Int := (m * 2 ^ (e - g).toNat : Nat)
    let b : Int := (n * 2 ^ (f - g).toNat : Nat)
    let v := (if s then -a else a) + (if t then -b else b)
    if v = 0 then .fin (s && t) 0 g else numOf v g

/-- The exact product under IEEE 754 (R38, R42). -/
def Num.mul : Num → Num → Num
  | .nan, _ | _, .nan => .nan
  | .inf s, .inf t => .inf (s != t)
  | .inf s, .fin t n _ => if n = 0 then .nan else .inf (s != t)
  | .fin s m _, .inf t => if m = 0 then .nan else .inf (s != t)
  | .fin s m e, .fin t n f => .fin (s != t) (m * n) (e + f)

/-- The exact order of two finite or infinite numbers: less than, −0 equal to +0. -/
def Num.lt : Num → Num → Bool
  | .nan, _ | _, .nan => false
  | .inf s, .inf t => s && !t
  | .inf s, _ => s
  | _, .inf t => !t
  | .fin s m e, .fin t n f =>
    let g := min e f
    let a : Int := (m * 2 ^ (e - g).toNat : Nat)
    let b : Int := (n * 2 ^ (f - g).toNat : Nat)
    decide ((if s then -a else a) < (if t then -b else b))

/-- Equal in value. -/
def Num.eqv (a b : Num) : Bool := a ≠ .nan && b ≠ .nan && !a.lt b && !b.lt a

/-- A NaN. -/
def Num.isNan (a : Num) : Bool := a = .nan

/-- The sign of a number. -/
def Num.isNeg : Num → Bool
  | .fin s _ _ | .inf s => s
  | .nan => false

/-- The lesser of two, −0 below +0, NaN if either is (R145). -/
def Num.min (a b : Num) : Num :=
  if a.isNan || b.isNan then .nan
  else if a.lt b then a else if b.lt a then b else if a.isNeg then a else b

/-- The greater of two, −0 below +0, NaN if either is (R145). -/
def Num.max (a b : Num) : Num :=
  if a.isNan || b.isNan then .nan
  else if a.lt b then b else if b.lt a then a else if a.isNeg then b else a

/-! ### Correctly rounded functions (R145) -/

/-- ⌊√n⌋ bit by bit: `b` bits of the result remain. -/
def isqrtGo (n : Nat) : Nat → Nat → Nat
  | 0, r => r
  | b + 1, r => if (r + 2 ^ b) * (r + 2 ^ b) ≤ n then isqrtGo n b (r + 2 ^ b) else isqrtGo n b r

/-- ⌊√n⌋. -/
def isqrt (n : Nat) : Nat := isqrtGo n (Nat.log2 n / 2 + 1) 0

/-- A magnitude with a sticky bit: `2q + 1` when something was cut off. -/
def sticky (q : Nat) (exact : Bool) : Nat := 2 * q + (if exact then 0 else 1)

/-- 1/x. -/
def fRcp : Num → Num
  | .nan => .nan
  | .inf s => .fin s 0 0
  | .fin s m e =>
    if m = 0 then .inf s
    else
      let k := Nat.log2 m + 64
      .fin s (sticky (2 ^ k / m) (2 ^ k % m = 0)) (-e - k - 1)

/-- √x. -/
def fSqrt : Num → Num
  | .nan => .nan
  | .inf s => if s then .nan else .inf false
  | .fin s m e =>
    if m = 0 then .fin s 0 0
    else if s then .nan
    else
      let k : Nat := 128 + (if e % 2 = 0 then 0 else 1)
      let n := m * 2 ^ k
      let r := isqrt n
      .fin false (sticky r (r * r = n)) ((e - k) / 2 - 1)

/-- 1/√x. -/
def fRsqrt : Num → Num
  | .nan => .nan
  | .inf s => if s then .nan else .fin false 0 0
  | .fin s m e =>
    if m = 0 then .inf s
    else if s then .nan
    else
      let k : Nat := 192 + (if e % 2 = 0 then 0 else 1)
      let n := 2 ^ k
      let r := isqrt (n / m)
      .fin false (sticky r (r * r * m = n)) ((-e - k) / 2 - 1)

/-- The product of 2^(2^-j) over the set bits of a fraction: bit `b - j` of `f` stands for 2^-j; `c` is the current root
and `p` the product, both scaled by 2^192. -/
def exp2Go (f : Nat) : Nat → Nat → Nat → Nat
  | 0, _, p => p
  | b + 1, c, p => exp2Go f b (isqrt (c * 2 ^ 192)) (if bitAt f b then p * c / 2 ^ 192 else p)

/-- 2^x. -/
def fExp2 : Num → Num
  | .nan => .nan
  | .inf s => if s then .fin false 0 0 else .inf false
  | .fin s m e =>
    if m = 0 ∨ (Nat.log2 m : Int) + e < -40 then .fin false 1 0
    else if 10 < (Nat.log2 m : Int) + e then (if s then .fin false 1 (-2000) else .fin false 1 2000)
    else
      let x : Int := rneShift (if s then -(m : Int) else m) (-64 - e)
      let i := x / 2 ^ 64
      let f := (x % 2 ^ 64).toNat
      if f = 0 then .fin false 1 i
      else .fin false (sticky (exp2Go f 64 (isqrt (2 * 2 ^ 384)) (2 ^ 192)) false) (i - 193)

/-- The first `n` bits of the fraction of log2 y, for 2^256 ≤ y < 2^257 standing for a number in [1, 2). -/
def log2Go : Nat → Nat → Nat → Nat
  | 0, _, r => r
  | n + 1, y, r =>
    let z := y * y / 2 ^ 256
    if 2 ^ 257 ≤ z then log2Go n (z / 2) (2 * r + 1) else log2Go n z (2 * r)

/-- log2 x. -/
def fLog2 : Num → Num
  | .nan => .nan
  | .inf s => if s then .nan else .inf false
  | .fin s m e =>
    if m = 0 then .inf true
    else if s then .nan
    else
      let l := Nat.log2 m
      let i : Int := l + e
      if m = 2 ^ l then numOf i 0
      else numOf (2 * (i * 2 ^ 100 + (log2Go 100 (m * 2 ^ 256 / 2 ^ l) 0 : Nat)) + 1) (-101)

/-! ### Contributions and accumulator elements -/

/-- An accumulator element (R26): value, poison state (0 none, 1 +Inf, 2 −Inf, 3 NaN), INEXACT. -/
structure Acc where
  v : Int
  poison : Nat
  inexact : Bool
  deriving DecidableEq, Repr

/-- Poison combining (R31). -/
def combine (p q : Nat) : Nat := if p = q then p else if p = 0 then q else if q = 0 then p else 3

/-- Two's-complement wrap to `w` bits (R31). -/
def wrapInt (w : Nat) (x : Int) : Int := (x + 2 ^ (w - 1)) % 2 ^ w - 2 ^ (w - 1)

/-- The lo of an operand pair (R25); none for a pair that R24 does not admit. -/
def pairLo : Fmt → Fmt → Option Int
  | .e4m3, .e4m3 => some (-18)
  | .e5m2, .e5m2 => some (-32)
  | .e4m3, .e5m2 | .e5m2, .e4m3 => some (-25)
  | .int8, .int8 => some 0
  | .e2m3, .e2m3 => some (-6)
  | .e3m2, .e3m2 => some (-8)
  | .e2m1, .e2m1 => some (-2)
  | .mxint8, .mxint8 => some (-12)
  | .q16, .q16 => some (-28)
  | _, _ => none

/-- One product added to (poison, total in units of 2^lo) (R31). -/
def addProduct (lo : Int) (acc : Nat × Int) (a b : Num) : Nat × Int :=
  match a, b with
  | .nan, _ | _, .nan => (combine acc.1 3, acc.2)
  | .inf s, .inf t => (combine acc.1 (if s = t then 1 else 2), acc.2)
  | .inf s, .fin t n _ => (combine acc.1 (if n = 0 then 3 else if s = t then 1 else 2), acc.2)
  | .fin s m _, .inf t => (combine acc.1 (if m = 0 then 3 else if s = t then 1 else 2), acc.2)
  | .fin s m e, .fin t n f =>
    let p : Int := (m * n * 2 ^ (e + f - lo).toNat : Nat)
    (acc.1, acc.2 + (if s = t then p else -p))

/-- The contribution of one block (R30, R31): poison, total, exponent. -/
def contribution (fa fb : Fmt) (as bs : List Nat) (sa sb : Option Nat) : Nat × Int × Int :=
  let lo := (pairLo fa fb).getD 0
  if sa = some 0xFF ∨ sb = some 0xFF then (3, 0, 0)
  else
    let scale : Int := match sa, sb with
      | some x, some y => (x - 127 : Int) + (y - 127 : Int)
      | _, _ => 0
    let r := (as.zip bs).foldl (fun acc ab => addProduct lo acc (decodeFmt fa ab.1) (decodeFmt fb ab.2)) (0, 0)
    (r.1, r.2, lo + scale)

/-- Add a contribution to an element of width `w` and the given anchor (R31). -/
def Acc.add (el : Acc) (c : Nat × Int × Int) (w : Nat) (anchor : Int) : Acc :=
  let (p, total, e) := c
  if p ≠ 0 then { el with poison := combine el.poison p }
  else
    let n := anchor - e
    let q := rneShift total n
    let el := if 0 < n ∧ q * 2 ^ n.toNat ≠ total then { el with inexact := true } else el
    if 2 ^ (w - 1) ≤ q.natAbs then { el with poison := combine el.poison 3 }
    else { el with v := wrapInt w (el.v + q) }

/-- MANCHOR on one element (R34). -/
def Acc.rebase (el : Acc) (old new : Int) : Acc :=
  let n := new - old
  let q := rneShift el.v n
  let el := if 0 < n ∧ q * 2 ^ n.toNat ≠ el.v then { el with inexact := true } else el
  if 2 ^ 135 ≤ q.natAbs then { el with poison := combine el.poison 3, v := 0 } else { el with v := q }

/-- The number that a drain reads (R35, R36): the exact value times 2^s, or the poison's value. -/
def Acc.num (el : Acc) (anchor : Int) : Num :=
  match el.poison with
  | 0 => numOf el.v anchor
  | 1 => .inf false
  | 2 => .inf true
  | _ => .nan

/-- Scale a number by 2^s. -/
def Num.scale (n : Num) (s : Int) : Num :=
  match n with
  | .fin g m e => .fin g m (e + s)
  | x => x

/-- GG16 quantisation at bucket exponent `E` (R40): the code, saturated, non-finite. -/
def gg16 (n : Num) (E : Int) : Nat × Bool × Bool :=
  match n with
  | .fin s m e =>
    let q := rneShift (if s then -(m : Int) else m) (E - 14 - e)
    if 32767 < q then (32767, true, false)
    else if q < -32767 then (unsignedOf 16 (-32767), true, false)
    else (unsignedOf 16 q, false, false)
  | _ => (0, false, true)

/-- Round a number whose source has no signed zero (R35, zs = 0): a zero result is +0, exact or rounded. -/
def roundPlain (p : FParam) (n : Num) : Nat × Bool :=
  let r := roundTo p n
  if r.1 = p.signBit then (0, r.2) else r

/-- Round to FP32. -/
def f32 (n : Num) : Nat := (roundTo pFp32 n).1

/-- The number of an FP32 code. -/
def ofF32 (c : Nat) : Num := decodeFmt .fp32 c

/-- FP32 operations on codes (R42, R237). -/
def f32Add (a b : Nat) : Nat := f32 ((ofF32 a).add (ofF32 b))
def f32Sub (a b : Nat) : Nat := f32 ((ofF32 a).add (ofF32 b).neg)
def f32Mul (a b : Nat) : Nat := f32 ((ofF32 a).mul (ofF32 b))
def f32Fma (a b c : Nat) : Nat := f32 (((ofF32 a).mul (ofF32 b)).add (ofF32 c))

end Sys2Proof.Machine
end

