-- ==== Sys2Proof/Machine/Errors.lean ====
section
/-! DEFINITION. Error reporting: severities, the error collector, ERR_STAT, the offers to the device recorder and the
snapshot triggers (R427-R432, R436, R437). -/
namespace Sys2Proof.Machine

/-- The error codes of R427. -/
inductive ErrCode where
  | memCe | memUe | bankDisabled | poisonConsumed | ffPoison | sramCe | sramUe | ioUnmapped | hostMemRange | hostWprot
  | coreFatal | tokenOverflow | tokenTimeout | callerLost | callerWdog | icuOrder | mbProtocol | cmdAuth | bootProtocol
  | recBadcode | mmafFault | strmFault | updFault | updNonfinite | durableWrite | stepOverrun | stepWrap | skipLimit
  | gnfLate | refLost | beatUnlock | trainFail | nbrMismatch | linkDown | slotMiss | slotEmpty | slotUnexpected | linkUe
  | linkReplay | seqFault | beUnreachable | beRemoteFault | bowFault | bowFormat | bowIncomplete | bowFigure | stepSkew
  | bowGen | bridgeRetry | bridgeFormat | bridgeWindow | bridgeStop | inputRange | tjTrip | overcurrent | tjCrit
  | fuseLoad | devReset | jobAborted | dbgSync
  deriving DecidableEq, Repr

/-- The 16-bit code (R427). -/
def ErrCode.code : ErrCode → Nat
  | .memCe => 0x01 | .memUe => 0x02 | .bankDisabled => 0x03 | .poisonConsumed => 0x04 | .ffPoison => 0x05
  | .sramCe => 0x06 | .sramUe => 0x07 | .ioUnmapped => 0x08 | .hostMemRange => 0x09 | .hostWprot => 0x0A
  | .coreFatal => 0x10 | .tokenOverflow => 0x11 | .tokenTimeout => 0x12 | .callerLost => 0x13 | .callerWdog => 0x14
  | .icuOrder => 0x15 | .mbProtocol => 0x16 | .cmdAuth => 0x17 | .bootProtocol => 0x18 | .recBadcode => 0x19
  | .mmafFault => 0x20 | .strmFault => 0x21 | .updFault => 0x22 | .updNonfinite => 0x23 | .durableWrite => 0x24
  | .stepOverrun => 0x25 | .stepWrap => 0x26 | .skipLimit => 0x27 | .gnfLate => 0x28
  | .refLost => 0x30 | .beatUnlock => 0x31 | .trainFail => 0x32 | .nbrMismatch => 0x33 | .linkDown => 0x34
  | .slotMiss => 0x35 | .slotEmpty => 0x36 | .slotUnexpected => 0x37 | .linkUe => 0x38 | .linkReplay => 0x39
  | .seqFault => 0x3A | .beUnreachable => 0x3B | .beRemoteFault => 0x3C
  | .bowFault => 0x40 | .bowFormat => 0x41 | .bowIncomplete => 0x42 | .bowFigure => 0x43 | .stepSkew => 0x44
  | .bowGen => 0x45 | .bridgeRetry => 0x46 | .bridgeFormat => 0x47 | .bridgeWindow => 0x48 | .bridgeStop => 0x49
  | .inputRange => 0x50 | .tjTrip => 0x51 | .overcurrent => 0x52 | .tjCrit => 0x53 | .fuseLoad => 0x54
  | .devReset => 0x55 | .jobAborted => 0x56 | .dbgSync => 0x57

/-- Severities as numbers: 0 C, 1 D, 2 J, 3 F. The floor of a code (R427), which for some codes depends on a job. -/
def ErrCode.floor (job : Bool) : ErrCode → Nat
  | .memCe | .sramCe | .linkReplay | .bridgeRetry => 0
  | .memUe | .bankDisabled | .ffPoison | .sramUe | .ioUnmapped | .hostMemRange | .hostWprot | .icuOrder | .mbProtocol
  | .cmdAuth | .bootProtocol | .recBadcode | .refLost | .trainFail | .nbrMismatch => 1
  | .beatUnlock | .inputRange | .tjTrip | .overcurrent => if job then 2 else 1
  | .callerLost | .tjCrit | .fuseLoad => 3
  | _ => 2

/-- ERR_SEV_MAP may raise C and D errors of a page, and nothing else (R428, R436). -/
def effSev (floor map : Nat) : Nat :=
  if floor = 0 then min (bits map 2 1) 2
  else if floor = 1 then 1 + bits map 0 0
  else floor

/-- Offer a record to the device recorder (R429, R439). -/
def offer (o : Offer) : Prog := modRec fun r => { r with offers := r.offers ++ [o] }

/-- Trigger a snapshot of page `p` with cause `c` and error code `e` (R437). -/
def snapTrigger (p c e : Nat) : Prog := modRec fun r => { r with trigs := r.trigs ++ [(p, c, e)] }

/-- The state of collector slot `s`: 0 EMPTY, 1 PENDING, 2 CLAIMED (R429). -/
def State.slotSt (s : State) (v : Nat) : Nat := s.fld (ioa 0xE 0x104) (2 * v + 1) (2 * v)

/-- Set the state of a collector slot; ICU source 0x06 is pending while a slot is PENDING (R429). -/
def setSlotSt (v x : Nat) : Prog :=
  block
    [setFld (ioa 0xE 0x104) (2 * v + 1) (2 * v) x,
     ask fun s => icuLevel 6 ((range 0 4).any fun i => s.slotSt i = 1)]

/-- The severity that is claimed, if any. -/
def State.claimed (s : State) : Option Nat := (range 0 4).find? fun i => s.slotSt i = 2

/-- HP.IRQ.ERR in every partition with EVT when a record of severity HOSTMIN or higher was written since the last such
point (R432). -/
def hostErrPoint : Prog :=
  ask fun s =>
    let due := (range (s.fld (ioa 0xE 0x100) 1 0) 4).any fun v => v < 4 && s.dev.stop.hostRecs.getLsbD v
    block
      [onlyIf due (forEach ((range 0 4).filter fun p => s.right p 3) fun p => hpIrq p 2),
       modStop fun x => { x with hostRecs := 0 }]

/-- The point at which the JOB interrupt of a local STOP reaches the hosts (R432). -/
def jobIrqPoint : Prog :=
  block
    [ask fun s => forEach (bitsSet 4 s.dev.stop.parts.toNat) fun p => hpIrq p 1,
     hostErrPoint,
     modStop fun x => { x with forceAt := none }]

/-- Write a record into collector slot `v`, or count it in OVF (R429, R435). -/
def fillSlot (v page code info addr : Nat) : Prog :=
  ask fun s =>
    let b := ioa 0xE (0x110 + 0x20 * v)
    block
      [satAdd (ioa 0xE (0x190 + 4 * v)) 31 0 1,
       modStop fun x => { x with hostRecs := x.hostRecs ||| BitVec.ofNat 4 (2 ^ v) },
       if s.slotSt v = 0 then
         block
           [ioSet b (BitVec.ofNat 32 (page * 2 ^ 16 + code)),
            ioSet (b + 4) (BitVec.ofNat 32 s.beat.toNat),
            ioSet (b + 8) (BitVec.ofNat 32 (s.beat.toNat / 2 ^ 32)),
            ioSet (b + 12) (BitVec.ofNat 32 info),
            setPair (b + 16) addr,
            setSlotSt v 1]
       else satAdd (b + 8) 31 16 1]

/-- What an arriving error of severity `v` does to the claim in progress (R431). -/
def nesting (v : Nat) : Prog :=
  ask fun s =>
    match s.claimed with
    | none => .done
    | some c =>
      block
        [onlyIf (c < v) (block [setSlotSt c 1, setMask (ioa 0xE 0x104) 0x80000000]),
         onlyIf (v = 3 ∧ c < 3 ∨ v = 2 ∧ c = 2)
           (block [setMask (ioa 0xE 0x104) 0x40000000,
                   if s.dev.stop.forceAt.isSome then jobIrqPoint
                   else modStop fun x => { x with forced := s.job }])]

/-- An error reported by the block of page `page` (R427-R432): ERR_STAT, the collector, the recorder, the block's ICU
source and snapshot, STOP for a J error while a job runs, FATAL for an F error. -/
def report (page : Nat) (e : ErrCode) (info addr : Nat) : Prog :=
  ask fun s =>
    let v := effSev (e.floor s.job) (s.ioVal (ioa page 0x18)).toNat
    let masked := (v = 0 ∧ s.fld (ioa page 0x1C) 0 0 = 1) ∨ (v = 1 ∧ s.fld (ioa page 0x1C) 1 1 = 1)
    block
      [setMask (ioa page 0x14) (BitVec.ofNat 32 (2 ^ (28 + v))),
       setFld (ioa page 0x14) 15 0 e.code,
       nesting v,
       fillSlot v page e.code info addr,
       offer { page := page, code := e.code, sev := v,
               payload := toBytes 2 page ++ toBytes 1 v ++ toBytes 1 0 ++ toBytes 4 info ++ toBytes 8 addr },
       onlyIf (¬masked) (match pageSource page with | some n => icuEvent n | none => .done),
       onlyIf (¬masked ∧ s.fld (ioa page 0x40) (v + 1) (v + 1) = 1) (snapTrigger page (v + 2) e.code),
       onlyIf (v = 2 ∧ s.job ∧ s.dev.stop.due = none ∧ s.dev.stop.active = false)
         (modStop fun x => { x with due := some e.code }),
       onlyIf (v = 3)
         (block
           [onlyIf (s.job ∧ s.dev.stop.due = none ∧ s.dev.stop.active = false)
              (block [modStop fun x => { x with due := some e.code },
                      forEach s.jobParts fun p => hpIrq p 1]),
            setFld aState 2 0 6,
            alertSync,
            hostErrPoint])]

end Sys2Proof.Machine
end

