-- ==== Sys2Proof/Machine/Mem.lean ====
section
/-! DEFINITION. Memory: the physical map, DRAM banks, symbol ECC and poison (R162-R182), cross parity (R419-R426), and
byte reads and writes through both. -/
namespace Sys2Proof.Machine

/-! ### The map -/

/-- The base of core `c`'s stage memory (R162). -/
def stageBase (c : Nat) : Nat := 0x20000000000 + c * 0x200000

/-- The base of Caller core `n`'s data SRAM (R162). -/
def callerBase (n : Nat) : Nat := 0x20008000000 + n * 0x100000

/-- The regions of the physical map (R162); `internal` are the SRAMs that lie outside D space. -/
inductive Region where
  | stacked | far | stage (c : Nat) | callerMem (n : Nat) | host (p : Nat) | internal | reserved
  deriving DecidableEq, Repr

/-- The region of a byte address (R162). -/
def region (a : Nat) : Region :=
  if a < 0x4000000000 then .stacked
  else if 0x10000000000 ≤ a ∧ a < 0x20000000000 then .far
  else if 0x20000000000 ≤ a ∧ a < 0x20008000000 then .stage ((a - 0x20000000000) / 0x200000)
  else if 0x20008000000 ≤ a ∧ a < 0x20008400000 then .callerMem ((a - 0x20008000000) / 0x100000)
  else if 0x30000000000 ≤ a ∧ a < 0x40000000000 then .far
  else if 0x40000000000 ≤ a ∧ a < 0x80000000000 then .host ((a - 0x40000000000) / 0x10000000000)
  else if 2 ^ 48 ≤ a then .internal
  else .reserved

/-- The far offset of a far-memory address (R162). -/
def farOff (a : Nat) : Nat := if a < 0x20000000000 then a - 0x10000000000 else a - 0x20000000000

/-- The configured size of the host window of partition `p` in bytes (R163, R349). -/
def State.hwBytes (s : State) (p : Nat) : Nat := min (s.fld (ioa (hpPage p) 0x10C) 10 0) 1024 * 2 ^ 30

/-- The last 16 MiB of far memory: the spill ring and the journal mirrors, which compute cores, Streamers and link
sequencers do not reach (R164, R367, R441). -/
def recordArea (a : Nat) : Bool := decide (0x3FFFF000000 ≤ a ∧ a < 0x40000000000)

/-- A physical byte exists for the agent: not reserved, within a host window's size, the Caller window for Caller cores
only, and of the host windows that of the figure's owner for every agent but a Caller core (R163, R164, R340, R367,
R441). -/
def State.exists (s : State) (caller : Bool) (a : Nat) : Bool :=
  match region a with
  | .stacked | .stage _ => true
  | .far => caller || !recordArea a
  | .callerMem _ => caller
  | .host p => decide ((a - 0x40000000000) % 0x10000000000 < s.hwBytes p) && (caller || decide (p = s.owner))
  | _ => false

/-- The memory identifier, unit and block index of a protected SRAM byte (R424, R426); none in DRAM and host memory. -/
def sramOf (a : Nat) : Option (Nat × Nat × Nat) :=
  match region a with
  | .stage c => some (4, c, (a - stageBase c) / 8)
  | .callerMem n => some (0xB, n, (a - callerBase n) / 8)
  | .internal =>
    let m := (a - 2 ^ 48) / 2 ^ 40
    if 1 ≤ m ∧ m ≤ 0xF then some (m, a / 2 ^ 24 % 2 ^ 16, a % 2 ^ 24 / 8) else none
  | _ => none

/-- The bytes that one code word protects: a block, a sector or a line (R177, R419). -/
def grain (a : Nat) : Nat :=
  match region a with
  | .stacked => 32
  | .far | .host _ => 64
  | _ => 8

/-- The pieces of the `n` bytes from `a` that lie in one grain each. -/
def pieces : Nat → Nat → Nat → List (Nat × Nat)
  | 0, _, _ => []
  | f + 1, a, n =>
    if n = 0 then []
    else
      let m := min n (grain a - a % grain a)
      (a, m) :: pieces f (a + m) (n - m)

/-! ### DRAM banks -/

/-- The DRAM bank of an address: its number, DRAM row, log page, channel and bank fields (R169, R171). -/
def bankOf (a : Nat) : Option (Nat × Nat × Nat × Nat × Nat) :=
  match region a with
  | .stacked =>
    let o := a % 2 ^ 34
    some ((a / 2 ^ 34 * 64 + bits o 13 8) * 32 + bits o 18 14, bits o 33 22, clusPage (a / 2 ^ 34), bits o 13 8,
      bits o 18 14)
  | .far =>
    let f := farOff a
    let g := bits f 13 8
    some (32768 + g * 32 + bits f 18 14, bits f 40 22, fmcPage (g / 4), g % 4, bits f 18 14)
  | _ => none

/-- An enabled BDIS entry names the bank of the address (R182). -/
def State.disabled (s : State) (a : Nat) : Bool :=
  match bankOf a with
  | none => false
  | some (_, _, page, ch, b) =>
    (range 0 8).any fun i =>
      let v := (s.ioVal (ioa page (0x120 + 4 * i))).toNat
      bitAt v 31 && bits v 10 5 = ch && bits v 4 0 = b

/-- Entries of a bank's queue (R172). -/
def bankCap (b : Nat) : Nat := if b < 32768 then 24 else 48

/-- The requests that a requester presents to a bank: those admitted and those that wait for admission (R174). -/
def Bank.presented (k : Bank) (page : Nat) : Nat :=
  (k.queue.filter fun r => r.page = page).length + (k.waiting.filter fun r => r.page = page && r.since.isSome).length

/-- A new request of the requester takes an entry of bank `b` at once: one is free, no presented request waits for it, and
the requester's own earlier ones are admitted (R174). -/
def Bank.takes (k : Bank) (b page : Nat) : Bool :=
  decide (k.queue.length < bankCap b ∧ k.presented page < 32) && k.waiting.all fun r => r.since.isNone && r.page ≠ page

/-- A request for the sector or line of `a` reaches its bank: it is admitted, or waits at its source (R174). A requester
presents at most 32. -/
def bankPut (a : Nat) (r : BReq) : Prog :=
  match bankOf a with
  | none => .done
  | some (b, row, _, _, _) =>
    ask fun s =>
      let k := s.bank b
      let r := { r with addr := a - a % grain a, row := row, since := some s.dev.beat.time }
      modBank b fun x =>
        if k.takes b r.page then { x with queue := x.queue ++ [{ r with data := [], guard := none }] }
        else { x with waiting := x.waiting ++ [if k.presented r.page < 32 then r else { r with since := none }] }

/-- The request of the agent at I/O page `page` for one sector or line. -/
def plainReq (page : Nat) (write : Bool) : BReq :=
  { page := page, addr := 0, row := 0, write := write, passes := 0, promoted := false }

/-- One sector or line is asked for (R174). -/
def bankReq (page a : Nat) (write : Bool) : Prog := bankPut a (plainReq page write)

/-- Every sector or line of a range is asked for once (R174), for the load with stamp `rdr` if one is given. -/
def bankRange (page : Nat) (rdr : Option Nat) (a n : Nat) : Prog :=
  forEach (pieces n a n) fun x => bankPut x.1 { plainReq page false with rdr := rdr }

/-- A request that a condition picks waits for its admission (R174). -/
def State.bankWaits (s : State) (p : BReq → Bool) : Bool := s.dev.banks.any fun k => k.2.waiting.any p

/-- The requests `rs` that wait, behind those of `seen`: one that its requester may now present is, at time `t`, with the
requests of `queue` admitted (R174). -/
def presentFrom (t : Nat) (queue : List BReq) : List BReq → List BReq → List BReq
  | seen, [] => seen
  | seen, r :: rs =>
    let n := (queue.filter fun q => q.page = r.page).length
      + (seen.filter fun q => q.page = r.page && q.since.isSome).length
    presentFrom t queue (seen ++ [if r.since.isNone ∧ n < 32 then { r with since := some t } else r]) rs

/-- Entries of a bank's queue have freed: requests that were held back are presented at time `t` (R174). -/
def Bank.present (t : Nat) (k : Bank) : Bank := { k with waiting := presentFrom t k.queue [] k.waiting }

/-- The requests that a condition picks leave the queues: their data has returned (R176). -/
def bankServed (p : BReq → Bool) : Prog :=
  (Eff.dev fun d =>
    { d with banks := d.banks.map fun k =>
        if k.2.queue.any p then
          (k.1, ({ k.2 with queue := k.2.queue.filter fun r => !p r } : Bank).present d.beat.time)
        else k }).prog

/-- Waiting requests that a condition picks are given up (R211). -/
def bankDrop (p : BReq → Bool) : Prog :=
  (Eff.dev fun d =>
    { d with banks := d.banks.map fun k =>
        if k.2.waiting.any p then (k.1, { k.2 with waiting := k.2.waiting.filter fun r => !p r }) else k }).prog

/-- A request of the load or row with stamp `rdr` of the agent at `page`. -/
def BReq.reads (page rdr : Nat) (r : BReq) : Bool := r.page = page && r.rdr = some rdr && r.strm.isNone

/-- The error log of a stack or FMC (R181). -/
def eccLog (a : Nat) (ue : Bool) (sym : Nat) : Prog :=
  match bankOf a with
  | none => .done
  | some (b, _, page, ch, bk) =>
    ask fun s =>
      let held := s.fld (ioa page 0x104) 31 31 = 1
      let heldUe := s.fld (ioa page 0x104) 30 30 = 1
      block
        [satAdd (ioa page (if ue then 0x114 else 0x110)) 31 0 1,
         modBank b fun k => if ue then { k with ue := min (k.ue + 1) 0xFFFF } else { k with ce := min (k.ce + 1) 0xFFFF },
         if held ∧ (heldUe ∨ ¬ue) then setMask (ioa page 0x104) 0x20000000
         else
           block
             [ioSet (ioa page 0x104) (BitVec.ofNat 32
                (2 ^ 31 + (if ue then 2 ^ 30 else 0) + (if held ∨ s.fld (ioa page 0x104) 29 29 = 1 then 2 ^ 29 else 0)
                  + ch * 2 ^ 11 + bk * 2 ^ 6 + sym)),
              setPair (ioa page 0x108) (a % 2 ^ 44)],
         report page (if ue then .memUe else .memCe) 0 a]

/-! ### Blocks and check bits -/

/-- The stored byte at an address. -/
def State.byte (s : State) (a : Nat) : Byte := Tab.get memDefault s.mem a

/-- The key in `caps` of capability number `ix` of unit `u`. -/
def capKey (u ix : Nat) : Nat := if ix < 256 then u * 512 + 256 + ix else u * 512 + (ix - 256)

/-- The stored data bits of block `k` (R419); those of MEM 0x0A are capabilities. -/
def State.blkData (s : State) (k : Nat) : Nat :=
  match sramOf (8 * k) with
  | some (0xA, u, b) => (Tab.get (fun _ => 0) s.caps (capKey u (b / 2))).toNat / 2 ^ (64 * (b % 2)) % 2 ^ 64
  | _ => ofBytes ((range (8 * k) 8).map s.byte)

/-- The parity of the set bits among the listed bit numbers. -/
def parityOf (v : Nat) (is : List Nat) : Bool := (is.filter fun i => bitAt v i).length % 2 = 1

/-- The number that a list of bits spells, least significant first. -/
def ofBits : List Bool → Nat
  | [] => 0
  | b :: bs => (if b then 1 else 0) + 2 * ofBits bs

/-- The row parities P7–P0 of a block (R419). -/
def rowPar (d : Nat) : Nat := ofBits ((range 0 8).map fun r => parityOf d (range (8 * r) 8))

/-- The column parities Q7–Q0 of a block (R419). -/
def colPar (d : Nat) : Nat := ofBits ((range 0 8).map fun c => parityOf d ((range 0 8).map fun r => 8 * r + c))

/-- The check bits of a block. -/
structure Chk where
  vs : Nat
  col : Nat
  row : Nat
  deriving DecidableEq, Repr

/-- The check bits of block `k`: those given explicitly, else those of an ordinary write, or unwritten while every byte
reads zero (R419, R420). -/
def State.chk (s : State) (k : Nat) : Chk :=
  let x := (Tab.get (fun _ => 0) s.xp k).toNat
  let d := s.blkData k
  if bitAt x 18 then { vs := bits x 17 16, col := bits x 15 8, row := bits x 7 0 }
  else if d = 0 then { vs := 0, col := 0, row := 0 }
  else { vs := 3, col := colPar d, row := rowPar d }

/-- Store explicit check bits. -/
def setChk (k : Nat) (c : Chk) : Prog :=
  (Eff.xp k (BitVec.ofNat 19 (2 ^ 18 + c.vs % 4 * 2 ^ 16 + c.col % 256 * 2 ^ 8 + c.row % 256))).prog

/-- The row and column syndromes of block `k` (R421). -/
def State.syndromes (s : State) (k : Nat) : Nat × Nat :=
  let c := s.chk k
  (Nat.xor c.row (rowPar (s.blkData k)), Nat.xor c.col (colPar (s.blkData k)))

/-- The class of a read of block `k` (R421); 0 is clean, unwritten or poisoned. -/
def State.blkClass (s : State) (k : Nat) : Nat :=
  let c := s.chk k
  if c.vs = 1 then 5
  else if c.vs ≠ 3 then 0
  else
    let (rs, cs) := s.syndromes k
    let nr := (bitsSet 8 rs).length
    let nc := (bitsSet 8 cs).length
    if nr = 0 ∧ nc = 0 then 0
    else if nr = 1 ∧ nc = 1 then 1
    else if nr = 1 ∧ nc = 0 then 2
    else if nr = 0 ∧ nc = 1 then 3
    else 4

/-- The data that a read of block `k` returns (R420, R421). -/
def State.blkVal (s : State) (k : Nat) : Nat :=
  let d := s.blkData k
  if (s.chk k).vs = 0 then 0
  else if s.blkClass k = 1 then
    let (rs, cs) := s.syndromes k
    Nat.xor d (2 ^ (8 * (bitsSet 8 rs).headD 0 + (bitsSet 8 cs).headD 0))
  else d

/-- A read of block `k` gives poisoned data: marked so, or uncorrectable (R420, R424). -/
def State.blkBad (s : State) (k : Nat) : Bool := (s.chk k).vs = 2 || 4 ≤ s.blkClass k

/-- The byte that a read of address `a` returns. -/
def State.rdByte (s : State) (a : Nat) : Byte := BitVec.ofNat 8 (s.blkVal (a / 8) / 2 ^ (8 * (a % 8)))

/-- The bytes that a read of `n` bytes at `a` returns. -/
def State.rd (s : State) (a n : Nat) : List Byte := (range a n).map s.rdByte

/-- The unsigned value of `n` little-endian bytes at `a`. -/
def State.rdNat (s : State) (a n : Nat) : Nat := ofBytes (s.rd a n)

/-- A byte is poisoned: its block is, or its DRAM bank is disabled (R178, R182). -/
def State.poisoned (s : State) (a : Nat) : Bool := s.blkBad (a / 8) || s.disabled a

/-- The first poisoned byte of a read (R178). -/
def State.poisonIn (s : State) (a n : Nat) : Option Nat := (range a n).find? s.poisoned

/-! ### Reads with their effects -/

/-- The SRAM log of the ERR page and the error of the class (R421, R425); `ce` reports a refilled cache line as
corrected (R424). -/
def xpLog (m unit blk cls rs cs : Nat) (ce : Bool) : Prog :=
  ask fun s =>
    let ue := 4 ≤ cls
    let a := ioa 0xE 0x1A0
    let held := s.fld a 31 31 = 1
    block
      [satAdd (ioa 0xE (if ue ∧ ¬ce then 0x1B0 else 0x1AC)) 31 0 1,
       if held ∧ (s.fld a 30 30 = 1 ∨ ¬ue) then setMask a 0x20000000
       else
         block
           [ioSet a (BitVec.ofNat 32
              (2 ^ 31 + (if ue then 2 ^ 30 else 0) + (if held ∨ s.fld a 29 29 = 1 then 2 ^ 29 else 0)
                + m % 64 * 2 ^ 23 + unit % 64 * 2 ^ 17 + cls * 2 ^ 14)),
            ioSet (a + 4) (BitVec.ofNat 32 (blk % 2 ^ 18)),
            ioSet (a + 8) (BitVec.ofNat 32 (cs * 256 + rs))],
       report 0xE (if ue ∧ ¬ce then .sramUe else .sramCe) 0 0]

/-- Write the eight bytes of a block as they are. -/
def setBlk (k v : Nat) : Prog :=
  match sramOf (8 * k) with
  | some (0xA, u, b) =>
    ask fun s =>
      let old := (Tab.get (fun _ => 0) s.caps (capKey u (b / 2))).toNat
      let v := v % 2 ^ 64
      (Eff.cap (capKey u (b / 2)) (BitVec.ofNat 128
        (if b % 2 = 0 then old / 2 ^ 64 * 2 ^ 64 + v else v * 2 ^ 64 + old % 2 ^ 64))).prog
  | _ => forEach (range 0 8) fun i => (Eff.mem (8 * k + i) (BitVec.ofNat 8 (v / 256 ^ i))).prog

/-- The check bits of an ordinary whole-block write (R419, R423): fresh parities, written. -/
def freshChk (k v : Nat) : Prog :=
  if v = 0 ∧ region (8 * k) ≠ .stacked ∧ region (8 * k) ≠ .far then setChk k { vs := 3, col := 0, row := 0 }
  else (Eff.xp k 0).prog

/-- What a read of SRAM block `k` does beside returning data (R421, R424): the log, the corrected write back, or the
poison mark. -/
def touchBlk (k : Nat) : Prog :=
  ask fun s =>
    match sramOf (8 * k), s.blkClass k with
    | none, _ => .done
    | some _, 0 => .done
    | some (m, u, b), cls =>
      let (rs, cs) := s.syndromes k
      block
        [xpLog m u b cls rs cs (m = 9 || m = 0xC),
         if cls ≤ 3 then block [setBlk k (s.blkVal k), freshChk k (s.blkVal k)]
         else if m = 1 ∨ m = 2 ∨ m = 3 ∨ m = 9 ∨ m = 0xA ∨ m = 0xC then .done
         else setChk k { s.chk k with vs := 2 }]

/-- The effects of a read of `n` bytes at `a`: SRAM checks, and the log of a disabled bank (R182). -/
def touch (a n : Nat) : Prog :=
  forEach (pieces n a n) fun (b, _) =>
    match bankOf b with
    | some (_, _, page, _, _) => ask fun s => onlyIf (s.disabled b) (report page .bankDisabled 0 b)
    | none => touchBlk (b / 8)

/-! ### Writes -/

/-- A write of one piece is discarded: its DRAM bank is disabled, or it covers part of a poisoned grain
(R179, R182, R423). -/
def State.pieceLost (s : State) (a n : Nat) : Bool :=
  s.disabled a || (n < grain a && s.blkBad (a / 8) && region a ≠ .host ((a - 0x40000000000) / 0x10000000000))

/-- Some byte of a write is discarded for poison (R382). -/
def State.writeLost (s : State) (a n : Nat) : Bool := (pieces n a n).any fun (b, m) => s.pieceLost b m

/-- Store the bytes without any check. -/
def setBytes : Nat → List Byte → Prog
  | _, [] => .done
  | a, b :: bs => (Eff.mem a b).prog.andThen (setBytes (a + 1) bs)

/-- Write one piece: bytes within one block, sector or line (R179, R182, R423). -/
def writePiece (a : Nat) (bs : List Byte) : Prog :=
  ask fun s =>
    match bankOf a with
    | some (_, _, page, _, _) =>
      if s.disabled a then report page .bankDisabled 0 a
      else if bs.length < grain a ∧ s.blkBad (a / 8) then eccLog a true 0x3F
      else
        block
          [setBytes a bs,
           onlyIf (bs.length = grain a) (forEach (range (a / 8) (grain a / 8)) fun k => (Eff.xp k 0).prog)]
    | none =>
      match sramOf a with
      | none => setBytes a bs
      | some _ =>
        block
          [onlyIf (bs.length < 8) (touchBlk (a / 8)),
           ask fun s =>
             if bs.length < 8 ∧ s.blkBad (a / 8) then .done
             else
               block
                 [onlyIf ((s.chk (a / 8)).vs = 0) (setBlk (a / 8) 0),
                  setBytes a bs,
                  ask fun s => freshChk (a / 8) (s.blkData (a / 8))]]

/-- Write bytes at a physical address. -/
def writeAt (a : Nat) (bs : List Byte) : Prog :=
  forEach (pieces bs.length a bs.length) fun (b, m) => writePiece b ((bs.drop (b - a)).take m)

/-- Clear the blocks of a region: unwritten, every byte zero (R423). -/
def clearAt (a n : Nat) : Prog := block [(Eff.memClear a n).prog, (Eff.xpClear (a / 8) (n / 8)).prog]

/-- Poison the sector, line or block of an address (R178, R424). -/
def poisonAt (a : Nat) : Prog :=
  ask fun s =>
    forEach (range (a / grain a * grain a / 8) (grain a / 8)) fun k =>
      setChk k { s.chk k with vs := 2 }

/-- The bytes of a sector or line take free values (log entry 3). -/
def scramble (a : Nat) : Prog :=
  forEach (range (a - a % grain a) (grain a)) fun x =>
    ask fun s => block [(Eff.mem x (s.freeVal.setWidth 8)).prog, useFree]

/-- What a DRAM read's symbol code finds (R177, R178, R181). An error that escapes the code leaves bytes for which the
device gives no guarantee. -/
def eccEvent (a : Nat) (e : Ecc) : Prog :=
  onlyIf (bankOf a ≠ none)
    (match e with
     | .clean => .done
     | .corrected sym => eccLog a false sym.val
     | .uncorrectable => block [poisonAt a, eccLog a true 0x3F]
     | .escaped none => scramble a
     | .escaped (some sym) => block [scramble a, eccLog a false sym.val])

/-! ### Partition translation -/

/-- What a translation answers: the physical address, a page fault, or poison in the walk at an address (R167, R168). -/
inductive Tr where
  | ok (pa : Nat)
  | page
  | poison (a : Nat)
  deriving DecidableEq, Repr

/-- The mask of a leaf's offset at level `l`: 4 KiB, 2 MiB, 1 GiB (R165). -/
def leafBits (l : Nat) : Nat := 12 + 9 * l

/-- A leaf permits the access and has no misaligned or reserved bit (R166, R167). -/
def leafOk (l : Nat) (e : Nat) (rd wr : Bool) : Bool :=
  bits e 43 12 * 2 ^ 12 % 2 ^ leafBits l = 0 && !bitAt e 4 && (!rd || bitAt e 2) && (!wr || bitAt e 3)

/-- Walk the table at `base` from level `l` (R165-R168): the level and entry of the leaf. -/
def State.walk (s : State) (va : Nat) : Nat → Nat → Except Tr (Nat × Nat)
  | l, base =>
    let a := base + bits va (leafBits l + 8) (leafBits l) % (if l = 3 then 32 else 512) * 8
    let ok := region a = .stacked ∨ region a = .far
    if ¬ok then .error .page
    else if s.poisoned a then .error (.poison a)
    else
      let e := s.rdNat a 8
      if ¬(bitAt e 0 ∧ bits e 63 44 = 0 ∧ bits e 11 5 = 0) then .error .page
      else if bitAt e 1 then (if l = 3 then .error .page else .ok (l, e))
      else
        match l with
        | 0 => .error .page
        | l' + 1 => s.walk va l' (bits e 43 12 * 2 ^ 12)

/-- The entries that the walk from level `l` of the table at `base` reads (R165, R168). -/
def State.walkAddrs (s : State) (va : Nat) : Nat → Nat → List Nat
  | l, base =>
    let a := base + bits va (leafBits l + 8) (leafBits l) % (if l = 3 then 32 else 512) * 8
    let e := s.rdNat a 8
    if ¬(region a = .stacked ∨ region a = .far) then []
    else
      match l with
      | 0 => [a]
      | l' + 1 =>
        if s.poisoned a ∨ ¬bitAt e 0 ∨ bitAt e 1 ∨ bits e 63 44 ≠ 0 ∨ bits e 11 5 ≠ 0 then [a]
        else a :: s.walkAddrs va l' (bits e 43 12 * 2 ^ 12)

/-- The root of the partition translation table of the figure's owner (R165, R349). -/
def State.pttRoot (s : State) : Nat :=
  let a := ioa (hpPage s.owner) 0x104
  s.fld a 31 12 * 2 ^ 12 + s.fld (a + 4) 11 0 * 2 ^ 32

/-- The cached leaf of an address, if any (R168). -/
def tlbFind (t : List TlbEntry) (va : Nat) : Option TlbEntry :=
  t.find? fun e => va / 2 ^ leafBits e.level = e.page

/-- Translate a partition address (R165-R168) with the cached entries `t`. -/
def State.translate (s : State) (t : List TlbEntry) (va : Nat) (rd wr : Bool) : Tr :=
  if 2 ^ 44 ≤ va then .page
  else
    let leaf : Except Tr (Nat × Nat) := match tlbFind t va with
      | some e => .ok (e.level, e.entry.toNat)
      | none => s.walk va 3 s.pttRoot
    match leaf with
    | .error r => r
    | .ok (l, e) =>
      if leafOk l e rd wr then
        let pa := bits e 43 12 * 2 ^ 12 + va % 2 ^ leafBits l
        if s.exists false pa then .ok pa else .page
      else .page

/-- The cached entries after a use of `va` (R168): a missing leaf is added; when `cap` entries are held, a victim that
the spec does not name gives way (a free value). -/
def State.tlbAfter (s : State) (cap : Nat) (t : List TlbEntry) (va : Nat) : List TlbEntry :=
  if 2 ^ 44 ≤ va then t
  else
    match tlbFind t va, s.walk va 3 s.pttRoot with
    | none, .ok (l, e) =>
      let x : TlbEntry := { page := va / 2 ^ leafBits l, level := l, entry := BitVec.ofNat 64 e }
      if t.length < cap then t ++ [x] else t.set (s.freeVal.toNat % cap) x
    | _, _ => t

/-- The translation of a unit's own access: Caller cores address physical D space, and so does a link sequencer its
data memory elsewhere; compute cores translate (R164, R168). -/
def State.tr (s : State) (u va : Nat) (rd wr : Bool) : Tr :=
  if 64 ≤ u then (if va < 2 ^ 44 ∧ s.exists true va then .ok va else .page)
  else s.translate (s.hart u).tlb va rd wr

/-- The reads of a walk ask their banks (R168, R174), and those of a disabled bank are logged (R182). -/
def walkReqs (page va : Nat) : Prog :=
  ask fun s =>
    onlyIf (va < 2 ^ 44)
      (forEach (s.walkAddrs va 3 s.pttRoot) fun a => block [bankReq page a false, touch a 8])

/-- A translation that fails has walked the table, unless a cached leaf denied it (R168). -/
def trFailed (u va : Nat) : Prog :=
  ask fun s => onlyIf (u < 64 ∧ tlbFind (s.hart u).tlb va = none) (walkReqs (unitPage u) va)

/-- Keep the translation cache of a compute core after a use of `va`; a miss walks the table (R168). -/
def trUse (u va : Nat) : Prog :=
  if 64 ≤ u then .done
  else ask fun s =>
    let t := (s.hart u).tlb
    let t' := s.tlbAfter 64 t va
    onlyIf (t' ≠ t)
      (block [walkReqs (unitPage u) va, modHart u fun h => { h with tlb := t' }, onlyIf (t.length = 64) useFree])

/-! ### Durable ranges -/

/-- The agent word of a DURABLE_WRITE record (R216). -/
def Writer.info : Writer → Nat
  | .core c => 0x1000000 + c
  | .strm c => 0x2000000 + c
  | .seq l => 0x3000000 + l
  | .other => 0

/-- A write touches an enabled durable range (R215, R216). -/
def State.durable (s : State) (va n : Nat) : Bool :=
  (range 0 16).any fun i =>
    let base := s.fld (ioa 0xD0 (0x180 + 8 * i)) 22 0 * 2 ^ 21
    let size := s.fld (ioa 0xD0 (0x184 + 8 * i)) 22 0 * 2 ^ 21
    decide (0 < size ∧ va < base + size ∧ base < va + n)

/-- UPD.STEPSTAT. -/
abbrev aStepStat : Nat := ioa 0xD0 0x10C

/-- STEPSTAT.OUTCOME: 0 none, 1 APPLY, 2 SKIP, 3 STOP (R235). -/
def State.outcome (s : State) : Nat := s.fld aStepStat 27 26

/-- STEPSTAT.PHASE: 0 no job, 1 running with the window closed, 2 window open, 3 STOPPED (R235). -/
def State.phase (s : State) : Nat := s.fld aStepStat 25 24

/-- The update window is open (R216). -/
def State.window (s : State) : Bool := s.phase = 2

/-- The writes of a part become visible in a range that the window does not admit (R216): each is counted or reported. -/
def refuseWrites (g : Guard) : Prog :=
  ask fun s =>
    if s.window then onlyIf (g.leads ≠ []) (satAdd (ioa 0xD0 0x11C) 31 0 g.leads.length)
    else forEach g.leads fun a => report 0xD0 .durableWrite g.w.info a

/-- A write that becomes visible is discarded (R216). -/
def State.refuses (s : State) (g : Guard) : Bool :=
  g.w ≠ .other && s.durable g.va g.n && !(s.window && s.outcome = 1)

/-- The durable-range check of R216 on a part of a store that becomes visible: `p` performs it. -/
def guarded (g : Guard) (p : Prog) : Prog := ask fun s => if s.refuses g then refuseWrites g else p

/-- The durable-range check of R216 on a write of `n` bytes at partition address `va` that becomes visible: `p` performs
it. -/
def guardD (w : Writer) (va n : Nat) (p : Prog) : Prog := guarded { w := w, va := va, n := n, leads := [va] } p

/-- A write that becomes visible at partition address `va`, physical address `pa` (R216). -/
def storeD (w : Writer) (va pa : Nat) (bs : List Byte) : Prog := guardD w va bs.length (writeAt pa bs)

end Sys2Proof.Machine
end

