-- ==== Sys2Proof/Machine/Cache.lean ====
section
/-! DEFINITION. The merging buffer and the data cache of a core (R184-R189), and the direct accesses of its other units
that bypass them. -/
namespace Sys2Proof.Machine

/-- The agent of a core's own writes (R216): Caller cores are not checked. -/
def coreWriter (u : Nat) : Writer := if u < 64 then .core u else .other

/-! ### The cache -/

/-- Whether two ranges have a byte in common. -/
def meets (a n b m : Nat) : Bool := decide (a < b + m ∧ b < a + n)

/-- Sets of the data cache; a Caller core's 32 KiB cache has 8 ways of 64 sets (log entry 12). -/
def cacheSets (u : Nat) : Nat := if u < 64 then 128 else 64

/-- The address in `mem` of cache line `i` = set × 8 + way of core `u` (R184, R424). -/
def cacheAddr (u i : Nat) : Nat :=
  let off := (i % 8 * cacheSets u + i / 8) * 64
  if u < 64 then sram 9 u off else sram 0xC (u - 64) off

/-- The indices of the eight ways that a line may occupy. -/
def cacheWays (u line : Nat) : List Nat := range (line / 64 % cacheSets u * 8) 8

/-- Line entry `i`. -/
def Hart.line (h : Hart) (i : Nat) : Option CLine := Tab.get (fun _ => none) h.cache i

/-- The way that holds a line, if any. -/
def State.cacheHit (s : State) (u pa : Nat) : Option Nat :=
  let line := pa - pa % 64
  (cacheWays u line).find? fun i =>
    match (s.hart u).line i with
    | some c => c.line = line
    | none => false

/-- Set a line entry. -/
def setLine (u i : Nat) (c : Option CLine) : Prog :=
  modHart u fun h => { h with cache := Tab.put (fun _ => none) h.cache i c }

/-- CLUS.DCCTLj of a core (R190). -/
def aDcctl (c : Nat) : Nat := ioa (clusPage (c / 4)) (0x180 + 4 * (c % 4))

/-- The ways that may allocate (R189); all ways of a Caller cache. -/
def State.allocOk (s : State) (u i : Nat) : Bool :=
  if u < 64 then
    let v := (s.ioVal (aDcctl u)).toNat
    bitAt (bits v 15 8) (i % 8) && !bitAt (bits v 5 0) (i % 8)
  else true

/-- A way that CINV keeps: locked (R189). -/
def State.wayLocked (s : State) (u i : Nat) : Bool := u < 64 && bitAt (s.fld (aDcctl u) 5 0) (i % 8)

/-- Mark a line as last used. -/
def useLine (u i : Nat) : Prog :=
  ask fun s =>
    match (s.hart u).line i with
    | none => .done
    | some c =>
      let top := (range (i / 8 * 8) 8).foldl (fun m j => max m (((s.hart u).line j).elim 0 CLine.used)) 0
      setLine u i (some { c with used := top + 1 })

/-- The way a fill takes among those that may allocate: the first empty one, else the least recently used (R184). -/
def State.victim (s : State) (u line : Nat) : Option Nat :=
  let ways := (cacheWays u line).filter fun i => s.allocOk u i
  match ways.find? fun i => (s.hart u).line i = none with
  | some i => some i
  | none =>
    ways.foldl (fun best i =>
      match best with
      | none => some i
      | some b => if ((s.hart u).line i).elim 0 CLine.used < ((s.hart u).line b).elim 0 CLine.used then some i else some b)
      none

/-- Copy memory line `line` to cache line `i`, poison included (R178). -/
def copyLine (u i line : Nat) : Prog :=
  forEach (range 0 8) fun k =>
    ask fun s =>
      let src := line / 8 + k
      let dst := cacheAddr u i / 8 + k
      if s.poisoned (line + 8 * k) then block [setBlk dst (s.blkVal src), setChk dst { vs := 2, col := 0, row := 0 }]
      else block [setBlk dst (s.blkVal src), freshChk dst (s.blkVal src)]

/-- Write bytes into the cached copy of their lines, where there is one (R84, R122, R151, R185). -/
def cacheWrite (u pa : Nat) (bs : List Byte) : Prog :=
  forEach (pieces bs.length pa bs.length) fun (b, m) =>
    ask fun s =>
      match s.cacheHit u b with
      | none => .done
      | some i => writeAt (cacheAddr u i + b % 64) ((bs.drop (b - pa)).take m)

/-! ### The merging buffer -/

/-- The byte that the merging buffer holds for a physical address (R186). -/
def Hart.mbByte (h : Hart) (pa : Nat) : Option Byte :=
  match h.mbuf.find? fun e => e.line = pa - pa % 64 with
  | none => none
  | some e => (e.bytes.find? fun b => b.1 = pa % 64).map Prod.snd

/-- The maximal runs of bytes at consecutive offsets. -/
def runs : List (Nat × Byte) → List (Nat × List Byte)
  | [] => []
  | (o, b) :: t =>
    match runs t with
    | (o', bs) :: r => if o' = o + 1 then (o, b :: bs) :: r else (o, [b]) :: (o', bs) :: r
    | [] => [(o, [b])]

/-- The byte of a store of the agent at `page` that its bank has not admitted (R175, R187): the newest. -/
def State.postedByte (s : State) (page pa : Nat) : Option Byte :=
  match bankOf pa with
  | none => none
  | some (b, _) =>
    ((s.bank b).waiting.filter fun r => r.page = page).foldl
      (fun m r => match r.data.find? fun x => x.1 = pa with | some x => some x.2 | none => m) none

/-- The byte that the core's own stores not yet visible give an address (R175, R186). -/
def State.ownByte (s : State) (u pa : Nat) : Option Byte :=
  match (s.hart u).mbByte pa with
  | some b => some b
  | none => s.postedByte (unitPage u) pa

/-- The unit whose requests a DRAM bank knows by an I/O page (R174). -/
def pageUnit (page : Nat) : Option Nat :=
  if 0x20 ≤ page ∧ page < 0x60 then some (page - 0x20)
  else if 0x60 ≤ page ∧ page < 0x64 then some (page - 0x60 + 64)
  else none

/-- No store of the unit waits to be admitted, nor in the tile queue for its interlocks (R68, R187). -/
def State.postsDone (s : State) (u : Nat) : Bool :=
  !(s.bankWaits fun r => r.page = unitPage u && r.write && r.strm.isNone) && (s.hart u).tq.all fun q => q.stores.isEmpty

/-- No store of the unit waits to become visible: the merging buffer is empty as well (R68, R71, R187). -/
def State.storesVisible (s : State) (u : Nat) : Bool := (s.hart u).mbuf = [] && s.postsDone u

/-- Set byte `o` of an entry, offsets ascending. -/
def mbPut (o : Nat) (b : Byte) : List (Nat × Byte) → List (Nat × Byte)
  | [] => [(o, b)]
  | (p, c) :: t => if o < p then (o, b) :: (p, c) :: t else if o = p then (o, b) :: t else (p, c) :: mbPut o b t

/-- The bytes of a direct read of a core: its own stores not yet visible, else memory (R84, R175). -/
def State.viewBytes (s : State) (u pa n : Nat) : List Byte :=
  (range pa n).map fun a =>
    match s.ownByte u a with
    | some b => b
    | none => s.rdByte a

/-- The first poisoned byte of a direct read. -/
def State.viewPoison (s : State) (u pa n : Nat) : Option Nat :=
  (range pa n).find? fun a => s.ownByte u a = none && s.poisoned a

/-- The cached copy of a range follows the core's own view of it (R84, R122, R151, R185). -/
def cacheSync (u pa n : Nat) : Prog :=
  forEach (pieces n pa n) fun (b, m) =>
    ask fun s =>
      match s.cacheHit u b with
      | none => .done
      | some i => writeAt (cacheAddr u i + b % 64) (s.viewBytes u b m)

/-- The bytes of a store, all in one sector, line or block, become visible, and the cached copies of the agent at `page`
follow (R178, R187, R208). -/
def landBytes (page : Nat) (xs : List (Nat × Byte)) (poison : Bool) : Prog :=
  block
    [forEach (runs xs) fun (a, bs) => writeAt a bs,
     onlyIf poison (poisonAt (xs.headD (0, 0)).1),
     match pageUnit page with
     | some u => forEach (runs xs) fun (a, bs) => cacheSync u a bs.length
     | none => .done]

/-- The guard of a request. -/
def BReq.guardOf (r : BReq) : Guard := r.guard.getD { w := .other, va := 0, n := 0, leads := [] }

/-- An admitted store becomes visible (R187, R216). -/
def landStore (r : BReq) : Prog := onlyIf (r.data ≠ []) (guarded r.guardOf (landBytes r.page r.data r.poison))

/-- A store of bytes that all lie in one sector, line or block: to DRAM it is posted and becomes visible when its bank
admits it, elsewhere at once (R174, R187). -/
def storeGrain (page : Nat) (g : Guard) (xs : List (Nat × Byte)) (poison : Bool) : Prog :=
  let a := (xs.headD (0, 0)).1
  let r : BReq := { plainReq page true with data := xs, guard := some g, poison := poison }
  match bankOf a with
  | none => guarded g (landBytes page xs poison)
  | some (b, _) => ask fun s => block [bankPut a r, onlyIf ((s.bank b).takes b page) (landStore r)]

/-- An entry drains (R185): one store of its line, a request for each of its sectors in DRAM (R174). -/
def drainEntry (u : Nat) (e : MbEntry) : Prog :=
  let first := e.line + (e.bytes.headD (0, 0)).1
  forEach (pieces 64 e.line 64) fun (a, m) =>
    let part := e.bytes.filter fun b => decide (a ≤ e.line + b.1 ∧ e.line + b.1 < a + m)
    let va := e.va.toNat + (e.bytes.headD (0, 0)).1
    onlyIf (part ≠ [])
      (storeGrain (unitPage u)
        { w := coreWriter u, va := va, n := 1, leads := if a ≤ first ∧ first < a + m then [va] else [] }
        (part.map fun b => (e.line + b.1, b.2)) false)

/-- The oldest entry drains (R185). -/
def drainOldest (u : Nat) : Prog :=
  ask fun s =>
    match (s.hart u).mbuf with
    | [] => .done
    | e :: es => block [modHart u fun h => { h with mbuf := es }, drainEntry u e]

/-- Every entry drains, in allocation order (R71, R185, R191). -/
def drainAll (u : Nat) : Prog :=
  ask fun s =>
    block [modHart u fun h => { h with mbuf := [] }, forEach (s.hart u).mbuf (drainEntry u)]

/-- The entries up to the last that overlaps a range drain, so that a direct write lands after the earlier stores. -/
def drainOver (u pa n : Nat) : Prog :=
  ask fun s =>
    onlyIf ((s.hart u).mbuf.any fun e => decide (e.line < pa + n ∧ pa < e.line + 64)) (drainAll u)

/-- A scalar store (R185): it merges into the entry of its line, or takes a new one. -/
def mbStore (u va pa : Nat) (bs : List Byte) : Prog :=
  ask fun s =>
    let line := pa - pa % 64
    let add (l : List (Nat × Byte)) := (bs.zipIdx).foldl (fun l b => mbPut (pa % 64 + b.2) b.1 l) l
    let mbuf := (s.hart u).mbuf
    block
      [if mbuf.any fun e => e.line = line then
         modHart u fun h => { h with mbuf := h.mbuf.map fun e => if e.line = line then { e with bytes := add e.bytes } else e }
       else
         block
           [onlyIf (16 ≤ mbuf.length) (drainOldest u),
            modHart u fun h =>
              { h with mbuf := h.mbuf ++ [{ line := line, va := BitVec.ofNat 64 (va - va % 64), bytes := add [],
                                             born := s.dev.beat.time, stamp := h.stamps }] }],
       cacheWrite u pa bs]

/-! ### Scalar reads -/

/-- The data tiers whose scalar loads allocate lines (R184). -/
def cachedTier (pa : Nat) : Bool := region pa = .stacked || region pa = .far

/-- The way that serves a scalar load, if the line is cached and readable (R184, R424). -/
def State.loadHit (s : State) (u pa : Nat) : Option Nat := if cachedTier pa then s.cacheHit u pa else none

/-- The place of a byte that a scalar load reads behind the merging buffer. -/
def State.loadPlace (s : State) (u pa : Nat) : Nat :=
  match s.loadHit u pa with
  | some i => cacheAddr u i + pa % 64
  | none => pa

/-- The bytes of a scalar load of unit `u` (R186). -/
def State.loadBytes (s : State) (u pa n : Nat) : List Byte :=
  (range pa n).map fun a =>
    match s.ownByte u a with
    | some b => b
    | none => s.rdByte (s.loadPlace u a)

/-- The first poisoned byte that a scalar load consumes (R178). -/
def State.loadPoison (s : State) (u pa n : Nat) : Option Nat :=
  (range pa n).find? fun a => s.ownByte u a = none && s.poisoned (s.loadPlace u a)

/-- A cache line whose block reads as uncorrectable is refilled from memory (R424). -/
def refill (u pa : Nat) : Prog :=
  ask fun s =>
    match s.loadHit u pa with
    | none => .done
    | some i =>
      let k := (cacheAddr u i + pa % 64) / 8
      onlyIf (4 ≤ s.blkClass k) (block [touchBlk k, copyLine u i (pa - pa % 64)])

/-- Install a line after a miss, with the bytes the merging buffer holds for it (R184, R186). -/
def fillLine (u line : Nat) : Prog :=
  ask fun s =>
    match s.cacheHit u line, s.victim u line with
    | none, some i =>
      block
        [copyLine u i line,
         setLine u i (some { line := line, used := 0 }),
         useLine u i,
         ask fun s =>
           forEach ((s.hart u).mbuf.filter fun e => e.line = line) fun e =>
             forEach (runs e.bytes) fun (o, bs) => writeAt (cacheAddr u i + o) bs]
    | _, _ => .done

/-- A fill of the core is in flight: a load's or a prefetch's (R187, R189). -/
def Hart.filling (h : Hart) : Bool := !h.fills.isEmpty || h.shadows.any fun x => x.fill.isSome

/-- A write of DCCTLj takes effect once no fill of its core is in flight (R189). -/
def dcctlSettle (u : Nat) : Prog :=
  ask fun s =>
    match (s.hart u).dcctl with
    | none => .done
    | some v => onlyIf (¬(s.hart u).filling) (block [ioSet (aDcctl u) v, modHart u fun h => { h with dcctl := none }])

/-- Invalidate the lines of the unlocked ways (R187, R189). -/
def cinvLines (u : Nat) : Prog :=
  ask fun s =>
    modHart u fun h => { h with cache := Tab.drop (fun i => !s.wayLocked u i) h.cache }

/-! ### Stride prefetch -/

/-- The detectors after a miss of the load at `pc` on line number `l`, and the lines to prefetch (R188). -/
def detect (ds : List Detector) (pc : BitVec 18) (l : Nat) : List Detector × List Nat :=
  let top := ds.foldl (fun m d => max m d.used) 0 + 1
  match ds.find? fun d => d.pc = pc with
  | none =>
    let new : Detector := { pc := pc, line := l, stride := 0, used := top }
    if ds.length < 16 then (ds ++ [new], [])
    else
      let old := ds.foldl (fun m d => min m d.used) top
      (ds.map (fun d => if d.used = old then new else d), [])
  | some d =>
    let st : Int := (l : Int) - d.line
    let ok : Bool := st ≠ 0 ∧ -32 ≤ st ∧ st ≤ 32
    let new : Detector := { pc := pc, line := l, stride := if ok then st else 0, used := top }
    (ds.map (fun e => if e.pc = pc then new else e),
     if ok ∧ st = d.stride then
       ((range 1 4).map fun i : Nat => (l : Int) + i * st).filterMap fun x => if 0 ≤ x then some x.toNat else none
     else [])

/-- A miss of a scalar load trains the stride detectors and requests lines that are not present (R188): each is translated
like a load and asks its bank; one that would fault is dropped. -/
def trainPrefetch (u : Nat) (pc : BitVec 18) (va : Nat) : Prog :=
  ask fun s =>
    onlyIf (u < 64 ∧ s.fld (aDcctl u) 16 16 = 1)
      (let (ds, ls) := detect (s.hart u).dets pc (va / 64)
       block
         [modHart u fun h => { h with dets := ds },
          forEach ls fun l => ask fun s =>
            match s.tr u (64 * l) true false with
            | .ok pa =>
              block
                [trUse u (64 * l),
                 onlyIf (cachedTier pa ∧ s.cacheHit u pa = none)
                   (ask fun s =>
                     let n := (s.hart u).stamps + 1
                     block
                       [touch (pa - pa % 64) 64,
                        bankRange (unitPage u) (some n) (pa - pa % 64) 64,
                        modHart u fun h => { h with fills := h.fills ++ [(64 * l, n)], stamps := n }])]
            | _ => walkReqs (unitPage u) (64 * l)])

/-! ### Direct writes -/

/-- One store of the bytes at partition address `va`, whose physical pieces are `ps`, by a core's vector, tile, array or UPD
work or an exception frame (R84, R122, R151, R179, R216): it follows the earlier buffered stores. `bad` are the places of
poisoned bytes. -/
def storeRow (u va : Nat) (ps : List (Nat × Nat × Nat)) (bs : List Byte) (bad : List Nat) : Prog :=
  forEach ps fun (a, pa, m) =>
    block
      [drainOver u pa m,
       forEach (pieces m pa m) fun (b, k) =>
         let o := (a - va) + (b - pa)
         storeGrain (unitPage u)
           { w := coreWriter u, va := va, n := bs.length, leads := if b = pa ∧ a = va then [va] else [] }
           ((((bs.drop o).take k).zipIdx).map fun x => (b + x.2, x.1))
           (bad.any fun i => decide (o ≤ i ∧ i < o + k))]

/-- A store of its own to one page (R216). -/
def directStore (u va pa : Nat) (bs : List Byte) : Prog := storeRow u va [(va, pa, bs.length)] bs []

/-- The entries of a list that the value of a function groups, each group with its value, in order of first use. -/
def groupOn (k : α → Nat) (xs : List α) : List (Nat × List α) :=
  ((xs.map k).eraseDups).map fun b => (b, xs.filter fun x => k x = b)

/-- Stores in ascending order of their list (R151, R179): each has a partition address, a physical address, its bytes, and
whether they are poisoned. The bytes of one sector, line or block form one request, with the guard of its stores; a later
byte prevails. -/
def storeMany (u : Nat) (guard : List Nat → Guard) (xs : List (Nat × Nat × List Byte × Bool)) : Prog :=
  block
    [forEach xs fun x => drainOver u x.2.1 x.2.2.1.length,
     forEach (groupOn (fun x => x.2.1 - x.2.1 % grain x.2.1) xs) fun (_, g) =>
       storeGrain (unitPage u) (guard (g.map Prod.fst))
         (g.foldl (fun l x => (x.2.2.1.zipIdx).foldl (fun l b => mbPut (x.2.1 + b.2) b.1 l) l) [])
         (g.any fun x => x.2.2.2)]

/-- The pieces of `n` partition addresses from `va` that lie in one 4 KiB page each. -/
def pagePieces : Nat → Nat → Nat → List (Nat × Nat)
  | 0, _, _ => []
  | f + 1, va, n =>
    if n = 0 then []
    else
      let m := min n (4096 - va % 4096)
      (va, m) :: pagePieces f (va + m) (n - m)

/-- The physical pieces of a range, or the first address that fails to translate (R167). -/
def State.trRange (s : State) (u va n : Nat) (rd wr : Bool) : Except (Nat × Tr) (List (Nat × Nat × Nat)) :=
  (pagePieces (n / 4096 + 2) va n).mapM fun (a, m) =>
    match s.tr u a rd wr with
    | .ok pa => .ok (a, pa, m)
    | r => .error (a, r)

/-! ### Reads on their way -/

/-- Extend loaded bytes to 64 bits (R52). -/
def extend (signed : Bool) (n : Nat) (bs : List Byte) : Word :=
  BitVec.ofNat 64 (if signed then unsignedOf 64 (signedOf (8 * n) (ofBytes bs)) else ofBytes bs)

/-- The byte at `x` of a read whose own stores gave `own` (R175, R186). -/
def State.grab (s : State) (own : List (Nat × Byte)) (x : Nat) : Byte :=
  match own.find? fun o => o.1 = x with
  | some o => o.2
  | none => s.rdByte x

/-- The byte at `x` of such a read is poisoned (R178). -/
def State.grabBad (s : State) (own : List (Nat × Byte)) (x : Nat) : Bool :=
  (own.find? fun o => o.1 = x).isNone && s.poisoned x

/-- The bytes of a range that the core's own stores not yet visible give (R175, R186). -/
def State.ownBytes (s : State) (u pa n : Nat) : List (Nat × Byte) :=
  (range pa n).filterMap fun a => (s.ownByte u a).map fun b => (a, b)

/-- The addresses of the bytes of a row. -/
def RowOp.addrs (r : RowOp) : List Nat := r.phys.flatMap fun p => range p.1 p.2

/-- A load takes the bytes of the sector or line at `a`; `bad` says that they are poisoned (R178, R187). -/
def Shadow.take (s : State) (stamp a : Nat) (bad : Bool) (x : Shadow) : Shadow :=
  if x.stamp = stamp ∧ ¬x.arrived ∧ meets x.phys x.bytes a (grain a) then
    { x with
      data := extend x.signed x.bytes ((range x.phys x.bytes).map (s.grab x.own))
      bad := (range x.phys x.bytes).any fun p => s.grabBad x.own p || (bad && (x.own.find? fun o => o.1 = p).isNone) }
  else x

/-- A vector load likewise; its element bytes are the second of `aux`. -/
def QOp.take (s : State) (stamp a : Nat) (bad : Bool) (q : QOp) : QOp :=
  if q.stamp = stamp then
    let n := (q.aux.getD 1 0).toNat
    let hit (pa : Nat) : Bool := meets pa n a (grain a)
    { q with
      vals := (q.phys.zip q.vals).map fun (pa, v) =>
        if hit pa then BitVec.ofNat 64 (ofBytes ((range pa n).map (s.grab q.own))) else v
      bad := (range 0 q.phys.length).filter fun i =>
        let pa := q.phys.getD i 0
        if hit pa then
          (range pa n).any fun p => s.grabBad q.own p || (bad && (q.own.find? fun o => o.1 = p).isNone)
        else q.bad.contains i }
  else q

/-- A tile row likewise. -/
def RowOp.take (s : State) (stamp a : Nat) (bad : Bool) (r : RowOp) : RowOp :=
  if r.stamp = stamp then
    let hit (p : Nat) : Bool := decide (a ≤ p ∧ p < a + grain a)
    let ps := r.addrs
    { r with
      bytes := (ps.zip r.bytes).map fun (p, b) => if hit p then s.grab r.own p else b
      bad := (range 0 ps.length).filter fun i =>
        let p := ps.getD i 0
        if hit p then s.grabBad r.own p || (bad && (r.own.find? fun o => o.1 = p).isNone) else r.bad.contains i }
  else r

/-- The load or row with a stamp takes the bytes of the sector or line at `a` as they now stand (R187). -/
def readTakes (page stamp a : Nat) (bad : Bool) : Prog :=
  match pageUnit page with
  | none => .done
  | some u => ask fun s => modHart u fun h =>
      { h with
        shadows := h.shadows.map (Shadow.take s stamp a bad)
        vloads := h.vloads.map (QOp.take s stamp a bad)
        tileRows := h.tileRows.map (RowOp.take s stamp a bad)
        tq := h.tq.map fun q => { q with loads := q.loads.map (RowOp.take s stamp a bad) } }

/-- ADMWAIT of a core's Streamer counts the ac in which a request of it waits for admission (R212). -/
def admSettle (c : Nat) : Prog :=
  ask fun s =>
    let waits := s.bankWaits fun r => r.page = unitPage c && r.strm.isSome
    match (s.hart c).admSince with
    | none => onlyIf waits (modHart c fun h => { h with admSince := some s.dev.beat.time })
    | some t =>
      block
        [satAdd (ioa (strmPage c) 0x11C) 31 0 (s.acSince t),
         modHart c fun h => { h with admSince := if waits then some s.dev.beat.time else none }]

/-- The length of a unit that a Streamer's request does not cross, at a physical address (R205). -/
def unitOf (pa : Nat) : Nat :=
  match region pa with
  | .stacked => 256
  | .stage _ => 512
  | _ => 64

/-- The transfer tags that a core's Streamer holds (R205, R212): those of its admitted reads whose data has not returned. -/
def State.strmTags (s : State) (c : Nat) : Nat :=
  ((s.dev.banks.flatMap fun k =>
    (k.2.queue.filter fun r => r.page = unitPage c && !r.write).filterMap fun r =>
      r.strm.map fun n => (n, r.addr / unitOf r.addr)).eraseDups).length

/-- TAGMAX follows the tags in use (R212). -/
def tagSettle (c : Nat) : Prog :=
  ask fun s =>
    let a := ioa (strmPage c) 0x118
    onlyIf (s.fld a 8 0 < s.strmTags c) (ioSet a (BitVec.ofNat 32 (s.strmTags c)))

/-- The transfer with stamp `n` reads the sector or line at `a` as it stands (R187, R209). -/
def strmSees (c n a : Nat) : Prog :=
  ask fun s =>
    let xs := (range a (grain a)).map fun p => (p, s.rdByte p, s.poisoned p)
    modHart c fun h => { h with xq := h.xq.map fun x => if x.stamp = n then { x with seen := xs ++ x.seen } else x }

/-- A request has been admitted (R174, R187): a store becomes visible, a read takes its bytes. -/
def admitted (r : BReq) : Prog :=
  if r.write then landStore r
  else
    match r.strm, r.rdr with
    | some n, _ => block [strmSees (r.page - 0x20) n r.addr, tagSettle (r.page - 0x20)]
    | none, some n => readTakes r.page n r.addr false
    | none, none => .done

end Sys2Proof.Machine
end

