-- ==== Sys2Proof/Machine/Issue.lean ====
section
/-! DEFINITION. What every instruction shares: capability checks (R369-R371), exceptions (R381-R387), fetch checks, token
waits (R66-R69), hardware loops (R60-R65), the load shadow (R55-R58), breakpoints and halts (R449). -/
namespace Sys2Proof.Machine

/-! ### Capabilities -/

/-- Fields of a capability (R369). -/
def Cap.valid (c : Cap) : Bool := c.getLsbD 127
def Cap.domain (c : Cap) : Nat := bits c.toNat 123 120
def Cap.otype (c : Cap) : Nat := bits c.toNat 119 116
def Cap.perm (c : Cap) : Nat := bits c.toNat 115 109
def Cap.len (c : Cap) : Nat := bits c.toNat 108 64
def Cap.base (c : Cap) : Nat := bits c.toNat 63 0

/-- Build a valid capability (R369). -/
def mkCap (domain otype perm len base : Nat) : Cap :=
  BitVec.ofNat 128 (2 ^ 127 + domain % 16 * 2 ^ 120 + otype % 16 * 2 ^ 116 + perm % 128 * 2 ^ 109
    + len % 2 ^ 45 * 2 ^ 64 + base % 2 ^ 64)

/-- Object types (R370) and permission bits (R369). -/
abbrev otData : Nat := 0
abbrev otProgram : Nat := 1
abbrev otIo : Nat := 2
abbrev otStore : Nat := 3
abbrev otEntry : Nat := 4
abbrev otReturn : Nat := 5
abbrev pR : Nat := 1
abbrev pW : Nat := 2
abbrev pX : Nat := 4
abbrev pIo : Nat := 8
abbrev pSys : Nat := 16
abbrev pFold : Nat := 32
abbrev pDebug : Nat := 64

/-- Exception causes (R387). -/
inductive Cause where
  | illegal | authority | capBounds | loadPage | storePage | vecElement | tileShape | accFormat | loopNest
  | poisonConsumed | returnAuth | align | tokenTimeout
  deriving DecidableEq, Repr

/-- The cause code (R387). -/
def Cause.code : Cause → Nat
  | .illegal => 0x01 | .authority => 0x02 | .capBounds => 0x03 | .loadPage => 0x04 | .storePage => 0x05
  | .vecElement => 0x06 | .tileShape => 0x08 | .accFormat => 0x09 | .loopNest => 0x0A | .poisonConsumed => 0x0B
  | .returnAuth => 0x0C | .align => 0x0D | .tokenTimeout => 0x0E

/-- VALID, OTYPE and PERM suffice: the authority part of R371. -/
def Cap.authOk (c : Cap) (ot p : Nat) : Bool := c.valid && c.otype = ot && Nat.land c.perm p = p

/-- The bounds part of R371. -/
def Cap.within (c : Cap) (a n : Nat) : Bool := decide (c.base ≤ a ∧ a + n ≤ c.base + c.len)

/-- The first unit outside the bounds. -/
def Cap.firstOut (c : Cap) (a : Nat) : Nat := if a < c.base then a else max a (c.base + c.len)

/-- The check of R371: nothing, or the cause and its BADADDR (R387). -/
def Cap.err (c : Cap) (ot p a n : Nat) : Option (Cause × Nat) :=
  if ¬c.authOk ot p then some (.authority, a)
  else if ¬c.within a n then some (.capBounds, c.firstOut a)
  else none

/-! ### Units -/

/-- Syllables of program memory (R43, R284, R396). -/
def pmSize (u : Nat) : Nat := if u < 64 then 0x20000 else if u < 128 then 0x40000 else 0x2000

/-- Where the block with syllable `a` of unit `u`'s program memory stands (R419, R424). -/
def pmAddr (u a : Nat) : Nat :=
  if u < 64 then sram 1 u (a / 4 * 8) else if u < 128 then sram 2 (u - 64) (a / 4 * 8) else sram 3 (u - 128) (a / 4 * 8)

/-- One syllable of program memory. -/
def State.syllable (s : State) (u a : Nat) : Nat :=
  s.blkVal (pmAddr u (a % pmSize u) / 8) / 2 ^ (14 * (a % 4)) % 2 ^ 14

/-- Four syllables as PLD returns them (R54). -/
def State.pldWord (s : State) (u a : Nat) : Nat :=
  (range 0 4).foldl (fun w k => w + s.syllable u (a + k) * 2 ^ (14 * k)) 0

/-- The unit may issue its next instruction: it runs, it is not halted, and no wait holds it (R67, R122, R284). -/
def State.ready (s : State) (u : Nat) : Bool :=
  let h := s.hart u
  h.run && !h.halted && !h.fatal && h.wait.isNone && !h.mwait && (u < 128 || (s.link (u - 128)).lwait.isNone)

/-- A shadow has reached its boundary and its data has not arrived (R55). -/
def Hart.shadowStall (h : Hart) : Bool := h.shadows.any fun x => x.left = 0

/-- ENTER of domain `d` of a core allows `t` (R374). -/
def State.mayEnter (s : State) (u d t : Nat) : Bool := d = t || bitAt (s.fld (ioa (unitPage u) (0x180 + 4 * d)) 15 0) t

/-! ### Halts -/

/-- Take a requested halt where R58 and R449 allow it: a compute core with no load shadow open, any other unit at
once. -/
def tryHalt (u : Nat) : Prog :=
  ask fun s =>
    let h := s.hart u
    match h.haltReq with
    | none => .done
    | some r =>
      onlyIf (h.run ∧ ¬h.halted ∧ ¬h.fatal ∧ (64 ≤ u ∨ h.shadows = []))
        (modHart u fun h => { h with halted := true, reason := r, haltReq := none, stepping := none, haltAt := s.dev.beat.time })

/-- Ask for a halt with a reason (R448), unless one is already asked for. -/
def askHalt (u r : Nat) : Prog :=
  modHart u fun h => { h with haltReq := some (h.haltReq.getD (BitVec.ofNat 8 r)) }

/-- The index of the breakpoint at the unit's PC, if one is enabled there (R447, R449). -/
def Hart.breakAt (h : Hart) : Option Nat :=
  (range 0 8).find? fun i =>
    let v := (Tab.get (fun _ => 0) h.bps i).toNat
    bitAt v 63 && bits v 17 0 = h.pc.toNat

/-- An access of a compute core against its watchpoints (R447, R449). -/
def watch (u va n : Nat) (rd wr : Bool) : Prog :=
  ask fun s =>
    let hit := (range 0 4).find? fun i =>
      let v := (Tab.get (fun _ => 0) (s.hart u).wps i).toNat
      let b := bits v 43 0
      decide (b < va + n ∧ va < b + bits v 55 44 * 8) && ((rd && bitAt v 62) || (wr && bitAt v 63))
    match hit with
    | some i => askHalt u (4 + i * 16)
    | none => .done

/-! ### Load shadows -/

/-- Write every shadow that has reached its boundary with its data (R55, R56). -/
def landShadows (u : Nat) : Prog :=
  ask fun s =>
    let xs := (s.hart u).shadows
    block
      [modHart u fun h => { h with shadows := h.shadows.filter fun x => !(x.left = 0 && x.arrived) },
       forEach (xs.filter fun x => x.left = 0 && x.arrived) fun x => setReg u x.rd x.data]

/-- The data of the load or row with a stamp has returned: its requests leave the bank queues (R176). -/
def readDone (u stamp : Nat) : Prog := bankServed (BReq.reads (unitPage u) stamp)

/-- A bank has yet to admit a request of the load or row with a stamp (R174). -/
def State.readHeld (s : State) (u stamp : Nat) : Bool := s.bankWaits (BReq.reads (unitPage u) stamp)

/-- Exception and interrupt entry complete the open shadows (R57); poisoned data is consumed (R178). -/
def completeShadows (u : Nat) : Prog :=
  ask fun s =>
    let xs := (s.hart u).shadows
    block
      [modHart u fun h => { h with shadows := [] },
       forEach xs fun x =>
         block
           [setReg u x.rd x.data,
            onlyIf (x.bad ∧ ¬x.arrived) (report (unitPage u) .poisonConsumed 0 x.addr.toNat),
            match x.fill with
            | some l => block [readDone u x.stamp, fillLine u l]
            | none => onlyIf (¬x.arrived ∧ ¬x.commit) (readDone u x.stamp)]]

/-! ### Exceptions -/

/-- The low word of the frame's status, before entry (R383). -/
def State.statusWord (s : State) (u : Nat) : Nat :=
  let h := s.hart u
  (s.creg u 15).domain * 2 ^ 16 + h.capdepth * 2 ^ 9 + h.ld * 2 ^ 6 + h.lbase * 2 ^ 3

/-- A core halts core-fatal and reports it (R384, R424, R427). -/
def coreFatal (u info : Nat) : Prog :=
  block
    [modHart u fun h => { h with fatal := true, wait := none, insvc := if 64 ≤ u then [] else h.insvc },
     report (unitPage u) .coreFatal info 0,
     onlyIf (64 ≤ u)
       (block
         [icuEvent 1,
          ask fun s => onlyIf ((range 64 4).all fun v => (s.hart v).fatal) (report (unitPage u) .callerLost 0 0)])]

/-- Use capability blocks: corrected or, when damaged, never used (R421, R424). -/
def capUse (u : Nat) (ixs : List Nat) (k : Prog) : Prog :=
  ask fun s =>
    let blks := ixs.flatMap fun i => [sram 0xA u (16 * i) / 8, sram 0xA u (16 * i) / 8 + 1]
    if blks.any s.blkBad then block [forEach blks touchBlk, coreFatal u 0xA]
    else block [forEach blks touchBlk, k]

/-- The last-chance path (R384). -/
def lastChance (u kind cause why : Nat) : Prog :=
  ask fun s =>
    let p := unitPage u
    block
      [ioSet (ioa p 0x140) (BitVec.ofNat 32 (s.hart u).pc.toNat),
       ioSet (ioa p 0x144) (BitVec.ofNat 32 (s.statusWord u)),
       ioSet (ioa p 0x148) (BitVec.ofNat 32 (2 ^ 31 + kind * 2 ^ 12 + why * 2 ^ 8 + cause)),
       coreFatal u 0x10]

/-- The bytes of an exception frame (R383). -/
def State.frame (s : State) (u kind cause source prio bad insn : Nat) : List Byte :=
  let blk := 192 + 16 * (s.hart u).capdepth
  toBytes 8 (cause * 2 ^ 56 + kind * 2 ^ 55 + source * 2 ^ 47 + prio * 2 ^ 43 + (s.hart u).pc.toNat)
    ++ toBytes 8 (s.statusWord u) ++ toBytes 8 bad ++ toBytes 8 insn
    ++ (range 1 15).map (fun i => if (s.creg u i).valid then BitVec.ofNat 8 (blk + i) else 0)
    ++ List.replicate 17 0

/-- Exception entry, and interrupt entry on a Caller core (R382). A core that executes STEP halts before the handler's
first instruction (R449). -/
def enter (u kind cause source prio bad insn : Nat) : Prog :=
  block
    [completeShadows u,
     capUse u (14 :: (range 1 15).map capIx) <| ask fun s =>
       let h := s.store u 14
       let d := (s.hart u).capdepth
       let top := (s.hart u).esp.toNat
       if d = 4 then lastChance u kind cause 1
       else if ¬h.authOk otData pW then lastChance u kind cause 2
       else if top < 64 ∨ h.len < top then lastChance u kind cause 3
       else
         match s.trRange u (h.base + top - 64) 64 false true with
         | .error _ => lastChance u kind cause 4
         | .ok ps =>
           if ps.any fun (_, pa, n) => s.writeLost pa n then lastChance u kind cause 4
           else
             let fr := s.frame u kind cause source prio bad insn
             let blk := 192 + 16 * d
             block
               [forEach ps fun (va, _, _) => trUse u va,
                storeRow u (h.base + top - 64) ps fr [],
                forEach (range 1 15) fun i => setStore u (blk + i) (s.creg u i),
                modHart u fun x =>
                  { x with
                    esp := BitVec.ofNat 32 (top - 64), capdepth := d + 1, lbase := x.ld, wait := none,
                    pc := BitVec.ofNat 18 (((s.store u 15).base + (if kind = 1 then 8 else 0)) % pmSize u),
                    haltReq := if x.stepping = some 1 then some (x.haltReq.getD 2) else x.haltReq,
                    stepping := none },
                forEach (range 1 15) fun i => setCreg u i (s.store u i),
                tryHalt u]]

/-- A sequencer reports SEQ_FAULT on its link's page, with its PC in INFO, and stops (R285, R435). -/
def seqFault (u : Nat) : Prog :=
  ask fun s =>
    block
      [modHart u fun h => { h with run := false, wait := none },
       report (unitPage u) .seqFault (s.hart u).pc.toNat 0]

/-- An IN from CMTWAIT is open: it must complete before an exception is taken (R57, R219). -/
def Hart.commitOpen (h : Hart) : Bool := h.shadows.any fun x => x.commit && !x.arrived

/-- A fault at the instruction at the unit's PC (R285, R381, R385). An open IN from CMTWAIT must complete first
(R57, R219): until then the faulting instruction stalls. -/
def raise (u : Nat) (c : Cause) (bad : Nat) : Prog :=
  if 128 ≤ u then seqFault u
  else ask fun s =>
    onlyIf (¬(s.hart u).commitOpen) <| block
      [onlyIf (c = .poisonConsumed) (report (unitPage u) .poisonConsumed 0 bad),
       onlyIf (c = .tokenTimeout) (report (unitPage u) .tokenTimeout 0 0),
       ask fun s => enter u 0 c.code 0 0 bad (s.pldWord u (s.hart u).pc.toNat)]

/-- A failed translation: the page cause, or poison met by the walk (R167, R168). -/
def raiseTr (u va : Nat) (wr : Bool) (r : Tr) : Prog :=
  (trFailed u va).andThen
    (match r with
     | .poison a => raise u .poisonConsumed a
     | _ => raise u (if wr then .storePage else .loadPage) va)

/-- Poison that a core meets after the instruction at `pc` has issued (R178, R385): the J error, and the exception with that
instruction's PC (R381, R383) where the core can take it. -/
def latePoison (u : Nat) (pc : BitVec 18) (bad : Nat) : Prog :=
  ask fun s =>
    let h := s.hart u
    if h.run ∧ ¬h.halted ∧ ¬h.fatal ∧ ¬h.mwait ∧ ¬h.commitOpen then
      block [modHart u fun h => { h with pc := pc }, raise u .poisonConsumed bad]
    else report (unitPage u) .poisonConsumed 0 bad

/-! ### Loops and the PC -/

/-- Loop registers of level `k`. -/
def Hart.lsv (h : Hart) (k : Nat) : Nat := (Tab.get (fun _ => 0) h.ls k).toNat
def Hart.lev (h : Hart) (k : Nat) : Nat := (Tab.get (fun _ => 0) h.le k).toNat
def Hart.lcv (h : Hart) (k : Nat) : Nat := (Tab.get (fun _ => 0) h.lc k).toNat

/-- The end test of R61, with its cascade. -/
def endTest : Nat → Hart → Hart
  | 0, h => h
  | f + 1, h =>
    if h.lbase < h.ld ∧ h.pc.toNat = h.lev (h.ld - 1) then
      let k := h.ld - 1
      if 1 < h.lcv k then
        { h with lc := Tab.put (fun _ => 0) h.lc k (BitVec.ofNat 32 (h.lcv k - 1)), pc := BitVec.ofNat 18 (h.lsv k) }
      else endTest f { h with lc := Tab.put (fun _ => 0) h.lc k 0, ld := k }
    else h

/-- The closing rule of R62. -/
def closeLoops : Nat → Hart → Hart
  | 0, h => h
  | f + 1, h =>
    if h.lbase < h.ld ∧ ¬(h.lsv (h.ld - 1) ≤ h.pc.toNat ∧ h.pc.toNat < h.lev (h.ld - 1)) then
      closeLoops f { h with ld := h.ld - 1 }
    else h

/-- The next sequential PC, with the end test (R61). -/
def seqPc (u len : Nat) (h : Hart) : Hart :=
  endTest 4 { h with pc := BitVec.ofNat 18 ((h.pc.toNat + len) % pmSize u) }

/-- A taken BR, J, RET or ERET (R62). -/
def jumpPc (u target : Nat) (h : Hart) : Hart := closeLoops 4 { h with pc := BitVec.ofNat 18 (target % pmSize u) }

/-- An instruction has completed: the PC moves by `f`, the open shadows count it, a load opens its own (`sh`), and a halt
that was asked for is taken where it may be (R55, R58, R449). -/
def finish (u : Nat) (f : Hart → Hart) (sh : Option Shadow) : Prog :=
  block
    [modHart u fun h =>
       let h := f h
       { h with
         shadows := h.shadows.map (fun x => { x with left := x.left - 1 }),
         haltReq := if h.stepping = some 1 then some (h.haltReq.getD 2) else h.haltReq,
         stepping := none },
     landShadows u,
     (match sh with
      | some x => modHart u fun h => { h with shadows := h.shadows ++ [x] }
      | none => .done),
     tryHalt u]

/-- A plain instruction of `len` syllables completes. -/
def retire (u len : Nat) : Prog := finish u (seqPc u len) none

/-- An instruction straddles the LE of the innermost level (R60). -/
def Hart.straddles (h : Hart) (len : Nat) : Bool :=
  decide (h.lbase < h.ld ∧ h.pc.toNat < h.lev (h.ld - 1) ∧ h.lev (h.ld - 1) < h.pc.toNat + len)

/-! ### Issue -/

/-- The fetch check of R376 for every syllable; syllables past the end wrap (R44). -/
def State.fetchErr (s : State) (u len : Nat) : Option (Cause × Nat) :=
  let a := (s.hart u).pc.toNat
  let n := min len (pmSize u - a)
  match (s.creg u 15).err otProgram pX a n with
  | some e => some e
  | none => if n < len then (s.creg u 15).err otProgram pX 0 (len - n) else none

/-- The program memory under the instruction reads as uncorrectable: core-fatal, or SEQ_FAULT (R424). -/
def pmCheck (u len : Nat) (k : Prog) : Prog :=
  ask fun s =>
    let blks := (range 0 len).map fun i => pmAddr u (((s.hart u).pc.toNat + i) % pmSize u) / 8
    if blks.any s.blkBad then
      block [forEach blks touchBlk, if 128 ≤ u then seqFault u else coreFatal u (if u < 64 then 1 else 0)]
    else block [forEach blks touchBlk, k]

/-- Issue one instruction of `len` syllables (R44, R46, R55, R60, R67, R376, R449): `legal` are the checks on its bits and
the kind of core; `body` is the rest. A unit that cannot issue now does nothing. -/
def issue (u len : Nat) (legal : Bool) (body : Prog) : Prog :=
  ask fun s =>
    let h := s.hart u
    if ¬s.ready u ∨ h.shadowStall then .done
    else
      let go : Prog := pmCheck u len <| ask fun s =>
        if pmSize u < (s.hart u).pc.toNat + len ∨ (s.hart u).straddles len ∨ ¬legal then raise u .illegal 0 else body
      let fetched : Prog :=
        if 128 ≤ u then go
        else capUse u [capIx 15] <| ask fun s =>
          match s.fetchErr u len with
          | some (c, a) => raise u c a
          | none => go
      match h.breakAt with
      | some i =>
        if h.stepping.isSome then fetched
        else if h.shadows = [] ∨ 64 ≤ u then block [askHalt u (3 + i * 16), tryHalt u]
        else block [askHalt u (3 + i * 16), fetched]
      | none => fetched

/-! ### Tokens -/

/-- Add to a token of a compute core; above 15 it stays at 15 and TOKEN_OVERFLOW is raised (R66). -/
def addTok (c t n : Nat) : Prog :=
  ask fun s =>
    block
      [setTok c t (s.tok c t + n),
       onlyIf (15 < s.tok c t + n) (report (unitPage c) .tokenOverflow 0 0)]

/-- Subtract from a token (R67). -/
def subTok (u t n : Nat) : Prog := ask fun s => setTok u t (s.tok u t - n)

/-- Wait for `n` units of token `t`, then go on with `body` (R67); the wait keeps the instruction. -/
def awaitTok (u t n : Nat) (i : Instr) (body : Prog) : Prog :=
  ask fun s =>
    if n ≤ s.tok u t then body
    else modHart u fun h => { h with wait := some { tok := t, need := n, since := s.dev.beat.time, instr := i } }

/-- The wait of an S4-U or S4-V instruction (R67). -/
def awaitWte (u : Nat) (wte : Bool) (wtok : Nat) (i : Instr) (body : Prog) : Prog :=
  if wte then awaitTok u wtok 1 i body else body

/-- The subtraction, once every check has passed (R67). -/
def takeWte (u : Nat) (wte : Bool) (wtok : Nat) : Prog := if wte then subTok u wtok 1 else .done

/-- A wait of a compute core ends: WAITMAX and WAITPC keep the longest (R69, R75). -/
def waitEnds (u : Nat) : Prog :=
  ask fun s =>
    match (s.hart u).wait with
    | none => .done
    | some w =>
      let ac := min (s.acSince w.since) 0xFFFFFFFF
      block
        [modHart u fun h => { h with wait := none },
         onlyIf (u < 64 ∧ (s.ioVal (ioa (corePage u) 0x10C)).toNat < ac)
           (block [ioSet (ioa (corePage u) 0x10C) (BitVec.ofNat 32 ac),
                   ioSet (ioa (corePage u) 0x110) (BitVec.ofNat 32 (s.hart u).pc.toNat)])]

end Sys2Proof.Machine
end

