-- ==== Sys2Proof/Machine/Operands.lean ====
section
/-! DEFINITION. Scalar operands and results: the ALU functions, the immediates and the branch conditions (R45, R47). -/
namespace Sys2Proof.Machine

/-- A sign-extended immediate. -/
def sx {w : Nat} (i : BitVec w) : Word := i.signExtend 64

/-- The ALU functions on `w`-bit operands as integers below 2^w (R47); `sh` bounds the shift amount. -/
def aluNat (w : Nat) (fn a b : Nat) : Nat :=
  let m := 2 ^ w
  let sa := signedOf w a
  let sb := signedOf w b
  let sh := b % w
  match fn with
  | 0 => (a + b) % m
  | 1 => (a + (m - b)) % m
  | 2 => Nat.land a b
  | 3 => Nat.lor a b
  | 4 => Nat.xor a b
  | 5 => a * 2 ^ sh % m
  | 6 => a / 2 ^ sh
  | 7 => unsignedOf w (sa / (2 ^ sh : Nat))
  | 8 => if sa < sb then 1 else 0
  | 9 => if a < b then 1 else 0
  | 10 => a * b % m
  | 11 => unsignedOf w (sa * sb / (m : Nat))
  | 12 => a * b / m
  | 13 => if b = 0 then m - 1 else a / b
  | 14 => if b = 0 then a else a % b
  | _ => 0

/-- The ALU (R45, R47): W = 1 works on bits 31:0 and sign-extends the result. -/
def aluOp (fn : BitVec 4) (w : Bool) (a b : Word) : Word :=
  if w then (BitVec.ofNat 32 (aluNat 32 fn.toNat (a.toNat % 2 ^ 32) (b.toNat % 2 ^ 32))).signExtend 64
  else BitVec.ofNat 64 (aluNat 64 fn.toNat a.toNat b.toNat)

/-- The condition of a short branch (R47). -/
def brCond (c : BitVec 3) (a : Word) : Bool :=
  match c.toNat with
  | 0 => a = 0
  | 1 => a ≠ 0
  | 2 => a.toInt < 0
  | 3 => 0 ≤ a.toInt
  | 4 => 0 < a.toInt
  | 5 => a.toInt ≤ 0
  | _ => false

/-- The condition of a long branch (R47). -/
def brLongCond (c : BitVec 3) (a b : Word) : Bool :=
  match c.toNat with
  | 0 => a = b
  | 1 => a ≠ b
  | 2 => a.toInt < b.toInt
  | 3 => b.toInt ≤ a.toInt
  | 4 => a.toNat < b.toNat
  | 5 => b.toNat ≤ a.toNat
  | _ => false

/-- A PC plus a signed offset in syllables, in the unit's program memory (R43, R45). -/
def pcPlus (u pc : Nat) (off : Int) : Nat := (((pc : Int) + off) % (pmSize u : Nat)).toNat

/-- The unit is a compute core. -/
def isCore (u : Nat) : Bool := decide (u < 64)

/-- The unit is a link sequencer. -/
def isSeq (u : Nat) : Bool := decide (128 ≤ u)

/-- The value of special register `r` (R51, R375); none when the unit has no such register. -/
def State.readSr (s : State) (u r : Nat) : Option Nat :=
  let h := s.hart u
  if r < 4 then some (h.lsv r)
  else if r < 8 then some (h.lev (r - 4))
  else if r < 0xC then some (h.lcv (r - 8))
  else if r = 0xC then some (h.ld + 8 * h.lbase)
  else if r = 0x10 ∧ isCore u then some h.vl.toNat
  else if r = 0x11 ∧ isCore u then some h.vresume.toNat
  else if r = 0x12 ∧ isCore u then
    some (((range 0 8).filter fun t => (Tab.get (fun _ => none) h.tags t).isSome).foldl (fun m t => m + 2 ^ t) 0)
  else if r = 0x13 ∧ isCore u then some h.tprog.toNat
  else if r = 0x14 ∧ ¬isSeq u then some h.esp.toNat
  else if r = 0x15 ∧ ¬isSeq u then some h.capdepth
  else if r = 0x20 then some s.beat.toNat
  else if r = 0x21 then some (s.acSince s.dev.job.time0)
  else none

/-- An SR that MTSR may write on this unit (R51, R96, R375). -/
def srWritable (u r : Nat) : Bool := r < 0xC || (isCore u && (r = 0x10 || r = 0x11 || r = 0x13))

/-- VLMAX of a VL value (R137). -/
def vlMax (v : Nat) : Nat := 8192 * 2 ^ bits v 17 16 / (8 * 2 ^ bits v 15 14)

/-- The value may be written to the special register (R91, R138, R154). -/
def srValueOk (r v : Nat) : Bool :=
  if r = 0x10 then bits v 31 24 = 0 && bits v 20 18 = 0 && decide (bits v 13 0 ≤ vlMax v)
  else if r = 0x13 then bits v 30 28 = 0
  else true

/-- Write a special register: its width from the low bits (R51). -/
def Hart.writeSr (u r v : Nat) (h : Hart) : Hart :=
  if r < 4 then { h with ls := Tab.put (fun _ => 0) h.ls r (BitVec.ofNat 18 (v % pmSize u)) }
  else if r < 8 then { h with le := Tab.put (fun _ => 0) h.le (r - 4) (BitVec.ofNat 18 (v % pmSize u)) }
  else if r < 0xC then { h with lc := Tab.put (fun _ => 0) h.lc (r - 8) (BitVec.ofNat 32 v) }
  else if r = 0x10 then { h with vl := BitVec.ofNat 32 v }
  else if r = 0x11 then { h with vresume := BitVec.ofNat 32 (v % 2 ^ 14) }
  else if r = 0x13 then { h with tprog := BitVec.ofNat 32 v }
  else h

end Sys2Proof.Machine
end

