-- ==== Sys2Proof/Machine/Scalar.lean ====
section
/-! DEFINITION. The scalar and control instructions (R47-R51, R60-R73, R187, R386) and the token events. -/
namespace Sys2Proof.Machine

/-- An instruction of a unit, all of it: issue, checks, effect. -/
def instr (u : UnitId) (len : Nat) (legal : Bool) (body : Prog) (s : State) : Out := perform (issue u.num len legal body) s

/-- Write `rd` with a value of the state, then complete (R50, R73). -/
def writeRd (u len : Nat) (rd : BitVec 5) (v : State → Word) : Prog :=
  ask fun s => block [setReg u rd.toNat (v s), retire u len]

/-- NOP (R47). -/
def execNop (u : UnitId) (f : S1) (s : State) : Out := instr u 1 (f.arg7 = 0) (retire u.num 1) s

/-- ALU (R47). -/
def execAlu (u : UnitId) (f : S2R) (s : State) : Out :=
  instr u 2 (f.fn ≠ 15)
    (writeRd u.num 2 f.rd fun s => aluOp f.fn f.w (s.reg u.num f.rs1.toNat) (s.reg u.num f.rs2.toNat)) s

/-- rd ← rs1 op sign-extended IMM (R47). -/
def immOp (u : UnitId) (f : S2I) (op : Word → Word → Word) (s : State) : Out :=
  instr u 2 true (writeRd u.num 2 f.rd fun s => op (s.reg u.num f.rs1.toNat) (sx f.imm)) s

/-- ADDI (R47). -/
def execAddi (u : UnitId) (f : S2I) (s : State) : Out := immOp u f (· + ·) s

/-- ANDI (R47). -/
def execAndi (u : UnitId) (f : S2I) (s : State) : Out := immOp u f (· &&& ·) s

/-- ORI (R47). -/
def execOri (u : UnitId) (f : S2I) (s : State) : Out := immOp u f (· ||| ·) s

/-- XORI (R47). -/
def execXori (u : UnitId) (f : S2I) (s : State) : Out := immOp u f (· ^^^ ·) s

/-- Shift by IMM[5:0]; IMM[9:6] = 0 (R47). -/
def shiftOp (u : UnitId) (f : S2I) (fn : BitVec 4) (s : State) : Out :=
  instr u 2 (f.imm.toNat < 64)
    (writeRd u.num 2 f.rd fun s => aluOp fn false (s.reg u.num f.rs1.toNat) (BitVec.ofNat 64 f.imm.toNat)) s

/-- SHLI (R47). -/
def execShli (u : UnitId) (f : S2I) (s : State) : Out := shiftOp u f 5 s

/-- SHRI (R47). -/
def execShri (u : UnitId) (f : S2I) (s : State) : Out := shiftOp u f 6 s

/-- SRAI (R47). -/
def execSrai (u : UnitId) (f : S2I) (s : State) : Out := shiftOp u f 7 s

/-- LI (R47): SUB4 0 writes the sign-extended IMM32, SUB4 1 the upper half. -/
def execLi (u : UnitId) (f : S4I) (s : State) : Out :=
  instr u 4 (f.sub.toNat < 2 ∧ f.rs1 = 0)
    (writeRd u.num 4 f.rd fun s =>
      if f.sub = 0 then sx f.imm
      else BitVec.ofNat 64 (f.imm.toNat * 2 ^ 32 + (s.reg u.num f.rd.toNat).toNat % 2 ^ 32)) s

/-- A branch: taken to `pc + off`, else on (R47, R61, R62). -/
def branch (u len : Nat) (taken : Bool) (off : Int) : Prog :=
  if taken then finish u (fun h => jumpPc u (pcPlus u h.pc.toNat off) h) none else retire u len

/-- BR (R47). -/
def execBr (u : UnitId) (f : S2B) (s : State) : Out :=
  instr u 2 (f.cond.toNat < 6)
    (ask fun s => branch u.num 2 (brCond f.cond (s.reg u.num f.rs1.toNat)) f.off.toInt) s

/-- BR (long) (R47). -/
def execBrLong (u : UnitId) (f : S4B) (s : State) : Out :=
  instr u 4 (f.cond.toNat < 6 ∧ f.rsvA = 0 ∧ f.rsvB = 0)
    (ask fun s =>
      branch u.num 4 (brLongCond f.cond (s.reg u.num f.rs1.toNat) (s.reg u.num f.rs2.toNat)) f.off.toInt) s

/-- J (R47). -/
def execJ (u : UnitId) (f : S2J) (s : State) : Out := instr u 2 true (branch u.num 2 true f.off.toInt) s

/-- CALL (R47, R50, R62): it closes no loop level. -/
def execCall (u : UnitId) (f : S2J) (s : State) : Out :=
  instr u 2 true
    (ask fun s =>
      let pc := (s.hart u.num).pc.toNat
      block
        [setReg u.num 31 (BitVec.ofNat 64 (pcPlus u.num pc 2)),
         finish u.num (fun h => { h with pc := BitVec.ofNat 18 (pcPlus u.num pc f.off.toInt) }) none]) s

/-- RET (R47, R50, R62). -/
def execRet (u : UnitId) (f : S1) (s : State) : Out :=
  instr u 1 (f.arg7 = 0)
    (ask fun s => finish u.num (jumpPc u.num (s.reg u.num 31).toNat) none) s

/-- What LOOP with count `c` ≠ 0 does to the loop state before the PC moves on (R60). -/
def openLoop (u len c : Nat) (h : Hart) : Hart :=
  let next := (h.pc.toNat + 2) % pmSize u
  { h with
    ls := Tab.put (fun _ => 0) h.ls h.ld (BitVec.ofNat 18 next)
    le := Tab.put (fun _ => 0) h.le h.ld (BitVec.ofNat 18 ((next + len) % pmSize u))
    lc := Tab.put (fun _ => 0) h.lc h.ld (BitVec.ofNat 32 c)
    ld := h.ld + 1 }

/-- What LOOP with count 0 does (R60): it skips the body. -/
def skipLoop (u len : Nat) (h : Hart) : Hart :=
  let h := { h with pc := BitVec.ofNat 18 ((h.pc.toNat + 2 + len) % pmSize u) }
  if h.lbase < h.ld ∧ h.pc.toNat = h.lev (h.ld - 1) then endTest 4 h else closeLoops 4 h

/-- LOOP (R60, R63). -/
def execLoop (u : UnitId) (f : S2L) (s : State) : Out :=
  instr u 2 (f.len ≠ 0 ∧ f.rsv = 0)
    (ask fun s =>
      let c := (s.reg u.num f.rs.toNat).toNat % 2 ^ 32
      if c = 0 then finish u.num (skipLoop u.num f.len.toNat) none
      else if (s.hart u.num).ld = 4 then raise u.num .loopNest 0
      else finish u.num (fun h => seqPc u.num 2 (openLoop u.num f.len.toNat c h)) none) s

/-- Vector work that writes VL is still queued, so an instruction that reads it waits (R74, R149). -/
def State.vecBusy (s : State) (u : Nat) : Bool := (s.hart u).vq ≠ [] || (s.hart u).vloads ≠ []

/-- MFSR (R51). -/
def execMfsr (u : UnitId) (f : S2S) (s : State) : Out :=
  instr u 2 (f.rsvA = 0 ∧ f.rsvB = 0 ∧ (s.readSr u.num f.sr.toNat).isSome)
    (ask fun s =>
      if f.sr.toNat = 0x10 ∧ s.vecBusy u.num then .done
      else writeRd u.num 2 f.r fun s => BitVec.ofNat 64 ((s.readSr u.num f.sr.toNat).getD 0)) s

/-- MTSR (R51). -/
def execMtsr (u : UnitId) (f : S2S) (s : State) : Out :=
  instr u 2 (f.rsvA = 0 ∧ f.rsvB = 0 ∧ srWritable u.num f.sr.toNat)
    (ask fun s =>
      let v := (s.reg u.num f.r.toNat).toNat
      if f.sr.toNat = 0x10 ∧ s.vecBusy u.num then .done
      else if srValueOk f.sr.toNat v then
        block [modHart u.num (Hart.writeSr u.num f.sr.toNat v), retire u.num 2]
      else raise u.num .illegal 0) s

/-! ### Tokens -/

/-- A token number of the unit: 64 tokens of a core, 16 of a sequencer (R66, R284, R285). -/
def tokOk (u t : Nat) : Bool := decide (t < 64) && (!isSeq u || decide (t < 16))

/-- WAITTOK and WAITTOK.N: wait, subtract, complete (R67). -/
def waitBody (u len t n : Nat) (i : Instr) : Prog := awaitTok u t n i (block [subTok u t n, retire u len])

/-- WAITTOK (R67). -/
def execWaittok (u : UnitId) (f : S1) (s : State) : Out :=
  instr u 1 (tokOk u.num f.arg7.toNat) (waitBody u.num 1 f.arg7.toNat 1 (.waittok u f)) s

/-- WAITTOK.N (R67). -/
def execWaittokN (u : UnitId) (f : S2T) (s : State) : Out :=
  instr u 2 (f.n ≠ 0 ∧ f.rs = 0 ∧ f.rsvA = 0 ∧ f.rsvB = 0 ∧ tokOk u.num f.tok.toNat)
    (waitBody u.num 2 f.tok.toNat f.n.toNat (.waittokN u f)) s

/-- TOKEN_TIMEOUT (R69): the watchdog of a waiting core expires; the clock moves to that point (log entry 4). -/
def execTokenTimeout (c : Fin 64) (s : State) : Out :=
  perform
    (ask fun s =>
      let limit := (s.ioVal (ioa (corePage c) 0x108)).toNat
      match (s.hart c).wait with
      | some w =>
        onlyIf ((s.hart c).run ∧ ¬(s.hart c).halted ∧ limit ≠ 0 ∧ s.tok c w.tok < w.need)
          (block
            [advanceTime (w.since + 5 * (limit + 1)),
             waitEnds c,
             if (s.hart c).commitOpen then report (unitPage c) .tokenTimeout 0 0 else raise c .tokenTimeout 0])
      | none => .done) s

/-- SIGTOK and SIGTOK.R issue: the earlier stores drain, and the release is under way (R68, R185). -/
def signal (u len core t n : Nat) : Prog :=
  block
    [drainAll u,
     modHart u fun h => { h with rels := h.rels ++ [{ core := core, tok := t, n := n }] },
     retire u len]

/-- SIGTOK (R68). -/
def execSigtok (u : UnitId) (f : S1) (s : State) : Out :=
  instr u 1 (f.arg7.toNat < 64 ∧ ¬isSeq u.num) (signal u.num 1 u.num f.arg7.toNat 1) s

/-- SIGTOK.R (R68). -/
def execSigtokR (u : UnitId) (f : S2T) (s : State) : Out :=
  instr u 2 (f.n ≠ 0 ∧ f.rsvA = 0 ∧ f.rsvB = 0)
    (ask fun s => signal u.num 2 ((s.reg u.num f.rs.toNat).toNat % 64) f.tok.toNat f.n.toNat) s

/-- SIGTOK_RELEASE (R68): the oldest release of the unit changes its token, once the unit's stores are visible. -/
def execSigtokRelease (u : UnitId) (s : State) : Out :=
  perform
    (ask fun s =>
      match (s.hart u.num).rels with
      | [] => .done
      | r :: rs =>
        onlyIf (s.postsDone u.num) (block [modHart u.num fun h => { h with rels := rs }, addTok r.core r.tok r.n])) s

/-! ### Ordering -/

/-- Every earlier scalar and vector load has returned (R71). -/
def State.loadsBack (s : State) (u : Nat) : Bool :=
  (s.hart u).shadows.all Shadow.arrived && (s.hart u).vloads = []

/-- An array instruction that streams columns (R72, R121). -/
def isStream (q : QOp) : Bool :=
  match q.instr with
  | .mma _ _ | .mmaf _ _ => true
  | _ => false

/-- The unit's transfers, MMA and MMAF columns, vector and tile operations are done (R72). -/
def State.unitsIdle (s : State) (u : Nat) : Bool :=
  let h := s.hart u
  h.xq = [] && !((h.aq ++ h.arun).any isStream) && h.vq = [] && h.vloads = [] && h.tileRows = [] && h.tq = []

/-- FENCE (R71): the merging buffer drains; it completes once the loads have returned and the stores are visible. -/
def execFence (u : UnitId) (f : S1) (s : State) : Out :=
  instr u 1 (f.arg7 = 0 ∧ ¬isSeq u.num)
    (block
      [drainAll u.num,
       ask fun s => onlyIf (s.loadsBack u.num ∧ s.storesVisible u.num) (retire u.num 1)]) s

/-- LFENCE (R72): the fills of prefetches still in flight install nothing. -/
def execLfence (u : UnitId) (f : S1) (s : State) : Out :=
  instr u 1 (f.arg7 = 0 ∧ ¬isSeq u.num)
    (block
      [drainAll u.num,
       ask fun s =>
         onlyIf (s.loadsBack u.num ∧ s.storesVisible u.num ∧ s.unitsIdle u.num)
           (block
             [modHart u.num fun h => { h with fills := [], deadFills := h.deadFills ++ h.fills },
              cinvLines u.num,
              dcctlSettle u.num,
              retire u.num 1])]) s

/-- CINV (R187): once no fill is in flight, the unlocked ways are invalid. -/
def execCinv (u : UnitId) (f : S1) (s : State) : Out :=
  instr u 1 (f.arg7 = 0 ∧ ¬isSeq u.num)
    (ask fun s => onlyIf (¬(s.hart u.num).filling) (block [cinvLines u.num, retire u.num 1])) s

/-! ### ERET -/

/-- A frame field: byte offset `o`, bits hi:lo of the 8-byte word there. -/
def frameFld (fr : List Byte) (o hi lo : Nat) : Nat := bits (ofBytes ((fr.drop o).take 8)) hi lo

/-- A reserved field of a frame is not zero (R383). -/
def frameReserved (fr : List Byte) : Bool :=
  frameFld fr 0 42 18 ≠ 0 || frameFld fr 8 63 20 ≠ 0 || frameFld fr 8 15 12 ≠ 0 || frameFld fr 8 2 0 ≠ 0
    || ofBytes (fr.drop 47) ≠ 0

/-- The capabilities that a frame's indices name, c1 to c15 in order; none when an index is not live (R386). -/
def State.frameCaps (s : State) (u : Nat) (fr : List Byte) : Option (List Cap) :=
  let dom := frameFld fr 8 19 16
  (range 1 15).mapM fun i =>
    let x := ((fr.drop (31 + i)).headD 0).toNat
    if x = 0 then some 0
    else
      let c := s.store u x
      if c.valid && c.domain = dom then some c else none

/-- The frame that ERET reads at `a`, if it may and can (R376, R386). -/
def State.eretFrame (s : State) (u a : Nat) : Option (List Byte) :=
  if (s.creg u 14).err otData pR a 64 ≠ none then none
  else
    match s.trRange u a 64 true false with
    | .error _ => none
    | .ok ps =>
      if ps.any fun (_, pa, n) => (s.viewPoison u pa n).isSome then none
      else some (ps.flatMap fun (_, pa, n) => s.viewBytes u pa n)

/-- The checks of R386 on a frame, and the capabilities that it restores. -/
def State.eretCaps (s : State) (u : Nat) (fr : List Byte) : Option (List Cap) :=
  let h := s.hart u
  let dom := frameFld fr 8 19 16
  let ld := frameFld fr 8 8 6
  if frameReserved fr || frameFld fr 8 11 9 + 1 ≠ h.capdepth || decide (4 < ld) || decide (ld < frameFld fr 8 5 3)
      || !s.mayEnter u (s.creg u 15).domain dom then none
  else
    match s.frameCaps u fr with
    | none => none
    | some cs =>
      let x := cs.getD 14 0
      if x.otype = otProgram ∧ Nat.land x.perm pX = pX ∧ x.within (frameFld fr 0 17 0) 1 then some cs else none

/-- ERET (R385, R386). -/
def execEret (u : UnitId) (f : S1) (s : State) : Out :=
  instr u 1 (f.arg7 = 0 ∧ ¬isSeq u.num)
    (ask fun s =>
      if (s.hart u.num).capdepth = 0 then raise u.num .illegal 0
      else capUse u.num [capIx 14, capIx 15] <| ask fun s =>
        let h := s.hart u.num
        let a := (s.creg u.num 14).base + h.esp.toNat
        match s.eretFrame u.num a with
        | none => raise u.num .returnAuth a
        | some fr =>
          let cause := frameFld fr 0 63 56
          if isCore u.num ∧ (cause = Cause.poisonConsumed.code ∨ cause = Cause.tokenTimeout.code) then .done
          else
            match s.eretCaps u.num fr with
            | none => raise u.num .returnAuth a
            | some cs =>
              block
                [(match s.trRange u.num a 64 true false with
                  | .ok ps => forEach ps fun (va, pa, n) => block [trUse u.num va, touch pa n]
                  | .error _ => .done),
                 forEach (cs.zipIdx) fun (c, i) => setCreg u.num (i + 1) c,
                 finish u.num (fun h =>
                   closeLoops 4
                     { h with
                       pc := BitVec.ofNat 18 (frameFld fr 0 17 0)
                       ld := frameFld fr 8 8 6
                       lbase := frameFld fr 8 5 3
                       capdepth := h.capdepth - 1
                       esp := h.esp + 64 }) none]) s

/-! ### Opcodes that no table assigns -/

/-- The opcode of a four-syllable word is assigned (R46-R48, R82, R118, R143, R150, R193, R245, R284, R377). -/
def assigned (w : BitVec 56) : Bool :=
  let w := w.toNat
  match bits w 13 12 with
  | 0 => bits w 11 7 < 8
  | 1 =>
    let op := bits w 11 6
    decide (op < 8 ∨ 0x10 ≤ op ∧ op < 0x17 ∨ 0x18 ≤ op ∧ op < 0x1E ∨ 0x20 ≤ op ∧ op < 0x2F ∨ 0x30 ≤ op ∧ op < 0x3A)
  | 2 =>
    let op := bits w 11 4
    [0x00, 0x02, 0x03, 0x04, 0x50, 0x51, 0xC0, 0xC1, 0xC2, 0xC8, 0xD0, 0xD1, 0xD2].contains op
      || decide (0x40 ≤ op ∧ op ≤ 0x48 ∨ 0x80 ≤ op ∧ op ≤ 0x85 ∨ 0xA0 ≤ op ∧ op ≤ 0xA6)
  | _ => false

/-- The length of an instruction by its first syllable (R44). -/
def lengthOf (w : BitVec 56) : Nat :=
  match bits w.toNat 13 12 with
  | 1 => 2
  | 2 => 4
  | _ => 1

/-- UNDEFINED_INSTRUCTION (R44, R46): an opcode that no table assigns. -/
def execUndefinedInstruction (u : UnitId) (w : BitVec 56) (s : State) : Out :=
  if assigned w then .next s else instr u (lengthOf w) false .done s

end Sys2Proof.Machine
end

