-- ==== Sys2Proof/Machine/Loads.lean ====
section
/-! DEFINITION. Scalar loads and stores of D space and program space, their arrivals, the merging buffer's drain and the
prefetch fills (R52, R54-R57, R184-R188, R285). -/
namespace Sys2Proof.Machine

/-- Bytes of an access (R52). -/
def lsBytes : LSize → Nat
  | .b => 1 | .h => 2 | .w => 4 | .d => 8

/-- The address rs1 + IMM modulo 2^64 (R52). -/
def State.dAddr (s : State) (u : Nat) (f : S2I) : Nat := (s.reg u f.rs1.toNat + sx f.imm).toNat

/-- Where a byte of a sequencer's data memory stands (R284, R424). -/
def seqMem (l a : Nat) : Nat := sram 0xD l (0x40000 + a)

/-- A store that waits in the tile queue will write the range at partition address `va` (R84, R100). -/
def State.tileWaits (s : State) (u va n : Nat) : Bool :=
  (s.hart u).tq.any fun q => q.stores.any fun r => r.pieces.any fun p => meets p.1 p.2.2 va n

/-- An earlier instruction that waits in a queue will access the range at partition address `va`, and one of the two
accesses writes (R84, R151, R251). -/
def State.memWaits (s : State) (u va n : Nat) (wr : Bool) : Bool :=
  s.tileWaits u va n || (s.hart u).vq.any fun q => q.spans.any fun x => (wr || x.2.2) && meets x.1 x.2.1 va n

/-- The D-space checks of a scalar access in the order of R52; `k` goes on with the physical address. An access that an
earlier queued instruction must come before waits for it (R84, R151, R251). -/
def dAccess (u a n : Nat) (wr : Bool) (k : Nat → Prog) : Prog :=
  capUse u [capIx 1] <| ask fun s =>
    let c := s.creg u 1
    if ¬c.authOk otData (if wr then pW else pR) then raise u .authority a
    else if a % n ≠ 0 then raise u .align a
    else if ¬c.within a n then raise u .capBounds (c.firstOut a)
    else
      match s.tr u a (!wr) wr with
      | .ok pa => if s.memWaits u a n wr then .done else block [trUse u a, k pa]
      | r => raiseTr u a wr r

/-- The memory is the core's own stage memory or the Caller core's own data SRAM: the load returns at once
(R164, R176). -/
def ownMem (u pa : Nat) : Bool := (u < 64 && region pa = .stage u) || (64 ≤ u && region pa = .callerMem (u - 64))

/-- The shadow that a load opens (R55). One that the merging buffer serves whole brings no line (log entry 9). -/
def loadShadow (s : State) (u rd a pa n : Nat) (signed : Bool) : Shadow :=
  let bs := s.loadBytes u pa n
  let inMb := (range pa n).all fun x => ((s.hart u).mbByte x).isSome
  let hit := (s.loadHit u pa).isSome
  { rd := rd, left := 3, data := extend signed n bs, arrived := hit || inMb || ownMem u pa,
    pc := (s.hart u).pc, addr := BitVec.ofNat 64 a, phys := pa, commit := false,
    fill := if cachedTier pa ∧ ¬hit ∧ ¬inMb then some (pa - pa % 64) else none,
    bytes := n, signed := signed, own := s.ownBytes u pa n, stamp := (s.hart u).stamps + 1 }

/-- The sectors or lines that an outstanding load asks its bank for: those of the line that it brings (R174, R184). -/
def loadAsks (u : Nat) (sh : Shadow) : Prog :=
  match sh.fill with
  | some l => bankRange (unitPage u) (some sh.stamp) l 64
  | none => bankRange (unitPage u) (some sh.stamp) sh.phys sh.bytes

/-- A D-space load after its checks (R178, R184, R186, R188). -/
def loadAt (u rd a pa n : Nat) (signed : Bool) : Prog :=
  block
    [refill u pa,
     ask fun s =>
       let at0 := s.loadPlace u pa
       match s.loadPoison u pa n with
       | some x =>
         block
           [touch at0 n,
            onlyIf ((s.loadHit u pa).isNone) (bankReq (unitPage u) pa false),
            raise u .poisonConsumed (a + (x - pa))]
       | none =>
         let sh := loadShadow s u rd a pa n signed
         block
           [touch at0 n,
            modHart u fun h => { h with stamps := sh.stamp },
            onlyIf (cachedTier pa) (match s.loadHit u pa with
              | some i => useLine u i
              | none => trainPrefetch u (s.hart u).pc a),
            onlyIf (¬sh.arrived) (loadAsks u sh),
            watch u a n true false,
            finish u (seqPc u 2) (some sh)]]

/-- A load of a sequencer's data memory (R284, R285). -/
def seqLoad (u rd a n : Nat) (signed : Bool) : Prog :=
  if a % n ≠ 0 ∨ 0x10000 < a + n then seqFault u
  else
    block
      [touch (seqMem (u - 128) a) n,
       ask fun s =>
         if (s.poisonIn (seqMem (u - 128) a) n).isSome then seqFault u
         else
           finish u (seqPc u 2) (some
             { rd := rd, left := 3, data := extend signed n (s.rd (seqMem (u - 128) a) n), arrived := true,
               pc := (s.hart u).pc, addr := BitVec.ofNat 64 a, phys := seqMem (u - 128) a, commit := false, fill := none })]

/-- LD and LDU (R52). -/
def loadInstr (u : UnitId) (sz : LSize) (f : S2I) (signed : Bool) (s : State) : Out :=
  instr u 2 (signed ∨ sz ≠ .d)
    (ask fun s =>
      let a := s.dAddr u.num f
      if isSeq u.num then seqLoad u.num f.rd.toNat a (lsBytes sz) signed
      else dAccess u.num a (lsBytes sz) false fun pa => loadAt u.num f.rd.toNat a pa (lsBytes sz) signed) s

/-- LD (R52). -/
def execLd (u : UnitId) (sz : LSize) (f : S2I) (s : State) : Out := loadInstr u sz f true s

/-- LDU (R52). -/
def execLdu (u : UnitId) (sz : LSize) (f : S2I) (s : State) : Out := loadInstr u sz f false s

/-- ST (R52, R185, R284). -/
def execSt (u : UnitId) (sz : LSize) (f : S2I) (s : State) : Out :=
  instr u 2 true
    (ask fun s =>
      let a := s.dAddr u.num f
      let n := (lsBytes sz)
      let bs := toBytes n (s.reg u.num f.rd.toNat).toNat
      if isSeq u.num then
        if a % n ≠ 0 ∨ 0x10000 < a + n then seqFault u.num
        else block [writeAt (seqMem (u.num - 128) a) bs, retire u.num 2]
      else
        dAccess u.num a n true fun pa =>
          block [mbStore u.num a pa bs, watch u.num a n false true, retire u.num 2]) s

/-! ### Program space -/

/-- Replace `n` syllables from `a` by those of `v` (R54). -/
def pmWrite (u : Nat) : Nat → Nat → Nat → Prog
  | 0, _, _ => .done
  | n + 1, a, v =>
    (ask fun s =>
      let a' := a % pmSize u
      let k := pmAddr u a' / 8
      if s.blkBad k then block [touchBlk k, setChk k { s.chk k with vs := 2 }]
      else
        let old := s.blkVal k
        let sh := 2 ^ (14 * (a' % 4))
        let new := old - old / sh % 2 ^ 14 * sh + v % 2 ^ 14 * sh
        block [touchBlk k, setBlk k new, freshChk k new]).andThen
      (pmWrite u n (a + 1) (v / 2 ^ 14))

/-- The address and check of PLD and PST (R54, R371); OFF17 counts up. -/
def pAccess (u : Nat) (f : S4P) (perm : Nat) (k : Nat → Prog) : Prog :=
  capUse u [capIx f.cap.toNat] <| ask fun s =>
    let a := ((s.reg u f.rs1.toNat).toNat + f.off.toNat) % pmSize u
    match (s.creg u f.cap.toNat).err otProgram perm a 4 with
    | some (c, bad) => raise u c bad
    | none => k a

/-- The bits of PLD and PST (R45, R285). -/
def pLegal (u : UnitId) (f : S4P) : Bool := f.rsvA = 0 && f.rsvB = 0 && !isSeq u.num

/-- PLD (R54). -/
def execPld (u : UnitId) (f : S4P) (s : State) : Out :=
  instr u 4 (pLegal u f)
    (pAccess u.num f pR fun a => ask fun s =>
      let blks := (range 0 4).map fun i => pmAddr u.num ((a + i) % pmSize u.num) / 8
      if blks.any s.blkBad then block [forEach blks touchBlk, coreFatal u.num (if isCore u.num then 1 else 0)]
      else
        block
          [forEach blks touchBlk,
           finish u.num (seqPc u.num 4) (some
             { rd := f.r.toNat, left := 3, data := BitVec.ofNat 64 (s.pldWord u.num a), arrived := true,
               pc := (s.hart u.num).pc, addr := BitVec.ofNat 64 a, phys := pmAddr u.num a, commit := false,
               fill := none })]) s

/-- PST (R54). -/
def execPst (u : UnitId) (f : S4P) (s : State) : Out :=
  instr u 4 (pLegal u f)
    (pAccess u.num f pW fun a => ask fun s =>
      block [pmWrite u.num 4 a ((s.reg u.num f.r.toNat).toNat % 2 ^ 56), retire u.num 4]) s

/-! ### Arrivals and drains -/

/-- The oldest load whose data has not returned. -/
def Hart.oldestLoad (h : Hart) : Option (Nat × Shadow) :=
  (h.shadows.zipIdx.find? fun x => !x.1.arrived && !x.1.commit).map fun x => (x.2, x.1)

/-- LOAD_DATA_ARRIVAL (R55, R177, R178, R184): the data of the oldest outstanding load returns, once its bank has admitted
it (R174). `ecc` is what the symbol code finds as it returns. Poisoned data faults at the load. -/
def execLoadDataArrival (u : UnitId) (ecc : Ecc) (s : State) : Out :=
  perform
    (ask fun s =>
      match (s.hart u.num).oldestLoad with
      | none => .done
      | some (i, x) =>
        let ue : Bool := x.bad || (ecc = .uncorrectable && (bankOf x.phys).isSome)
        onlyIf (¬s.readHeld u.num x.stamp)
          (block
            [readDone u.num x.stamp,
             onlyIf (¬s.disabled x.phys) (eccEvent x.phys ecc),
             if ue then
               block
                 [modHart u.num fun h => { h with shadows := h.shadows.eraseIdx i },
                  latePoison u.num x.pc x.addr.toNat]
             else
               block
                 [(match x.fill with | some l => fillLine u.num l | none => .done),
                  modHart u.num fun h => { h with shadows := h.shadows.set i { x with arrived := true, fill := none } },
                  landShadows u.num],
             dcctlSettle u.num,
             tryHalt u.num])) s

/-- MERGING_BUFFER_DRAIN (R185): the oldest entry drains, at the latest 32 ac after its allocation. -/
def execMergingBufferDrain (u : UnitId) (s : State) : Out :=
  perform
    (ask fun s =>
      match (s.hart u.num).mbuf with
      | [] => .done
      | e :: _ => block [advanceTime (e.born + 5 * 32), drainOldest u.num]) s

/-- PREFETCH_FILL (R178, R188): the oldest prefetch returns, once its bank has admitted it; one that a fence has overtaken,
or that brings poison, installs nothing. -/
def execPrefetchFill (c : Fin 64) (ecc : Ecc) (s : State) : Out :=
  perform
    (ask fun s =>
      let h := s.hart c
      match h.deadFills ++ h.fills with
      | [] => .done
      | (va, n) :: _ =>
        onlyIf (¬s.readHeld c n)
          (block
            [readDone c n,
             modHart c fun h =>
               { h with deadFills := h.deadFills.drop 1, fills := if h.deadFills = [] then h.fills.drop 1 else h.fills },
             match s.tr c va true false with
             | .ok pa =>
               block
                 [onlyIf (¬s.disabled pa) (eccEvent pa ecc),
                  ask fun s =>
                    onlyIf (h.deadFills = [] ∧ cachedTier pa ∧ s.cacheHit c pa = none
                        ∧ s.poisonIn (pa - pa % 64) 64 = none) (fillLine c (pa - pa % 64))]
             | _ => .done,
             dcctlSettle c])) s

end Sys2Proof.Machine
end

