-- ==== Sys2Proof/Machine/Tiles.lean ====
section
/-! DEFINITION. The tile registers: tags, moves, saves and their restart (R77-R104). -/
namespace Sys2Proof.Machine

/-- Bits hi:lo of an S4-U instruction within its operand fields [37:14] (R45). -/
def uf (f : S4U) (hi lo : Nat) : Nat := bits f.opnd.toNat (hi - 14) (lo - 14)

/-- Rows and bytes per row of the shape fields (R49). -/
def rowsOf (f : S4U) : Nat := f.rowsM1.toNat + 1
def rbOf (f : S4U) : Nat := 16 * (f.rbM1.toNat + 1)

/-- Where byte `j` of row `r` of tile `t` stands (R77, R424). -/
def tileAddr (c t r j : Nat) : Nat := sram 5 c (t * 0x8000 + 256 * r + j)

/-- The tag of a tile (R78). -/
def State.tag (s : State) (u t : Nat) : Option Tag := Tab.get (fun _ => none) (s.hart u).tags t

/-- Set a tag (R78). -/
def setTag (u t : Nat) (g : Option Tag) : Prog := modHart u fun h => { h with tags := Tab.put (fun _ => none) h.tags t g }

/-- Clear rows `r` and later of a tile (R92, R423). -/
def clearRows (u t r : Nat) : Prog := clearAt (tileAddr u t r 0) ((128 - r) * 256)

/-- A queued TBROW or TBCOL that writes its tile (R157, R158). -/
def tileStores (q : QOp) : Bool :=
  match q.instr with
  | .tbrow _ f | .tbcol _ f => uf f 22 22 = 1
  | _ => false

/-- An access earlier than stamp `n` writes the tile and has not finished (R100). -/
def State.tileWriter (s : State) (u t n : Nat) : Bool :=
  let h := s.hart u
  (h.xq.any fun x => x.dstTile = some t && decide (x.stamp < n))
    || (h.tileRows.any fun r => r.tile = t && decide (r.stamp < n))
    || (h.vq.any fun q => q.tile = some t && tileStores q && decide (q.stamp < n))
    || h.tq.any fun q => q.writes.contains t && decide (q.stamp < n)

/-- An access earlier than stamp `n` reads the tile and has not finished (R100). -/
def State.tileReader (s : State) (u t n : Nat) : Bool :=
  let h := s.hart u
  (h.xq.any fun x => x.srcTile = some t && decide (x.stamp < n))
    || (h.aq.any fun q => q.tile = some t && decide (q.stamp < n))
    || (h.vq.any fun q => q.tile = some t && decide (q.stamp < n))
    || h.tq.any fun q => q.reads.contains t && decide (q.stamp < n)

/-- The interlocks of an instruction with stamp `n` that reads and writes tiles are met (R100). -/
def State.tilesFree (s : State) (u : Nat) (reads writes : List Nat) (n : Nat) : Bool :=
  !(reads.any fun t => s.tileWriter u t n) && !(writes.any fun t => s.tileWriter u t n || s.tileReader u t n)

/-- The stamp of the instruction that the unit issues next. -/
def State.nextStamp (s : State) (u : Nat) : Nat := (s.hart u).stamps + 1

/-- An instruction of a queue takes its stamp. -/
def takeStamp (u : Nat) : Prog := modHart u fun h => { h with stamps := h.stamps + 1 }

/-- The tile a reading instruction names fits its tag (R89): TILE_SHAPE otherwise. -/
def State.shapeOk (s : State) (u t rows rb : Nat) : Bool :=
  match s.tag u t with
  | none => false
  | some g => decide (rows ≤ g.rows ∧ rb ≤ g.rb)

/-- Why a row or position fails its checks: a bounds or translation cause (R88). A walk that meets poison is a failed
translation; like a page fault it leaves a position to resume at (log entry 24). -/
inductive RowFail where
  | cause (c : Cause) (bad : Nat)
  | tr (va : Nat) (r : Tr)
  deriving DecidableEq, Repr

/-- The checks of one row at `va` of `n` bytes, in the order of R88; the row is accessed through this translation (R87). -/
def State.rowCheck (s : State) (u va n : Nat) (wr : Bool) : Except RowFail (List (Nat × Nat × Nat)) :=
  let c := s.creg u 1
  if ¬c.within va n then .error (.cause .capBounds (c.firstOut va))
  else
    match s.trRange u va n (!wr) wr with
    | .error (a, r) => .error (.tr a r)
    | .ok ps => .ok ps

/-- The pieces of the rows of a list up to the first that fails, and that failure. -/
def State.rowScan (s : State) (u : Nat) (wr : Bool) : List (Nat × Nat) → List (List (Nat × Nat × Nat)) × Option RowFail
  | [] => ([], none)
  | (va, n) :: t =>
    match s.rowCheck u va n wr with
    | .error e => ([], some e)
    | .ok ps => let r := s.rowScan u wr t; (ps :: r.1, r.2)

/-- Raise what a row found. -/
def raiseRow (u : Nat) (wr : Bool) (e : RowFail) : Prog :=
  match e with
  | .cause c a => raise u c a
  | .tr va r => raiseTr u va wr r

/-! ### Starting (R83, R84, R90, R92, R100) -/

/-- A loaded row is written into its tile, poison included. -/
def rowLand (u : Nat) (r : RowOp) : Prog :=
  block
    [writeAt (tileAddr u r.tile r.row 0) r.bytes,
     forEach (r.bad.map fun i => i / 8).eraseDups fun k => poisonAt (tileAddr u r.tile r.row (8 * k))]

/-- The row that a tile instruction loads from `ps` into row `row` of tile `t`, as its reads find the bytes (R84, R90). -/
def State.rowRead (s : State) (u t row stamp : Nat) (ps : List (Nat × Nat × Nat)) : RowOp :=
  let phys := ps.map Prod.snd
  let own := phys.flatMap fun p => s.ownBytes u p.1 p.2
  let as := phys.flatMap fun p => range p.1 p.2
  { tile := t, row := row, phys := phys, bytes := as.map (s.grab own), own := own,
    bad := (range 0 as.length).filter fun i => s.grabBad own (as.getD i 0), stamp := stamp, pc := (s.hart u).pc }

/-- All of a row lies in the core's own stage memory, which answers at once (R86). -/
def RowOp.near (u : Nat) (r : RowOp) : Bool := r.phys.all fun p => region p.1 = .stage u

/-- A row is stored (R83, R84). -/
def rowStore (u : Nat) (r : RowStore) : Prog :=
  match r.src with
  | none => storeRow u r.va r.pieces r.bytes []
  | some (t, row) =>
    let src := tileAddr u t row 0
    let n := r.pieces.foldl (fun n p => n + p.2.2) 0
    block
      [touch src n,
       ask fun s => storeRow u r.va r.pieces (s.rd src n) ((range 0 n).filter fun i => s.poisoned (src + i))]

/-- A tile instruction starts: its rows are cleared, loaded and stored; rows from outside the core's own stage memory are
written as they arrive (R86). -/
def tileStart (u : Nat) (q : TileOp) : Prog :=
  block
    [forEach q.clears fun (t, r, k, n) => forEach (range r k) fun i => clearAt (tileAddr u t i 0) n,
     forEach (q.loads.filter (RowOp.near u)) (rowLand u),
     modHart u fun h => { h with tileRows := h.tileRows ++ q.loads.filter fun r => !r.near u },
     forEach q.stores (rowStore u)]

/-- The first poisoned byte that a tile instruction finds as it starts (R90). -/
def TileOp.poison (u : Nat) (q : TileOp) : Option Nat :=
  (q.loads.find? fun r => r.near u && !r.bad.isEmpty).map fun r => r.addrs.getD (r.bad.headD 0) 0

/-- Tile instructions of the queue start whose interlocks are now met (R100). -/
def tileRun (u : Nat) : Prog :=
  ask fun s => forEach (s.hart u).tq fun q => ask fun s =>
    onlyIf (s.tilesFree u q.reads q.writes q.stamp)
      (block
        [modHart u fun h => { h with tq := h.tq.filter fun p => p.stamp ≠ q.stamp },
         tileStart u q,
         match q.poison u with
         | some a => latePoison u q.pc a
         | none => .done])

/-- A tile instruction enters its queue, or starts at once (R74, R100); `fin` completes its issue. Poison that it meets as it
starts is no restartable fault (R90). -/
def tileEnter (u : Nat) (q : TileOp) (fin : Prog) : Prog :=
  ask fun s =>
    if s.tilesFree u q.reads q.writes q.stamp then
      block
        [takeStamp u, tileStart u q, fin,
         match q.poison u with
         | some a => latePoison u q.pc a
         | none => .done]
    else block [takeStamp u, modHart u fun h => { h with tq := h.tq ++ [q] }, fin]

/-- A tile instruction that reads and writes the tiles may enter its unit now: it starts at once, or its queue of four has
room (R74). One that is to fault must start at once (R92). -/
def State.tileRoom (s : State) (u : Nat) (reads writes : List Nat) (faults : Bool) : Bool :=
  s.tilesFree u reads writes (s.nextStamp u) || (!faults && decide ((s.hart u).tq.length < 4))

/-- The reads of the rows of a tile instruction ask their banks and keep the translation cache (R87, R168, R174). -/
def rowAsks (u : Nat) (stamp : Nat) (pss : List (List (Nat × Nat × Nat))) : Prog :=
  forEach pss fun ps => block
    [forEach ps fun (a, pa, m) =>
       block [trUse u a, touch pa m, onlyIf (region pa ≠ .stage u) (bankRange (unitPage u) (some stamp) pa m)],
     match ps with
     | [] => .done
     | (va, _, _) :: _ => watch u va (ps.foldl (fun n p => n + p.2.2) 0) true false]

/-- The rows that a tile instruction stores keep the translation cache (R87, R168). -/
def rowUses (u : Nat) (pss : List (List (Nat × Nat × Nat))) : Prog :=
  forEach pss fun ps => block
    [forEach ps fun (a, _, _) => trUse u a,
     match ps with
     | [] => .done
     | (va, _, _) :: _ => watch u va (ps.foldl (fun n p => n + p.2.2) 0) false true]

/-- The position at which a tile memory instruction begins (R93). -/
def State.tilePos (s : State) (u : Nat) : Nat :=
  let p := (s.hart u).tprog.toNat
  if bitAt p 31 ∧ bits p 27 11 = (s.hart u).pc.toNat then bits p 10 0 else 0

/-- Write TPROG for a stop at position `f` (R91, R92). -/
def stopAt (u f : Nat) : Prog :=
  modHart u fun h => { h with tprog := BitVec.ofNat 32 (2 ^ 31 + h.pc.toNat % 2 ^ 17 * 2 ^ 11 + f % 2 ^ 11) }

/-- A tile memory instruction has passed every check: TPROG becomes 0, the token is taken, the next instruction may
issue (R67, R93). -/
def tileDone (u : Nat) (f : S4U) : Prog :=
  block [modHart u fun h => { h with tprog := 0 }, takeWte u f.wte f.wtok.toNat, retire u 4]

/-- The end of a tile memory instruction that moves rows: it completes, or stops at position `stop` for `fail` (R92). -/
def tileEnd (u : Nat) (f : S4U) (wr : Bool) (stop : Nat) (fail : Option RowFail) : Prog :=
  match fail with
  | none => tileDone u f
  | some e => block [stopAt u stop, raiseRow u wr e]

/-- TLD, TST, TZERO, TREL, TSAVE and TRESTORE issue on compute cores, SUB4 = 0 (R81, R82). -/
def tileInstr (u : UnitId) (f : S4U) (i : Instr) (legal : Bool) (body : Prog) (s : State) : Out :=
  instr u 4 (isCore u.num ∧ f.sub = 0 ∧ legal) (awaitWte u.num f.wte f.wtok.toNat i body) s

/-- The row addresses of TLD and TST (R83). -/
def State.rowList (s : State) (u : Nat) (f : S4U) : List (Nat × Nat) :=
  let b := (s.reg u (uf f 34 30)).toNat
  let d := (s.reg u (uf f 29 25)).toNat
  (range 0 (rowsOf f)).map fun r => ((b + r * d) % 2 ^ 64, rbOf f)

/-- The authority and alignment checks of TLD and TST (R88); `rows` are those that remain to be done. -/
def State.tileAuth (s : State) (u : Nat) (f : S4U) (perm : Nat) (rows : List (Nat × Nat)) : Option (Cause × Nat) :=
  let b := (s.reg u (uf f 34 30)).toNat
  let d := (s.reg u (uf f 29 25)).toNat
  if ¬(s.creg u 1).authOk otData perm then some (.authority, (rows.headD (b, 0)).1)
  else if b % 16 ≠ 0 then some (.align, b)
  else if d % 16 ≠ 0 then some (.align, d)
  else none

/-- The rows that a tile memory instruction has still to do: the first position, and the list from there (R93). -/
def State.rowsLeft (s : State) (u : Nat) (rows : List (Nat × Nat)) : Nat × List (Nat × Nat) :=
  let pos := min (s.tilePos u) rows.length
  (pos, rows.drop pos)

/-- Some row must wait for an earlier queued access of the core (R84, R151). -/
def State.rowsWait (s : State) (u : Nat) (wr : Bool) (rows : List (Nat × Nat)) : Bool :=
  rows.any fun r => s.memWaits u r.1 r.2 wr

/-- TLD after its wait (R83, R87, R88, R92, R93). -/
def tldBody (u : Nat) (f : S4U) : Prog :=
  let t := uf f 37 35
  capUse u [capIx 1] <| ask fun s =>
    let (pos, rows) := s.rowsLeft u (s.rowList u f)
    match s.tileAuth u f pR rows with
    | some (c, a) => raise u c a
    | none =>
      let (pss, fail) := s.rowScan u false rows
      if ¬s.tileRoom u [] [t] fail.isSome ∨ s.rowsWait u false rows then .done
      else
        let n := s.nextStamp u
        let stop := pos + pss.length
        let q : TileOp :=
          { stamp := n, pc := (s.hart u).pc, reads := [], writes := [t], stores := []
            clears := [(t, pos, pss.length, rbOf f)] ++ (if fail.isSome then [(t, stop, 128 - stop, 256)] else [])
            loads := pss.zipIdx.map fun (ps, k) => s.rowRead u t (pos + k) n ps }
        block
          [setTag u t (some { rows := rowsOf f, rb := rbOf f, fmt := uf f 24 21 }),
           rowAsks u n pss,
           tileEnter u q (tileEnd u f false stop fail)]

/-- TLD (R83). -/
def execTld (u : UnitId) (f : S4U) (s : State) : Out :=
  tileInstr u f (.tld u f) (uf f 24 21 < 0xD ∧ uf f 20 14 = 0) (tldBody u.num f) s

/-- TST after its wait (R83, R87-R89, R92, R93). -/
def tstBody (u : Nat) (f : S4U) : Prog :=
  let t := uf f 37 35
  ask fun s =>
    if ¬s.shapeOk u t (rowsOf f) (rbOf f) then raise u .tileShape 0
    else capUse u [capIx 1] <| ask fun s =>
      let (pos, rows) := s.rowsLeft u (s.rowList u f)
      match s.tileAuth u f pW rows with
      | some (c, a) => raise u c a
      | none =>
        let (pss, fail) := s.rowScan u true rows
        if ¬s.tileRoom u [t] [] fail.isSome ∨ s.rowsWait u true rows then .done
        else
          block
            [rowUses u pss,
             tileEnter u
               { stamp := s.nextStamp u, pc := (s.hart u).pc, reads := [t], writes := [], clears := [], loads := []
                 stores := (pss.zip rows).zipIdx.map fun ((ps, r), k) =>
                   { va := r.1, pieces := ps, src := some (t, pos + k), bytes := [] } }
               (tileEnd u f true (pos + pss.length) fail)]

/-- TST (R83). -/
def execTst (u : UnitId) (f : S4U) (s : State) : Out :=
  tileInstr u f (.tst u f) (uf f 24 14 = 0) (tstBody u.num f) s

/-- TZERO after its wait (R85). -/
def tzeroBody (u : Nat) (f : S4U) : Prog :=
  let t := uf f 37 35
  ask fun s =>
    if ¬s.tileRoom u [] [t] false then .done
    else
      block
        [setTag u t (some { rows := rowsOf f, rb := rbOf f, fmt := uf f 24 21 }),
         tileEnter u
           { stamp := s.nextStamp u, pc := (s.hart u).pc, reads := [], writes := [t]
             clears := [(t, 0, rowsOf f, rbOf f)], loads := [], stores := [] }
           (block [takeWte u f.wte f.wtok.toNat, retire u 4])]

/-- TZERO (R85). -/
def execTzero (u : UnitId) (f : S4U) (s : State) : Out :=
  tileInstr u f (.tzero u f) (uf f 34 25 = 0 ∧ uf f 24 21 < 0xD ∧ uf f 20 14 = 0) (tzeroBody u.num f) s

/-- TREL after its wait (R97, R100): the tags change in program order, and a TREL that waits keeps its place in the queue
(log entry 24). -/
def trelBody (u : Nat) (f : S4U) : Prog :=
  let ts := bitsSet 8 (uf f 37 30)
  ask fun s =>
    if ¬s.tileRoom u [] ts false then .done
    else
      block
        [forEach ts fun t => setTag u t none,
         tileEnter u
           { stamp := s.nextStamp u, pc := (s.hart u).pc, reads := [], writes := ts, clears := [], loads := [], stores := [] }
           (block [takeWte u f.wte f.wtok.toNat, retire u 4])]

/-- TREL (R97). -/
def execTrel (u : UnitId) (f : S4U) (s : State) : Out :=
  tileInstr u f (.trel u f) (f.rowsM1 = 0 ∧ f.rbM1 = 0 ∧ uf f 37 30 ≠ 0 ∧ uf f 29 14 = 0) (trelBody u.num f) s

/-! ### Saves -/

/-- The rows of a save area in order: tile, row, bytes, offset (R98). -/
def saveRows : List (Nat × Tag) → Nat → List (Nat × Nat × Nat × Nat)
  | [], _ => []
  | (t, g) :: rest, off =>
    ((range 0 g.rows).map fun r => (t, r, g.rb, off + r * g.rb)) ++ saveRows rest (off + g.rows * g.rb)

/-- The tiles in use with their tags. -/
def State.liveTiles (s : State) (u : Nat) : List (Nat × Tag) :=
  (range 0 8).filterMap fun t => (s.tag u t).map fun g => (t, g)

/-- The TDESC of a tag (R98). -/
def tdesc (g : Tag) : Nat := g.fmt * 2 ^ 11 + (g.rows - 1) * 2 ^ 4 + (g.rb / 16 - 1)

/-- The save-area header (R98). -/
def State.saveHeader (s : State) (u : Nat) : List Byte :=
  let ts := s.liveTiles u
  toBytes 8 (0x100 + ts.foldl (fun m x => m + 2 ^ x.1) 0)
    ++ (range 0 8).flatMap (fun t => toBytes 4 ((s.tag u t).elim 0 tdesc))
    ++ List.replicate 24 0

/-- The bits of TSAVE and TRESTORE (R82). -/
def saveLegal (f : S4U) : Bool := f.rowsM1 = 0 && f.rbM1 = 0 && uf f 37 35 = 0 && uf f 29 14 = 0

/-- TSAVE after its wait (R98, R99): position 0 is the header. -/
def tsaveBody (u : Nat) (f : S4U) : Prog :=
  capUse u [capIx 1] <| ask fun s =>
    let b := (s.reg u (uf f 34 30)).toNat
    let rows := saveRows (s.liveTiles u) 64
    let (pos, left) := s.rowsLeft u ((b, 64) :: rows.map fun (_, _, n, o) => ((b + o) % 2 ^ 64, n))
    let tiles := (s.liveTiles u).map Prod.fst
    if ¬(s.creg u 1).authOk otData pW then raise u .authority (left.headD (b, 0)).1
    else if b % 64 ≠ 0 then raise u .align b
    else
      let (pss, fail) := s.rowScan u true left
      if ¬s.tileRoom u tiles [] fail.isSome ∨ s.rowsWait u true left then .done
      else
        block
          [rowUses u pss,
           tileEnter u
             { stamp := s.nextStamp u, pc := (s.hart u).pc, reads := tiles, writes := [], clears := [], loads := []
               stores := (pss.zip left).zipIdx.map fun ((ps, r), k) =>
                 match rows[pos + k - 1]? with
                 | some (t, row, _, _) =>
                   if pos + k = 0 then { va := r.1, pieces := ps, src := none, bytes := s.saveHeader u }
                   else { va := r.1, pieces := ps, src := some (t, row), bytes := [] }
                 | none => { va := r.1, pieces := ps, src := none, bytes := s.saveHeader u } }
             (tileEnd u f true (pos + pss.length) fail)]

/-- TSAVE (R98). -/
def execTsave (u : UnitId) (f : S4U) (s : State) : Out :=
  tileInstr u f (.tsave u f) (saveLegal f) (tsaveBody u.num f) s

/-- The tags that a save-area header gives, or none where TRESTORE finds it invalid (R98). -/
def headerTags (h : List Byte) : Option (List (Nat × Tag)) :=
  let w := ofBytes (h.take 8)
  let inuse := w % 256
  let desc (t : Nat) := ofBytes ((h.drop (8 + 4 * t)).take 4)
  if w / 256 ≠ 1 ∨ ofBytes (h.drop 40) ≠ 0
      ∨ (range 0 8).any (fun t =>
          if bitAt inuse t then desc t / 2 ^ 15 ≠ 0 || decide (0xC < bits (desc t) 14 11) else desc t ≠ 0) then none
  else
    some ((bitsSet 8 inuse).map fun t =>
      (t, { rows := bits (desc t) 10 4 + 1, rb := 16 * (bits (desc t) 3 0 + 1), fmt := bits (desc t) 14 11 }))

/-- The rows of TRESTORE from position `pos` on, once the tags are known (R92, R93, R98, R99); `header` is the read of
position 0. -/
def restoreRows (u b pos : Nat) (tiles : List (Nat × Tag)) (f : S4U) (header : Prog) : Prog :=
  ask fun s =>
    let rows := (saveRows tiles 64).drop (pos - 1)
    let (pss, fail) := s.rowScan u false (rows.map fun (_, _, n, o) => ((b + o) % 2 ^ 64, n))
    let n := s.nextStamp u
    if ¬s.tileRoom u [] (range 0 8) fail.isSome then .done
    else
      block
        [header,
         forEach (range 0 8) fun t => setTag u t ((tiles.find? fun x => x.1 = t).map Prod.snd),
         rowAsks u n pss,
         tileEnter u
           { stamp := n, pc := (s.hart u).pc, reads := [], writes := range 0 8, stores := []
             clears := rows.zipIdx.map (fun ((t, r, k, _), i) => (t, r, 1, if i < pss.length then k else 256))
             loads := (pss.zip rows).map fun (ps, (t, r, _, _)) => s.rowRead u t r n ps }
           (tileEnd u f false (pos + pss.length) fail)]

/-- The save-area header that TRESTORE reads from `ps` is not poisoned, or the first poisoned address (R90, R178). -/
def State.headerPoison (s : State) (u : Nat) (ps : List (Nat × Nat × Nat)) : Option Nat :=
  ps.findSome? fun (a, pa, m) => (s.viewPoison u pa m).map fun x => a + (x - pa)

/-- TRESTORE after its wait (R98, R99). -/
def trestoreBody (u : Nat) (f : S4U) : Prog :=
  capUse u [capIx 1] <| ask fun s =>
    let b := (s.reg u (uf f 34 30)).toNat
    let pos := s.tilePos u
    let first := ((b :: (saveRows (s.liveTiles u) 64).map fun r => (b + r.2.2.2) % 2 ^ 64)[pos]?).getD b
    if ¬(s.creg u 1).authOk otData pR then raise u .authority first
    else if b % 64 ≠ 0 then raise u .align b
    else if s.rowsWait u false [(b, 64 + 8 * 128 * 256)] then .done
    else if 0 < pos then restoreRows u b pos (s.liveTiles u) f .done
    else
      match s.rowCheck u b 64 false with
      | .error e => block [stopAt u 0, raiseRow u false e]
      | .ok ps =>
        match s.headerPoison u ps with
        | some a => block [forEach ps fun (_, pa, m) => touch pa m, raise u .poisonConsumed a]
        | none =>
          match headerTags (ps.flatMap fun (_, pa, m) => s.viewBytes u pa m) with
          | none => raise u .tileShape 0
          | some tiles =>
            restoreRows u b 1 tiles f
              (block
                [forEach ps fun (a, pa, m) => block [trUse u a, touch pa m, bankRange (unitPage u) none pa m],
                 watch u b 64 true false])

/-- TRESTORE (R98). -/
def execTrestore (u : UnitId) (f : S4U) (s : State) : Out :=
  tileInstr u f (.trestore u f) (saveLegal f) (trestoreBody u.num f) s

end Sys2Proof.Machine
end

