-- ==== Sys2Proof/Machine/Array.lean ====
section
/-! DEFINITION. The matrix array and the accumulator store (R105-R135). -/
namespace Sys2Proof.Machine

/-! ### Seats, accumulators and formats -/

/-- Byte `j` of row `r` of seat bank `b` (R105, R450). -/
def seatAddr (c b r j : Nat) : Nat := sram 6 c ((b * 128 + r) * 144 + j)

/-- The 72 bits of a narrow element (R28). -/
def accAddr (c a m n : Nat) : Nat := sram 7 c (((a * 128 + m) * 128 + n) * 9)

/-- The status byte of a narrow element: poison in bits 1:0, INEXACT in bit 2 (R28). -/
def accStat (c a m n : Nat) : Nat := sram 7 c (16 * 147456 + (a * 128 + m) * 128 + n)

/-- The narrow tiles that an accumulator of the given width occupies (R28, R114). -/
def accTiles (aw : Bool) (acc : Nat) : List Nat := if aw then [2 * acc, 2 * acc + 1] else [acc]

/-- The narrow tile whose status bits an accumulator uses (R28). -/
def accHead (aw : Bool) (acc : Nat) : Nat := if aw then 2 * acc else acc

/-- Read an element (R26, R28). -/
def State.accGet (s : State) (c : Nat) (aw : Bool) (acc m n : Nat) : Acc :=
  let st := (s.rdByte (accStat c (accHead aw acc) m n)).toNat
  let v := if aw then signedOf 136 (s.rdNat (accAddr c (2 * acc) m n) 9 + 2 ^ 72 * s.rdNat (accAddr c (2 * acc + 1) m n) 9)
           else signedOf 72 (s.rdNat (accAddr c acc m n) 9)
  { v := v, poison := st % 4, inexact := bitAt st 2 }

/-- Some block of an element is damaged (R424). -/
def State.accBad (s : State) (c : Nat) (aw : Bool) (acc m n : Nat) : Bool :=
  s.poisoned (accStat c (accHead aw acc) m n)
    || (accTiles aw acc).any fun a => (s.poisonIn (accAddr c a m n) 9).isSome

/-- Write an element (R28). -/
def accPut (c : Nat) (aw : Bool) (acc m n : Nat) (el : Acc) : Prog :=
  block
    [writeAt (accStat c (accHead aw acc) m n) [BitVec.ofNat 8 (el.poison % 4 + if el.inexact then 4 else 0)],
     if aw then
       let v := unsignedOf 144 el.v
       block [writeAt (accAddr c (2 * acc) m n) (toBytes 9 v), writeAt (accAddr c (2 * acc + 1) m n) (toBytes 9 (v / 2 ^ 72))]
     else writeAt (accAddr c acc m n) (toBytes 9 (unsignedOf 72 el.v))]

/-- Zero a narrow tile (R29, R115). -/
def accClear (c a : Nat) : Prog := block [clearAt (accAddr c a 0 0) 147456, clearAt (accStat c a 0 0) 16384]

/-- The anchor of a wide tile (R27, R29). -/
def State.anchor (s : State) (c i : Nat) : Int := Tab.get (fun _ => 0) (s.hart c).anchors i

/-- The anchor of an accumulator (R26). -/
def State.anchorOf (s : State) (c : Nat) (aw : Bool) (acc : Nat) : Int := if aw then s.anchor c acc else -18

/-- The seat tag of a bank (R105). -/
def State.seat (s : State) (c b : Nat) : Option Tag := Tab.get (fun _ => none) (s.hart c).seats b

/-- Pair `i` is in wide mode (R114). -/
def State.wideMode (s : State) (c i : Nat) : Bool := (s.hart c).modes.getLsbD i

/-- AW agrees with the pair's mode (R116). -/
def State.modeOk (s : State) (c : Nat) (aw : Bool) (acc : Nat) : Bool :=
  s.wideMode c (if aw then acc else acc / 2) = aw

/-- The element format of a tile format code of an array operand (R79, R107). -/
def fmtOf (code : Nat) : Fmt :=
  match code with
  | 1 | 4 => .e4m3
  | 2 | 5 => .e5m2
  | 3 => .int8
  | 6 => .e2m3
  | 7 => .e3m2
  | 8 => .e2m1
  | 9 => .mxint8
  | _ => .q16

/-- The geometry of a row (R107): K elements in KB bytes, c ac a column, block-scaled. -/
structure Geom where
  k : Nat
  kb : Nat
  c : Nat
  scaled : Bool
  deriving DecidableEq, Repr

/-- The geometry of a format at RB bytes a row, where R107 allows it. -/
def geom (fmt rb : Nat) : Option Geom :=
  let kb := rb - 16
  if 1 ≤ fmt ∧ fmt ≤ 3 then
    if 16 ≤ rb ∧ rb ≤ 128 then some { k := rb, kb := rb, c := 1, scaled := false } else none
  else if fmt = 4 ∨ fmt = 5 ∨ fmt = 9 then
    if kb = 32 ∨ kb = 64 ∨ kb = 96 ∨ kb = 128 then some { k := kb, kb := kb, c := 1, scaled := true } else none
  else if fmt = 6 ∨ fmt = 7 then
    if rb = 64 then some { k := 64, kb := 48, c := 1, scaled := true }
    else if rb = 112 then some { k := 128, kb := 96, c := 1, scaled := true }
    else none
  else if fmt = 8 then
    if 16 ≤ kb ∧ kb ≤ 128 ∧ rb = kb + 16 then some { k := 2 * kb, kb := kb, c := 1, scaled := true } else none
  else if fmt = 0xA then
    if rb = 80 then some { k := 32, kb := 64, c := 2, scaled := true }
    else if rb = 144 then some { k := 64, kb := 128, c := 2, scaled := true }
    else none
  else none

/-- Element `i` of packed bytes (R23). -/
def elemAt (f : Fmt) (bs : List Byte) (i : Nat) : Nat :=
  let byte (k : Nat) : Nat := (bs.getD k 0).toNat
  match f with
  | .e2m1 => if i % 2 = 0 then byte (i / 2) % 16 else byte (i / 2) / 16
  | .e2m3 | .e3m2 =>
    let g := 3 * (i / 4)
    (byte g + byte (g + 1) * 2 ^ 8 + byte (g + 2) * 2 ^ 16) / 2 ^ (6 * (i % 4)) % 64
  | .q16 | .bf16 => byte (2 * i) + 256 * byte (2 * i + 1)
  | .fp32 => byte (4 * i) + 2 ^ 8 * byte (4 * i + 1) + 2 ^ 16 * byte (4 * i + 2) + 2 ^ 24 * byte (4 * i + 3)
  | _ => byte i

/-- The codes of `n` elements from element `k0`. -/
def elemsAt (f : Fmt) (bs : List Byte) (k0 n : Nat) : List Nat := (range k0 n).map (elemAt f bs)

/-- The weight format of an MMA (R119); none where XW is not allowed. -/
def weightFmt (fmt : Nat) (xw : Bool) : Option Nat :=
  if ¬xw then some fmt
  else
    match fmt with
    | 1 => some 2
    | 2 => some 1
    | 4 => some 5
    | 5 => some 4
    | _ => none

/-- Where column byte `j` of column `n` lies in a panel (R109). -/
def panelOff (j n : Nat) : Nat := 128 * j + (n + j) % 128

/-- The array's registers of a core (R134). -/
def arrReg (c o : Nat) : Nat := ioa (clusPage (c / 4)) (o + 4 * (c % 4))

/-- GNF of core `c` becomes 1 (R134, R316). -/
def setGnf (c : Nat) : Prog := block [setMask (arrReg c 0x210) 1, modJob fun j => { j with gnfSince := true }]

/-! ### Issue -/

/-- An array instruction: a compute core's, SUB4 = 0 (R118). -/
def arrayInstr (u : UnitId) (f : S4U) (i : Instr) (legal : Bool) (body : Prog) (s : State) : Out :=
  instr u 4 (isCore u.num ∧ f.sub = 0 ∧ legal) (awaitWte u.num f.wte f.wtok.toNat i body) s

/-- The shape fields are 0 (R118). -/
def noShape (f : S4U) : Bool := f.rowsM1 = 0 && f.rbM1 = 0

/-- AW and ACC of an instruction with AW in bit 37 and ACC in bits 36:33. -/
def awOf (f : S4U) : Bool := uf f 37 37 = 1
def accOf (f : S4U) : Nat := uf f 36 33

/-- AW = 1 with ACC of 8 or more is ILLEGAL (R116). -/
def accOk (aw : Bool) (acc : Nat) : Bool := !aw || decide (acc < 8)

/-- Enter the array queue once the checks have passed (R74, R120, R133). -/
def enqueueArray (u : Nat) (f : S4U) (i : Instr) (vals : List Word) (tile : Option Nat) (aux : List Int)
    (phys : List Nat := []) : Prog :=
  block
    [takeStamp u,
     modHart u fun h =>
       { h with aq := h.aq ++ [{ instr := i, vals := vals, vl := h.vl, pc := h.pc, tile := tile, aux := aux,
                                        stamp := h.stamps, phys := phys }] },
     takeWte u f.wte f.wtok.toNat,
     retire u 4]

/-- A full queue stalls issue (R74). -/
def ifRoom (u : Nat) (p : Prog) : Prog := ask fun s => onlyIf ((s.hart u).aq.length < 16) p

/-- Bytes of a range that lie in the core's own stage memory: none, or the first address that does not, with what its
translation finds (R119, R125, R168). -/
def State.ownStage (s : State) (u va n : Nat) (wr : Bool) : Option (Nat × Tr) :=
  (pagePieces (n / 4096 + 2) va n).findSome? fun (a, m) =>
    match s.tr u a (!wr) wr with
    | .ok pa => if region pa = .stage u ∧ region (pa + m - 1) = .stage u then none else some (a, .page)
    | r => some (a, r)

/-- The physical addresses of the pages of a range, in order (R109, R165). -/
def State.pagesAt (s : State) (u va n : Nat) : List Nat :=
  (pagePieces (n / 4096 + 2) va n).map fun (a, _) =>
    match s.tr u a true false with
    | .ok pa => pa
    | _ => 0

/-- Where byte `o` of a range from `va` stands, by the addresses of its pages. -/
def pageByte (va : Nat) (pages : List Nat) (o : Nat) : Nat :=
  let k := (va % 4096 + o) / 4096
  pages.getD k 0 + if k = 0 then o else (va % 4096 + o) % 4096

/-- MSEAT after its wait (R105-R108). -/
def mseatBody (u : Nat) (f : S4U) : Prog :=
  let t := uf f 37 35
  let b := uf f 34 34
  ifRoom u <| ask fun s =>
    match s.tag u t with
    | none => raise u .tileShape 0
    | some g =>
      if ¬(1 ≤ g.fmt ∧ g.fmt ≤ 0xA) ∨ ¬s.shapeOk u t (rowsOf f) (rbOf f) ∨ geom g.fmt (rbOf f) = none then
        raise u .tileShape 0
      else
        block
          [modHart u fun h =>
             { h with seats := Tab.put (fun _ => none) h.seats b (some { rows := rowsOf f, rb := rbOf f, fmt := g.fmt }) },
           enqueueArray u f (.mseat (.core (Fin.ofNat 64 u)) f) [] (some t) []]

/-- MSEAT (R105). -/
def execMseat (u : UnitId) (f : S4U) (s : State) : Out :=
  arrayInstr u f (.mseat u f) (uf f 33 14 = 0) (mseatBody u.num f) s

/-- The column word of an MMA: COFF and NC (R119). -/
def coffOf (w : Word) : Nat := bits w.toNat 15 8
def ncOf (w : Word) : Nat := bits w.toNat 7 0

/-- Bytes of a panel (R109). -/
def panelBytes (g : Geom) : Nat := 128 * g.kb + if g.scaled then 2048 else 0

/-- MMA after its wait: its checks in the order of R88 and R119. -/
def mmaBody (u : Nat) (f : S4U) : Prog :=
  let aw := awOf f
  let acc := accOf f
  let xw := uf f 31 31 = 1
  ifRoom u <| ask fun s =>
    let base := s.reg u (uf f 30 26)
    let word := s.reg u (uf f 25 21)
    let nc := ncOf word
    match s.seat u (uf f 32 32) with
    | none => raise u .tileShape 0
    | some seat =>
      match weightFmt seat.fmt xw with
      | none => raise u .illegal 0
      | some wf =>
        match geom seat.fmt (rbOf f), geom seat.fmt seat.rb with
        | some g, some sg =>
          if seat.rows < rowsOf f ∨ sg.kb < g.kb ∨ nc = 0 ∨ 128 < nc ∨ 128 < coffOf word + nc then raise u .tileShape 0
          else if ¬s.modeOk u aw acc ∨ (¬aw ∧ ¬(seat.fmt = wf ∧ (wf = 1 ∨ wf = 3))) ∨ (¬aw ∧ uf f 20 16 ≠ 0) then
            raise u .accFormat 0
          else capUse u [capIx 1] <| ask fun s =>
            let c := s.creg u 1
            let n := panelBytes g
            if ¬c.authOk otData pR then raise u .authority base.toNat
            else if base.toNat % 128 ≠ 0 then raise u .align base.toNat
            else if ¬c.within base.toNat n then raise u .capBounds (c.firstOut base.toNat)
            else
              match s.ownStage u base.toNat n false with
              | some (a, r) => raiseTr u a false r
              | none =>
                block
                  [forEach (pagePieces (n / 4096 + 2) base.toNat n) fun p => trUse u p.1,
                   enqueueArray u f (.mma (.core (Fin.ofNat 64 u)) f) [base, word, s.reg u (uf f 20 16)] none
                     [seat.fmt, wf, seat.rb] (s.pagesAt u base.toNat n)]
        | _, _ => raise u .tileShape 0

/-- MMA (R119). -/
def execMma (u : UnitId) (f : S4U) (s : State) : Out :=
  arrayInstr u f (.mma u f) (accOk (awOf f) (accOf f) ∧ uf f 15 14 = 0) (mmaBody u.num f) s

/-- MZERO after its wait (R115): the mode changes at issue; `aux` says whether the pair changes mode. -/
def mzeroBody (u : Nat) (f : S4U) : Prog :=
  let aw := awOf f
  let acc := accOf f
  let pair := if aw then acc else acc / 2
  ifRoom u <| ask fun s =>
    let was := s.wideMode u pair
    block
      [modHart u fun h =>
         { h with modes := if aw then h.modes ||| BitVec.ofNat 8 (2 ^ pair) else h.modes &&& ~~~(BitVec.ofNat 8 (2 ^ pair)) },
       enqueueArray u f (.mzero (.core (Fin.ofNat 64 u)) f) [] none [if was = aw then 0 else 1]]

/-- MZERO (R115). -/
def execMzero (u : UnitId) (f : S4U) (s : State) : Out :=
  arrayInstr u f (.mzero u f) (noShape f ∧ accOk (awOf f) (accOf f) ∧ uf f 32 14 = 0) (mzeroBody u.num f) s

/-- MANCHOR after its wait (R116, R117). -/
def manchorBody (u : Nat) (f : S4U) : Prog :=
  ifRoom u <| ask fun s =>
    if ¬s.modeOk u true (accOf f) then raise u .accFormat 0
    else enqueueArray u f (.manchor (.core (Fin.ofNat 64 u)) f) [s.reg u (uf f 32 28)] none []

/-- MANCHOR (R117). -/
def execManchor (u : UnitId) (f : S4U) (s : State) : Out :=
  arrayInstr u f (.manchor u f) (noShape f ∧ awOf f ∧ accOf f < 8 ∧ uf f 27 14 = 0) (manchorBody u.num f) s

/-- The fields of an MDRAIN (R118, R125, R126). -/
structure Drain where
  aw : Bool
  acc : Nat
  ofmt : Nat
  fuse : Nat
  zero : Bool
  yfp32 : Bool
  rows : Nat
  rb : Nat
  rd : Nat
  param : Nat

/-- Bytes of an output element (R125). -/
def osize (ofmt : Nat) : Nat := match ofmt with | 0 => 4 | 1 => 2 | 2 => 1 | 3 => 1 | _ => 2

/-- Columns, first column, pitches and the fused operand of a drain. -/
def Drain.nc (d : Drain) : Nat := d.rb / osize d.ofmt
def Drain.cstart (d : Drain) : Nat := bits d.param 30 24
def Drain.opitch (d : Drain) : Nat := bits d.param 15 0
def Drain.se (d : Drain) : Int := signedOf 8 (bits d.param 23 16)
def Drain.yoff (d : Drain) : Nat := bits d.param 52 32
def Drain.ypitch (d : Drain) : Nat := bits d.param 63 53 * 16
def Drain.ysize (d : Drain) : Nat := if d.yfp32 then 4 else 2

/-- The drain that an MDRAIN describes with its register values. -/
def drainOf (f : S4U) (rd param : Word) : Drain :=
  { aw := awOf f, acc := accOf f, ofmt := uf f 32 30, fuse := uf f 29 28, zero := uf f 27 27 = 1, yfp32 := uf f 16 16 = 1,
    rows := rowsOf f, rb := rbOf f, rd := rd.toNat, param := param.toNat }

/-- The stage offsets of the fused operand's row `r`. -/
def Drain.yrow (d : Drain) (r : Nat) : Nat := d.yoff + r * d.ypitch

/-- MDRAIN after its wait (R88, R125, R126, R376). STORE_PAGE of the output comes before LOAD_PAGE of the fused operand
(log entry 24). -/
def mdrainBody (u : Nat) (f : S4U) : Prog :=
  ifRoom u <| ask fun s =>
    let rd := s.reg u (uf f 26 22)
    let pw := s.reg u (uf f 21 17)
    let d := drainOf f rd pw
    let fused : Bool := d.fuse ≠ 0
    let outs := (range 0 d.rows).map fun r => ((d.rd + r * d.opitch) % 2 ^ 64, d.rb)
    let ys := if fused then (range 0 d.rows).map fun r => (stageBase u + d.yrow r, d.nc * d.ysize) else []
    if bitAt d.param 31 then raise u .illegal 0
    else if d.rb % osize d.ofmt ≠ 0 ∨ 128 < d.cstart + d.nc then raise u .tileShape 0
    else if ¬s.modeOk u d.aw d.acc then raise u .accFormat 0
    else capUse u [capIx 1] <| ask fun s =>
      let c := s.creg u 1
      if ¬c.authOk otData (if fused then pR + pW else pW) then raise u .authority d.rd
      else if d.rd % 16 ≠ 0 then raise u .align d.rd
      else if d.opitch % 16 ≠ 0 then raise u .align d.opitch
      else if d.yoff % 16 ≠ 0 then raise u .align d.yoff
      else
        match (outs ++ ys).find? fun (a, n) => !c.within a n with
        | some (a, _) => raise u .capBounds (c.firstOut a)
        | none =>
          match outs.findSome? fun (a, n) => s.ownStage u a n true with
          | some (a, r) => raiseTr u a true r
          | none =>
            match ys.find? fun (a, n) => decide (stageBase u + 0x200000 < a + n) with
            | some (a, _) => raise u .loadPage a
            | none =>
              block
                [forEach outs fun o => trUse u o.1,
                 enqueueArray u f (.mdrain (.core (Fin.ofNat 64 u)) f) [rd, pw] none []]

/-- MDRAIN (R125). -/
def execMdrain (u : UnitId) (f : S4U) (s : State) : Out :=
  arrayInstr u f (.mdrain u f)
    (accOk (awOf f) (accOf f) ∧ uf f 32 30 < 5 ∧ uf f 29 28 ≠ 3 ∧ (uf f 29 28 = 0 ∨ uf f 32 30 ≠ 4)
      ∧ (uf f 29 28 ≠ 0 ∨ uf f 16 16 = 0) ∧ uf f 15 14 = 0)
    (mdrainBody u.num f) s

/-- An instruction of the queue is an MDRAIN of the accumulator (R122). -/
def isDrainOf (aw : Bool) (acc : Nat) (q : QOp) : Bool :=
  match q.instr with
  | .mdrain _ f => awOf f = aw && accOf f = acc
  | _ => false

/-- The condition of an MWAIT (R122) over the array instructions before it. -/
def mwaitMet (f : S4U) (before : List QOp) : Bool :=
  if uf f 37 37 = 1 then before = []
  else !(before.any (isDrainOf (uf f 36 36 = 1) (uf f 35 32)))

/-- MWAIT after its wait under WTE (R116, R122). -/
def mwaitBody (u : Nat) (f : S4U) : Prog :=
  ifRoom u <| ask fun s =>
    let h := s.hart u
    if uf f 37 37 = 0 ∧ ¬s.modeOk u (uf f 36 36 = 1) (uf f 35 32) then raise u .accFormat 0
    else if mwaitMet f (h.arun ++ h.aq) then block [takeWte u f.wte f.wtok.toNat, retire u 4]
    else
      block
        [modHart u fun h =>
           { h with
             aq := h.aq ++ [{ instr := .mwait (.core (Fin.ofNat 64 u)) f, vals := [], vl := h.vl, pc := h.pc, tile := none,
                              aux := [] }]
             mwait := true },
         takeWte u f.wte f.wtok.toNat]

/-- MWAIT (R122). -/
def execMwait (u : UnitId) (f : S4U) (s : State) : Out :=
  arrayInstr u f (.mwait u f)
    (noShape f ∧ accOk (uf f 36 36 = 1) (uf f 35 32) ∧ uf f 31 14 = 0 ∧ (uf f 37 37 = 0 ∨ uf f 36 32 = 0))
    (mwaitBody u.num f) s

/-- An MWAIT whose condition holds completes, and the core goes on (R122). -/
def mwaitCheck (u : Nat) : Prog :=
  ask fun s =>
    let h := s.hart u
    match h.aq.getLast? with
    | some q =>
      match q.instr with
      | .mwait _ f =>
        onlyIf (mwaitMet f (h.arun ++ h.aq.dropLast))
          (block [modHart u fun h => { h with aq := h.aq.dropLast, mwait := false }, finish u (seqPc u 4) none])
      | _ => .done
    | none => .done

/-! ### Effects -/

/-- MSEAT copies the tile rows into the bank, poison included (R101, R105, R424). -/
def mseatRun (u : Nat) (f : S4U) : Prog :=
  forEach (range 0 (rowsOf f)) fun r =>
    let src := tileAddr u (uf f 37 35) r 0
    let dst := seatAddr u (uf f 34 34) r 0
    block
      [touch src (rbOf f),
       ask fun s =>
         block
           [writeAt dst (s.rd src (rbOf f)),
            forEach (range 0 (rbOf f / 8)) fun k => onlyIf (s.poisoned (src + 8 * k)) (poisonAt (dst + 8 * k))]]

/-- MZERO (R29, R115). -/
def mzeroRun (u : Nat) (f : S4U) (changed : Bool) : Prog :=
  let acc := accOf f
  let tiles := if awOf f then [2 * acc, 2 * acc + 1] else if changed then [acc / 2 * 2, acc / 2 * 2 + 1] else [acc]
  forEach tiles fun a => accClear u a

/-- The checks that reading an element makes (R421, R424). -/
def accScan (u : Nat) (aw : Bool) (acc m n : Nat) : Prog :=
  block
    [touch (accStat u (accHead aw acc) m n) 1,
     forEach (accTiles aw acc) fun a => touch (accAddr u a m n) 9]

/-- Rebase every element of a wide tile to a new anchor (R34, R117). Damaged data is consumed, once for the instruction at
`pc` (R133, R424). -/
def rebaseRun (u : Nat) (pc : BitVec 18) (acc : Nat) (new : Int) : Prog :=
  ask fun s =>
    let old := s.anchor u acc
    let bad := (range 0 128).any fun m => (range 0 128).any fun n => s.accBad u true acc m n
    block
      [forEach (range 0 128) fun m => forEach (range 0 128) fun n =>
         block
           [accScan u true acc m n,
            ask fun s => accPut u true acc m n ((s.accGet u true acc m n).rebase old new)],
       modHart u fun h => { h with anchors := Tab.put (fun _ => 0) h.anchors acc new },
       onlyIf bad (latePoison u pc 0)]

/-- The anchor that a register names (R117). -/
def anchorVal (w : Word) : Int := signedOf 10 (bits w.toNat 9 0)

/-- The contributions of one seated row and one column, block by block (R30). -/
def rowContribs (sf wf : Nat) (g : Geom) (seat : List Byte) (sscale : List Byte) (col cscale : List Byte) :
    List (Nat × Int × Int) :=
  (range 0 ((g.k + 31) / 32)).map fun b =>
    let n := min 32 (g.k - 32 * b)
    contribution (fmtOf sf) (fmtOf wf) (elemsAt (fmtOf sf) seat (32 * b) n) (elemsAt (fmtOf wf) col (32 * b) n)
      (if g.scaled then some (sscale.getD b 0).toNat else none)
      (if g.scaled then some (cscale.getD b 0).toNat else none)

/-- The bytes of column `n` of a panel and its scale field (R109); `at'` gives the place of each panel byte. -/
def State.column (s : State) (at' : Nat → Nat) (g : Geom) (n : Nat) : List Byte × List Byte :=
  ((range 0 g.kb).map fun j => s.rdByte (at' (panelOff j n)),
   (range 0 16).map fun b => s.rdByte (at' (128 * g.kb + 16 * n + b)))

/-- The panel offsets that a column's stream reads: its bytes and the scales of its blocks (R106, R109, R119). -/
def colBytes (g : Geom) (n : Nat) : List Nat :=
  ((range 0 g.kb).map fun j => panelOff j n)
    ++ if g.scaled then (range 0 ((g.k + 31) / 32)).map fun b => 128 * g.kb + 16 * n + b else []

/-- The bytes of a seated row that an MMA uses: the first KB, and the scales of their blocks (R106, R119). -/
def rowBytes (g : Geom) (srb : Nat) : List Nat :=
  range 0 g.kb ++ if g.scaled then range (srb - 16) ((g.k + 31) / 32) else []

/-- The first `cols` columns of an MMA stream through the array (R112, R113, R119). -/
def mmaRun (u : Nat) (f : S4U) (q : QOp) (cols : Nat) : Prog :=
  let base := (q.vals.getD 0 0).toNat
  let word := q.vals.getD 1 0
  let sf := (q.aux.getD 0 0).toNat
  let wf := (q.aux.getD 1 0).toNat
  let srb := (q.aux.getD 2 0).toNat
  let aw := awOf f
  let acc := accOf f
  match geom sf (rbOf f) with
  | none => .done
  | some g =>
    let at' := pageByte base q.phys
    let used := (range 0 cols).flatMap fun n => (colBytes g n).map at'
    let seats := if cols = 0 then [] else
      (range 0 (rowsOf f)).flatMap fun m => (rowBytes g srb).map fun j => seatAddr u (uf f 32 32) m j
    ask fun s =>
      let bad := (used ++ seats).any s.poisoned
      block
        [forEach (used ++ seats) fun a => touch a 1,
         satAdd (arrReg u 0x240) 31 0 cols,
         forEach (range 0 cols) fun n => ask fun s =>
           let (col, cs) := s.column at' g n
           forEach (range 0 (rowsOf f)) fun m => ask fun s =>
             let seat := s.rd (seatAddr u (uf f 32 32) m 0) srb
             let el := (rowContribs sf wf g seat (seat.drop (srb - 16)) col cs).foldl
               (fun el c => el.add c (if aw then 136 else 72) (s.anchorOf u aw acc))
               (s.accGet u aw acc m (coffOf word + n))
             accPut u aw acc m (coffOf word + n) el,
         onlyIf bad (latePoison u q.pc base)]

/-- The conversion parameters of an output format (R125). -/
def outParam (ofmt : Nat) : FParam := match ofmt with | 0 => pFp32 | 1 => pBf16 | 2 => pE4m3 | _ => pE5m2

/-- One drained element (R35-R40, R126): its code, an FP8 saturation, a GG16 saturation, non-finite. -/
def drainElem (d : Drain) (el : Acc) (anchor : Int) (y : Option Nat) : Nat × Bool × Bool × Bool :=
  let x := el.num anchor
  let v := match y with
    | none => x
    | some c =>
      let yn := decodeFmt (if d.yfp32 then .fp32 else .bf16) c
      if d.fuse = 1 then x.add yn else x.mul yn
  let round := if y.isNone then roundPlain (outParam d.ofmt) else roundTo (outParam d.ofmt)
  if d.ofmt = 4 then
    let (q, sat, nf) := gg16 v d.se
    (q, false, sat, nf)
  else if d.ofmt < 2 then ((round v).1, false, false, false)
  else
    let (q, sat) := round (v.scale d.se)
    (q, sat, false, false)

/-- MDRAIN row `r`: read y, convert, zero, write (R125-R127). -/
def drainRow (u : Nat) (d : Drain) (r : Nat) : Prog :=
  let cols := range 0 d.nc
  let ya := stageBase u + d.yrow r
  block
    [onlyIf (d.fuse ≠ 0) (touch ya (d.nc * d.ysize)),
     forEach cols fun j => accScan u d.aw d.acc r (d.cstart + j),
     ask fun s =>
       let anchor := s.anchorOf u d.aw d.acc
       let els := cols.map fun j => s.accGet u d.aw d.acc r (d.cstart + j)
       let outs := els.zipIdx.map fun (el, j) =>
         drainElem d el anchor (if d.fuse = 0 then none else some (s.rdNat (ya + j * d.ysize) d.ysize))
       let va := (d.rd + r * d.opitch) % 2 ^ 64
       let bytes := outs.flatMap fun o => toBytes (osize d.ofmt) o.1
       block
         [onlyIf (els.any Acc.inexact) (setMask (arrReg u 0x210) 2),
          onlyIf (els.any fun e => e.poison ≠ 0) (setMask (arrReg u 0x210) 4),
          onlyIf (outs.any fun o => o.2.2.2) (setGnf u),
          satAdd (arrReg u 0x220) 31 0 (outs.filter fun o => o.2.1).length,
          satAdd (arrReg u 0x230) 31 0 (outs.filter fun o => o.2.2.1).length,
          onlyIf d.zero (forEach cols fun j =>
            accPut u d.aw d.acc r (d.cstart + j) { v := 0, poison := 0, inexact := false }),
          match s.trRange u va d.rb false true with
          | .ok ps => storeRow u va ps bytes []
          | .error _ => .done]]

/-- A fused operand or element of row `r` is damaged (R424). -/
def State.drainBad (s : State) (u : Nat) (d : Drain) (r : Nat) : Bool :=
  (d.fuse ≠ 0 && (s.poisonIn (stageBase u + d.yrow r) (d.nc * d.ysize)).isSome)
    || (range 0 d.nc).any fun j => s.accBad u d.aw d.acc r (d.cstart + j)

/-- MDRAIN (R125-R127): damaged data is consumed once for the instruction (R133, R424). -/
def mdrainRun (u : Nat) (f : S4U) (q : QOp) : Prog :=
  let d := drainOf f (q.vals.getD 0 0) (q.vals.getD 1 0)
  ask fun s =>
    block
      [forEach (range 0 d.rows) fun r => drainRow u d r,
       onlyIf ((range 0 d.rows).any (s.drainBad u d)) (latePoison u q.pc 0)]

/-! ### MMAF -/

/-- An MMAF descriptor (R129). -/
structure Fold where
  m : Nat
  n : Nat
  k : Nat
  fmt : Nat
  tb : Bool
  bf : Bool
  accum : Bool
  anchor : Int
  a : Nat
  b : Nat
  c : Nat
  ap : Nat
  bp : Nat
  cp : Nat
  as : Nat
  bs : Nat
  deriving DecidableEq, Repr

/-- Decode and check an MMAF descriptor (R129). -/
def foldOf (d : List Byte) : Option Fold :=
  let w (i : Nat) : Nat := ofBytes ((d.drop (8 * i)).take 8)
  let w0 := w 0
  let x : Fold :=
    { m := bits w0 9 0 + 1, n := bits w0 19 10 + 1, k := bits w0 29 20 + 1, fmt := bits w0 33 30, tb := bitAt w0 34,
      bf := bitAt w0 35, accum := bitAt w0 36, anchor := signedOf 10 (bits w0 46 37), a := w 1, b := w 2, c := w 3,
      ap := bits (w 4) 31 0, bp := bits (w 4) 63 32, cp := bits (w 5) 31 0, as := w 6, bs := w 7 }
  if bits w0 63 47 = 0 ∧ bits (w 5) 63 32 = 0 ∧ (x.fmt = 1 ∨ x.fmt = 2 ∨ x.fmt = 3 ∨ x.fmt = 0xA)
      ∧ (x.fmt ≠ 0xA ∨ x.k % 32 = 0)
      ∧ x.a % 16 = 0 ∧ x.b % 16 = 0 ∧ x.c % 16 = 0 ∧ x.ap % 16 = 0 ∧ x.bp % 16 = 0 ∧ x.cp % 16 = 0 then some x
  else none

/-- Bytes of an operand element and of a result element. -/
def Fold.es (x : Fold) : Nat := if x.fmt = 0xA then 2 else 1
def Fold.os (x : Fold) : Nat := if x.bf then 2 else 4

/-- Addresses of elements and scales (R130). -/
def Fold.aAt (x : Fold) (m k : Nat) : Nat := x.a + m * x.ap + k * x.es
def Fold.bAt (x : Fold) (k n : Nat) : Nat := if x.tb then x.b + n * x.bp + k * x.es else x.b + k * x.bp + n * x.es
def Fold.cAt (x : Fold) (m n : Nat) : Nat := x.c + m * x.cp + n * x.os
def Fold.asAt (x : Fold) (m b : Nat) : Nat := x.as + m * (x.k / 32) + b
def Fold.bsAt (x : Fold) (b n : Nat) : Nat := if x.tb then x.bs + n * (x.k / 32) + b else x.bs + b * x.n + n

/-- The extents of the operands: base and length of everything MMAF touches (R129, R130). -/
def Fold.extents (x : Fold) : List (Nat × Nat) :=
  [(x.a, (x.m - 1) * x.ap + x.k * x.es),
   (x.b, if x.tb then (x.n - 1) * x.bp + x.k * x.es else (x.k - 1) * x.bp + x.n * x.es),
   (x.c, (x.m - 1) * x.cp + x.n * x.os)]
  ++ (if x.fmt = 0xA then [(x.as, x.m * (x.k / 32)), (x.bs, x.n * (x.k / 32))] else [])

/-- The checks of MMAF that need no descriptor, in the order of R88 after TILE_SHAPE and ACC_FORMAT. -/
def State.mmafAuth (s : State) (u : Nat) (c : Cap) (desc scratch : Nat) : Option RowFail :=
  if ¬c.authOk otData (pR + pW + pFold) then some (.cause .authority desc)
  else if desc % 64 ≠ 0 then some (.cause .align desc)
  else if scratch % 65536 ≠ 0 then some (.cause .align scratch)
  else if ¬c.within desc 64 then some (.cause .capBounds (c.firstOut desc))
  else if ¬c.within scratch 65536 then some (.cause .capBounds (c.firstOut scratch))
  else
    match s.ownStage u desc 64 false, s.ownStage u scratch 65536 true with
    | some (a, r), _ => some (.tr a r)
    | none, some (a, r) => some (.tr a r)
    | none, none => none

/-- MMAF after its wait (R129, R131, R133). A cause that needs no descriptor is raised before the descriptor is judged (log
entry 24). -/
def mmafBody (u : Nat) (f : S4U) : Prog :=
  let ci := uf f 37 34
  ifRoom u <| capUse u [capIx ci] <| ask fun s =>
    let c := s.creg u ci
    let desc := s.reg u (uf f 33 29)
    let scratch := s.reg u (uf f 28 24)
    let early := s.mmafAuth u c desc.toNat scratch.toNat
    let dAt := (s.pagesAt u desc.toNat 64).headD 0
    let accBad : Bool := !(s.wideMode u 6 && s.wideMode u 7)
    match early with
    | some e => if accBad then raise u .accFormat 0 else raiseRow u false e
    | none =>
      if (s.viewPoison u dAt 64).isSome then block [touch dAt 64, raise u .poisonConsumed desc.toNat]
      else
        match foldOf (s.viewBytes u dAt 64) with
        | none => raise u .tileShape 0
        | some x =>
          if accBad then raise u .accFormat 0
          else
            match x.extents.find? fun (a, n) => !c.within a n with
            | some (a, _) => raise u .capBounds (c.firstOut a)
            | none =>
              block
                [touch dAt 64,
                 modHart u fun h => { h with seats := [] },
                 enqueueArray u f (.mmaf (.core (Fin.ofNat 64 u)) f)
                   ((range 0 8).map (fun i => BitVec.ofNat 64 (ofBytes (((s.viewBytes u dAt 64).drop (8 * i)).take 8)))
                     ++ [scratch]) none []]

/-- MMAF (R129). -/
def execMmaf (u : UnitId) (f : S4U) (s : State) : Out :=
  arrayInstr u f (.mmaf u f) (noShape f ∧ uf f 23 14 = 0) (mmafBody u.num f) s

/-- The bytes that a core reads at a partition address, where it translates. -/
def State.readVa (s : State) (u va n : Nat) : Option (List Byte) :=
  match s.trRange u va n true false with
  | .ok ps => some (ps.flatMap fun (_, pa, m) => s.viewBytes u pa m)
  | .error _ => none

/-- The ranges that MMAF reads: the rows of A and B, the scale tensors, and the old C when it adds to it (R129, R130). -/
def Fold.reads (x : Fold) : List (Nat × Nat) :=
  ((range 0 x.m).map fun m => (x.aAt m 0, x.k * x.es))
    ++ (if x.tb then (range 0 x.n).map fun n => (x.bAt 0 n, x.k * x.es)
        else (range 0 x.k).map fun k => (x.bAt k 0, x.n * x.es))
    ++ (if x.fmt = 0xA then [(x.as, x.m * (x.k / 32)), (x.bs, x.n * (x.k / 32))] else [])
    ++ (if x.accum then (range 0 x.m).map fun m => (x.cAt m 0, x.n * x.os) else [])

/-- The rows of C that it writes. -/
def Fold.writes (x : Fold) : List (Nat × Nat) := (range 0 x.m).map fun m => (x.cAt m 0, x.n * x.os)

/-- What stops an MMAF in a range (R131, R168): poison there or in its walk (true), or a failed translation, with the
address. -/
def State.foldStop (s : State) (u : Nat) (wr : Bool) (r : Nat × Nat) : Option (Bool × Nat) :=
  match s.trRange u r.1 r.2 (!wr) wr with
  | .error (_, .poison a) => some (true, a)
  | .error (a, _) => some (false, a)
  | .ok ps =>
    if wr then none
    else ps.findSome? fun (a, pa, m) => (s.viewPoison u pa m).map fun y => (true, a + (y - pa))

/-- The columns that an MMAF streams: each pass of K over each output tile (R132, R134; log entry 15). -/
def Fold.columns (x : Fold) : Nat :=
  (x.m + 127) / 128 * ((x.k + (if x.fmt = 0xA then 63 else 127)) / (if x.fmt = 0xA then 64 else 128)) * x.n

/-- One element of C (R130): the accumulator element before conversion. -/
def State.foldElem (s : State) (u : Nat) (x : Fold) (m n : Nat) : Acc :=
  let code (a : Nat) : Nat := ofBytes ((s.readVa u a x.es).getD [])
  let scale (a : Nat) : Option Nat := if x.fmt = 0xA then some (ofBytes ((s.readVa u a 1).getD [])) else none
  (range 0 ((x.k + 31) / 32)).foldl (fun el b =>
    let ks := range (32 * b) (min 32 (x.k - 32 * b))
    el.add (contribution (fmtOf x.fmt) (fmtOf x.fmt) (ks.map fun k => code (x.aAt m k)) (ks.map fun k => code (x.bAt k n))
      (scale (x.asAt m b)) (scale (x.bsAt b n))) 136 x.anchor)
    { v := 0, poison := 0, inexact := false }

/-- The elements of C (R130): address, the accumulator element, the code written. -/
def State.foldOut (s : State) (u : Nat) (x : Fold) : List (Nat × Acc × Nat) :=
  let p := if x.bf then pBf16 else pFp32
  (range 0 x.m).flatMap fun m => (range 0 x.n).map fun n =>
    let el := s.foldElem u x m n
    let v := el.num x.anchor
    let old := decodeFmt (if x.bf then .bf16 else .fp32) (ofBytes ((s.readVa u (x.cAt m n) x.os).getD []))
    (x.cAt m n, el, (if x.accum then roundTo p (v.add old) else roundPlain p v).1)

/-- Elements of C are written, with the flags of the equivalent drains (R131). -/
def foldWrite (u : Nat) (x : Fold) (out : List (Nat × Acc × Nat)) : Prog :=
  block
    [forEach out fun (a, _, code) => ask fun s =>
       (match s.trRange u a x.os false true with
        | .ok ps => storeRow u a ps (toBytes x.os code) []
        | .error _ => .done),
     onlyIf (out.any fun o => o.2.1.inexact) (setMask (arrReg u 0x210) 2),
     onlyIf (out.any fun o => o.2.1.poison ≠ 0) (setMask (arrReg u 0x210) 4)]

/-- The working tiles take the descriptor's anchor (R131). -/
def foldAnchors (u : Nat) (x : Fold) : Prog :=
  modHart u fun h =>
    { h with anchors := Tab.put (fun _ => 0) (Tab.put (fun _ => 0) h.anchors 6 x.anchor) 7 x.anchor }

/-- MMAF runs to its end (R130, R131): it reads every operand, then writes C. -/
def mmafRun (u : Nat) (q : QOp) : Prog :=
  match foldOf ((q.vals.take 8).flatMap fun w => toBytes 8 w.toNat) with
  | none => .done
  | some x => ask fun s =>
    match (x.reads.findSome? (s.foldStop u false)).or (x.writes.findSome? (s.foldStop u true)) with
    | some (true, a) => latePoison u q.pc a
    | some (false, a) => report (unitPage u) .mmafFault 0 a
    | none =>
      block
        [forEach x.reads fun (a, n) =>
           (match s.trRange u a n true false with
            | .ok ps => forEach ps fun (b, pa, m) =>
                block [trUse u b, touch pa m, onlyIf (region pa ≠ .stage u) (bankRange (unitPage u) none pa m)]
            | .error _ => .done),
         satAdd (arrReg u 0x240) 31 0 x.columns,
         foldWrite u x (s.foldOut u x),
         forEach [12, 13, 14, 15] fun a => accClear u a,
         foldAnchors u x,
         ask fun s =>
           (match s.trRange u (q.vals.getD 8 0).toNat 65536 false true with
            | .ok ps => forEach ps fun (_, pa, m) => clearAt pa m
            | .error _ => .done)]

/-- The bytes of a range take free values (log entry 3). -/
def freeBytes (a n : Nat) : Prog :=
  forEach (range a n) fun x => ask fun s => block [writeAt x [s.freeVal.setWidth 8], useFree]

/-- MMAF that STOP cuts (R124, R131): it has written a number of the elements of C that the spec leaves to timing, and its
working tiles and scratch area hold what the columns already streamed left there (free values, log entry 15). -/
def mmafCut (u : Nat) (q : QOp) : Prog :=
  match foldOf ((q.vals.take 8).flatMap fun w => toBytes 8 w.toNat) with
  | none => .done
  | some x => ask fun s =>
    let out := s.foldOut u x
    block
      [useFree,
       onlyIf (((x.reads.findSome? (s.foldStop u false)).or (x.writes.findSome? (s.foldStop u true))).isNone)
         (foldWrite u x (out.take (s.freeVal.toNat % (out.length + 1)))),
       foldAnchors u x,
       forEach [12, 13, 14, 15] fun a => block [freeBytes (accAddr u a 0 0) 147456, freeBytes (accStat u a 0 0) 16384],
       ask fun s =>
         (match s.trRange u (q.vals.getD 8 0).toNat 65536 false true with
          | .ok ps => forEach ps fun (_, pa, m) => freeBytes pa m
          | .error _ => .done)]

/-! ### Starts and completions -/

/-- The narrow tiles whose elements an instruction reads or changes. -/
def qTiles (q : QOp) : List Nat :=
  match q.instr with
  | .mma _ f | .manchor _ f | .mdrain _ f => accTiles (awOf f) (accOf f)
  | .mzero _ f =>
    if awOf f then accTiles true (accOf f)
    else if q.aux = [1] then [accOf f / 2 * 2, accOf f / 2 * 2 + 1]
    else [accOf f]
  | _ => []

/-- The accumulator port serves the instruction (R120). -/
def accPort (q : QOp) : Bool :=
  match q.instr with
  | .mzero _ _ | .manchor _ _ | .mdrain _ _ => true
  | _ => false

/-- The seat bank that an MSEAT fills or an MMA streams on. -/
def seatsBank (q : QOp) : Option Nat := match q.instr with | .mseat _ f => some (uf f 34 34) | _ => none
def streamsBank (q : QOp) : Option Nat := match q.instr with | .mma _ f => some (uf f 32 32) | _ => none

/-- The instruction is an MMAF. -/
def isFold (q : QOp) : Bool := match q.instr with | .mmaf _ _ => true | _ => false

/-- The two touch a common accumulator. -/
def sharesAcc (p q : QOp) : Bool := (qTiles p).any fun a => (qTiles q).contains a

/-- The waits of R120 and R121 against the running instructions. -/
def State.mayStart (s : State) (u : Nat) (q : QOp) (run : List QOp) : Bool :=
  !(run.any isFold) &&
    match q.instr with
    | .mseat _ f =>
      !(run.any fun r => (seatsBank r).isSome || streamsBank r = some (uf f 34 34)) && !s.tileWriter u (uf f 37 35) q.stamp
    | .mma _ f =>
      !(run.any fun r => seatsBank r = some (uf f 32 32) || (accPort r && sharesAcc r q)
          || (uf f 20 16 ≠ 0 && (accPort r || ((streamsBank r).isSome && sharesAcc r q))))
    | .mzero _ _ | .manchor _ _ | .mdrain _ _ =>
      !(run.any fun r => accPort r || ((streamsBank r).isSome && sharesAcc r q))
    | .mmaf _ _ => run = []
    | _ => false

/-- The head of the array queue starts once its waits are satisfied (R120, R121). MSEAT, MZERO, MANCHOR, MDRAIN and the
rebase of an MMA act here; the columns of an MMA and an MMAF act at completion (log entry 15). -/
def arrayStart (c : Nat) : Prog :=
  ask fun s =>
    let h := s.hart c
    match h.aq with
    | [] => .done
    | q :: rest =>
      onlyIf (¬s.dev.stop.active ∧ s.mayStart c q h.arun)
        (block
          [modHart c fun h => { h with aq := rest, arun := h.arun ++ [q] },
           match q.instr with
           | .mseat _ f => mseatRun c f
           | .mzero _ f => mzeroRun c f (q.aux = [1])
           | .manchor _ f => rebaseRun c q.pc (accOf f) (anchorVal (q.vals.getD 0 0))
           | .mdrain _ f => mdrainRun c f q
           | .mma _ f => onlyIf (uf f 20 16 ≠ 0) (rebaseRun c q.pc (accOf f) (anchorVal (q.vals.getD 2 0)))
           | _ => .done])

/-- ARRAY_INSTRUCTION_COMPLETE (R121, R122): the k-th running instruction completes. -/
def execArrayInstructionComplete (c : Fin 64) (k : Nat) (s : State) : Out :=
  perform
    (ask fun s =>
      match (s.hart c).arun[k]? with
      | none => .done
      | some q =>
        block
          [modHart c fun h => { h with arun := h.arun.eraseIdx k },
           (match q.instr with
            | .mma _ f => mmaRun c f q (ncOf (q.vals.getD 1 0))
            | .mmaf _ _ => mmafRun c q
            | _ => .done),
           mwaitCheck c]) s

/-- STOP on the array (R124): nothing queued starts any more. An MMA that a later stream has followed has streamed all its
columns; the last one on the stream port stops after some number of them that the spec leaves to timing (a free value). -/
def arrayStop (c : Nat) : Prog :=
  ask fun s =>
    let streams := (s.hart c).arun.filter fun q => (streamsBank q).isSome || isFold q
    block
      [modHart c fun h =>
         { h with aq := [], arun := h.arun.filter fun q => (streamsBank q).isNone && !isFold q, mwait := false },
       forEach streams.dropLast fun q =>
         (match q.instr with
          | .mma _ f => mmaRun c f q (ncOf (q.vals.getD 1 0))
          | _ => .done),
       match streams.getLast? with
       | none => .done
       | some q => ask fun s =>
         match q.instr with
         | .mma _ f => block [useFree, mmaRun c f q (s.freeVal.toNat % (ncOf (q.vals.getD 1 0) + 1))]
         | .mmaf _ _ => mmafCut c q
         | _ => .done]

/-- The array at job start and after device reset (R134, R135). -/
def arrayJobStart (c : Nat) : Prog :=
  block
    [modHart c fun h => { h with seats := [], modes := 0, anchors := [], aq := [], arun := [], mwait := false },
     clearAt (sram 6 c 0) (2 * 128 * 144),
     clearAt (sram 7 c 0) (16 * 147456 + 262144),
     ioSet (arrReg c 0x210) 0,
     ioSet (arrReg c 0x220) 0,
     ioSet (arrReg c 0x230) 0,
     ioSet (arrReg c 0x240) 0,
     ioSet (arrReg c 0x250) 0]

end Sys2Proof.Machine
end

