-- ==== Sys2Proof/Machine/Beat.lean ====
section
/-! DEFINITION. The time base and the beat discipline: the Ridge, the beat chain, parents, measurements, the servo, LOCK and
holdover (R264-R273, R304). -/
namespace Sys2Proof.Machine

/-! ### Times -/

/-- Fifths of an ac per slot (R264): eight slots a beat. -/
def slotLen : Nat := 704

/-- Fifths of an ac per ms. -/
def msLen : Nat := 5500000

/-- Move the local clock to the edge of local beat `b`, when that edge lies ahead (log entry 4). -/
def advanceBeat (b : BitVec 48) : Prog :=
  ask fun s =>
    let d := (b - s.beat).toNat
    onlyIf (0 < d ∧ d < 2 ^ 47) (advance (d * beatLen - s.dev.beat.sub))

/-- Move the local clock until the local beat count equals `b` (R14). -/
def reachBeat (b : BitVec 48) : Prog :=
  ask fun s => onlyIf (b ≠ s.beat) (advance ((b - s.beat).toNat * beatLen - s.dev.beat.sub))

/-- Fifths of an ac from now to fifth `o` of job beat `b`; negative when it has passed (R264, R454). -/
def State.until (s : State) (b : BitVec 48) (o : Nat) : Int := (b - s.jobBeat).toInt * beatLen + o - s.dev.beat.sub

/-- Move the local clock to fifth `o` of job beat `b`, when it lies ahead (log entry 4). -/
def advanceSlot (b : BitVec 48) (o : Nat) : Prog :=
  ask fun s => onlyIf (0 < s.until b o ∧ s.dev.dbg.frozen = false) (advance (s.until b o).toNat)

/-! ### BEAT registers -/

/-- I/O addresses of BEAT.CFG, COORD, TSIZE, BSTAT and UNLOCKS (R304). -/
abbrev aBeatCfg : Nat := ioa 0xC 0x100
abbrev aCoord : Nat := ioa 0xC 0x104
abbrev aTsize : Nat := ioa 0xC 0x108
abbrev aBstat : Nat := ioa 0xC 0x10C

/-- The device is the Ridge (R265). -/
def State.ridge (s : State) : Bool := s.fld aBeatCfg 0 0 = 1

/-- The device holds beat lock; the Ridge always does (R265, R271). -/
def State.locked (s : State) : Bool := s.ridge || s.fld aBstat 31 31 = 1

/-- The parent link, if there is one (R304). -/
def State.parent (s : State) : Option Nat := if s.fld aBstat 5 0 = 0x3F then none else some (s.fld aBstat 5 0)

/-- BEAT.BSTAT as it reads: the Ridge shows LOCK, 0 hops and no parent (R265, R304). -/
def State.bstat (s : State) : Reg32 :=
  if s.ridge then BitVec.ofNat 32 (2 ^ 31 + s.fld aBstat 30 30 * 2 ^ 30 + 0x3F) else s.ioVal aBstat

/-- Hops as the device advertises them (R304). -/
def State.hops (s : State) : Nat := bits s.bstat.toNat 13 6

/-- The own coordinate and the torus size in dimension 0 to 2 (R276, R304). -/
def dimBits (d v : Nat) : Nat :=
  match d with
  | 0 => bits v 19 13
  | 1 => bits v 12 6
  | _ => bits v 5 0
def State.coord (s : State) (d : Nat) : Nat := dimBits d (s.ioVal aCoord).toNat
def State.size (s : State) (d : Nat) : Nat := dimBits d (s.ioVal aTsize).toNat + 1

/-- LOCK is cleared: counted, and BEAT_UNLOCK (R271). -/
def clearLock : Prog :=
  ask fun s =>
    onlyIf (s.fld aBstat 31 31 = 1)
      (block
        [setFld aBstat 31 31 0,
         modBeat fun b => { b with good := 0, bad := 0 },
         satAdd (ioa 0xC 0x11C) 31 0 1,
         report 0xC .beatUnlock 0 0])

/-! ### Parents -/

/-- The link carries the beat discipline (R276): UP, BYPASSED or WAIT_FIG, with the UWX personality. -/
def Link.timed (k : Link) : Bool := k.pers = 0 && (k.st = 3 || k.st = 4 || k.st = 5)

/-- The sum of R268 for a link. -/
def Link.sum (k : Link) : Nat := k.phops + 1 + k.nbyp

/-- A parent can hold: UP or BYPASSED, with LOCK advertised (R268). -/
def Link.holds (k : Link) : Bool := k.pers = 0 && (k.st = 3 || k.st = 4) && k.seen && k.plock

/-- A candidate parent (R268). -/
def Link.candidate (k : Link) : Bool := k.holds && decide (k.phops ≤ 199)

/-- The best candidate: the smallest sum, then the lowest link (R268). -/
def State.bestParent (s : State) : Option Nat :=
  ((range 0 48).filter fun l => (s.link l).candidate).foldl (fun best l =>
    match best with
    | none => some l
    | some b => if (s.link l).sum < (s.link b).sum then some l else some b) none

/-- A member without a parent chooses one (R268). -/
def chooseParent : Prog :=
  ask fun s =>
    match s.ridge, s.parent, s.bestParent with
    | false, none, some l =>
      block
        [setFld aBstat 29 28 0,
         setFld aBstat 13 6 (min (s.link l).sum 0xFF),
         setFld aBstat 5 0 l,
         modLink l fun k => { k with thetas := [] },
         modBeat fun b =>
           { b with hold := none, good := 0, bad := 0, stepNext := !s.locked, fresh := s.locked }]
    | _, _, _ => .done

/-- HOLDOVER_START (R268, R271): the parent is lost; the device runs on its last rate and chooses a new parent. -/
def execHoldoverStart (s : State) : Out :=
  perform
    (ask fun s =>
      match s.ridge, s.parent with
      | false, some l =>
        onlyIf (¬(s.link l).holds)
          (block
            [setFld aBstat 5 0 0x3F,
             setFld aBstat 29 29 1,
             modBeat fun b => { b with hold := some b.count, stepNext := false },
             chooseParent])
      | _, _ => .done) s

/-- HOLDOVER_TIMEOUT (R267, R271): holdover has lasted longer than 1,024 bt. -/
def execHoldoverTimeout (s : State) : Out :=
  perform
    (ask fun s =>
      match s.ridge, s.dev.beat.hold with
      | false, some h =>
        block
          [advanceBeat (h + 1025),
           setFld aBstat 29 29 0,
           setFld aBstat 13 6 0xFF,
           modBeat fun b => { b with hold := none },
           clearLock]
      | _, _ => .done) s

/-! ### Measurements -/

/-- ps of local time since the beat edge (R264). -/
def State.subPs (s : State) : Nat := (s.dev.beat.sub * 2000 + s.dev.beat.frac) / 11

/-- Local time in ps (R264). -/
def State.localPs (s : State) : Nat := s.beat.toNat * 1024000 + s.subPs

/-- The offset of R269, in whole ps. -/
def thetaOf (h : Slot0Hdr) : Int := ((h.t2 - h.tstamp).toInt - (h.techo - h.t3).toInt) / 2

/-- The one-way delay of R269, in whole ps. -/
def delayOf (h : Slot0Hdr) : Int := ((h.t2 - h.tstamp).toInt + (h.techo - h.t3).toInt) / 2

/-- The mean of a list of integers. -/
def meanInt (xs : List Int) : Int := if xs = [] then 0 else xs.foldl (· + ·) 0 / (xs.length : Int)

/-- The local beat whose edge lies nearest to local time T2 minus the delay (R271). -/
def State.nearBeat (s : State) (h : Slot0Hdr) (delay : Int) : BitVec 48 :=
  let at0 : Int := s.localPs + (h.t2 - BitVec.ofNat 64 s.localPs).toInt - delay
  BitVec.ofInt 48 ((at0 + 512000) / 1024000)

/-- Beat count and local time are set in one step from the parent's header, advanced by the delay (R268). -/
def stepTime (h : Slot0Hdr) (delay : Int) : Prog :=
  modBeat fun b =>
    let ps : Int := (h.tstamp - BitVec.ofNat 64 (h.beat.toNat * 1024000)).toInt + delay
    let n := (ps % 1024000).toNat * 11
    { b with
      count := h.beat + BitVec.ofInt 48 (ps / 1024000)
      sub := n / 2000
      frac := n % 2000
      stepNext := false }

/-- SLOT0_HEADER_RECEIVED (R268, R269, R271): the partner's LOCK and HOPS, the offset and the delay; a member without a
parent chooses one. The Ridge ignores the timing (R265). -/
def execSlot0HeaderReceived (l : Fin 48) (h : Slot0Hdr) (s : State) : Out :=
  perform
    (ask fun s =>
      onlyIf (s.link l).timed
        (block
          [modLink l fun k =>
             { k with
               seen := true
               plock := h.lock
               phops := h.hops.toNat
               arr := h.t2
               delays := (delayOf h :: k.delays).take 16
               thetas := (thetaOf h :: k.thetas).take 16 },
           ask fun s => ioSet (ioa (linkPage l) 0x108) (BitVec.ofInt 32 (meanInt (s.link l).delays)),
           ask fun s =>
             onlyIf (s.ridge = false ∧ s.parent = some l.val ∧ h.lock)
               (let delay := meanInt (s.link l).delays
                block
                  [setFld aBstat 13 6 (min (s.link l).sum 0xFF),
                   if s.dev.beat.stepNext then
                     block [stepTime h delay, modLink l fun k => { k with thetas := [] }]
                   else onlyIf (h.beat ≠ s.nearBeat h delay) clearLock]),
           chooseParent])) s

/-! ### The servo -/

/-- Sort integers, ascending. -/
def insertInt (x : Int) : List Int → List Int
  | [] => [x]
  | y :: ys => if x ≤ y then x :: y :: ys else y :: insertInt x ys
def sortInts : List Int → List Int
  | [] => []
  | x :: xs => insertInt x (sortInts xs)

/-- The trimmed mean of R270: the middle eight of sixteen offsets. -/
def trimmed (xs : List Int) : Int := ((sortInts xs).drop 4 |>.take 8).foldl (· + ·) 0 / 8

/-- LOCK after an evaluation (R271): set after four good ones, with at most 200 hops; cleared after two bad ones, or when
the first against a new parent is bad. -/
def lockUpdate (theta : Int) : Prog :=
  ask fun s =>
    let b := s.dev.beat
    let good : Bool := theta.natAbs ≤ 40
    let bad : Bool := 1000 < theta.natAbs
    let goods := if good then b.good + 1 else 0
    let bads := if bad then b.bad + 1 else 0
    block
      [modBeat fun b => { b with good := goods, bad := bads, fresh := false },
       if bad ∧ (b.fresh ∨ 2 ≤ bads) then clearLock
       else onlyIf (4 ≤ goods ∧ s.hops ≤ 200) (setFld aBstat 31 31 1)]

/-- BEAT_EVALUATION (R270): the sixteen latest offsets from the parent give the corrections and LOCK. That the oscillator
is corrected in the guards, by at most 50 ps each, is timing (log entry 34). -/
def execBeatEvaluation (s : State) : Out :=
  perform
    (ask fun s =>
      match s.ridge, s.parent with
      | false, some l =>
        let meas := (s.link l).thetas
        let theta := trimmed meas
        onlyIf (meas.length = 16)
          (block
            [modLink l fun k => { k with thetas := [] },
             modBeat fun b => { b with rate := b.rate - theta / 4, step := -theta },
             ioSet (ioa 0xC 0x110) (BitVec.ofInt 32 theta),
             lockUpdate theta])
      | _, _ => .done) s

/-! ### The reference and the chain -/

/-- REF_LOST (R265): the Ridge goes on from its own oscillator. -/
def execRefLost (s : State) : Out :=
  perform
    (ask fun s =>
      onlyIf (s.ridge ∧ s.fld aBeatCfg 1 1 = 0 ∧ s.dev.beat.refLost = false)
        (block
          [modBeat fun b => { b with refLost := true },
           setMask aBstat 0x40000000,
           report 0xC .refLost 0 0])) s

/-- REF_RETURN (R265). -/
def execRefReturn (s : State) : Out :=
  perform
    (ask fun s => onlyIf (s.ridge ∧ s.fld aBeatCfg 1 1 = 0) (modBeat fun b => { b with refLost := false })) s

/-- The beat block does not run: no power, no fuse load yet, or FATAL (R300, R301). -/
def State.passing (s : State) : Bool :=
  !s.dev.pwr.on || s.fld (ioa 0xA 0x100) 31 31 = 0 || s.devState = 6

/-- BEAT_CHAIN_INPUT (R267, R300, R301): a member without a parent and not in holdover follows BEAT_IN and adopts its
count; it does not set LOCK. A device that does not run its beat block passes BEAT_IN on. -/
def execBeatChainInput (count : BitVec 48) (s : State) : Out :=
  performAlways
    (ask fun s =>
      if s.passing then transmit (toBytes 6 count.toNat)
      else onlyIf (s.ridge = false ∧ s.parent = none ∧ s.dev.beat.hold = none)
        (block
          [modBeat fun b => { b with count := count, sub := 0, frac := 0 },
           setFld aBstat 28 28 1])) s

end Sys2Proof.Machine
end

