-- ==== Sys2Proof/Machine/Bow.lean ====
section
/-! DEFINITION. The Bow: the RED registers, the Bow record, the seal, combining and the settle (R306-R316, R332, R333), and
the step's edges as beats (R213). -/
namespace Sys2Proof.Machine

/-- The RED page, and the registers of bridge `n` (R332). -/
abbrev red (o : Nat) : Nat := ioa 0xC8 o
abbrev aBowres : Nat := red 0x128

/-- The 64-bit address of a LO, HI register pair of RED. -/
def State.redAddr (s : State) (o : Nat) : Nat := s.pair (red o)

/-- NB (R306). -/
def State.nb (s : State) : Nat := s.fld (red 0x108) 13 0

/-- The fingerprint of the loaded figure (R8, R348). -/
def State.fingerprint (s : State) : Nat := s.pair 0x124

/-- BEAT.COORD as the 20-bit coordinate. -/
def State.coordWord (s : State) : Nat := s.fld aCoord 19 0

/-! ### The edges of a step (R213) -/

/-- The start beat of the current step. -/
def State.stepStart (s : State) : BitVec 48 :=
  s.dev.job.start + BitVec.ofNat 48 (s.dev.job.stepNo * s.fld (ioa 0xD0 0x130) 23 0)

/-- The beat `off` bt after the current step's start. -/
def State.stepBeat (s : State) (off : Nat) : BitVec 48 := s.stepStart + BitVec.ofNat 48 off

/-- The edge `off` bt into the step acts: a job has started, STOP is not in effect, no system halt holds the edge back, and
the edges before it have passed (R214, R454). -/
def State.edgeDue (s : State) (k off : Nat) : Bool :=
  s.job && s.dev.job.pending.isNone && !s.dev.stop.active && s.dev.job.edge = k && s.reach (s.stepBeat off)

/-- An edge has passed. -/
def setEdge (k : Nat) : Prog := modJob fun j => { j with edge := k }

/-! ### Partition ranges of the device's own accesses -/

/-- The physical pieces of a range of partition addresses through the translation of the figure's owner (R165). -/
def State.figRange (s : State) (va n : Nat) (rd wr : Bool) : Except (Nat × Tr) (List (Nat × Nat × Nat)) :=
  (pagePieces (n / 4096 + 2) va n).mapM fun (a, m) =>
    match s.translate [] a rd wr with
    | .ok pa => .ok (a, pa, m)
    | r => .error (a, r)

/-- Every piece lies in the stage memory of a compute core (R307, R314). -/
def allStage (ps : List (Nat × Nat × Nat)) : Bool :=
  ps.all fun (_, pa, n) =>
    match region pa, region (pa + (n - 1)) with
    | .stage _, .stage _ => true
    | _, _ => false

/-! ### The record (R308) -/

/-- Flits of a Bow record (R308). -/
def bowFlits (nb : Nat) : Nat := (64 + nb + 255) / 256

/-- The bytes of the accumulator as a record, padded to its flits (R308). -/
def State.bowBytes (s : State) (r : Bow) : List Byte :=
  let body := toBytes 8 s.fingerprint ++ toBytes 4 r.stepmin ++ toBytes 4 r.stepmax
    ++ [BitVec.ofNat 8 ((if r.nf then 1 else 0) + (if r.fpdis then 2 else 0)), BitVec.ofNat 8 r.genmask]
    ++ toBytes 2 r.nb ++ toBytes 4 r.nfsrc ++ List.replicate 40 0
    ++ r.exps.map fun e => BitVec.ofNat 8 (unsignedOf 8 e)
  body ++ List.replicate (256 * bowFlits r.nb - body.length) 0

/-- The unsigned number in bytes `o` to `o + n - 1`. -/
def bytesAt (bs : List Byte) (o n : Nat) : Nat := ofBytes ((bs.drop o).take n)

/-- A received record with another NB or a nonzero reserved bit (R311); `nb` is the accumulator's. -/
def bowBad (nb : Nat) (bs : List Byte) : Bool :=
  bytesAt bs 18 2 ≠ nb || 4 ≤ bytesAt bs 16 1 || 8 ≤ bytesAt bs 17 1 || bytesAt bs 24 40 ≠ 0
    || (bs.drop (64 + nb)).any fun b => b ≠ 0

/-- Combine a received record into the accumulator (R311). -/
def State.bowCombine (s : State) (a : Bow) (bs : List Byte) : Bow :=
  { a with
    fpdis := a.fpdis || bitAt (bytesAt bs 16 1) 1 || bytesAt bs 0 8 ≠ s.fingerprint
    stepmin := min a.stepmin (bytesAt bs 8 4)
    stepmax := max a.stepmax (bytesAt bs 12 4)
    nf := a.nf || bitAt (bytesAt bs 16 1) 0
    nfsrc := min a.nfsrc (bytesAt bs 20 4)
    genmask := Nat.lor a.genmask (bytesAt bs 17 1)
    exps := a.exps.zipWith (fun e b => max e (signedOf 8 b.toNat)) ((bs.drop 64).take a.nb) }

/-- A Bow receive completes (R310, R311). -/
def bowReceive (bs : List Byte) : Prog :=
  block
    [satAdd aBowres 19 10 1,
     ask fun s =>
       match s.dev.job.bow with
       | none => .done
       | some a =>
         if bowBad a.nb bs then report 0xC8 .bowFormat 0 0
         else modJob fun j => { j with bow := some (s.bowCombine a bs) }]

/-! ### The seal (R309) -/

/-- Clear GNF of every core (R309, R316). -/
def clearGnf : Prog := forEach (range 0 64) fun c => setFld (arrReg c 0x210) 0 0 0

/-- GNF of some core is set (R309, R316). -/
def State.anyGnf (s : State) : Bool := (range 0 64).any fun c => s.fld (arrReg c 0x210) 0 0 = 1

/-- Bridge `n` is enabled (R332). -/
def State.brOn (s : State) (n : Nat) : Bool := s.fld (red (0x200 + 0x40 * n)) 31 31 = 1

/-- GEN of bridge `n`. -/
def State.brGen (s : State) (n : Nat) : Nat := s.fld (red (0x200 + 0x40 * n)) 30 29

/-- Fold bridge `n` into the record (R309, R326). -/
def State.foldBridge (s : State) (r : Bow) (n : Nat) : Bow :=
  let b := s.bridge n
  { r with
    genmask := Nat.lor r.genmask (2 ^ s.brGen n)
    stepmin := match b.steps with | some (_, lo, _) => min r.stepmin lo | none => r.stepmin
    stepmax := match b.steps with | some (_, _, hi) => max r.stepmax hi | none => r.stepmax
    nf := r.nf || s.fld (red (0x234 + 0x40 * n)) 30 30 = 1
    exps := b.exps.foldl (fun es (k, e) => es.set k (max (es.getD k (-128)) e)) r.exps }

/-- The record that the seal forms from the local exponents (R309). -/
def State.sealed (s : State) (nf : Bool) (exps : List Int) : Bow :=
  let st := (s.ioVal (ioa 0xD0 0x100)).toNat
  let r : Bow :=
    { stepmin := st, stepmax := st, nf := nf, fpdis := false, genmask := 1, nfsrc := 0, nb := s.nb, exps := exps }
  let r := ((range 0 8).filter s.brOn).foldl s.foldBridge r
  { r with nfsrc := if r.nf then s.coordWord else 0xFFFFFFFF }

/-- Read the local exponents and form the accumulator (R307, R309). -/
def sealRead (nf : Bool) : Prog :=
  ask fun s =>
    let va := s.redAddr 0x10C
    match s.figRange va s.nb true false with
    | .error (_, .poison a) => report 0xC8 .poisonConsumed 0 a
    | .error (a, _) => report 0xC8 .bowFault 0 a
    | .ok ps =>
      if ¬allStage ps then report 0xC8 .bowFault 0 va
      else
        block
          [forEach ps fun (_, pa, n) => touch pa n,
           if ps.any fun (_, pa, n) => (s.poisonIn pa n).isSome then report 0xC8 .poisonConsumed 0 va
           else ask fun s =>
             let bs := ps.flatMap fun (_, pa, n) => s.rd pa n
             modJob fun j => { j with bow := some (s.sealed nf (bs.map fun b => signedOf 8 b.toNat)) }]

/-- BOW_SEAL (R309): at the seal beat the accumulator is formed and GNF is cleared. -/
def execBowSeal (s : State) : Out :=
  perform
    (ask fun s =>
      onlyIf (s.edgeDue 0 (s.fld (red 0x100) 23 0))
        (block
          [advanceSlot (s.stepBeat (s.fld (red 0x100) 23 0)) 0,
           setEdge 1,
           clearGnf,
           modJob fun j => { j with bow := none, agreed := [], gnfSince := false },
           sealRead s.anyGnf])) s

/-! ### The settle (R313, R314) -/

/-- The outcome and its cause (R313): 1 APPLY, 2 SKIP, 3 STOP. -/
def State.bowOutcome (s : State) (a : Bow) : Nat × Nat :=
  if s.fld aBowres 19 10 < s.fld (red 0x108) 28 19 then (3, 1)
  else if a.fpdis then (3, 2)
  else if a.stepmin ≠ a.stepmax then (3, 3)
  else if a.genmask ≠ s.fld (red 0x108) 18 16 then (3, 4)
  else if a.nf then (2, 0)
  else (1, 0)

/-- The error of a STOP cause (R313). -/
def bowError (cause : Nat) : ErrCode :=
  match cause with
  | 1 => .bowIncomplete
  | 2 => .bowFigure
  | 3 => .stepSkew
  | _ => .bowGen

/-- Publish the agreed exponents, and count AGREETOK once they are visible (R314). -/
def publish (a : Bow) : Prog :=
  ask fun s =>
    let va := s.redAddr 0x114
    let bs := a.exps.map fun e => BitVec.ofNat 8 (unsignedOf 8 e)
    match s.figRange va a.nb false true with
    | .error (x, _) => report 0xC8 .bowFault 0 x
    | .ok ps =>
      if ¬allStage ps then report 0xC8 .bowFault 0 va
      else
        block
          [forEach ps fun (x, pa, n) => writeAt pa ((bs.drop (x - va)).take n),
           forEach (bitsSet 64 (s.redAddr 0x120)) fun c => addTok c (s.fld (red 0x11C) 5 0) 1]

/-- BOW_SETTLE (R313, R314). -/
def execBowSettle (s : State) : Out :=
  perform
    (ask fun s =>
      match s.dev.job.bow with
      | none => .done
      | some a =>
        let (o, c) := s.bowOutcome a
        onlyIf (s.edgeDue 1 (s.fld (red 0x104) 23 0))
          (block
            [advanceSlot (s.stepBeat (s.fld (red 0x104) 23 0)) 0,
             setEdge 2,
             modJob fun j => { j with agreed := a.exps },
             ioSet aBowres (BitVec.ofNat 32
               (o * 2 ^ 30 + c * 2 ^ 26 + 2 ^ 25 + (if a.nf then 2 ^ 24 else 0) + (if a.fpdis then 2 ^ 23 else 0)
                 + a.genmask * 2 ^ 20 + s.fld aBowres 19 10 * 2 ^ 10)),
             ioSet (red 0x12C) (BitVec.ofNat 32 a.stepmin),
             ioSet (red 0x130) (BitVec.ofNat 32 a.stepmax),
             ioSet (red 0x134) (BitVec.ofNat 32 a.nfsrc),
             publish a,
             offer { page := 0xC8, code := 0x80, sev := 0,
                     payload := [BitVec.ofNat 8 o, BitVec.ofNat 8 c, BitVec.ofNat 8 a.genmask, 0]
                       ++ toBytes 4 a.nfsrc ++ toBytes 4 a.stepmin ++ toBytes 4 a.stepmax },
             if o = 3 then
               block
                 [setFld aStepStat 27 26 3,
                  report 0xC8 (bowError c) (if c = 2 ∨ c = 3 then a.stepmin else 0) (if c = 2 ∨ c = 3 then s.fingerprint else 0)]
             else forEach ((range 0 8).filter s.brOn) fun n => modBridge n fun b => { b with converting := true }])) s

end Sys2Proof.Machine
end

