-- ==== Sys2Proof/Machine/Vector.lean ====
section
/-! DEFINITION. The long-vector unit: its register instructions and their queue (R136-R149, R157-R161). -/
namespace Sys2Proof.Machine

/-! ### Registers, groups and masks -/

/-- Where byte `j` of vector register `r` stands (R137, R424). -/
def vAddr (c r j : Nat) : Nat := sram 8 c (r * 1024 + j)

/-- Where byte `j` of mask register `m` stands (R141, R424). -/
def mAddr (c m j : Nat) : Nat := sram 8 c ((32 + m) * 1024 + j)

/-- Fields of a VL value (R138): LEN, element width in bits, group size. -/
def lenOf (vl : BitVec 32) : Nat := bits vl.toNat 13 0
def ewOf (vl : BitVec 32) : Nat := 8 * 2 ^ bits vl.toNat 15 14
def gOf (vl : BitVec 32) : Nat := 2 ^ bits vl.toNat 17 16

/-- Element `i` of `n` bytes of the group at register `r` (R137). -/
def State.vElem (s : State) (c r n i : Nat) : Nat := s.rdNat (vAddr c r (i * n)) n

/-- Write element `i`. -/
def setElem (c r n i v : Nat) : Prog := writeAt (vAddr c r (i * n)) (toBytes n v)

/-- Bit `i` of mask `m` (R141). -/
def State.mBit (s : State) (c m i : Nat) : Bool := bitAt (s.rdByte (mAddr c m (i / 8))).toNat (i % 8)

/-- Set bit `i` of mask `m`. -/
def setMBit (c m i : Nat) (b : Bool) : Prog :=
  ask fun s =>
    let v := (s.rdByte (mAddr c m (i / 8))).toNat
    let w := v - (if bitAt v (i % 8) then 2 ^ (i % 8) else 0) + (if b then 2 ^ (i % 8) else 0)
    writeAt (mAddr c m (i / 8)) [BitVec.ofNat 8 w]

/-- The active elements (R140), ascending. -/
def State.actives (s : State) (c : Nat) (vl : BitVec 32) (msk : Bool) : List Nat :=
  (range 0 (lenOf vl)).filter fun i => !msk || s.mBit c 0 i

/-- An operand of width `w` at register `r` forms an aligned group (R137, R144). -/
def grpOk (vl : BitVec 32) (w r : Nat) : Bool :=
  let g := gOf vl * w / ewOf vl
  gOf vl * w % ewOf vl = 0 && [1, 2, 4, 8].contains g && r % g = 0

/-- The element width suits floating point (R143). -/
def fpOk (vl : BitVec 32) : Bool := ewOf vl = 16 || ewOf vl = 32

/-- Format and parameters at a floating-point element width (R145). -/
def fpFmt (ew : Nat) : Fmt := if ew = 16 then .bf16 else .fp32
def fpPar (ew : Nat) : FParam := if ew = 16 then pBf16 else pFp32

/-- The sticky flags that a result code of a format sets (R149): NF_SAT, NF_INF, NF_NAN in bits 23, 22, 21. -/
def flagsOf (f : Fmt) (code : Nat) (sat : Bool) : BitVec 32 :=
  (match decodeFmt f code with
   | .nan => 0x200000
   | .inf _ => 0x400000
   | .fin _ _ _ => 0) ||| (if sat then 0x800000 else 0)

/-- Set sticky flags (R149). -/
def setFlags (c : Nat) (m : BitVec 32) : Prog := modHart c fun h => { h with vl := h.vl ||| m }

/-- The results of an element-wise instruction on the active elements, each from the registers as the instruction finds
them (R140). -/
def State.mapElems (s : State) (c : Nat) (q : QOp) (msk : Bool) (f : Nat → Nat) : List (Nat × Nat) :=
  (s.actives c q.vl msk).map fun i => (i, f i)

/-- Write results of `n` bytes. -/
def putElems (c r n : Nat) (xs : List (Nat × Nat)) : Prog := forEach xs fun (i, v) => setElem c r n i v

/-- Write floating-point results of width `ew` with their flags (R145, R149). -/
def putFloats (c r ew : Nat) (xs : List (Nat × Nat)) : Prog :=
  block [putElems c r (ew / 8) xs, setFlags c (xs.foldl (fun m x => m ||| flagsOf (fpFmt ew) x.2 false) 0)]

/-! ### Element functions -/

/-- The integer operations (R143) on `w`-bit elements. -/
def vInt (w fn a b : Nat) : Nat :=
  let sa := signedOf w a
  let sb := signedOf w b
  match fn with
  | 0 => (a + b) % 2 ^ w
  | 1 => (a + (2 ^ w - b)) % 2 ^ w
  | 2 => a * b % 2 ^ w
  | 3 => if sb < sa then b else a
  | 4 => if sa < sb then b else a
  | 5 => min a b
  | 6 => max a b
  | 7 => Nat.land a b
  | 8 => Nat.lor a b
  | 9 => Nat.xor a b
  | 10 => a * 2 ^ (b % w) % 2 ^ w
  | 11 => a / 2 ^ (b % w)
  | _ => unsignedOf w (sa / (2 ^ (b % w) : Nat))

/-- The floating-point operations (R143, R145), exact. -/
def vFloat (fn : Nat) (a b : Num) : Num :=
  match fn with
  | 0 => a.add b
  | 1 => a.add b.neg
  | 2 => a.mul b
  | 3 => a.min b
  | _ => a.max b

/-- The fused multiply-adds (R143). -/
def vFma (fn : Nat) (a b d : Num) : Num :=
  match fn with
  | 0 => (a.mul b).add d
  | 1 => (a.mul b).add d.neg
  | _ => d.add (a.mul b).neg

/-- The functions (R143, R145). -/
def vFun (fn : Nat) (a : Num) : Num :=
  match fn with
  | 0 => fExp2 a
  | 1 => fLog2 a
  | 2 => fRcp a
  | 3 => fRsqrt a
  | 4 => fSqrt a
  | 5 => a.neg
  | _ => if a.isNeg then a.neg else a

/-- The compares (R143, R145). -/
def vCmp (w fn a b : Nat) : Bool :=
  let x := decodeFmt (fpFmt w) a
  let y := decodeFmt (fpFmt w) b
  match fn with
  | 0 => x.eqv y
  | 1 => x.lt y
  | 2 => x.lt y || x.eqv y
  | 3 => x.isNan || y.isNan
  | 4 => a = b
  | 5 => a ≠ b
  | 6 => signedOf w a < signedOf w b
  | _ => a < b

/-- The mask operations on one byte (R143). -/
def vMask (fn : Nat) (a b : Byte) : Byte :=
  match fn with
  | 0 => a &&& b
  | 1 => a ||| b
  | 2 => a ^^^ b
  | 3 => a &&& ~~~b
  | 4 => ~~~a
  | 5 => 0xFF
  | _ => 0

/-- One level of the reduction tree (R147). -/
def pairUp (op : Nat → Nat → Nat) : List Nat → List Nat
  | a :: b :: t => op a b :: pairUp op t
  | t => t

/-- The root after `n` levels. -/
def reduceTree (op : Nat → Nat → Nat) : Nat → List Nat → Nat
  | 0, l => l.headD 0
  | n + 1, l => reduceTree op n (pairUp op l)

/-- The levels of the tree over `n` leaves (R147). -/
def treeLevels (n : Nat) : Nat := if n ≤ 1 then 0 else Nat.log2 (n - 1) + 1

/-- `op` and identity of a reduction at width `w` (R147). -/
def redOp (w fn a b : Nat) : Nat :=
  let x := decodeFmt (fpFmt w) a
  let y := decodeFmt (fpFmt w) b
  match fn with
  | 0 => (roundTo (fpPar w) (x.add y)).1
  | 1 => (roundTo (fpPar w) (x.max y)).1
  | 2 => (roundTo (fpPar w) (x.min y)).1
  | 3 => (a + b) % 2 ^ w
  | 4 => vInt w 4 a b
  | _ => vInt w 3 a b

def redId (w fn : Nat) : Nat :=
  match fn with
  | 0 => 0
  | 1 => (roundTo (fpPar w) (.inf true)).1
  | 2 => (roundTo (fpPar w) (.inf false)).1
  | 3 => 0
  | 4 => 2 ^ (w - 1)
  | _ => 2 ^ (w - 1) - 1

/-- A reduction of element values (R147). -/
def reduce (w fn len : Nat) (x : Nat → Nat) (active : Nat → Bool) : Nat :=
  reduceTree (redOp w fn) (treeLevels len)
    ((range 0 (2 ^ treeLevels len)).map fun i => if i < len && active i then x i else redId w fn)

/-- The source and destination formats of a conversion code (R146), GG16 standing as Q16 codes; whether it takes S or
E. -/
def cvtFmts (fn : Nat) : Fmt × Fmt × Bool :=
  match fn with
  | 0 => (.fp32, .bf16, false)
  | 1 => (.bf16, .fp32, false)
  | 2 => (.fp32, .e4m3, true)
  | 3 => (.fp32, .e5m2, true)
  | 4 => (.bf16, .e4m3, true)
  | 5 => (.bf16, .e5m2, true)
  | 6 => (.e4m3, .bf16, false)
  | 7 => (.e5m2, .bf16, false)
  | 8 => (.fp32, .q16, true)
  | 9 => (.bf16, .q16, true)
  | 10 => (.q16, .fp32, true)
  | _ => (.q16, .bf16, true)

/-- Conversion parameters of a format. -/
def parOf : Fmt → FParam
  | .bf16 => pBf16
  | .e4m3 => pE4m3
  | .e5m2 => pE5m2
  | _ => pFp32

/-- Convert one element (R146): the code, saturated, non-finite into GG16. -/
def cvtElem (fn : Nat) (e : Int) (c : Nat) : Nat × Bool × Bool :=
  let (src, dst, sc) := cvtFmts fn
  if src = .q16 then
    let (r, t) := roundPlain (parOf dst) (numOf (signedOf 16 c) (e - 14))
    (r, t, false)
  else if dst = .q16 then gg16 (decodeFmt src c) e
  else
    let (r, t) := roundTo (parOf dst) (if sc then (decodeFmt src c).scale e else decodeFmt src c)
    (r, t, false)

/-! ### Execution from the queue -/

/-- Add `n` to a counter of the array page (R134). -/
def arrCount (c o n : Nat) : Prog := satAdd (arrReg c o) 31 0 n

/-- VCVT (R146, R149). -/
def cvtRun (c : Nat) (q : QOp) (f : S2V) : Prog :=
  ask fun s =>
    let fn := f.fn.toNat
    let (src, dst, _) := cvtFmts fn
    let e := signedOf 8 (q.vals.getD 0 0).toNat
    let rs := (s.actives c q.vl f.msk).map fun i => (i, cvtElem fn e (s.vElem c f.vs1.toNat (src.width / 8) i))
    let sat := (rs.filter fun r => r.2.2.1).length
    block
      [putElems c f.vd.toNat (dst.width / 8) (rs.map fun r => (r.1, r.2.1)),
       setFlags c (rs.foldl (fun m r => m ||| (if dst = .q16 then (if r.2.2.1 then 0x800000 else 0)
                                               else flagsOf dst r.2.1 r.2.2.1)) 0),
       onlyIf (dst = .e4m3 ∨ dst = .e5m2) (arrCount c 0x220 sat),
       onlyIf (dst = .q16) (arrCount c 0x230 sat),
       onlyIf (rs.any fun r => r.2.2.2) (setGnf c)]

/-- The element size of a tag format for TBROW and TBCOL (R157). -/
def tbSize (fmt : Nat) : Nat := if fmt = 0xB then 2 else if fmt = 0xC then 4 else 1

/-- The number format of a tile format code whose elements may be NaN or infinite; PASS judges every byte of an FP8 or MXFP8
row, the scale field included (log entry 24). -/
def tbFmt (fmt : Nat) : Option Fmt :=
  if fmt = 0xB then some .bf16
  else if fmt = 0xC then some .fp32
  else if fmt = 1 ∨ fmt = 4 then some .e4m3
  else if fmt = 2 ∨ fmt = 5 then some .e5m2
  else none

/-- TBROW and TBCOL (R157): `aux` holds the tag's format. -/
def tbRun (c : Nat) (q : QOp) (f : S4U) (col : Bool) : Prog :=
  ask fun s =>
    let fmt := (q.aux.headD 0).toNat
    let n := tbSize fmt
    let cols := rbOf f / n
    let t := uf f 37 35
    let r0 := uf f 21 15
    let op := uf f 24 23
    let res := (range 0 (rowsOf f)).flatMap fun i => (range 0 cols).map fun j =>
      let x := s.rdNat (tileAddr c t (r0 + i) (j * n)) n
      let b := s.vElem c (uf f 29 25) n (if col then r0 + i else j)
      let y := if op = 0 then x
               else (roundTo (fpPar (8 * n)) (vFloat (op - 1) (decodeFmt (fpFmt (8 * n)) x) (decodeFmt (fpFmt (8 * n)) b))).1
      (i, j, y)
    block
      [forEach res fun (i, j, y) =>
         if uf f 22 22 = 1 then writeAt (tileAddr c t (r0 + i) (j * n)) (toBytes n y)
         else setElem c (uf f 34 30) n (i * cols + j) y,
       match tbFmt fmt with
       | some g => setFlags c (res.foldl (fun m r => m ||| flagsOf g r.2.2 false) 0)
       | none => .done]

/-- What a vector register instruction does when the unit executes it (R140-R149). VMV moves the bits as they are (log
entry 24). -/
def vecRun (c : Nat) (q : QOp) : Prog :=
  ask fun s =>
    let ew := ewOf q.vl
    let n := ew / 8
    let num (r i : Nat) : Num := decodeFmt (fpFmt ew) (s.vElem c r n i)
    let round (x : Num) : Nat := (roundTo (fpPar ew) x).1
    match q.instr with
    | .vectorInteger _ f =>
      putElems c f.vd.toNat n (s.mapElems c q f.msk fun i =>
        vInt ew f.fn.toNat (s.vElem c f.vs1.toNat n i) (s.vElem c f.vs2.toNat n i))
    | .vectorFloat _ f =>
      putFloats c f.vd.toNat ew (s.mapElems c q f.msk fun i =>
        round (vFloat f.fn.toNat (num f.vs1.toNat i) (num f.vs2.toNat i)))
    | .vectorFma _ f =>
      putFloats c f.vd.toNat ew (s.mapElems c q f.msk fun i =>
        round (vFma f.fn.toNat (num f.vs1.toNat i) (num f.vs2.toNat i) (num f.vd.toNat i)))
    | .vectorFunction _ f =>
      putFloats c f.vd.toNat ew (s.mapElems c q f.msk fun i => round (vFun f.fn.toNat (num f.vs1.toNat i)))
    | .vectorCompare _ f =>
      forEach (s.mapElems c q f.msk fun i =>
        if vCmp ew f.fn.toNat (s.vElem c f.vs1.toNat n i) (s.vElem c f.vs2.toNat n i) then 1 else 0) fun (i, b) =>
          setMBit c f.vd.toNat i (b = 1)
    | .vectorMaskOp _ f =>
      writeAt (mAddr c f.vd.toNat 0) ((range 0 1024).map fun j =>
        vMask f.fn.toNat (s.rdByte (mAddr c f.vs1.toNat j)) (s.rdByte (mAddr c f.vs2.toNat j)))
    | .vectorReduction _ f =>
      let act := s.actives c q.vl f.msk
      let r := reduce ew f.fn.toNat (lenOf q.vl) (s.vElem c f.vs1.toNat n) (fun i => act.contains i)
      block
        [setElem c f.vd.toNat n 0 r,
         onlyIf (f.fn.toNat < 3) (setFlags c (flagsOf (fpFmt ew) r false))]
    | .vcvt _ f => cvtRun c q f
    | .vmv _ f => putElems c f.vd.toNat n (s.mapElems c q f.msk fun i => s.vElem c f.vs1.toNat n i)
    | .vbcast _ f => putElems c f.vd.toNat n (s.mapElems c q f.msk fun _ => (q.vals.getD 0 0).toNat)
    | .vins _ f => setElem c f.vd.toNat n (q.vals.getD 1 0).toNat (q.vals.getD 0 0).toNat
    | .tbrow _ f => tbRun c q f false
    | .tbcol _ f => tbRun c q f true
    | _ => .done

/-- The bytes of register state that an instruction reads (R424). -/
def State.vecSrcs (s : State) (c : Nat) (q : QOp) : List (Nat × Nat) :=
  let n := ewOf q.vl / 8
  let elems (msk : Bool) (r n : Nat) : List (Nat × Nat) := (s.actives c q.vl msk).map fun i => (vAddr c r (i * n), n)
  let m0 (msk : Bool) : List (Nat × Nat) := if msk then [(mAddr c 0 0, (lenOf q.vl + 7) / 8)] else []
  match q.instr with
  | .vectorInteger _ f | .vectorFloat _ f | .vectorCompare _ f =>
    m0 f.msk ++ elems f.msk f.vs1.toNat n ++ elems f.msk f.vs2.toNat n
  | .vectorFma _ f =>
    m0 f.msk ++ elems f.msk f.vs1.toNat n ++ elems f.msk f.vs2.toNat n ++ elems f.msk f.vd.toNat n
  | .vectorFunction _ f | .vectorReduction _ f | .vmv _ f => m0 f.msk ++ elems f.msk f.vs1.toNat n
  | .vcvt _ f => m0 f.msk ++ elems f.msk f.vs1.toNat ((cvtFmts f.fn.toNat).1.width / 8)
  | .vbcast _ f => m0 f.msk
  | .vectorMaskOp _ f =>
    if f.fn.toNat < 4 then [(mAddr c f.vs1.toNat 0, 1024), (mAddr c f.vs2.toNat 0, 1024)]
    else if f.fn.toNat = 4 then [(mAddr c f.vs1.toNat 0, 1024)]
    else []
  | .vmvx _ f => [(vAddr c f.vs1.toNat ((q.vals.getD 1 0).toNat * n), n)]
  | .vmpop _ f => [(mAddr c f.vs1.toNat 0, (lenOf q.vl + 7) / 8)]
  | .tbrow _ f | .tbcol _ f =>
    let rows := (range 0 (rowsOf f)).map fun i => (tileAddr c (uf f 37 35) (uf f 21 15 + i) 0, rbOf f)
    if uf f 24 23 = 0 then rows else (vAddr c (uf f 29 25) 0, if (uf f 21 15 + rowsOf f) * n < 256 then 256 else 1024) :: rows
  | _ => []

/-- Read the sources with their checks (R421, R424), and go on; poison is consumed. -/
def useSrcs (c : Nat) (q : QOp) (stop : Nat → Prog) (go : Prog) : Prog :=
  ask fun s =>
    let srcs := s.vecSrcs c q
    block
      [forEach srcs fun (a, n) => touch a n,
       ask fun s =>
         match srcs.findSome? fun (a, n) => s.poisonIn a n with
         | some a => stop a
         | none => go]

/-! ### Issue -/

/-- Instructions of the vector queue that are not UPD instructions (R74). -/
def isUpd (q : QOp) : Bool :=
  match q.instr with
  | .updMom _ _ | .updWgt _ _ | .updRow _ _ => true
  | _ => false

/-- A first-fault load is on its way: LEN may still change, and an instruction that reads VL waits (R74, R156). -/
def State.vlOpen (s : State) (u : Nat) : Bool := (s.hart u).vloads.any fun q => q.aux.getD 2 0 = 1

/-- The tile interlocks of an instruction of the vector queue are met (R100, R158). -/
def State.vecFree (s : State) (u : Nat) (q : QOp) : Bool :=
  match q.tile with
  | none => true
  | some t => s.tilesFree u [t] (if tileStores q then [t] else []) q.stamp

/-- The vector queue has room for an instruction (R74). -/
def State.vecRoom (s : State) (u : Nat) : Bool := decide (((s.hart u).vq.filter fun q => !isUpd q).length < 8)

/-- An instruction joins the vector queue (R74). -/
def vecQueue (u : Nat) (q : QOp) : Prog := modHart u fun h => { h with vq := h.vq ++ [q] }

/-- A vector instruction enters the unit (R74, R159): it executes at once when the unit is idle, else it waits in the queue.
`fin` completes its issue. -/
def vecEnqueue (c : Nat) (q0 : QOp) (fin : Prog) : Prog :=
  ask fun s =>
    let q : QOp := { q0 with stamp := s.nextStamp c }
    if s.vlOpen c then .done
    else if ¬s.vecBusy c ∧ s.vecFree c q then
      useSrcs c q (raise c .poisonConsumed) (block [takeStamp c, vecRun c q, fin])
    else onlyIf (s.vecRoom c) (block [takeStamp c, vecQueue c q, fin])

/-- A register instruction of form S2-V (R142): `ok` are the checks that depend on VL; `vals` are the scalars it
captures. -/
def vecInstr (u : UnitId) (f : S2V) (i : Instr) (legal : Bool) (ok : BitVec 32 → Bool) (vals : State → List Word)
    (s : State) : Out :=
  instr u 2 (isCore u.num ∧ legal)
    (ask fun s =>
      let h := s.hart u.num
      if s.vlOpen u.num then .done
      else if ¬ok h.vl then raise u.num .illegal 0
      else vecEnqueue u.num { instr := i, vals := vals s, vl := h.vl, pc := h.pc, tile := none, aux := [f.fn.toNat] }
        (retire u.num 2)) s

/-- All three fields name aligned groups. -/
def grp3 (f : S2V) (vl : BitVec 32) : Bool :=
  grpOk vl (ewOf vl) f.vs1.toNat && grpOk vl (ewOf vl) f.vs2.toNat && grpOk vl (ewOf vl) f.vd.toNat

/-- The source vs1 and the destination name aligned groups. -/
def grp2 (f : S2V) (vl : BitVec 32) : Bool := grpOk vl (ewOf vl) f.vs1.toNat && grpOk vl (ewOf vl) f.vd.toNat

/-- VSETL (R139). -/
def execVsetl (u : UnitId) (f : S2I) (s : State) : Out :=
  instr u 2 (isCore u.num ∧ f.imm.toNat < 16)
    (ask fun s =>
      let cfg := f.imm.toNat % 4 * 2 ^ 14 + f.imm.toNat / 4 % 4 * 2 ^ 16
      let len := min (s.reg u.num f.rs1.toNat).toNat (vlMax cfg)
      onlyIf (¬s.vlOpen u.num)
        (block
          [modHart u.num fun h => { h with vl := BitVec.ofNat 32 (bits h.vl.toNat 23 21 * 2 ^ 21 + cfg + len) },
           setReg u.num f.rd.toNat (BitVec.ofNat 64 len),
           retire u.num 2])) s

/-- The integer operations (R143). -/
def execVectorInteger (u : UnitId) (f : S2V) (s : State) : Out :=
  vecInstr u f (.vectorInteger u f) (f.fn.toNat < 13) (grp3 f) (fun _ => []) s

/-- The floating-point operations (R143). -/
def execVectorFloat (u : UnitId) (f : S2V) (s : State) : Out :=
  vecInstr u f (.vectorFloat u f) (f.fn.toNat < 5) (fun vl => fpOk vl && grp3 f vl) (fun _ => []) s

/-- The fused multiply-adds (R143). -/
def execVectorFma (u : UnitId) (f : S2V) (s : State) : Out :=
  vecInstr u f (.vectorFma u f) (f.fn.toNat < 3) (fun vl => fpOk vl && grp3 f vl) (fun _ => []) s

/-- The functions (R143). -/
def execVectorFunction (u : UnitId) (f : S2V) (s : State) : Out :=
  vecInstr u f (.vectorFunction u f) (f.fn.toNat < 7 ∧ f.vs2 = 0) (fun vl => fpOk vl && grp2 f vl) (fun _ => []) s

/-- The compares (R143). -/
def execVectorCompare (u : UnitId) (f : S2V) (s : State) : Out :=
  vecInstr u f (.vectorCompare u f) (f.fn.toNat < 8 ∧ f.vd.toNat < 8)
    (fun vl => (fpOk vl || 4 ≤ f.fn.toNat) && grpOk vl (ewOf vl) f.vs1.toNat && grpOk vl (ewOf vl) f.vs2.toNat)
    (fun _ => []) s

/-- The mask operations (R141, R143). -/
def execVectorMaskOp (u : UnitId) (f : S2V) (s : State) : Out :=
  vecInstr u f (.vectorMaskOp u f)
    (f.fn.toNat < 7 ∧ f.msk = false ∧ f.vs1.toNat < 8 ∧ f.vs2.toNat < 8 ∧ f.vd.toNat < 8) (fun _ => true) (fun _ => []) s

/-- The reductions (R143, R147). -/
def execVectorReduction (u : UnitId) (f : S2V) (s : State) : Out :=
  vecInstr u f (.vectorReduction u f) (f.fn.toNat < 6 ∧ f.vs2 = 0)
    (fun vl => (fpOk vl || 3 ≤ f.fn.toNat) && grp2 f vl) (fun _ => []) s

/-- VCVT (R144, R146): vs2 names the scalar with S or E. -/
def execVcvt (u : UnitId) (f : S2V) (s : State) : Out :=
  vecInstr u f (.vcvt u f) (f.fn.toNat < 12)
    (fun vl => grpOk vl (cvtFmts f.fn.toNat).1.width f.vs1.toNat && grpOk vl (cvtFmts f.fn.toNat).2.1.width f.vd.toNat)
    (fun s => [s.reg u.num f.vs2.toNat]) s

/-- VMV (R143). -/
def execVmv (u : UnitId) (f : S2V) (s : State) : Out :=
  vecInstr u f (.vmv u f) (f.fn = 0) (grp2 f) (fun _ => []) s

/-- VBCAST (R143). -/
def execVbcast (u : UnitId) (f : S2V) (s : State) : Out :=
  vecInstr u f (.vbcast u f) (f.fn = 1) (fun vl => grpOk vl (ewOf vl) f.vd.toNat)
    (fun s => [s.reg u.num f.vs1.toNat]) s

/-- A move whose result is a scalar (R148): the core waits until the unit has no earlier work. -/
def scalarMove (u : UnitId) (f : S2V) (q : QOp) (v : State → Nat) : Prog :=
  ask fun s =>
    onlyIf (¬s.vecBusy u.num)
      (useSrcs u.num q (raise u.num .poisonConsumed) (writeRd u.num 2 f.vd fun s => BitVec.ofNat 64 (v s)))

/-- VMVX (R143, R148). -/
def execVmvx (u : UnitId) (f : S2V) (s : State) : Out :=
  instr u 2 (isCore u.num ∧ f.fn = 2 ∧ f.msk = false)
    (ask fun s =>
      let h := s.hart u.num
      let ix := (s.reg u.num f.vs2.toNat).toNat
      let ew := ewOf h.vl
      if s.vlOpen u.num then .done
      else if ¬grpOk h.vl ew f.vs1.toNat then raise u.num .illegal 0
      else if lenOf h.vl ≤ ix then raise u.num .vecElement ix
      else
        scalarMove u f { instr := .vmvx u f, vals := [0, BitVec.ofNat 64 ix], vl := h.vl, pc := h.pc, tile := none, aux := [] }
          fun s => unsignedOf 64 (signedOf ew (s.vElem u.num f.vs1.toNat (ew / 8) ix))) s

/-- VINS (R143, R148). -/
def execVins (u : UnitId) (f : S2V) (s : State) : Out :=
  instr u 2 (isCore u.num ∧ f.fn = 3 ∧ f.msk = false)
    (ask fun s =>
      let h := s.hart u.num
      let ix := s.reg u.num f.vs2.toNat
      if s.vlOpen u.num then .done
      else if ¬grpOk h.vl (ewOf h.vl) f.vd.toNat then raise u.num .illegal 0
      else if lenOf h.vl ≤ ix.toNat then raise u.num .vecElement ix.toNat
      else
        vecEnqueue u.num
          { instr := .vins u f, vals := [s.reg u.num f.vs1.toNat, ix], vl := h.vl, pc := h.pc, tile := none, aux := [] }
          (retire u.num 2)) s

/-- VMPOP (R143). -/
def execVmpop (u : UnitId) (f : S2V) (s : State) : Out :=
  instr u 2 (isCore u.num ∧ f.fn = 4 ∧ f.msk = false ∧ f.vs1.toNat < 8)
    (ask fun s =>
      let h := s.hart u.num
      onlyIf (¬s.vlOpen u.num)
        (scalarMove u f { instr := .vmpop u f, vals := [], vl := h.vl, pc := h.pc, tile := none, aux := [] }
          fun s => ((range 0 (lenOf h.vl)).filter fun i => s.mBit u.num f.vs1.toNat i).length)) s

/-! ### Broadcast against tiles -/

/-- TBROW and TBCOL after their wait (R88, R157, R158). A group field that the form does not use is not checked (log entry
24). -/
def tbBody (u : Nat) (f : S4U) (i : Instr) : Prog :=
  ask fun s =>
    let h := s.hart u
    let t := uf f 37 35
    let op := uf f 24 23
    let dt : Bool := uf f 22 22 = 1
    if s.vlOpen u then .done
    else if (op ≠ 0 ∧ ¬grpOk h.vl (ewOf h.vl) (uf f 29 25)) ∨ (¬dt ∧ ¬grpOk h.vl (ewOf h.vl) (uf f 34 30))
        ∨ (¬dt ∧ 1024 * gOf h.vl < rowsOf f * rbOf f) then raise u .illegal 0
    else
      match s.tag u t with
      | none => raise u .tileShape 0
      | some g =>
        if g.fmt = 0 ∨ g.rows < uf f 21 15 + rowsOf f ∨ g.rb < rbOf f ∨ (op ≠ 0 ∧ g.fmt ≠ 0xB ∧ g.fmt ≠ 0xC)
            ∨ 8 * tbSize g.fmt ≠ ewOf h.vl then raise u .tileShape 0
        else
          vecEnqueue u { instr := i, vals := [], vl := h.vl, pc := h.pc, tile := some t, aux := [g.fmt] }
            (block [takeWte u f.wte f.wtok.toNat, retire u 4])

/-- The static checks of TBROW and TBCOL (R46, R158). -/
def tbLegal (f : S4U) : Bool := uf f 14 14 = 0 && !(uf f 22 22 = 1 && uf f 24 23 = 0)

/-- TBROW (R157). -/
def execTbrow (u : UnitId) (f : S4U) (s : State) : Out :=
  tileInstr u f (.tbrow u f) (tbLegal f) (tbBody u.num f (.tbrow u f)) s

/-- TBCOL (R157). -/
def execTbcol (u : UnitId) (f : S4U) (s : State) : Out :=
  tileInstr u f (.tbcol u f) (tbLegal f) (tbBody u.num f (.tbcol u f)) s

/-- The vector unit at job start and after device reset (R160). -/
def vecJobStart (c : Nat) : Prog :=
  block
    [clearAt (vAddr c 0 0) (40 * 1024),
     modHart c fun h => { h with vl := 0x8000, vresume := 0, vq := [], vloads := [] }]

end Sys2Proof.Machine
end

