-- ==== Sys2Proof/Machine/VecMem.lean ====
section
/-! DEFINITION. The vector memory instructions, their restart and the arrival of their data (R150-R156). -/
namespace Sys2Proof.Machine

/-- The kinds of access. -/
inductive VKind where
  | load | first | store
  deriving DecidableEq, Repr

/-- Element addresses (R150). -/
inductive VForm where
  | unit | stride | index
  deriving DecidableEq, Repr

/-- Bytes of an index element. -/
def idxBytes (f : S4V) : Nat := if f.iw then 4 else 2

/-- The address of element `i` of `n` bytes (R150). -/
def State.vElemAddr (s : State) (u : Nat) (f : S4V) (form : VForm) (n i : Nat) : Nat :=
  let b := (s.reg u f.rs1.toNat).toNat
  match form with
  | .unit => (b + i * n) % 2 ^ 64
  | .stride => ((b + i * (s.reg u f.rs2.toNat).toInt) % 2 ^ 64).toNat
  | .index => (b + s.rdNat (vAddr u f.rs2.toNat (i * idxBytes f)) (idxBytes f) * n) % 2 ^ 64

/-- The elements of a list, given with their addresses, up to the first that fails order 3, 4 or 5 of R152: place, address
and physical address of each, through the one translation of its check; and the failure. -/
def State.vScan (s : State) (u n : Nat) (wr : Bool) : List (Nat × Nat) → List (Nat × Nat × Nat) × Option (Nat × RowFail)
  | [] => ([], none)
  | (i, a) :: is =>
    let c := s.creg u 1
    if a % n ≠ 0 then ([], some (i, .cause .align a))
    else if ¬c.within a n then ([], some (i, .cause .capBounds (c.firstOut a)))
    else
      match s.tr u a (!wr) wr with
      | .ok pa => let r := s.vScan u n wr is; ((i, a, pa) :: r.1, r.2)
      | r => ([], some (i, .tr a r))

/-- The walk for the element met poison (R168). -/
def RowFail.isWalkPoison : RowFail → Bool
  | .tr _ (.poison _) => true
  | _ => false

/-- Set VRESUME (R153, R154). -/
def setVresume (u v : Nat) : Prog := modHart u fun h => { h with vresume := BitVec.ofNat 32 (v % 2 ^ 14) }

/-- The fields of a vector memory instruction in the unit, kept in `aux`: the register at which its group begins, the bytes
of an element, first-fault, the lowest active element, and the elements themselves. -/
def vReg (q : QOp) : Nat := (q.aux.getD 0 0).toNat
def vSize (q : QOp) : Nat := (q.aux.getD 1 0).toNat
def vFirst (q : QOp) : Bool := q.aux.getD 2 0 = 1
def vLowest (q : QOp) : Nat := (q.aux.getD 3 0).toNat
def vElems (q : QOp) : List Nat := (q.aux.drop 4).map Int.toNat

/-- A vector memory instruction on checked elements (R151, R152). -/
def vOp (s : State) (u : Nat) (i : Instr) (r n lowest : Nat) (ff wr : Bool) (es : List (Nat × Nat × Nat)) : QOp :=
  { instr := i, vals := [], vl := (s.hart u).vl, pc := (s.hart u).pc, tile := none
    aux := [(r : Int), n, if ff then 1 else 0, lowest] ++ es.map fun e : Nat × Nat × Nat => (e.1 : Int)
    stamp := s.nextStamp u, phys := es.map fun e => e.2.2, spans := es.map fun e => (e.2.1, n, wr) }

/-- The data of a vector load is written to its group (R151, R156, R178): poisoned data is consumed, or ends a first-fault
load above its lowest element. -/
def vLand (u : Nat) (q : QOp) : Prog :=
  let elems := (vElems q).zip (q.vals.map BitVec.toNat)
  match q.bad with
  | [] => putElems u (vReg q) (vSize q) elems
  | b :: _ =>
    let k := (vElems q).getD b 0
    let a := (q.spans.getD b (0, 0, false)).1
    block
      [putElems u (vReg q) (vSize q) (elems.take b),
       if vFirst q ∧ k ≠ vLowest q then
         block
           [report (unitPage u) .ffPoison 0 a,
            modHart u fun h => { h with vl := BitVec.ofNat 32 (h.vl.toNat - lenOf h.vl + k) }]
       else latePoison u q.pc a]

/-- The distinct sectors and lines outside the core's stage memory that the elements of a load lie in. -/
def vSectors (u : Nat) (q : QOp) : List Nat :=
  ((q.phys.filter fun a => region a ≠ .stage u).map fun a => a - a % grain a).eraseDups

/-- The load with the bytes that its elements have now (R151). -/
def vTakes (s : State) (u : Nat) (q : QOp) : QOp :=
  let n := vSize q
  { q with
    vals := q.phys.map fun pa => BitVec.ofNat 64 (ofBytes (s.viewBytes u pa n))
    own := q.phys.flatMap fun pa => s.ownBytes u pa n
    bad := (range 0 q.phys.length).filter fun k => (s.viewPoison u (q.phys.getD k 0) n).isSome }

/-- A vector load reads its elements (R151, R159): at once from the core's own stage memory, else when their data arrives;
`wait` says whether it may still be on its way when its instruction has issued. -/
def vLoad (u : Nat) (q : QOp) (wait : Bool) : Prog :=
  ask fun s =>
    let x := vTakes s u q
    block
      [forEach (q.phys.zip q.spans) fun (pa, a, n, _) => block [trUse u a, touch pa n, watch u a n true false],
       forEach (vSectors u q) fun a => bankPut a { plainReq (unitPage u) false with rdr := if wait then some q.stamp else none },
       if vSectors u q = [] ∨ ¬wait then vLand u x
       else modHart u fun h => { h with vloads := h.vloads ++ [x] }]

/-- What a vector store writes, element by element (R151): partition address, physical address, bytes, poisoned. -/
def State.vOut (s : State) (u : Nat) (q : QOp) : List (Nat × Nat × List Byte × Bool) :=
  ((vElems q).zip (q.phys.zip q.spans)).map fun (i, pa, a, n, _) =>
    let src := vAddr u (vReg q) (i * n)
    (a, pa, s.rd src n, (s.poisonIn src n).isSome)

/-- The guard of the stores of a vector instruction (R216): each element is a store; VMST is one. -/
def vGuard (u : Nat) (q : QOp) (as : List Nat) : Guard :=
  match q.instr with
  | .vmst _ _ =>
    let base := (q.spans.headD (0, 0, false)).1
    { w := coreWriter u, va := base, n := 1024, leads := if as.headD 0 = base then [base] else [] }
  | _ => { w := coreWriter u, va := as.headD 0, n := 1, leads := as }

/-- A vector store writes its elements, ascending (R151, R179). -/
def vStore (u : Nat) (q : QOp) : Prog :=
  block
    [forEach ((vElems q).zip q.spans) fun (i, a, n, _) =>
       block [trUse u a, touch (vAddr u (vReg q) (i * n)) n, watch u a n false true],
     ask fun s => storeMany u (vGuard u q) (s.vOut u q)]

/-- A vector memory instruction has completed (R67, R154). -/
def vDone (u : Nat) (f : S4V) : Prog := block [setVresume u 0, takeWte u f.wte f.wtok.toNat, retire u 4]

/-- A vector memory instruction whose elements have all passed enters the unit (R74, R152): it acts at once when the unit
is idle, else in its turn. `fin` completes its issue. -/
def vEnter (u : Nat) (q : QOp) (wr : Bool) (fin : Prog) : Prog :=
  ask fun s =>
    if s.vecBusy u then onlyIf (s.vecRoom u) (block [takeStamp u, vecQueue u q, fin])
    else block [takeStamp u, if wr then vStore u q else vLoad u q true, fin]

/-- A vector memory instruction that must stop: it does the elements before the one that stops it, completely (R153, R156),
and goes on with `k`. -/
def vStop (u : Nat) (q : QOp) (wr : Bool) (k : Prog) : Prog :=
  block [takeStamp u, if wr then vStore u q else vLoad u q false, k]

/-- The elements of a vector memory instruction after the whole-instruction checks (R152-R156). `es` are those to do, with
their addresses; `lowest` is the lowest active element. -/
def vElemBody (u : Nat) (f : S4V) (i : Instr) (r n lowest : Nat) (ff wr : Bool) (es : List (Nat × Nat)) : Prog :=
  ask fun s =>
    let (ok, fail) := s.vScan u n wr es
    let bad := if wr then none else ok.find? fun e => (s.viewPoison u e.2.2 n).isSome
    let op := vOp s u i r n lowest ff wr
    let cut (k : Nat) : Prog :=
      block [modHart u fun h => { h with vl := BitVec.ofNat 32 (h.vl.toNat - lenOf h.vl + k) }, vDone u f]
    if es.any fun e => s.tileWaits u e.2 n then .done
    else if (fail.isSome ∨ bad.isSome) ∧ s.vecBusy u then .done
    else
      match bad, fail with
      | none, none => vEnter u (op ok) wr (vDone u f)
      | some (k, a, pa), _ =>
        let q := op (ok.takeWhile fun e => e.1 ≠ k)
        if ff ∧ k ≠ lowest then vStop u q wr (block [touch pa n, report (unitPage u) .ffPoison 0 a, cut k])
        else vStop u q wr (block [touch pa n, raise u .poisonConsumed a])
      | none, some (k, e) =>
        if ff ∧ k ≠ lowest then
          vStop u (op ok) wr (block [onlyIf e.isWalkPoison (report (unitPage u) .ffPoison 0 ((es.lookup k).getD 0)), cut k])
        else vStop u (op ok) wr (block [setVresume u k, raiseRow u wr e])

/-- A vector memory instruction after its wait (R150, R152). One whose elements depend on a mask or an index group, or that
may change LEN, waits until the unit has no earlier work (R74). -/
def vmemBody (u : Nat) (f : S4V) (i : Instr) (kind : VKind) (form : VForm) : Prog :=
  ask fun s =>
    let h := s.hart u
    let n := ewOf h.vl / 8
    let len := lenOf h.vl
    let wr : Bool := kind = .store
    if s.vlOpen u ∨ ((f.msk ∨ form = .index ∨ kind = .first) ∧ s.vecBusy u) then .done
    else if ¬grpOk h.vl (ewOf h.vl) f.vr.toNat ∨ (form = .index ∧ 32 * 1024 < f.rs2.toNat * 1024 + len * idxBytes f) then
      raise u .illegal 0
    else capUse u [capIx 1] <| ask fun s =>
      let addr := s.vElemAddr u f form n
      let act := s.actives u h.vl f.msk
      let is := act.filter fun i => decide (h.vresume.toNat ≤ i)
      if ¬(s.creg u 1).authOk otData (if wr then pW else pR) then
        raise u .authority (if is = [] then (s.reg u f.rs1.toNat).toNat else addr (is.headD 0))
      else
        let m0 : List (Nat × Nat) := if f.msk then [(mAddr u 0 0, (len + 7) / 8)] else []
        let ixs : List (Nat × Nat) :=
          if form = .index then is.map fun i => (vAddr u f.rs2.toNat (i * idxBytes f), idxBytes f) else []
        block
          [forEach (m0 ++ ixs) fun (a, n) => touch a n,
           match (m0 ++ ixs).findSome? fun (a, n) => s.poisonIn a n with
           | some a => raise u .poisonConsumed a
           | none =>
             vElemBody u f i f.vr.toNat n (act.headD 0) (kind = .first) wr (is.map fun i => (i, addr i))]

/-- A vector memory instruction on the element registers (R150). -/
def vmem (u : UnitId) (f : S4V) (i : Instr) (kind : VKind) (form : VForm) (s : State) : Out :=
  instr u 4
    (isCore u.num ∧ f.sub = 0 ∧ f.rsv = 0 ∧ (form = .index ∨ f.iw = false) ∧ (form ≠ .unit ∨ f.rs2 = 0))
    (awaitWte u.num f.wte f.wtok.toNat i (vmemBody u.num f i kind form)) s

/-- VLD (R150). -/
def execVld (u : UnitId) (f : S4V) (s : State) : Out := vmem u f (.vld u f) .load .unit s

/-- VLDS (R150). -/
def execVlds (u : UnitId) (f : S4V) (s : State) : Out := vmem u f (.vlds u f) .load .stride s

/-- VLDFF (R150, R156). -/
def execVldff (u : UnitId) (f : S4V) (s : State) : Out := vmem u f (.vldff u f) .first .unit s

/-- VGTH (R150). -/
def execVgth (u : UnitId) (f : S4V) (s : State) : Out := vmem u f (.vgth u f) .load .index s

/-- VGTHFF (R150, R156). -/
def execVgthff (u : UnitId) (f : S4V) (s : State) : Out := vmem u f (.vgthff u f) .first .index s

/-- VST (R150). -/
def execVst (u : UnitId) (f : S4V) (s : State) : Out := vmem u f (.vst u f) .store .unit s

/-- VSCT (R150). -/
def execVsct (u : UnitId) (f : S4V) (s : State) : Out := vmem u f (.vsct u f) .store .index s

/-- VMLD and VMST after their wait (R150, R152-R154): one element of 1,024 bytes, done when VRESUME is 0. -/
def vmaskBody (u : Nat) (f : S4V) (i : Instr) (wr : Bool) : Prog :=
  ask fun s =>
    let h := s.hart u
    let b := (s.reg u f.rs1.toNat).toNat
    if s.vlOpen u then .done
    else capUse u [capIx 1] <| ask fun s =>
      let c := s.creg u 1
      if ¬c.authOk otData (if wr then pW else pR) then raise u .authority b
      else if h.vresume ≠ 0 then vDone u f
      else if b % 16 ≠ 0 then raise u .align b
      else if ¬c.within b 1024 then raise u .capBounds (c.firstOut b)
      else if s.tileWaits u b 1024 then .done
      else
        match s.trRange u b 1024 (!wr) wr with
        | .error (a, r) => raiseTr u a wr r
        | .ok ps =>
          let es := (range 0 128).map fun i =>
            let a := b + 8 * i
            let p := (ps.find? fun p => decide (p.1 ≤ a ∧ a < p.1 + p.2.2)).getD (a, 0, 0)
            (i, a, p.2.1 + (a - p.1))
          match (if wr then none else es.find? fun e => (s.viewPoison u e.2.2 8).isSome) with
          | some (_, a, pa) => if s.vecBusy u then .done else block [touch pa 8, raise u .poisonConsumed a]
          | none => vEnter u (vOp s u i (32 + f.vr.toNat) 8 0 false wr es) wr (vDone u f)

/-- The checks of VMLD and VMST on their fields (R150). -/
def vmaskLegal (u : UnitId) (f : S4V) : Bool :=
  isCore u.num && f.sub = 0 && f.rsv = 0 && f.iw = false && f.msk = false && decide (f.vr.toNat < 8)

/-- VMLD (R150). -/
def execVmld (u : UnitId) (f : S4V) (s : State) : Out :=
  instr u 4 (vmaskLegal u f) (awaitWte u.num f.wte f.wtok.toNat (.vmld u f) (vmaskBody u.num f (.vmld u f) false)) s

/-- VMST (R150). -/
def execVmst (u : UnitId) (f : S4V) (s : State) : Out :=
  instr u 4 (vmaskLegal u f) (awaitWte u.num f.wte f.wtok.toNat (.vmst u f) (vmaskBody u.num f (.vmst u f) true)) s

end Sys2Proof.Machine
end

