-- ==== Sys2Proof/Machine/Units.lean ====
section
/-! DEFINITION. The queues of the tile and vector units and of the array: what goes on when a wait ends (R74, R86, R100,
R120, R159). -/
namespace Sys2Proof.Machine

/-- The instruction at the head of the vector queue cannot execute yet (R100, R151, R159, R252): it is a UPD instruction, a
load is on its way, or a tile is not free. -/
def State.vecHolds (s : State) (c : Nat) (q : QOp) : Bool :=
  isUpd q || (s.hart c).vloads ≠ [] || !s.vecFree c q

/-- An instruction of the vector queue executes. -/
def vecTurn (c : Nat) (q : QOp) : Prog :=
  match q.instr with
  | .vld _ _ | .vlds _ _ | .vmld _ _ => vLoad c q true
  | .vst _ _ | .vmst _ _ => vStore c q
  | _ => useSrcs c q (fun a => block [vecRun c q, latePoison c q.pc a]) (vecRun c q)

/-- Execute at most `n` instructions from the head of the vector queue (R159). -/
def vecDrain (c : Nat) : Nat → Prog
  | 0 => .done
  | n + 1 =>
    ask fun s =>
      match (s.hart c).vq with
      | [] => .done
      | q :: _ =>
        if s.vecHolds c q then .done
        else block [modHart c fun h => { h with vq := h.vq.drop 1 }, vecTurn c q, vecDrain c n]

/-- The tile and vector queues go on as far as they can (R74, R100). -/
def unitsRun (c : Nat) : Prog := block [tileRun c, vecDrain c 16, tileRun c]

/-- STOP on the tile and vector units (R161): they start no further instruction; a tile that one would have written reads as
zero (R80). -/
def unitsStop (c : Nat) : Prog :=
  ask fun s =>
    let h := s.hart c
    block
      [modHart c fun h => { h with tq := [], vq := [] },
       forEach (h.tq.flatMap TileOp.writes).eraseDups fun t => clearRows c t 0]

/-- A bank has yet to admit a request of a tile row (R174). -/
def State.rowHeld (s : State) (c : Nat) (r : RowOp) : Bool :=
  s.bankWaits fun q => q.reads (unitPage c) r.stamp && r.phys.any fun p => meets p.1 p.2 q.addr (grain q.addr)

/-- TILE_ROW_ARRIVAL (R86, R90, R178): the oldest row on its way arrives, once its banks have admitted it, and is written.
`ecc` is what the symbol code finds in its first sector or line. -/
def execTileRowArrival (c : Fin 64) (ecc : Ecc) (s : State) : Out :=
  perform
    (ask fun s =>
      match (s.hart c).tileRows with
      | [] => .done
      | r :: _ =>
        let a := (r.phys.headD (0, 0)).1
        let ue : Bool := ecc = .uncorrectable && (bankOf a).isSome
        onlyIf (¬s.rowHeld c r)
          (block
            [bankServed fun q => q.reads (unitPage c) r.stamp && r.phys.any fun p => meets p.1 p.2 q.addr (grain q.addr),
             onlyIf (¬s.disabled a) (eccEvent a ecc),
             modHart c fun h => { h with tileRows := h.tileRows.drop 1 },
             ask fun s =>
               let x := if ecc = .clean then r else r.take s r.stamp (a - a % grain a) ue
               block
                 [rowLand c x,
                  unitsRun c,
                  match x.bad with
                  | [] => .done
                  | b :: _ => latePoison c r.pc (x.addrs.getD b 0)]])) s

/-- VECTOR_DATA_ARRIVAL (R156, R159, R178): the data of the oldest vector load returns, once its banks have admitted it, and
is written. `ecc` is what the symbol code finds in its last sector or line. -/
def execVectorDataArrival (c : Fin 64) (ecc : Ecc) (s : State) : Out :=
  perform
    (ask fun s =>
      match (s.hart c).vloads with
      | [] => .done
      | q :: _ =>
        let a := ((vSectors c q).getLast?).getD 0
        let ue : Bool := ecc = .uncorrectable && (bankOf a).isSome
        onlyIf (¬s.readHeld c q.stamp)
          (block
            [readDone c q.stamp,
             onlyIf (¬s.disabled a) (eccEvent a ecc),
             modHart c fun h => { h with vloads := h.vloads.drop 1 },
             ask fun s => vLand c (if ecc = .clean then q else q.take s q.stamp a ue),
             unitsRun c])) s

/-- ARRAY_INSTRUCTION_START (R100, R120, R121). -/
def execArrayInstructionStart (c : Fin 64) (s : State) : Out := perform (block [arrayStart c, unitsRun c]) s

end Sys2Proof.Machine
end

