-- ==== Sys2Proof/Machine/Upd.lean ====
section
/-! DEFINITION. The update recurrence: parameter memory, step scalars, UPD.MOM, UPD.WGT and UPD.ROW (R237-R263). -/
namespace Sys2Proof.Machine

/-! ### Arithmetic on FP32 codes (R237) -/

/-- The exact quotient, with a sticky bit (R237, R145). -/
def Num.div : Num → Num → Num
  | .nan, _ | _, .nan => .nan
  | .inf _, .inf _ => .nan
  | .inf s, .fin t _ _ => .inf (s != t)
  | .fin s _ _, .inf t => .fin (s != t) 0 0
  | .fin s m e, .fin t n f =>
    if n = 0 then (if m = 0 then .nan else .inf (s != t))
    else
      let k := Nat.log2 n + 64
      .fin (s != t) (sticky (m * 2 ^ k / n) (m * 2 ^ k % n = 0)) (e - f - k - 1)

/-- Division and square root of FP32 codes. -/
def f32Div (a b : Nat) : Nat := f32 ((ofF32 a).div (ofF32 b))
def f32Sqrt (a : Nat) : Nat := f32 (fSqrt (ofF32 a))

/-- FP32 1.0. -/
abbrev one32 : Nat := 0x3F800000

/-- sign(u) (R249). -/
def f32Sign (u : Nat) : Nat :=
  match ofF32 u with
  | .nan => 0x7FC00000
  | .inf s => if s then 0xBF800000 else one32
  | .fin s m _ => if m = 0 then 0 else if s then 0xBF800000 else one32

/-- f_i (R249). -/
def f32Fn (k u : Nat) : Nat :=
  match k with
  | 0 => u
  | 1 => f32Mul u u
  | 2 => if ofF32 u = .nan then 0x7FC00000 else u % 2 ^ 31
  | _ => f32Sign u

/-- A number is finite. -/
def Num.isFin : Num → Bool
  | .fin _ _ _ => true
  | _ => false

/-! ### Parameter memory (R238-R242) -/

/-- Where byte `o` of the parameter memory stands (R424). -/
abbrev pm (o : Nat) : Nat := sram 0xE 0 o

/-- Bits hi:lo of word 0 of descriptor `d` (R239). -/
def State.ud (s : State) (d hi lo : Nat) : Nat := bits (s.rdNat (pm (128 * d)) 8) hi lo

/-- Coefficient `k` of descriptor `d`, GSCALE first (R239). -/
def State.udC (s : State) (d k : Nat) : Nat := s.rdNat (pm (128 * d + 8 + 4 * k)) 4

/-- Entry of schedule table `k` for step number `t` (R241). -/
def State.sched (s : State) (k t : Nat) : Nat :=
  let e := s.rdNat (pm (0x300000 + 8 * k)) 8
  s.rdNat (pm (0x80000 + 4 * (bits e 16 0 + min ((t - 1) / 2 ^ bits e 52 48) (bits e 47 32)))) 4

/-- The bias correction of power table `k` at `t` (R242, R243). -/
def State.biasAt (s : State) (k t : Nat) : Nat :=
  let pw := if t < 65536 then s.rdNat (pm (0x100000 + k * 0x40000 + 4 * t)) 4 else 0
  f32Div one32 (f32Sub one32 pw)

/-- bc_i of descriptor `d` at `t` (R243). -/
def State.bcAt (s : State) (d t i : Nat) : Nat :=
  if bitAt (s.ud d 22 20) i then s.biasAt (s.ud d (25 + 3 * i) (23 + 3 * i)) t else one32

/-- The loss scale exponent (R235). -/
def State.lse (s : State) : Int := signedOf 8 (s.fld (ioa 0xD0 0x108) 7 0)

/-- The step scalars of descriptor `d` in file order (R243). -/
def State.stepScalars (s : State) (d t : Nat) (lse : Int) : List Nat :=
  let sgs := if s.ud d 3 3 = 1 then f32 ((ofF32 (s.udC d 0)).scale (-lse)) else s.udC d 0
  let eta := if s.ud d 32 32 = 1 then f32Mul (s.udC d 12) (s.sched (s.ud d 36 33) t) else s.udC d 12
  let lam := if s.ud d 37 37 = 1 then f32Mul (s.udC d 13) (s.sched (s.ud d 41 38) t) else s.udC d 13
  let dec := f32Sub one32 (f32Mul lam eta)
  [sgs, eta, dec, s.bcAt d t 0, s.bcAt d t 1, s.bcAt d t 2]

/-- The valid descriptors: only a listed byte can be other than zero. -/
def State.validDescs (s : State) : List Nat :=
  let lo := pm 0
  let ks := (s.mem.map Prod.fst ++ (s.xp.map fun (e : Nat × BitVec 19) => 8 * e.1)).filter fun k => decide (lo ≤ k ∧ k < lo + 0x80000)
  ((ks.map fun k => (k - lo) / 128).eraseDups).filter fun d => s.ud d 0 0 = 1

/-- The step number of the current or next window, without wrapping (R243, R257). -/
def State.stepT (s : State) : Nat := (s.ioVal (ioa 0xD0 0x100)).toNat + 1

/-- Poison in the parameter memory is consumed by its reader (R424). -/
def pmUse (o n : Nat) : Prog :=
  block
    [touch (pm o) n,
     ask fun s =>
       match s.poisonIn (pm o) n with
       | some _ => report 0xD0 .poisonConsumed 0 o
       | none => .done]

/-- The evaluation of the step scalars begins, from the STEPCNT and LSCALE in place (R243, R263). -/
def evalBegin : Prog :=
  block [setFld (ioa 0xD0 0x200) 31 31 0, ask fun s => modJob fun j => { j with evaluating := some (s.stepT, s.lse) }]

/-- The evaluation begun at the last commit edge or job start completes, if it has not (R243, R244). -/
def evalEnd : Prog :=
  ask fun s =>
    match s.dev.job.evaluating with
    | none => .done
    | some (t, lse) =>
      block
        [modJob fun j => { j with evaluating := none },
         forEach s.validDescs fun d => block
           [pmUse (128 * d) 128,
            ask fun s => writeAt (pm (0x301000 + 24 * d)) ((s.stepScalars d t lse).flatMap (toBytes 4))],
         setFld (ioa 0xD0 0x200) 31 31 1]

/-- STEP_SCALARS_READY (R243, R244). -/
def execStepScalarsReady (s : State) : Out := perform evalEnd s

/-! ### Fields and operands (R245-R248) -/

/-- The scalar register fields of a UPD instruction (R245). -/
def updRs1 (f : S4U) : Nat := f.rowsM1.toNat / 4
def updRs2 (f : S4U) : Nat := f.rowsM1.toNat % 4 * 8 + f.rbM1.toNat / 2

/-- The UPD instructions. -/
inductive UKind where
  | mom | wgt | row
  deriving DecidableEq, Repr

/-- What a UPD instruction has captured: the operand bases, the element offset or row word, the group word, the step
word and LEN (R245, R246). -/
structure UArgs where
  kind : UKind
  bases : List Nat
  r2 : Nat
  r3 : Nat
  r4 : Nat
  len : Nat
  deriving DecidableEq, Repr

/-- Descriptor index, clip factor and bucket exponent (R245). -/
def UArgs.d (a : UArgs) : Nat := bits a.r3 11 0
def UArgs.clip (a : UArgs) : Nat := bits a.r4 31 0
def UArgs.e (a : UArgs) : Int := signedOf 8 (bits a.r4 39 32)

/-- The fields of UPD.ROW (R245, R255). -/
def UArgs.c0 (a : UArgs) : Nat := bits a.r3 31 16
def UArgs.rowLen (a : UArgs) : Nat := bits a.r3 47 32
def UArgs.last (a : UArgs) : Bool := bitAt a.r3 63
def UArgs.row (a : UArgs) : Nat := bits a.r2 31 0
def UArgs.slot (a : UArgs) : Nat := bits a.r2 47 32

/-- The operands, by their place in the operand record (R246): 0 G, 1–3 moments, 4 W, 5 C, 6 D, 7 RC. -/
def State.updSize (s : State) (a : UArgs) (k : Nat) : Nat :=
  match k with
  | 0 => (match s.ud a.d 2 1 with | 0 => 4 | 3 => 8 | _ => 2)
  | 1 | 2 | 3 => if bitAt (s.ud a.d 13 11) (k - 1) then 2 else 4
  | 5 => if s.ud a.d 43 42 = 1 then 2 else 1
  | _ => 4

/-- The elements' first index of operand `k` (R247, R255). -/
def UArgs.first (a : UArgs) (k : Nat) : Nat :=
  match a.kind with
  | .row => if k = 7 then a.row else (if k = 0 then a.slot else a.row) * a.rowLen + a.c0
  | _ => a.r2

/-- Operand `k` is read, and is written (R247). -/
def State.updReads (s : State) (a : UArgs) (k : Nat) : Bool :=
  let men (i : Nat) : Bool := bitAt (s.ud a.d 10 8) i
  let direct : Bool := a.kind = .wgt && s.ud a.d 5 5 = 1
  match k with
  | 0 => !direct
  | 1 | 2 => !direct && men (k - 1)
  | 3 => a.kind ≠ .wgt && men 2
  | 4 => a.kind ≠ .mom
  | 6 => direct
  | 7 => a.kind = .row
  | _ => false

def State.updWrites (s : State) (a : UArgs) (k : Nat) : Bool :=
  match k with
  | 1 | 2 | 3 => a.kind ≠ .wgt && bitAt (s.ud a.d 10 8) (k - 1)
  | 4 => a.kind ≠ .mom
  | 5 => a.kind ≠ .mom && s.ud a.d 43 42 ≠ 0
  | 7 => a.kind = .row && a.last
  | _ => false

/-- The base of an operand. -/
def UArgs.base (a : UArgs) (k : Nat) : Nat := a.bases.getD k 0

/-- The partition address of element `i` of operand `k` (R247, R255). -/
def State.updAddr (s : State) (a : UArgs) (k i : Nat) : Nat := a.base k + (a.first k + i) * s.updSize a k

/-- Elements of operand `k` that the instruction spans. -/
def UArgs.span (a : UArgs) (k : Nat) : Nat := if k = 7 then 1 else a.len

/-- The operands that an instruction accesses. -/
def State.updOps (s : State) (a : UArgs) : List Nat :=
  if a.len = 0 then [] else (range 0 8).filter fun k => s.updReads a k || s.updWrites a k

/-- Orders 4 to 6 of R248. -/
def State.updErr (s : State) (u : Nat) (a : UArgs) : Option (Cause × Nat) :=
  let ops := s.updOps a
  let c := s.creg u 1
  let perm := (if ops.any (s.updReads a) then pR else 0) + (if ops.any (s.updWrites a) then pW else 0)
  if ops = [] then none
  else if ¬c.authOk otData perm then some (.authority, s.updAddr a (ops.headD 0) 0)
  else
    match ops.find? fun k => a.base k % s.updSize a k ≠ 0 with
    | some k => some (.align, a.base k)
    | none =>
      match ops.find? fun k => !c.within (s.updAddr a k 0) (a.span k * s.updSize a k) with
      | some k => some (.capBounds, c.firstOut (s.updAddr a k 0))
      | none => none

/-- The ranges that a UPD instruction accesses (R251): partition address, bytes, written. -/
def State.updSpans (s : State) (a : UArgs) : List (Nat × Nat × Bool) :=
  (s.updOps a).map fun k => (s.updAddr a k 0, a.span k * s.updSize a k, s.updWrites a k)

/-- A UPD instruction that has passed its checks enters the vector queue (R74, R252). -/
def updEnter (u : Nat) (f : S4U) (i : Instr) (a : UArgs) : Prog :=
  ask fun s => block
    [takeStamp u,
     modHart u fun h =>
       { h with vq := h.vq ++
           [{ instr := i, vals := (a.bases ++ [a.r2, a.r3, a.r4]).map (BitVec.ofNat 64), vl := h.vl, pc := h.pc, tile := none,
              aux := [], stamp := h.stamps, spans := s.updSpans a }] },
     takeWte u f.wte f.wtok.toNat,
     retire u 4]

/-- A UPD instruction after its wait (R248). It follows the core's earlier stores that wait in the tile queue (R251). -/
def updBody (u : Nat) (f : S4U) (i : Instr) (kind : UKind) : Prog :=
  ask fun s =>
    let h := s.hart u
    let p := (s.reg u (updRs1 f)).toNat
    let a0 : UArgs := { kind := kind, bases := [], r2 := (s.reg u (updRs2 f)).toNat, r3 := (s.reg u (uf f 37 33)).toNat,
                        r4 := (s.reg u (uf f 32 28)).toNat, len := lenOf h.vl }
    if s.vlOpen u ∨ 8 ≤ (h.vq.filter isUpd).length ∨ s.memWaits u p 64 false then .done
    else block
      [pmUse (128 * a0.d) 128,
       ask fun s =>
         if ewOf h.vl ≠ 32 ∨ s.ud a0.d 0 0 = 0
             ∨ (kind = .row ∧ (a0.rowLen = 0 ∨ a0.rowLen < a0.c0 + a0.len ∨ s.ud a0.d 5 5 = 1)) then raise u .illegal 0
         else if p % 64 ≠ 0 then raise u .align p
         else
           match s.ownStage u p 64 false, s.trRange u p 64 true false with
           | none, .ok ps =>
             block
               [forEach ps fun (va, pa, n) => block [trUse u va, touch pa n, watch u va n true false],
                match ps.findSome? fun (va, pa, n) => (s.viewPoison u pa n).map fun x => va + (x - pa) with
                | some x => raise u .poisonConsumed x
                | none =>
                  let rec0 := ps.flatMap fun (_, pa, n) => s.viewBytes u pa n
                  let a : UArgs := { a0 with bases := (range 0 8).map fun k => ofBytes ((rec0.drop (8 * k)).take 8) }
                  capUse u (if a.len = 0 then [] else [capIx 1]) <| ask fun s =>
                    match s.updErr u a with
                    | some (c, x) => raise u c x
                    | none => onlyIf (¬((s.updSpans a).any fun x => s.tileWaits u x.1 x.2.1)) (updEnter u f i a)]
           | some (x, r), _ => raiseTr u x false r
           | none, .error (x, r) => raiseTr u x false r]

/-- A UPD instruction (R245). -/
def updInstr (u : UnitId) (f : S4U) (i : Instr) (kind : UKind) (s : State) : Out :=
  instr u 4 (isCore u.num ∧ f.sub = 0 ∧ f.rbM1.toNat % 2 = 0 ∧ uf f 27 14 = 0)
    (awaitWte u.num f.wte f.wtok.toNat i (updBody u.num f i kind)) s

/-- UPD.MOM (R249). -/
def execUpdMom (u : UnitId) (f : S4U) (s : State) : Out := updInstr u f (.updMom u f) .mom s

/-- UPD.WGT (R250). -/
def execUpdWgt (u : UnitId) (f : S4U) (s : State) : Out := updInstr u f (.updWgt u f) .wgt s

/-- UPD.ROW (R255). -/
def execUpdRow (u : UnitId) (f : S4U) (s : State) : Out := updInstr u f (.updRow u f) .row s

/-! ### Elements (R249-R253) -/

/-- The exact value of a gradient code (R237). -/
def gradVal (gfmt : Nat) (e : Int) (c : Nat) : Num :=
  match gfmt with
  | 0 => decodeFmt .fp32 c
  | 1 => decodeFmt .bf16 c
  | 2 => numOf (signedOf 16 c) (e - 14)
  | _ => numOf (signedOf 40 c) (e - 14)

/-- A moment as an FP32 code: BF16 stored values are exact (R247, R249). -/
def State.momVal (s : State) (d i c : Nat) : Nat :=
  if bitAt (s.ud d 13 11) i then f32 (decodeFmt .bf16 c) else c

/-- A moment's stored code (R249). -/
def State.momStore (s : State) (d i c : Nat) : Nat :=
  if bitAt (s.ud d 13 11) i then (roundTo pBf16 (ofF32 c)).1 else c

/-- u (R249). -/
def State.gradU (s : State) (a : UArgs) (sgs g : Nat) : Nat :=
  let u := f32 ((gradVal (s.ud a.d 2 1) a.e g).mul (ofF32 sgs))
  if s.ud a.d 4 4 = 1 then f32Mul u a.clip else u

/-- upd_mom on one element (R249): the stored moments. -/
def State.updMom (s : State) (a : UArgs) (sgs g : Nat) (m : List Nat) : List Nat :=
  let u := s.gradU a sgs g
  (range 0 3).map fun i =>
    if bitAt (s.ud a.d 10 8) i then
      let f := f32Fn (s.ud a.d (15 + 2 * i) (14 + 2 * i)) u
      s.momStore a.d i (f32Fma (s.udC a.d (1 + i)) (s.momVal a.d i (m.getD i 0)) (f32Mul (s.udC a.d (4 + i)) f))
    else 0

/-- upd_wgt on one element (R250): the new weight, from the stored moments. -/
def State.updWgt (s : State) (a : UArgs) (sc : List Nat) (g : Nat) (m : List Nat) (w dd : Nat) (direct : Bool) : Nat :=
  let d := a.d
  let mv (i : Nat) : Nat := if bitAt (s.ud d 10 8) i then s.momVal d i (m.getD i 0) else 0
  let dv :=
    if direct then dd
    else
      let u := s.gradU a (sc.getD 0 0) g
      let mh (i : Nat) : Nat := if bitAt (s.ud d 10 8) i then f32Mul (mv i) (sc.getD (3 + i) 0) else 0
      let x := f32Mul (s.udC d 7) (mh 0)
      let x := f32Fma (s.udC d 8) u x
      let x := f32Fma (s.udC d 9) (f32Sign (mv 0)) x
      let q := f32Mul (s.udC d 10) (mh 1)
      let r := match s.ud d 7 6 with
        | 0 => f32Sqrt q
        | 1 => f32Sqrt (f32Sqrt q)
        | _ => q
      f32Div x (f32Add r (s.udC d 11))
  let y := f32Mul (sc.getD 1 0) dv
  f32 (((ofF32 w).mul (ofF32 (sc.getD 2 0))).add (ofF32 y).neg)

/-- The working copy (R250): the code and whether it saturated. -/
def State.updCopy (s : State) (d w : Nat) : Nat × Bool :=
  let n := (ofF32 w).scale (signedOf 8 (s.ud d 51 44))
  match s.ud d 43 42 with
  | 1 => roundTo pBf16 (ofF32 w)
  | 2 => roundTo pE4m3 n
  | _ => roundTo pE5m2 n

/-- The place of an operand's element, if it translates and may be accessed. -/
def State.updPlace (s : State) (u : Nat) (a : UArgs) (k i : Nat) : Tr :=
  s.tr u (s.updAddr a k i) (s.updReads a k) (s.updWrites a k)

/-- Read element `i` of operand `k`; 0 where it is not read. -/
def State.updGet (s : State) (u : Nat) (a : UArgs) (k i : Nat) : Nat :=
  if s.updReads a k then
    match s.updPlace u a k i with
    | .ok pa => ofBytes (s.viewBytes u pa (s.updSize a k))
    | _ => 0
  else 0

/-- What stops an element before it is computed (R248): a failed translation or poison, with its address. -/
def State.updStop (s : State) (u : Nat) (a : UArgs) (i : Nat) (ops : List Nat) : Option (Bool × Nat) :=
  ops.findSome? fun k =>
    match s.updPlace u a k i with
    | .ok pa => if s.updReads a k then (s.viewPoison u pa (s.updSize a k)).map fun x => (true, x) else none
    | .poison x => some (true, x)
    | .page => some (false, s.updAddr a k i)

/-- What one element writes (R249, R250, R255): operand, code; and whether the working copy saturated. -/
def State.updOut (s : State) (u : Nat) (a : UArgs) (sc : List Nat) (i : Nat) : List (Nat × Nat) × Bool :=
  let get (k : Nat) : Nat := s.updGet u a k i
  let m0 := [get 1, get 2, get 3]
  let direct : Bool := a.kind = .wgt && s.ud a.d 5 5 = 1
  let m := if a.kind = .wgt then m0 else s.updMom a (sc.getD 0 0) (get 0) m0
  let w := if a.kind = .mom then 0 else s.updWgt a sc (get 0) m (get 4) (get 6) direct
  let (c, sat) := if a.kind = .mom then (0, false) else s.updCopy a.d w
  (([1, 2, 3, 4, 5].filter (s.updWrites a)).map fun k =>
     (k, if k = 4 then w else if k = 5 then c else m.getD (k - 1) 0),
   sat && decide (2 ≤ s.ud a.d 43 42))

/-- A written code is not finite where R253 looks. -/
def State.updBad (s : State) (a : UArgs) (k c : Nat) : Bool :=
  if k = 5 then s.ud a.d 43 42 = 1 && !(decodeFmt .bf16 c).isFin
  else if k < 4 ∧ bitAt (s.ud a.d 13 11) (k - 1) then !(decodeFmt .bf16 c).isFin
  else !(ofF32 c).isFin

/-- The absolute index of an element for UPD_NONFINITE (R253). -/
def UArgs.absIndex (a : UArgs) (i : Nat) : Nat := a.first 4 + i

/-- A store of element `i` of operand `k` (R247): partition address, physical address, bytes. -/
def State.updPut (s : State) (u : Nat) (a : UArgs) (k i c : Nat) : Option (Nat × Nat × List Byte × Bool) :=
  match s.updPlace u a k i with
  | .ok pa => some (s.updAddr a k i, pa, toBytes (s.updSize a k) c, false)
  | _ => none

/-- The stores of a UPD instruction, element by element, happen (R251). -/
def updFlush (u : Nat) (outs : List (Nat × Nat × List Byte × Bool)) : Prog :=
  storeMany u (fun as => { w := coreWriter u, va := as.headD 0, n := 1, leads := as }) outs

/-- The UPD instruction at `pc` stops for a failed access (R248). -/
def updFail (u : Nat) (pc : BitVec 18) (x : Bool × Nat) : Prog :=
  if x.1 then latePoison u pc x.2 else report 0xD0 .updFault 0 x.2

/-- The reads of element `i` of the operands `ops`, with a request for each new sector or line (R168, R174). -/
def updKeep (u : Nat) (a : UArgs) (i : Nat) (ops : List Nat) : Prog :=
  forEach ops fun k => ask fun s =>
    let n := s.updSize a k
    match s.updPlace u a k i with
    | .ok pa =>
      block
        [trUse u (s.updAddr a k i),
         onlyIf (s.updReads a k)
           (block [touch pa n, onlyIf (i = 0 ∨ pa % grain pa < n) (bankReq (unitPage u) pa false)])]
    | _ => .done

/-- The elements of the UPD instruction at `pc`, ascending, each followed by the next; `outs` are the stores so far and
`fin` ends it (R251-R253). -/
def updLoop (u : Nat) (pc : BitVec 18) (a : UArgs) (sc : List Nat) (fin : List (Nat × Nat × List Byte × Bool) → Prog)
    (outs : List (Nat × Nat × List Byte × Bool)) : List Nat → Prog
  | [] => fin outs
  | i :: is =>
    ask fun s =>
      let ops := (s.updOps a).filter fun k => k ≠ 7
      match s.updStop u a i ops with
      | some x => block [updFlush u outs, updFail u pc x]
      | none =>
        if s.outcome = 1 then
          let (os, sat) := s.updOut u a sc i
          if os.any fun o => s.updBad a o.1 o.2 then
            block [updKeep u a i ops, updFlush u outs, report 0xD0 .updNonfinite a.d (a.absIndex i)]
          else
            block
              [updKeep u a i ops,
               onlyIf sat (block [arrCount u 0x220 1, setMask (ioa 0xD0 0x208) 2]),
               updLoop u pc a sc fin (outs ++ os.filterMap fun o => s.updPut u a o.1 i o.2) is]
        else block [updKeep u a i ops, updLoop u pc a sc fin outs is]

/-- The captured arguments of a queued UPD instruction. -/
def updArgs (q : QOp) : UArgs :=
  { kind := match q.instr with | .updMom _ _ => .mom | .updWgt _ _ => .wgt | _ => .row
    bases := (q.vals.take 8).map BitVec.toNat
    r2 := (q.vals.getD 8 0).toNat
    r3 := (q.vals.getD 9 0).toNat
    r4 := (q.vals.getD 10 0).toNat
    len := lenOf q.vl }

/-- The step scalars of a descriptor from the file (R243). -/
def State.scalarFile (s : State) (d : Nat) : List Nat :=
  (range 0 6).map fun k => s.rdNat (pm (0x301000 + 24 * d + 4 * k)) 4

/-- Watch the operands of a UPD instruction (R449). -/
def updWatch (u : Nat) (a : UArgs) : Prog :=
  ask fun s => forEach (s.updOps a) fun k =>
    watch u (s.updAddr a k 0) (a.span k * s.updSize a k) (s.updReads a k) (s.updWrites a k)

/-- A UPD instruction runs (R249-R255). -/
def updRun (u : Nat) (q : QOp) : Prog :=
  let a := updArgs q
  block
    [pmUse (128 * a.d) 128,
     pmUse (0x301000 + 24 * a.d) 24,
     updWatch u a,
     ask fun s =>
       let sc := s.scalarFile a.d
       if a.kind = .row ∧ a.len ≠ 0 then
         match s.updStop u a 0 [7] with
         | some x => updFail u q.pc x
         | none =>
           let n := s.updGet u a 7 0
           let t := if n = 0xFFFFFFFF then n else n + 1
           let sc := sc.take 3 ++ (range 0 3).map fun i => s.bcAt a.d t i
           block
             [updKeep u a 0 [7],
              onlyIf (n = 0xFFFFFFFF ∧ s.outcome = 1) (setMask (ioa 0xD0 0x208) 1),
              updLoop u q.pc a sc
                (fun outs => ask fun s =>
                  updFlush u (outs ++ if a.last ∧ s.outcome = 1 then (s.updPut u a 7 0 t).toList else []))
                [] (range 0 a.len)]
       else updLoop u q.pc a sc (updFlush u) [] (range 0 a.len)]

/-- UPD_START (R252): the UPD instruction at the head of the queue starts in the open window, once the loads before it have
returned; the instructions behind it follow. It runs to its end (R254; log entry 11). -/
def execUpdStart (c : Fin 64) (s : State) : Out :=
  perform
    (ask fun s =>
      match (s.hart c).vq with
      | [] => .done
      | q :: rest =>
        onlyIf (s.window ∧ isUpd q ∧ (s.hart c).vloads = [] ∧ s.dev.stop.active = false)
          (block [modHart c fun h => { h with vq := rest }, updRun c q, unitsRun c])) s

/-- PREREPORT (R259): the effect of a write of `v`. -/
def preReport (v : Reg32) : Prog :=
  ask fun s =>
    onlyIf (s.window ∧ s.outcome = 1)
      (block
        [ioSet (ioa 0xD0 0x20C) (BitVec.ofNat 32 (2 ^ 31 + v.toNat % 4096)),
         satAdd (ioa 0xD0 0x210) 31 0 1,
         offer { page := 0xD0, code := 0x82, sev := 0,
                 payload := toBytes 4 (v.toNat % 4096) ++ toBytes 4 s.stepT }])

end Sys2Proof.Machine
end

