-- ==== Sys2Proof/Machine/Streamer.lean ====
section
/-! DEFINITION. The Streamer: SQ and its checks, the walk of each mode, conversions, link buffers, completion and faults
(R192-R212, R292). -/
namespace Sys2Proof.Machine

/-! ### Descriptors (R195) -/

/-- Bits hi:lo of word `w` of the descriptor. -/
def XFer.f (x : XFer) (w hi lo : Nat) : Nat := bits (x.desc.getD w 0).toNat hi lo

def XFer.mode (x : XFer) : Nat := x.f 0 3 0
def XFer.sk (x : XFer) : Nat := x.f 0 7 6
def XFer.dk (x : XFer) : Nat := x.f 0 9 8
def XFer.sfmt (x : XFer) : Nat := x.f 0 13 10
def XFer.dfmt (x : XFer) : Nat := x.f 0 17 14
def XFer.se (x : XFer) : Int := signedOf 8 (x.f 0 25 18)
def XFer.scl (x : XFer) : Bool := x.f 0 41 41 = 1
def XFer.tile (x : XFer) : Nat := x.f 0 44 42
def XFer.rows (x : XFer) : Nat := x.f 0 51 45 + 1
def XFer.rb (x : XFer) : Nat := 16 * (x.f 0 55 52 + 1)
def XFer.xpitch (x : XFer) : Nat := x.f 7 40 21
def XFer.xoff (x : XFer) : Nat := x.f 7 20 0

/-- Count `k`. -/
def XFer.n (x : XFer) (k : Nat) : Nat := x.f 3 (16 * k + 15) (16 * k)

/-- Source and destination stride `k`, 1 to 3. -/
def XFer.ss (x : XFer) (k : Nat) : Int :=
  signedOf 32 (match k with | 1 => x.f 4 31 0 | 2 => x.f 4 63 32 | _ => x.f 5 31 0)
def XFer.ds (x : XFer) (k : Nat) : Int :=
  signedOf 32 (match k with | 1 => x.f 5 63 32 | 2 => x.f 6 31 0 | _ => x.f 6 63 32)

/-- Bits of an element of a descriptor format code (R79, R195). -/
def elBits (fmt : Nat) : Nat :=
  match fmt with
  | 6 | 7 => 6
  | 8 => 4
  | 0xA | 0xB | 0xD => 16
  | 0xC => 32
  | 0xE => 64
  | _ => 8

/-- A block-scaled format code (R203). -/
def isScaled (fmt : Nat) : Bool := 4 ≤ fmt && fmt ≤ 0xA

/-- Element sizes in bytes; those of the skew modes are of R200. -/
def XFer.es (x : XFer) : Nat :=
  match x.mode with
  | 0 | 3 | 4 => 1
  | _ => elBits x.sfmt / 8

/-- Bytes of a destination run of `k` elements. -/
def XFer.outBytes (x : XFer) (k : Nat) : Nat := if x.mode = 5 then (k * elBits x.dfmt + 7) / 8 else k * x.es

/-- The column bytes, columns and blocks of a skewed panel (R200). -/
def XFer.cb (x : XFer) : Nat := if x.mode = 2 then x.n 1 * x.es else x.n 0
def XFer.nc (x : XFer) : Nat := if x.mode = 2 then x.n 0 else x.n 1
def XFer.blocks (x : XFer) : Nat := (x.cb * 8 / elBits x.sfmt + 31) / 32

/-- A skew transfer that moves scales (R200). -/
def XFer.skewScales (x : XFer) : Bool := x.scl && isScaled x.sfmt && (x.mode = 2 || x.mode = 3)

/-- A conversion that writes scales to the XOFF region (R203). -/
def XFer.convScales (x : XFer) : Bool := x.mode = 5 && isScaled x.dfmt && x.scl && x.dk ≠ 1

/-- The XOFF region: its length, and whether it is written (R197). -/
def XFer.xlen (x : XFer) : Nat :=
  if x.mode = 4 then 4 * x.n 1
  else if x.skewScales then
    if x.mode = 2 then (x.blocks - 1) * x.xpitch + x.n 0 else (x.n 1 - 1) * x.xpitch + x.blocks
  else if x.convScales then (x.n 1 - 1) * x.xpitch + x.n 0 / 32
  else 0

/-! ### The checks of SQ (R194) -/

/-- The pairs of R202. -/
def convPair (s d : Nat) : Bool :=
  if s = 0xB ∨ s = 0xC then d = 0xB || d = 0xC || (1 ≤ d && d ≤ 0xA && d ≠ 3) || d = 0xD
  else (s = 1 || s = 2 || s = 0xD || s = 0xE) && (d = 0xB || d = 0xC)

/-- Order 4: the descriptor's fields and the mode rules of R198. -/
def XFer.valid (x : XFer) : Bool :=
  let m := x.mode
  let s := x.sfmt
  let d := x.dfmt
  let one : Bool := x.n 2 = 1 && x.n 3 = 1
  x.f 0 63 56 = 0 && x.f 0 5 4 = 0 && x.f 7 63 41 = 0 && decide (m ≤ 5) && x.sk ≠ 3 && x.dk ≠ 3
    && x.n 0 ≠ 0 && x.n 1 ≠ 0 && x.n 2 ≠ 0 && x.n 3 ≠ 0 && decide (s ≤ 0xE ∧ d ≤ 0xD)
    && !(x.sk = 1 && x.dk = 1) && !(x.dk = 1 && 0xC < d)
    && !(x.sk = 2 && decide (2 ^ 23 ≤ x.src.toNat)) && !(x.dk = 2 && decide (2 ^ 23 ≤ x.dst.toNat))
    && match m with
       | 0 => s = 0 && (d = 0 || x.dk = 1)
       | 1 => x.sk ≠ 2 && x.dk ≠ 2 && (s = 1 || s = 2 || s = 3 || s = 0xB) && d = s
       | 4 => x.sk = 0 && x.dk ≠ 2 && s = 0 && (d = 0 || x.dk = 1) && one
       | 5 => convPair s d && (!isScaled d || (x.n 0 % 32 = 0 && one))
       | _ => x.sk = 0 && x.dk = 0 && d = s && decide (1 ≤ s ∧ s ≤ 0xA) && (m = 3 || (s ≠ 6 && s ≠ 7 && s ≠ 8))
                && x.cb % 16 = 0 && decide (x.cb ≤ 128 ∧ x.nc ≤ 128) && (!x.scl || one)

/-- Order 5: the tile forms of R204, with the tag of the named tile. -/
def XFer.shapeOk (x : XFer) (tag : Option Tag) : Bool :=
  let one : Bool := x.n 2 = 1 && x.n 3 = 1
  let srcOk : Bool :=
    match tag with
    | none => false
    | some g =>
      x.src = 0 && x.ss 1 = 256 && one && decide (x.n 1 ≤ g.rows ∧ x.n 0 * x.es ≤ g.rb ∧ g.fmt = x.sfmt)
  let dstOk : Bool :=
    x.dst = 0 && x.ds 1 = 256 && one &&
      if x.mode = 1 then x.n 0 = x.rows && x.n 1 * x.es = x.rb
      else x.n 1 = x.rows && x.outBytes (x.n 0) = (if isScaled x.dfmt then x.rb - 16 else x.rb)
  (x.sk ≠ 1 || srcOk) && (x.dk ≠ 1 || dstOk)

/-- The extent of a walk: least and greatest displacement over counts and strides (R197). -/
def extent (ts : List (Nat × Int)) (size : Nat) : Int × Nat :=
  let lo := ts.foldl (fun a t => a + min 0 ((t.1 - 1 : Int) * t.2)) 0
  let hi := ts.foldl (fun a t => a + max 0 ((t.1 - 1 : Int) * t.2)) 0
  (lo, (hi - lo).toNat + size)

/-- The source and destination extents (R197). -/
def XFer.srcExt (x : XFer) : Int × Nat :=
  extent [(x.n 0, (x.es : Int)), (x.n 1, x.ss 1), (x.n 2, x.ss 2), (x.n 3, x.ss 3)] x.es
def XFer.dstExt (x : XFer) : Int × Nat :=
  match x.mode with
  | 1 => extent [(x.n 1, (x.es : Int)), (x.n 0, x.ds 1), (x.n 2, x.ds 2), (x.n 3, x.ds 3)] x.es
  | 2 | 3 =>
    let span := 128 * (x.cb - 1) + min 127 (x.nc + x.cb - 2) + 1
    extent [(x.n 2, x.ds 2), (x.n 3, x.ds 3)]
      (if x.skewScales then 128 * x.cb + 16 * (x.nc - 1) + x.blocks else span)
  | 4 => extent [(x.n 1, x.ds 1)] (x.n 0)
  | _ => extent [(x.n 1, x.ds 1), (x.n 2, x.ds 2), (x.n 3, x.ds 3)] (x.outBytes (x.n 0))

/-- A capability covers an extent from an address (R371). -/
def extErr (c : Cap) (a : Nat) (e : Int × Nat) : Option (Cause × Nat) :=
  let lo : Int := a + e.1
  if lo < 0 then some (.capBounds, unsignedOf 64 lo)
  else if ¬c.within lo.toNat e.2 then some (.capBounds, c.firstOut lo.toNat)
  else none

/-- Orders 6 to 8 of R194. A conversion that writes the XOFF region needs W of cCD for a link destination too (log entry
25). -/
def XFer.capErr (x : XFer) (c : Nat) : Option (Cause × Nat) :=
  let xa := stageBase c + x.xoff
  let xr : Bool := x.mode = 4 || x.skewScales
  if (x.sk = 0 ∨ xr) ∧ ¬Cap.authOk x.cs otData pR then some (.authority, x.src.toNat)
  else if (x.dk = 0 ∨ x.convScales) ∧ ¬Cap.authOk x.cd otData pW then some (.authority, x.dst.toNat)
  else if (x.mode = 2 ∨ x.mode = 3) ∧ x.dst.toNat % 128 ≠ 0 then some (.align, x.dst.toNat)
  else if x.mode = 4 ∧ x.xoff % 4 ≠ 0 then some (.align, xa)
  else
    [(if x.sk = 0 ∧ x.mode ≠ 4 then extErr x.cs x.src.toNat x.srcExt else none),
     (if x.dk = 0 then extErr x.cd x.dst.toNat x.dstExt else none),
     (if xr then extErr x.cs xa (0, x.xlen) else none),
     (if x.convScales then extErr x.cd xa (0, x.xlen) else none)].findSome? id

/-- SQ after its wait (R193, R194, R204). -/
def sqBody (u : Nat) (f : S4U) : Prog :=
  ask fun s =>
    let p := (s.reg u (updRs1 f)).toNat
    if 32 ≤ ((s.hart u).xq.filter fun x => !x.active).length ∨ s.memWaits u p 64 false then .done
    else if p % 64 ≠ 0 then raise u .align p
    else
      match s.ownStage u p 64 false, s.trRange u p 64 true false with
      | none, .ok ps =>
        block
          [forEach ps fun (va, pa, n) => block [trUse u va, touch pa n],
           match ps.findSome? fun (va, pa, n) => (s.viewPoison u pa n).map fun x => va + (x - pa) with
           | some x => raise u .poisonConsumed x
           | none =>
             let raw := ps.flatMap fun (_, pa, n) => s.viewBytes u pa n
             let desc := (range 0 8).map fun k => BitVec.ofNat 64 (ofBytes ((raw.drop (8 * k)).take 8))
             let x : XFer :=
               { desc := desc, src := desc.getD 1 0 + s.reg u (updRs2 f), dst := desc.getD 2 0 + s.reg u (uf f 37 33),
                 cs := 0, cd := 0, off := (ps.headD (0, 0, 0)).2.1 - stageBase u, srcTile := none, dstTile := none,
                 active := false, run := 0, pos := 0, bytes := 0, held := [], stamp := s.nextStamp u }
             if ¬x.valid ∨ (x.sk = 1 ∧ updRs2 f ≠ 0) ∨ (x.dk = 1 ∧ uf f 37 33 ≠ 0) then raise u .illegal 0
             else if ¬x.shapeOk (s.tag u x.tile) then raise u .tileShape 0
             else capUse u [capIx (uf f 32 29), capIx (uf f 28 25)] <| ask fun s =>
               let x : XFer := { x with cs := s.creg u (uf f 32 29), cd := s.creg u (uf f 28 25),
                                        srcTile := if x.sk = 1 then some x.tile else none,
                                        dstTile := if x.dk = 1 then some x.tile else none }
               match x.capErr u with
               | some (c, a) => raise u c a
               | none =>
                 block
                   [onlyIf (x.dk = 1) (setTag u x.tile (some { rows := x.rows, rb := x.rb, fmt := x.dfmt })),
                    takeStamp u,
                    modHart u fun h => { h with xq := h.xq ++ [x] },
                    takeWte u f.wte f.wtok.toNat,
                    retire u 4]]
      | some (a, r), _ => raiseTr u a false r
      | none, .error (a, r) => raiseTr u a false r

/-- SQ (R193). -/
def execSq (u : UnitId) (f : S4U) (s : State) : Out :=
  instr u 4 (isCore u.num ∧ f.sub = 0 ∧ f.rbM1.toNat % 2 = 0 ∧ uf f 24 14 = 0)
    (awaitWte u.num f.wte f.wtok.toNat (.sq u f) (sqBody u.num f)) s

/-! ### Start (R207) -/

/-- An array instruction whose reads of stage memory DW waits for. -/
def readsStage (q : QOp) : Bool :=
  match q.instr with
  | .mma _ _ | .mmaf _ _ | .mdrain _ _ => true
  | _ => false

/-- A scalar, vector or tile store of the core with a stamp below `n` is not yet visible (R207). -/
def State.storesBefore (s : State) (c n : Nat) : Bool :=
  let h := s.hart c
  (h.mbuf.any fun e => decide (e.stamp < n)) || !s.postsDone c
    || (h.tq.any fun q => decide (q.stamp < n) && !q.stores.isEmpty)
    || h.vq.any fun q => decide (q.stamp < n) && !isUpd q && q.spans.any fun x => x.2.2

/-- TRANSFER_START (R207): the first queued transfer starts once its conditions hold. -/
def execTransferStart (c : Fin 64) (s : State) : Out :=
  perform
    (ask fun s =>
      let h := s.hart c
      let before := h.xq.takeWhile XFer.active
      match h.xq.drop before.length with
      | [] => .done
      | x :: rest =>
        onlyIf (before.length < 8 ∧ s.dev.stop.active = false
            ∧ ¬s.storesBefore c x.stamp
            ∧ s.tilesFree c x.srcTile.toList x.dstTile.toList x.stamp
            ∧ (x.f 0 39 39 = 1 → before = [])
            ∧ (x.f 0 40 40 = 1 → ¬((h.aq ++ h.arun).any fun q => readsStage q && decide (q.stamp < x.stamp))))
          (block
            [modHart c fun h => { h with xq := before ++ { x with active := true } :: rest },
             (match x.dstTile with
              | some t => forEach (range 0 x.rows) fun r => clearAt (tileAddr c t r 0) x.rb
              | none => .done)])) s

/-! ### Faults (R210) -/

/-- STRM register of core `c`. -/
abbrev strm (c o : Nat) : Nat := ioa (strmPage c) o

/-! ### Access -/

/-- Translate the pieces of a range with the Streamer's own cache (R206): the failing address otherwise. -/
def State.strmRange (s : State) (c va n : Nat) (rd wr : Bool) : Except (Nat × Tr) (List (Nat × Nat × Nat)) :=
  (pagePieces (n / 4096 + 2) va n).mapM fun (a, m) =>
    match s.translate (s.hart c).strmTlb a rd wr with
    | .ok pa => .ok (a, pa, m)
    | r => .error (a, r)

/-- Keep the Streamer's translation cache after a use; a miss walks the table (R168, R206). -/
def strmUse (c va : Nat) : Prog :=
  ask fun s =>
    let t := (s.hart c).strmTlb
    let t' := s.tlbAfter 128 t va
    onlyIf (t' ≠ t)
      (block [walkReqs (unitPage c) va, modHart c fun h => { h with strmTlb := t' }, onlyIf (t.length = 128) useFree])

/-- A translation that fails has walked the table, unless a cached leaf denied it (R168, R206). -/
def strmFailed (c va : Nat) : Prog :=
  ask fun s => onlyIf (tlbFind (s.hart c).strmTlb va = none) (walkReqs (unitPage c) va)

/-- The link, image and offset of a link-buffer address (R195, R287). -/
def lbLink (a : Nat) : Nat := bits a 22 17
def lbOff (a : Nat) : Nat := bits a 16 0
def lbImg (a : Nat) : Nat := lbOff a / 0x3000

/-- Images of a link (R287). -/
def Link.txi (l : Link) (i : Nat) : TxImg := Tab.get (fun _ => {}) l.tx i
def Link.rxi (l : Link) (i : Nat) : RxImg := Tab.get (fun _ => {}) l.rx i

/-- Change an image. -/
def modTx (l i : Nat) (f : TxImg → TxImg) : Prog := modLink l fun k => { k with tx := Tab.insert i (f (k.txi i)) k.tx }
def modRx (l i : Nat) (f : RxImg → RxImg) : Prog := modLink l fun k => { k with rx := Tab.insert i (f (k.rxi i)) k.rx }

/-- Where a byte of a transmit and of a receive image stands (R287, R424). -/
def txAddr (l o : Nat) : Nat := sram 0xD l o
def rxAddr (l o : Nat) : Nat := sram 0xD l (0x20000 + o)

/-- LINK.LSTAT.STATE (R305). -/
def State.lstate (s : State) (l : Nat) : Nat := (s.link l).st

/-- What an access of `n` bytes of a link buffer meets (R292): the code, if any. -/
def State.lbErr (s : State) (a n : Nat) (wr : Bool) : Option Nat :=
  let k := s.link (lbLink a)
  if 47 < lbLink a ∨ 0x18000 < lbOff a + n then some 0x40
  else if k.st ≠ 3 then some 0x43
  else if wr then
    let i := k.txi (lbImg a)
    if i.sending ∨ 12288 < i.fill + n then some 0x41 else none
  else if (k.rxi (lbImg a)).st ≠ 2 then some 0x42
  else none

/-- The bytes of a receive image; zeros past its written length (R292). -/
def State.lbRead (s : State) (a n : Nat) : List Byte :=
  let l := lbLink a
  (range (lbOff a) n).map fun o => if o % 0x3000 < ((s.link l).rxi (o / 0x3000)).len then s.rdByte (rxAddr l o) else 0

/-! ### The walk (R196-R201) -/

/-- The coordinates of run `r`. -/
def XFer.i1 (x : XFer) (r : Nat) : Nat := r % x.n 1
def XFer.i2 (x : XFer) (r : Nat) : Nat := r / x.n 1 % x.n 2
def XFer.i3 (x : XFer) (r : Nat) : Nat := r / x.n 1 / x.n 2

/-- Runs of a transfer. -/
def XFer.runs (x : XFer) : Nat := x.n 1 * x.n 2 * x.n 3

/-- Add a displacement to an address modulo 2^64. -/
def addrPlus (a : Nat) (d : Int) : Nat := unsignedOf 64 (a + d)

/-- The index of GATHER row `i` (R201). -/
def State.gIndex (s : State) (c : Nat) (x : XFer) (i : Nat) : Nat := s.rdNat (stageBase c + x.xoff + 4 * i) 4

/-- The source address of run `r`. -/
def State.srcRun (s : State) (c : Nat) (x : XFer) (r : Nat) : Nat :=
  if x.mode = 4 then addrPlus x.src.toNat (s.gIndex c x (x.i1 r) * x.ss 1)
  else addrPlus x.src.toNat (x.i1 r * x.ss 1 + x.i2 r * x.ss 2 + x.i3 r * x.ss 3)

/-- The destination address of the run, without its own elements. -/
def XFer.dstRun (x : XFer) (r : Nat) : Nat :=
  match x.mode with
  | 1 => addrPlus x.dst.toNat (x.i1 r * x.es + x.i2 r * x.ds 2 + x.i3 r * x.ds 3)
  | 2 | 3 => addrPlus x.dst.toNat (x.i2 r * x.ds 2 + x.i3 r * x.ds 3)
  | _ => addrPlus x.dst.toNat (x.i1 r * x.ds 1 + x.i2 r * x.ds 2 + x.i3 r * x.ds 3)

/-- Byte `a` lies in the transfer's D-space destination (R167). -/
def XFer.covers (x : XFer) (a : Nat) : Bool :=
  (range 0 x.runs).any fun r =>
    let b := x.dstRun r
    if x.mode = 1 then (range 0 (x.n 0)).any fun p => let d := addrPlus b (p * x.ds 1); decide (d ≤ a ∧ a < d + x.es)
    else decide (b ≤ a ∧ a < b + x.outBytes (x.n 0))

/-! ### Conversion (R202, R203) -/

/-- The exact value of a source code. -/
def strmVal (fmt : Nat) (e : Int) (c : Nat) : Num :=
  match fmt with
  | 1 => decodeFmt .e4m3 c
  | 2 => decodeFmt .e5m2 c
  | 0xB => decodeFmt .bf16 c
  | 0xC => decodeFmt .fp32 c
  | 0xD => numOf (signedOf 16 c) (e - 14)
  | _ => numOf (signedOf 40 c) (e - 14)

/-- What a conversion reports: saturations, FLAGS bits, and a non-finite value into GG16. -/
structure CvtNote where
  sats : Nat := 0
  flags : BitVec 32 := 0
  gnf : Bool := false
  deriving DecidableEq, Repr

/-- FLAGS of a number: NF_INF in bit 1, NF_NAN in bit 0 (R212). -/
def numFlags : Num → BitVec 32
  | .nan => 1
  | .inf _ => 2
  | .fin _ _ _ => 0

/-- Two notes together. -/
def CvtNote.join (a b : CvtNote) : CvtNote :=
  { sats := a.sats + b.sats, flags := a.flags ||| b.flags, gnf := a.gnf || b.gnf }

/-- One element of an unscaled destination (R202); the gradient formats have no signed zero (R35). -/
def strmElem (sfmt dfmt : Nat) (se : Int) (v : Num) : Nat × CvtNote :=
  let round := if sfmt = 0xD ∨ sfmt = 0xE then roundPlain else roundTo
  let note (f : Fmt) (r : Nat × Bool) : Nat × CvtNote :=
    (r.1, { sats := if r.2 then 1 else 0,
            flags := numFlags v ||| numFlags (decodeFmt f r.1) ||| (if r.2 then 4 else 0) })
  match dfmt with
  | 1 => note .e4m3 (round pE4m3 (v.scale se))
  | 2 => note .e5m2 (round pE5m2 (v.scale se))
  | 0xB => note .bf16 (round pBf16 v)
  | 0xC => note .fp32 (round pFp32 v)
  | _ =>
    let (q, sat, nf) := gg16 v se
    (q, { sats := if sat then 1 else 0, flags := numFlags v ||| (if sat then 4 else 0), gnf := nf })

/-- Element parameters of R203: the floating-point formats and their greatest exponent. -/
def mxParam (dfmt : Nat) : Option (FParam × Int) :=
  match dfmt with
  | 4 => some (pE4m3, 8)
  | 5 => some (pE5m2, 15)
  | 6 => some ({ mb := 3, eb := 2, emin := 0, maxM := 15, maxE := -1, sat := true, infCode := 0, nanCode := 0 }, 2)
  | 7 => some ({ mb := 2, eb := 3, emin := -2, maxM := 7, maxE := 2, sat := true, infCode := 0, nanCode := 0 }, 4)
  | 8 => some ({ mb := 1, eb := 2, emin := 0, maxM := 3, maxE := 1, sat := true, infCode := 0, nanCode := 0 }, 2)
  | _ => none

/-- One block of 32 values (R203): the scale code and the element codes. -/
def mxBlock (dfmt : Nat) (vs : List Num) : Nat × List Nat × CvtNote :=
  if vs.any fun v => !v.isFin then
    (0xFF, vs.map fun _ => 0, { flags := vs.foldl (fun m v => m ||| numFlags v) 0 })
  else
    let tops := vs.filterMap fun v =>
      match v with
      | .fin _ m e => if m = 0 then none else some ((Nat.log2 m : Int) + e)
      | _ => none
    let emax := (mxParam dfmt).elim 0 Prod.snd
    let code : Int :=
      match tops with
      | [] => 127
      | t :: ts => min (max (ts.foldl max t - emax + 127) 0) 254
    let rs : List (Nat × Bool) := vs.map fun v =>
      match mxParam dfmt, v with
      | some (p, _), v => roundTo p (v.scale (127 - code))
      | none, .fin s m e =>
        let p : Int := if dfmt = 9 then -6 else -14
        let lim : Int := if dfmt = 9 then 127 else 32767
        let q := rneShift (if s then -(m : Int) else m) (p - (e + (127 - code)))
        if lim < q.natAbs then (unsignedOf (elBits dfmt) (if 0 < q then lim else -lim), true)
        else (unsignedOf (elBits dfmt) q, false)
      | none, _ => (0, false)
    let n := (rs.filter Prod.snd).length
    (code.toNat, rs.map Prod.fst, { sats := n, flags := if n = 0 then 0 else 4 })

/-- Pack codes of `w` bits (R23). -/
def packCodes (w : Nat) (cs : List Nat) : List Byte :=
  toBytes ((cs.length * w + 7) / 8) (cs.foldr (fun c v => c % 2 ^ w + 2 ^ w * v) 0)

/-- Groups of `k`. -/
def groups (k : Nat) : Nat → List α → List (List α)
  | 0, _ => []
  | f + 1, l => if l.isEmpty then [] else l.take k :: groups k f (l.drop k)

/-- Convert a piece of a run: the destination bytes, the scale codes and the note. -/
def strmConvert (x : XFer) (src : List Byte) : List Byte × List Nat × CvtNote :=
  let vs := (groups x.es src.length src).map fun b => strmVal x.sfmt x.se (ofBytes b)
  if isScaled x.dfmt then
    let bs := (groups 32 vs.length vs).map (mxBlock x.dfmt)
    (packCodes (elBits x.dfmt) (bs.flatMap fun b => b.2.1), bs.map Prod.fst,
     bs.foldl (fun n b => n.join b.2.2) {})
  else
    let es := vs.map (strmElem x.sfmt x.dfmt x.se)
    (packCodes (elBits x.dfmt) (es.map Prod.fst), [], es.foldl (fun n e => n.join e.2) {})

/-! ### Requests (R205, R209) -/

/-- The pieces of the `n` bytes from `a` that cross no multiple of `u`. -/
def cuts (u : Nat) : Nat → Nat → Nat → List (Nat × Nat)
  | 0, _, _ => []
  | f + 1, a, n =>
    if n = 0 then []
    else
      let m := min n (u - a % u)
      (a, m) :: cuts u f (a + m) (n - m)

/-- The unit of a D-space address of a transfer (R205). -/
def State.unitAt (s : State) (c a : Nat) (rd : Bool) : Nat :=
  match s.translate (s.hart c).strmTlb a rd (!rd) with
  | .ok pa => unitOf pa
  | _ => 64

/-- The next read of a transfer: its address and bytes (R205). -/
def State.nextRead (s : State) (c : Nat) (x : XFer) : Nat × Nat :=
  match x.mode, x.plan with
  | 4, g :: _ => (g.va, g.n)
  | _, _ =>
    let a := addrPlus (s.srcRun c x x.run) (x.pos * x.es + x.buf.length : Nat)
    let u := if x.sk = 0 then s.unitAt c a true else 512
    (a, min ((x.n 0 - x.pos) * x.es - x.buf.length) (u - a % u))

/-- The elements that `n` bytes give: whole ones, and whole blocks of a block-scaled conversion (R203). -/
def XFer.whole (x : XFer) (n : Nat) : Nat :=
  if x.mode = 5 ∧ isScaled x.dfmt then n / x.es / 32 * 32 else n / x.es

/-- The bytes that elements `p` and on of run `r` write: destination and bytes (R196, R199-R201, R203). -/
def XFer.outs (x : XFer) (r p : Nat) (src out : List Byte) : List (Nat × List Byte) :=
  let d := x.dstRun r
  match x.mode with
  | 1 => (groups x.es src.length src).zipIdx.map fun (b, k) => (addrPlus d ((p + k) * x.ds 1), b)
  | 2 =>
    (groups x.es src.length src).zipIdx.flatMap fun (b, k) => b.zipIdx.map fun (y, e) =>
      let j := x.i1 r * x.es + e
      (addrPlus d (128 * j + (p + k + j) % 128 : Nat), [y])
  | 3 => src.zipIdx.map fun (y, k) => (addrPlus d (128 * (p + k) + (x.i1 r + p + k) % 128 : Nat), [y])
  | 5 => [(addrPlus d (p * elBits x.dfmt / 8 : Nat), out)]
  | _ => [(addrPlus d p, src)]

/-- The scale bytes that go with run `r` of a skew transfer (R200): place in the XOFF region, destination. -/
def XFer.scaleMoves (x : XFer) (r : Nat) : List (Nat × Nat) :=
  if ¬x.skewScales then []
  else
    let d := x.dst.toNat + 128 * x.cb
    if x.mode = 3 then (range 0 x.blocks).map fun b => (x.xoff + x.i1 r * x.xpitch + b, d + 16 * x.i1 r + b)
    else if x.i1 r * 8 * x.es % (32 * elBits x.sfmt) = 0 then
      let b := x.i1 r / 32
      (range 0 (x.n 0)).map fun n => (x.xoff + b * x.xpitch + n, d + 16 * n + b)
    else []

/-- The cause of a failed translation (R210). -/
def trCause (wr : Bool) : Tr → Nat
  | .poison _ => 0x0B
  | _ => if wr then 0x05 else 0x04

/-- The address that a failed translation records. -/
def trBad (va : Nat) : Tr → Nat
  | .poison a => a
  | _ => va

/-- A destination write needs R as well: it covers part of a sector or line that the transfer does not cover whole
(R167). -/
def XFer.needsRead (x : XFer) (va pa n : Nat) : Bool :=
  match bankOf pa with
  | none => false
  | some _ =>
    let g := grain pa
    let lo := va - pa % g
    let k := (pa % g + n + g - 1) / g * g
    (range lo k).any fun a => !(decide (va ≤ a ∧ a < va + n)) && !x.covers a

/-- A physical address lies in a core's stage memory. -/
def inStage (pa : Nat) : Bool :=
  match region pa with
  | .stage _ => true
  | _ => false

/-- The checks of a write before any of it happens: the failing cause and address. -/
def State.dstErr (s : State) (c : Nat) (x : XFer) (a n : Nat) : Option (Nat × Nat) :=
  match x.dk with
  | 0 =>
    match s.strmRange c a n false true with
    | .error (va, r) => some (trCause true r, trBad va r)
    | .ok ps =>
      ps.findSome? fun (va, pa, m) =>
        if (x.mode = 2 ∨ x.mode = 3) ∧ ¬inStage pa then some (0x05, va)
        else if x.needsRead va pa m then
          match s.translate (s.hart c).strmTlb va true true with
          | .ok _ => none
          | r => some (trCause true r, trBad va r)
        else none
  | 2 => (s.lbErr a n true).map fun e => (e, a)
  | _ => none

/-- The requests that a write of `n` bytes at `a` makes: none crosses a unit (R205). -/
def State.writeCuts (s : State) (c : Nat) (x : XFer) (a n : Nat) : List (Nat × Nat) :=
  match x.dk with
  | 0 => (pagePieces (n / 4096 + 2) a n).flatMap fun (b, m) => cuts (s.unitAt c b false) m b m
  | 1 => [(a, n)]
  | _ => cuts 512 n a n

/-- Perform a request that writes. Bytes written to D space become visible when the transfer completes (R187, R208). -/
def xferWrite (c k : Nat) (x : XFer) (a : Nat) (bs : List Byte) : Prog :=
  match x.dk with
  | 0 =>
    ask fun s =>
      match s.strmRange c a bs.length false true with
      | .error _ => .done
      | .ok ps =>
        forEach ps fun (va, pa, m) =>
          block
            [strmUse c va,
             forEach (pieces m pa m) fun p => bankPut p.1 { plainReq (unitPage c) true with strm := some x.stamp },
             modHart c fun h =>
               { h with xq := h.xq.modify k fun y => { y with held := y.held ++ [(va, pa, (bs.drop (va - a)).take m)] } }]
  | 1 => writeAt (tileAddr c x.tile 0 a) bs
  | _ =>
    block
      [writeAt (txAddr (lbLink a) (lbOff a)) bs,
       ask fun s =>
         modTx (lbLink a) (lbImg a) fun i => { i with fill := i.fill + bs.length, fillAt := s.dev.beat.time }]

/-- The parts of the bytes that a transfer has written to D space, by sector, line or block: partition address, physical
address, bytes, and the address of the request that begins there. -/
def heldParts (held : List (Nat × Nat × List Byte)) : List (Nat × Nat × List Byte × List Nat) :=
  held.flatMap fun (va, pa, bs) =>
    (pieces bs.length pa bs.length).map fun (b, m) =>
      (va + (b - pa), b, (bs.drop (b - pa)).take m, if b = pa then [va] else [])

/-- The bytes that a transfer has written to D space become visible (R179, R187, R208, R216): those of one sector, line or
block together. -/
def strmLand (c : Nat) (held : List (Nat × Nat × List Byte)) : Prog :=
  forEach (groupOn (fun p => p.2.1 - p.2.1 % grain p.2.1) (heldParts held)) fun (_, g) =>
    guarded { w := .strm c, va := (g.headD (0, 0, [], [])).1, n := 1, leads := g.flatMap fun p => p.2.2.2 }
      (landBytes (unitPage c) (g.foldl (fun l p => (p.2.2.1.zipIdx).foldl (fun l b => mbPut (p.2.1 + b.2) b.1 l) l) []) false)

/-- The bytes that an abandoned transfer has written stay written (R210); those of a durable range never became visible
(R216). -/
def strmKeep (c : Nat) (x : XFer) : Prog :=
  ask fun s => strmLand c (x.held.filter fun p => !s.durable p.1 p.2.2.length)

/-- The destination bytes that the walk of a transfer has not written: address, and the scale region of R202 as stage
addresses. -/
def XFer.rest (x : XFer) (c : Nat) : List Nat × List Nat :=
  let outsOf (r p m : Nat) : List Nat :=
    (x.outs r p (List.replicate (m * x.es) 0) (List.replicate (x.outBytes m) 0)).flatMap fun o =>
      (range 0 o.2.length).map fun i : Nat => addrPlus o.1 i
  let atRun (r : Nat) : List Nat × List Nat :=
    let p := if r = x.run then x.pos else 0
    let codes := if x.mode = 5 ∧ isScaled x.dfmt then range (p / 32) ((x.n 0 - p + 31) / 32) else []
    let fresh : Bool := p = 0 && (r ≠ x.run || x.buf = [])
    (outsOf r p (x.n 0 - p) ++ (if fresh then (x.scaleMoves r).map Prod.snd else [])
        ++ (if x.dk = 1 then codes.map fun b => 256 * x.i1 r + (x.rb - 16) + b else []),
     if x.convScales then codes.map fun b => stageBase c + x.xoff + x.i1 r * x.xpitch + b else [])
  let now := if x.plan = [] then 0 else min 64 (x.n 1 - x.run)
  let left := x.plan.flatMap fun g => g.serves.flatMap fun v =>
    (range v.2.1 v.2.2.2).map fun j : Nat => addrPlus (x.dstRun v.1) j
  let rs := (range (x.run + now) (x.runs - x.run - now)).map atRun
  (left ++ rs.flatMap Prod.fst, rs.flatMap Prod.snd)

/-- A byte that the spec leaves undefined takes a free value (log entry 3), where a write of it meets no error. -/
def undefByte (c pa : Nat) : Prog :=
  ask fun s =>
    onlyIf (s.disabled pa = false ∧ (s.chk (pa / 8)).vs ≠ 2 ∧ s.blkClass (pa / 8) = 0)
      (block [writeAt pa [s.freeVal.setWidth 8], cacheWrite c pa [s.freeVal.setWidth 8], useFree])

/-- The destination byte at `a` of an aborted transfer is undefined, where the transfer could write it; a durable range is
written at completion only, and keeps its bytes (R210, R216). -/
def undefDst (c : Nat) (x : XFer) (a : Nat) : Prog :=
  ask fun s =>
    onlyIf (s.dstErr c x a 1 = none)
      (match x.dk with
       | 0 =>
         match s.translate (s.hart c).strmTlb a false true with
         | .ok pa => onlyIf (s.durable a 1 = false) (undefByte c pa)
         | _ => .done
       | 1 => undefByte c (tileAddr c x.tile 0 a)
       | _ => undefByte c (txAddr (lbLink a) (lbOff a)))

/-- A fault of a transfer: recorded, reported, the transfer abandoned, and the destination bytes that it has not written
undefined (R210); `wrote` are those that the failing request has written. A second fault is recorded over the first (log
entry 25). -/
def xferFault (c k : Nat) (x : XFer) (cause a : Nat) (wrote : List Nat) : Prog :=
  block
    [ioSet (strm c 0x108) (BitVec.ofNat 32 (2 ^ 31 + cause)),
     ioSet (strm c 0x10C) (BitVec.ofNat 32 x.off),
     setPair (strm c 0x110) a,
     ask fun s => forEach (s.hart c).xq[k]?.toList (strmKeep c),
     modHart c fun h => { h with xq := h.xq.eraseIdx k },
     bankDrop fun r => r.page = unitPage c && r.strm = some x.stamp,
     admSettle c,
     report (strmPage c) (if cause = 0x0B then .poisonConsumed else .strmFault) cause a,
     forEach ((x.rest c).1.filter fun b => !wrote.contains b) (undefDst c x),
     forEach ((x.rest c).2.filter fun b => !wrote.contains b) fun w => ask fun s =>
       onlyIf (s.durable w 1 = false) (undefByte c w),
     unitsRun c]

/-- Read `n` source bytes at `a`: the failing cause and address, or the bytes. Those of DRAM are as the banks' admissions
found them (R209). -/
def State.srcBytes (s : State) (c : Nat) (x : XFer) (a n : Nat) : Except (Nat × Nat) (List Byte) :=
  match x.sk with
  | 0 =>
    match s.strmRange c a n true false with
    | .error (va, r) => .error (trCause false r, trBad va r)
    | .ok ps =>
      let at' (p : Nat) : Byte × Bool := (x.seen.lookup p).getD (s.rdByte p, s.poisoned p)
      match ps.findSome? fun (va, pa, m) => ((range pa m).find? fun p => (at' p).2).map fun y => va + (y - pa) with
      | some y => .error (0x0B, y)
      | none => .ok (ps.flatMap fun (_, pa, m) => (range pa m).map fun p => (at' p).1)
  | 1 => if (s.poisonIn (tileAddr c x.tile 0 a) n).isSome then .error (0x0B, a) else .ok (s.rd (tileAddr c x.tile 0 a) n)
  | _ =>
    match s.lbErr a n false with
    | some e => .error (e, a)
    | none => if (s.poisonIn (rxAddr (lbLink a) (lbOff a)) n).isSome then .error (0x0B, a) else .ok (s.lbRead a n)

/-- The sectors and lines of a source range that a request asks its banks for (R174). -/
def State.srcAsks (s : State) (c : Nat) (x : XFer) (a n : Nat) : List Nat :=
  if x.sk ≠ 0 then []
  else
    match s.strmRange c a n true false with
    | .error _ => []
    | .ok ps => (ps.flatMap fun (_, pa, m) => (pieces m pa m).map fun p => p.1 - p.1 % grain p.1).filter fun b =>
        (bankOf b).isSome

/-- The effects of reading the source: checks of the code, translations (R168, R177, R421). `ecc` is what the code finds in
the first sector or line. -/
def srcTouch (c : Nat) (x : XFer) (a n : Nat) (ecc : Ecc) : Prog :=
  match x.sk with
  | 0 =>
    ask fun s =>
      match s.strmRange c a n true false with
      | .error (va, _) => strmFailed c va
      | .ok ps =>
        block
          [forEach ps fun (va, pa, m) => block [strmUse c va, touch pa m],
           match s.srcAsks c x a n with
           | [] => .done
           | b :: _ => onlyIf (ecc ≠ .clean ∧ ¬s.disabled b) (block [eccEvent b ecc, strmSees c x.stamp b])]
  | 1 => touch (tileAddr c x.tile 0 a) n
  | _ => touch (rxAddr (lbLink a) (lbOff a)) n

/-- A request reads: its sectors and lines reach their banks, if a tag is free; `k` goes on once all are admitted (R174,
R205). -/
def xferAsk (c k : Nat) (x : XFer) (a n : Nat) (p : Prog) : Prog :=
  ask fun s =>
    let secs := s.srcAsks c x a n
    let mine (r : BReq) : Bool := r.page = unitPage c && r.strm = some x.stamp && !r.write
    if secs = [] then p
    else if x.asked then onlyIf (¬s.bankWaits mine) p
    else
      onlyIf (s.strmTags c < 256)
        (block
          [modHart c fun h => { h with xq := h.xq.modify k fun y => { y with asked := true, seen := [] } },
           forEach secs fun b => ask fun s =>
             let now : Bool := match bankOf b with | some (i, _) => (s.bank i).takes i (unitPage c) | none => false
             block
               [bankPut b { plainReq (unitPage c) false with strm := some x.stamp },
                onlyIf now (strmSees c x.stamp b)],
           tagSettle c,
           admSettle c,
           ask fun s => onlyIf (¬s.bankWaits mine) p])

/-- Writes of a request in order, each split at its units (R205); the failing one faults (R210). `wrote` are the addresses
already written, and `fin` goes on after the last. -/
def xferPuts (c k : Nat) (x : XFer) (fin : Prog) : List (Nat × List Byte) → List Nat → Prog
  | [], _ => fin
  | (a, bs) :: t, wrote =>
    ask fun s =>
      match s.dstErr c x a bs.length with
      | some (e, y) => block [onlyIf (x.dk = 0) (strmFailed c y), xferFault c k x e y wrote]
      | none => block [xferWrite c k x a bs, xferPuts c k x fin t (wrote ++ range a bs.length)]

/-- The requests of a list of writes. -/
def State.allCuts (s : State) (c : Nat) (x : XFer) (outs : List (Nat × List Byte)) : List (Nat × List Byte) :=
  outs.flatMap fun (d, bs) => (s.writeCuts c x d bs.length).map fun (a, m) => (a, (bs.drop (a - d)).take m)

/-- The scale bytes that a piece of a conversion into a tile gives (R203, R204): those of its blocks, and after a row's last
block the rest of the field, which is zero. -/
def XFer.tileScales (x : XFer) (m : Nat) (codes : List Nat) : List (Nat × List Byte) :=
  if x.dk = 1 ∧ codes ≠ [] then
    let b := x.pos / 32
    let bs := codes.map (BitVec.ofNat 8)
    [(256 * x.i1 x.run + (x.rb - 16) + b,
      if x.n 0 ≤ x.pos + m then bs ++ List.replicate (16 - b - bs.length) 0 else bs)]
  else []

/-- The transfer after a read that gave `m` elements and left `buf`. -/
def XFer.advance (x : XFer) (m n : Nat) (buf : List Byte) : XFer :=
  let last : Bool := decide (x.n 0 ≤ x.pos + m)
  { x with pos := if last then 0 else x.pos + m, run := if last then x.run + 1 else x.run, bytes := x.bytes + n
           asked := false, seen := [], buf := if last then [] else buf }

/-- A read of `src` of a walk by elements has returned: whole elements and blocks are written (R196-R203). -/
def xferWalk (c k : Nat) (x : XFer) (src : List Byte) : Prog :=
  let xa := stageBase c
  let scales := if x.pos = 0 ∧ x.buf = [] then x.scaleMoves x.run else []
  let bytes := x.buf ++ src
  let m := x.whole bytes.length
  let now := bytes.take (m * x.es)
  block
    [forEach scales fun (o, _) => touch (xa + o) 1,
     ask fun s =>
       match scales.find? fun p => s.poisoned (xa + p.1) with
       | some (o, _) => xferFault c k x 0x0B (xa + o) []
       | none =>
         let (out, codes, note) := if x.mode = 5 then strmConvert x now else ([], [], {})
         let outs := (if m = 0 then [] else x.outs x.run x.pos now out)
           ++ scales.map (fun p => (p.2, [s.rdByte (xa + p.1)])) ++ x.tileScales m codes
         let ws := codes.zipIdx.map fun (v, b) =>
           let w := xa + x.xoff + x.i1 x.run * x.xpitch + x.pos / 32 + b
           (w, w, [(BitVec.ofNat 8 v : Byte)])
         let n := outs.foldl (fun n o => n + o.2.length) 0 + (if x.convScales then ws.length else 0)
         xferPuts c k x
           (block
             [arrCount c (if x.dfmt = 0xD then 0x230 else 0x220) note.sats,
              onlyIf note.gnf (setGnf c),
              onlyIf (note.flags ≠ 0) (setMask (strm c 0x104) note.flags),
              modHart c fun h => { h with xq := h.xq.modify k fun y =>
                ({ y with held := y.held ++ if x.convScales then ws else [] } : XFer).advance m n (bytes.drop (m * x.es)) }])
           (s.allCuts c x outs) []]

/-- A piece of a GATHER row that lies in one unit: its partition and physical address, bytes, row and place in the row. -/
structure GPiece where
  va : Nat
  pa : Nat
  n : Nat
  row : Nat
  place : Nat
  deriving DecidableEq, Repr

/-- The order of a window's reads (R201): bank, DRAM row, address. -/
def GPiece.before (a b : GPiece) : Bool :=
  let key (g : GPiece) : Nat × Nat := match bankOf g.pa with | some (k, r, _) => (k, r) | none => (0, 0)
  decide ((key a).1 < (key b).1 ∨ ((key a).1 = (key b).1 ∧ ((key a).2 < (key b).2 ∨ ((key a).2 = (key b).2 ∧ a.pa < b.pa))))

/-- Insert into an ordered list, behind equal pieces. -/
def gInsert (p : GPiece) : List GPiece → List GPiece
  | [] => [p]
  | q :: t => if p.before q then p :: q :: t else q :: gInsert p t

/-- Reads of ordered pieces (R201): `cur` is the read being formed, at physical address `pa`; a piece that shares a sector or
line with it joins it. -/
def gMerge (cur : GRead) (pa : Nat) : List GPiece → List GRead
  | [] => [cur]
  | p :: t =>
    if (bankOf p.pa).isSome ∧ p.pa / unitOf p.pa = pa / unitOf pa ∧ p.pa / grain p.pa ≤ (pa + cur.n - 1) / grain p.pa then
      gMerge { cur with n := max cur.n (p.pa - pa + p.n), serves := cur.serves ++ [(p.row, p.place, p.pa - pa, p.n)] } pa t
    else cur :: gMerge { va := p.va, n := p.n, serves := [(p.row, p.place, 0, p.n)] } p.pa t

/-- The pieces of GATHER row `i`, or what is wrong with it (R201, R210). -/
def State.gRow (s : State) (c : Nat) (x : XFer) (i : Nat) : Except (Nat × Nat) (List GPiece) :=
  let ix := stageBase c + x.xoff + 4 * i
  let base := s.srcRun c x i
  if (s.poisonIn ix 4).isSome then .error (0x0B, ix)
  else if ¬Cap.within x.cs base (x.n 0) then .error (0x03, Cap.firstOut x.cs base)
  else
    match s.strmRange c base (x.n 0) true false with
    | .error (va, r) => .error (trCause false r, trBad va r)
    | .ok ps => .ok (ps.flatMap fun (va, pa, m) => (cuts (unitOf pa) m pa m).map fun (b, k) =>
        { va := va + (b - pa), pa := b, n := k, row := i, place := va - base + (b - pa) })

/-- The next window of a GATHER: its indices are read and its reads put in order (R201). -/
def gatherPlan (c k : Nat) (x : XFer) (go : XFer → Prog) : Prog :=
  let is := range x.run (min 64 (x.n 1 - x.run))
  block
    [forEach is fun i => touch (stageBase c + x.xoff + 4 * i) 4,
     ask fun s =>
       match is.mapM (s.gRow c x) with
       | .error (e, y) => block [strmFailed c y, xferFault c k x e y []]
       | .ok rows =>
         match rows.flatten.foldl (fun l p => gInsert p l) [] with
         | [] => .done
         | p :: t =>
           let plan := gMerge { va := p.va, n := p.n, serves := [(p.row, p.place, 0, p.n)] } p.pa t
           block [modHart c fun h => { h with xq := h.xq.modify k fun y => { y with plan := plan } }, go { x with plan := plan }]]

/-- A read of a GATHER window has returned `src`: it serves every row that needs its bytes (R201). -/
def xferServe (c k : Nat) (x : XFer) (src : List Byte) : Prog :=
  ask fun s =>
    match x.plan with
    | [] => .done
    | g :: t =>
      let outs := g.serves.map fun (i, o, p, n) => (addrPlus (x.dstRun i) o, (src.drop p).take n)
      let n := outs.foldl (fun n o => n + o.2.length) 0
      xferPuts c k x
        (modHart c fun h => { h with xq := h.xq.modify k fun y =>
          { y with run := if t = [] then y.run + min 64 (y.n 1 - y.run) else y.run, plan := t, bytes := y.bytes + n
                   asked := false, seen := [] } })
        (s.allCuts c x outs) []

/-- One read of the transfer `k` of the queue, and what it lets the transfer write (R205, R209). -/
def xferRead (c k : Nat) (x : XFer) (ecc : Ecc) : Prog :=
  ask fun s =>
    let (a, n) := s.nextRead c x
    xferAsk c k x a n
      (block
        [srcTouch c x a n ecc,
         ask fun s =>
           match (s.hart c).xq[k]? with
           | none => .done
           | some x =>
             match s.srcBytes c x a n with
             | .error (e, y) => xferFault c k x e y []
             | .ok src => if x.mode = 4 then xferServe c k x src else xferWalk c k x src])

/-- One request of transfer `k` of the queue (R205, R206, R209). -/
def xferStep (c k : Nat) (x : XFer) (ecc : Ecc) : Prog :=
  if x.mode = 4 ∧ x.plan = [] then gatherPlan c k x fun x => xferRead c k x ecc else xferRead c k x ecc

/-- STREAMER_REQUEST (R205): the next request of transfer `k` of the queue, once that transfer is active. -/
def execStreamerRequest (c : Fin 64) (k : Nat) (ecc : Ecc) (s : State) : Out :=
  perform
    (ask fun s =>
      match (s.hart c).xq[k]? with
      | none => .done
      | some x => onlyIf (x.active ∧ x.run < x.runs ∧ s.dev.stop.active = false) (xferStep c k x ecc)) s

/-- The requests of transfer `n` of core `c` (R174). -/
def BReq.ofXfer (c n : Nat) (r : BReq) : Bool := r.page = unitPage c && r.strm = some n

/-- TRANSFER_COMPLETE (R208): a transfer whose walk has ended and whose requests are admitted completes; its writes become
visible (R187, R216), its bytes and its token are counted. -/
def execTransferComplete (c : Fin 64) (k : Nat) (s : State) : Out :=
  perform
    (ask fun s =>
      match (s.hart c).xq[k]? with
      | none => .done
      | some x =>
        onlyIf (x.active ∧ x.runs ≤ x.run ∧ ¬s.bankWaits (BReq.ofXfer c x.stamp))
          (block
            [bankServed fun r => r.ofXfer c x.stamp && !r.write,
             strmLand c x.held,
             modHart c fun h => { h with xq := h.xq.eraseIdx k },
             ask fun s => setPair (strm c 0x120) ((s.pair (strm c 0x120) + x.bytes) % 2 ^ 64),
             onlyIf (x.f 0 38 38 = 1) (addTok (x.f 0 37 32) (x.f 0 31 26) 1),
             unitsRun c])) s

/-- STOP and job end on the Streamer (R211): transfers are abandoned, the bytes that they have written stay, and a tile that
one would have written reads as zero (R80). -/
def strmStop (c : Nat) : Prog :=
  ask fun s =>
    let xs := (s.hart c).xq
    block
      [forEach xs (strmKeep c),
       modHart c fun h => { h with xq := [] },
       bankDrop fun r => r.page = unitPage c && r.strm.isSome,
       admSettle c,
       forEach (xs.filterMap fun x => if x.active then none else x.dstTile) fun t => clearRows c t 0]

def strmJobStart (c : Nat) : Prog :=
  block
    [modHart c fun h => { h with xq := [], strmTlb := [], admSince := none },
     bankDrop fun r => r.page = unitPage c && r.strm.isSome,
     bankServed fun r => r.page = unitPage c && r.strm.isSome,
     forEach [0x104, 0x108, 0x10C, 0x110, 0x114, 0x118, 0x11C, 0x120, 0x124] fun o => ioSet (strm c o) 0]

end Sys2Proof.Machine
end

