-- ==== Sys2Proof/Machine/Links.lean ====
section
/-! DEFINITION. Uawiux links: training, the neighbour check and FEC errors (R274-R279, R293). -/
namespace Sys2Proof.Machine

/-- A link of the running job's set (R279). -/
def State.inLinkset (s : State) (l : Nat) : Bool := s.job && s.dev.job.linkset.getLsbD l

/-- A link changes state; one of the running job's set that leaves UP raises LINK_DOWN (R279). -/
def setLinkState (l st : Nat) : Prog :=
  ask fun s =>
    block
      [modLink l fun k => { k with st := st },
       onlyIf (s.lstate l = 3 ∧ st ≠ 3 ∧ s.inLinkset l) (report (linkPage l) .linkDown 0 0)]

/-- Nothing is known of the partner (R275). -/
def Link.forget (k : Link) : Link := { k with lanes := 0, seen := false, plock := false, thetas := [], idrec := none }

/-- A link begins training (R275). -/
def train (l : Nat) : Prog :=
  ask fun s =>
    block
      [setLinkState l 1,
       modLink l fun k => { k.forget with trainAt := s.dev.beat.time, nbyp := 0, plink := 0 }]

/-- LANE_LOCK (R275): the lanes complete training and the link enters CHECK. -/
def execLaneLock (l : Fin 48) (s : State) : Out :=
  perform
    (ask fun s => onlyIf (s.lstate l = 1) (block [setLinkState l 2, modLink l fun k => { k with lanes := 0xF }])) s

/-- TRAIN_FAIL (R275): a link has not reached CHECK within 100 ms. -/
def execTrainFail (l : Fin 48) (s : State) : Out :=
  perform
    (ask fun s =>
      onlyIf (s.lstate l = 1)
        (block
          [advanceTime ((s.link l).trainAt + 100 * msLen),
           setLinkState l 7,
           report (linkPage l) .trainFail 0 0])) s

/-- LANE_LOCK_LOSS (R275, R279): a trained link's lanes lose lock and it returns to TRAIN. -/
def execLaneLockLoss (l : Fin 48) (s : State) : Out :=
  perform (ask fun s => onlyIf (2 ≤ s.lstate l ∧ s.lstate l ≤ 6) (train l)) s

/-! ### The neighbour check -/

/-- Dimension of a link and whether it faces the + direction (R276). -/
def linkDim (l : Nat) : Nat := l / 16
def linkPlus (l : Nat) : Bool := l / 8 % 2 = 0

/-- The partner link that link `l` expects (R276). -/
def wantLink (l : Nat) : Nat := if linkPlus l then l + 8 else l - 8

/-- Distance from coordinate `a` to `b` in a direction, modulo the size. -/
def distance (plus : Bool) (a b size : Nat) : Nat := (if plus then b + size - a % size else a + size - b % size) % size

/-- A record with a bad VERSION or a nonzero reserved field (R277), and its fields. -/
def idBad (r : IdRecord) : Bool := bits r.w3.toNat 63 8 ≠ 0 || bits r.w3.toNat 7 0 ≠ 1 || bitAt r.w1.toNat 63
def idFig (r : IdRecord) : Bool := bitAt r.w1.toNat 62
def idLink (r : IdRecord) : Nat := bits r.w1.toNat 61 56
def idSysid (r : IdRecord) : Nat := bits r.w1.toNat 55 40
def idTsize (r : IdRecord) : Nat := bits r.w1.toNat 39 20
def idCoord (r : IdRecord) : Nat := bits r.w1.toNat 19 0

/-- The devices in pass-through between the device and the partner: the n of R276, if there is one. -/
def State.bypassed (s : State) (l : Nat) (r : IdRecord) : Option Nat :=
  let d := linkDim l
  (range 0 4).find? fun n =>
    (1 + n) % s.size d = distance (linkPlus l) (s.coord d) (dimBits d (idCoord r)) (s.size d)

/-- The state that the check gives, and n (R276). -/
def State.verdict (s : State) (l : Nat) (r : IdRecord) : Nat × Nat :=
  let others : Bool := (range 0 3).all fun d => d = linkDim l || dimBits d (idCoord r) = s.coord d
  if idBad r ∨ idSysid r ≠ s.fld aBeatCfg 31 16 ∨ idTsize r ≠ s.fld aTsize 19 0 ∨ idLink r ≠ wantLink l ∨ ¬others then (6, 0)
  else
    match s.bypassed l r with
    | none => (6, 0)
    | some 0 =>
      if s.loaded ∧ idFig r then (if r.fp.toNat = s.fingerprint then (3, 0) else (6, 0))
      else if ¬s.loaded ∧ ¬idFig r then (3, 0)
      else (5, 0)
    | some n => (4, n)

/-- The neighbour check of UWX link `l` against a partner's record (R276). -/
def checkRecord (l : Nat) (r : IdRecord) : Prog :=
  ask fun s =>
    let (st, n) := s.verdict l r
    block
      [ioSet (ioa (linkPage l) 0x104) (BitVec.ofNat 32 (idCoord r)),
       modLink l fun k => { k with idrec := some r, nbyp := n, plink := idLink r },
       setLinkState l st,
       onlyIf (st = 6 ∧ s.lstate l ≠ 6) (report (linkPage l) .nbrMismatch (idCoord r) r.uid.toNat)]

/-- The neighbour check repeats after a change on this side, against the record that each partner last sent (R276). -/
def recheckLinks : Prog :=
  forEach (range 0 48) fun l =>
    ask fun s =>
      match (s.link l).idrec with
      | some r => onlyIf ((s.link l).pers = 0 ∧ 3 ≤ s.lstate l ∧ s.lstate l ≤ 6) (checkRecord l r)
      | none => .done

/-- The generation of a bridge personality (R274): 1 is Rhoeb-3, 2 is Rhoeb-2. -/
def persGen (pers : Nat) : Nat := if pers = 1 then 3 else 2

/-- ID_RECORD_RECEIVED (R276, R277): the neighbour check of a trained link. A bridge link only checks the generation that its
partner reports. -/
def execIdRecordReceived (l : Fin 48) (r : IdRecord) (s : State) : Out :=
  perform
    (ask fun s =>
      onlyIf (2 ≤ s.lstate l ∧ s.lstate l ≤ 6)
        (if (s.link l).pers ≠ 0 then setLinkState l (if r.gen = persGen (s.link l).pers then 3 else 6)
         else checkRecord l r)) s

/-- FLIT_ERROR (R293): codewords are counted; a receive that an uncorrectable one or a flit CRC failure touches never
completes. -/
def execFlitError (l : Fin 48) (touchesScheduled : Bool) (e : FlitErr) (s : State) : Out :=
  perform
    (ask fun s =>
      onlyIf (2 ≤ s.lstate l ∧ s.lstate l ≤ 6)
        (if e = .corrected then satAdd (ioa (linkPage l) 0x10C) 31 0 1
         else
           block
             [onlyIf (e = .codeword) (satAdd (ioa (linkPage l) 0x110) 31 0 1),
              if touchesScheduled ∧ (s.link l).pers = 0 then
                block [modLink l fun k => { k with cur := none }, report (linkPage l) .linkUe 0 0]
              else onlyIf ((s.link l).pers = 0) (report (linkPage l) .linkReplay 0 0)])) s

end Sys2Proof.Machine
end

