-- ==== Sys2Proof/Machine/Slots.lean ====
section
/-! DEFINITION. Slots: headers on the wire, slot descriptors and LARM, transmits, receives and slack (R280-R294, R310, R312,
R318-R321), LWAITB and the sequencer's waits (R284-R286). -/
namespace Sys2Proof.Machine

/-! ### The wire (R280) -/

/-- One step of CRC-32C over a bit. -/
def crcBit (c : BitVec 32) : BitVec 32 := if c.getLsbD 0 then (c >>> 1) ^^^ 0x82F63B78 else c >>> 1

/-- CRC-32C of bytes. -/
def crc32c (bs : List Byte) : BitVec 32 :=
  ~~~(bs.foldl (fun c b => (range 0 8).foldl (fun c _ => crcBit c) (c ^^^ b.setWidth 32)) 0xFFFFFFFF)

/-- The ID record that the device sends on a link (R277). -/
def State.idRecord (s : State) (l : Nat) : IdRecord :=
  { fp := if s.loaded then BitVec.ofNat 64 s.fingerprint else 0
    w1 := BitVec.ofNat 64 ((if s.loaded then 2 ^ 62 else 0) + l * 2 ^ 56 + s.fld aBeatCfg 31 16 * 2 ^ 40
      + s.fld aTsize 19 0 * 2 ^ 20 + s.coordWord)
    uid := BitVec.ofNat 64 (s.pair 0x110)
    w3 := 1 }

/-- Bytes 12 to 19 and 20 to 27 of a slot header (R269, R277, R280, R453). The slot-0 header of a beat leaves at the beat's
edge, as in the example of R273 (log entry 28). -/
def State.headerWords (s : State) (l : Nat) (beat : BitVec 48) (slot : Nat) : Nat × Nat :=
  match slot with
  | 0 => (beat.toNat * 1024000, (s.link l).arr.toNat)
  | 1 => ((s.idRecord l).fp.toNat, (s.idRecord l).w1.toNat)
  | 2 => ((s.idRecord l).uid.toNat, (s.idRecord l).w3.toNat)
  | _ =>
    match s.dev.dbg.h, s.dev.dbg.r with
    | some h, none => (h.toNat, 0)
    | some h, some r => (h.toNat, r.toNat)
    | _, _ => (0, 0)

/-- The 32-byte slot header (R280). -/
def State.slotHeader (s : State) (l : Nat) (beat : BitVec 48) (slot nflit stream : Nat) : List Byte :=
  let w := s.headerWords l beat slot
  let b := toBytes 2 0x5A3C ++ toBytes 6 beat.toNat
    ++ [BitVec.ofNat 8 ((if s.locked then 64 else 0) + (if nflit ≠ 0 then 32 else 0) + (if s.dev.dbg.h.isSome then 16 else 0)
          + (if s.dev.stop.active then 8 else 0) + slot),
        BitVec.ofNat 8 nflit, BitVec.ofNat 8 stream, BitVec.ofNat 8 s.hops]
    ++ toBytes 8 w.1 ++ toBytes 8 w.2
  b ++ toBytes 4 (crc32c b).toNat

/-- A flit: its 16-byte header and 256 bytes of payload (R280). -/
def flit (typ : Nat) (stop vc : Bool) (payload : List Byte) : List Byte :=
  let h := [BitVec.ofNat 8 typ, BitVec.ofNat 8 ((if stop then 1 else 0) + (if vc then 2 else 0))] ++ List.replicate 10 0
  h ++ toBytes 4 (crc32c (h ++ payload)).toNat ++ payload

/-- Cut bytes into flits of 256, the last padded with zeros. -/
def flitsOf (bs : List Byte) : List (List Byte) :=
  (groups 256 (bs.length / 256 + 1) bs).filterMap fun g =>
    if g = [] then none else some (g ++ List.replicate (256 - g.length) 0)

/-- A slot leaves: its header and its scheduled flits (R280, R290). Best-effort flits in its other positions leave with their
own command, and idle ones carry nothing (log entry 28). -/
def sendSlot (l : Nat) (beat : BitVec 48) (slot stream : Nat) (payload : List Byte) : Prog :=
  ask fun s =>
    let fs := flitsOf payload
    transmit (s.slotHeader l beat slot fs.length stream ++ fs.flatMap (flit 1 s.dev.stop.active false))

/-! ### Descriptors (R288) -/

def SDesc.beat (d : SDesc) : BitVec 48 := BitVec.ofNat 48 (bits d.lo.toNat 50 3)
def SDesc.slot (d : SDesc) : Nat := bits d.lo.toNat 2 0
def SDesc.key (d : SDesc) : Nat := bits d.lo.toNat 50 0
def SDesc.rx (d : SDesc) : Bool := bitAt d.hi.toNat 63
def SDesc.kind (d : SDesc) : Nat := bits d.hi.toNat 62 60
def SDesc.img (d : SDesc) : Nat := bits d.hi.toNat 59 57
def SDesc.nflit (d : SDesc) : Nat := bits d.hi.toNat 56 51
def SDesc.ten (d : SDesc) : Bool := bitAt d.hi.toNat 50
def SDesc.tcore (d : SDesc) : Nat := bits d.hi.toNat 49 44
def SDesc.tok (d : SDesc) : Nat := bits d.hi.toNat 43 38
def SDesc.stream (d : SDesc) : Nat := bits d.hi.toNat 37 30
/-- Bits hi:lo of RPAR. -/
def SDesc.par (d : SDesc) (hi lo : Nat) : Nat := bits (bits d.hi.toNat 29 0) hi lo

/-- The fields of a descriptor are valid (R288, R310, R319). -/
def SDesc.valid (d : SDesc) (nb : Nat) : Bool :=
  bits d.lo.toNat 63 51 = 0 && decide (1 ≤ d.nflit ∧ d.nflit ≤ 48) &&
    match d.kind with
    | 0 => d.par 29 0 = 0
    | 1 => d.img = 0 && d.nflit = bowFlits nb && (if d.rx then d.par 29 0 = 0 else d.par 19 0 = 0)
    | 2 | 3 =>
      if d.rx then
        let ladd : Bool := d.par 29 29 = 1
        d.par 23 0 = 0 && !(ladd && d.kind = 3) && (ladd || d.par 27 25 = 0)
          && (!((ladd && d.par 28 28 = 1) || d.par 24 24 = 1) || decide (d.nflit ≤ 32))
      else
        let src := d.par 29 28
        d.par 18 0 = 0 && src ≠ 3 && decide (d.par 27 22 ≤ 47) && (src = 2 || (d.par 27 22 = 0 && d.par 21 19 = 0))
          && (src ≠ 1 || decide (d.nflit ≤ 32))
    | _ => false

/-- The descriptor's slot lies where R312 allows its KIND. -/
def State.placed (s : State) (d : SDesc) : Bool :=
  let p := s.fld (ioa 0xD0 0x130) 23 0
  let rel := (d.beat - s.dev.job.start).toNat % p
  match d.kind with
  | 0 => true
  | 1 => decide (s.fld (red 0x100) 23 0 < rel ∧ rel < s.fld (red 0x104) 23 0)
  | _ => decide (s.fld (red 0x104) 23 0 ≤ rel)

/-- Count a descriptor's token (R290, R291). -/
def SDesc.count (d : SDesc) : Prog := onlyIf d.ten (addTok d.tcore d.tok 1)

/-- SLOT_MISS of a descriptor with its F (R290): the link sends no scheduled flit after it. -/
def slotMiss (l : Nat) (d : SDesc) (f : Nat) : Prog :=
  block
    [modLink l fun k => { k with quiet := true },
     report (linkPage l) .slotMiss (l * 2 ^ 24 + d.stream * 2 ^ 16 + min f 0xFFFF) d.key]

/-! ### Sequencer instructions -/

/-- The bits of LARM, LWAITB and BEPUT, and the kind of core (R284). -/
def seqLegal (u : UnitId) (f : S4Q) : Bool := isSeq u.num && f.rsv = 0 && f.sub = 0

/-- Read `n` bytes of the sequencer's data memory at a multiple of `n`, or SEQ_FAULT (R285, R289, R298). -/
def seqRead (u a n : Nat) (k : List Byte → Prog) : Prog :=
  if a % n ≠ 0 ∨ 0x10000 < a + n then seqFault u
  else
    block
      [touch (seqMem (u - 128) a) n,
       ask fun s => if (s.poisonIn (seqMem (u - 128) a) n).isSome then seqFault u else k (s.rd (seqMem (u - 128) a) n)]

/-- LARM after its read (R289, R312). -/
def larmBody (u : Nat) (bs : List Byte) : Prog :=
  ask fun s =>
    let l := u - 128
    let k := s.link l
    let d : SDesc := { lo := BitVec.ofNat 64 (bytesAt bs 0 8), hi := BitVec.ofNat 64 (bytesAt bs 8 8) }
    let last := if d.rx then k.lastRx else k.lastTx
    let q := if d.rx then k.rxq else k.txq
    let late : Bool := match last with | some x => decide (d.key ≤ x) | none => false
    if ¬d.valid s.nb ∨ k.pers ≠ 0 ∨ late ∨ ¬s.placed d then seqFault u
    else if 16 ≤ q.length then .done
    else
      block
        [modLink l fun k => if d.rx then { k with lastRx := some d.key } else { k with lastTx := some d.key },
         (if d.rx then modLink l fun k => { k with rxq := k.rxq ++ [d] }
          else if s.until d.beat (d.slot * slotLen) < 352 then slotMiss l d (k.txi d.img).fill
          else modLink l fun k => { k with txq := k.txq ++ [d] }),
         retire u 4]

/-- LARM (R289). -/
def execLarm (u : UnitId) (f : S4Q) (s : State) : Out :=
  instr u 4 (seqLegal u f)
    (ask fun s => seqRead u.num (s.reg u.num f.rs1.toNat).toNat 16 (larmBody u.num)) s

/-- LWAITB (R284, R454): it waits until the job beat is at least rs1[47:0]. -/
def execLwaitb (u : UnitId) (f : S4Q) (s : State) : Out :=
  instr u 4 (seqLegal u f)
    (ask fun s =>
      let v := bits (s.reg u.num f.rs1.toNat).toNat 47 0
      if v ≤ s.jobBeat.toNat then retire u.num 4
      else modLink (u.num - 128) fun k => { k with lwait := some v }) s

/-- LWAITB_COMPLETE (R284): 1 ac after the edge of job beat `v`. A wait for the last beat count never completes (R286). -/
def execLwaitbComplete (l : Fin 48) (s : State) : Out :=
  perform
    (ask fun s =>
      match (s.link l).lwait with
      | none => .done
      | some v =>
        onlyIf ((s.hart (128 + l)).run ∧ ¬(s.hart (128 + l)).halted ∧ s.reach (BitVec.ofNat 48 v) ∧ v ≠ 0xFFFFFFFFFFFF)
          (block
            [onlyIf (s.jobBeat.toNat ≤ v) (advance ((v - s.jobBeat.toNat) * beatLen + 5 - s.dev.beat.sub)),
             modLink l fun k => { k with lwait := none },
             retire (128 + l) 4])) s

/-- SEQ_WAITTOK_TIMEOUT (R285): a wait of a sequencer has lasted 1,024 bt. -/
def execSeqWaittokTimeout (l : Fin 48) (s : State) : Out :=
  perform
    (ask fun s =>
      match (s.hart (128 + l)).wait with
      | none => .done
      | some w =>
        onlyIf ((s.hart (128 + l)).run ∧ ¬(s.hart (128 + l)).halted ∧ s.tok (128 + l) w.tok < w.need)
          (block [advanceTime (w.since + 1024 * beatLen), seqFault (128 + l)])) s

/-! ### Images (R318) -/

/-- Element `j` of an image: format 0 G16, 1 X64 (bits 39:0), 2 W40. -/
def imgElem (bs : List Byte) (fmt j : Nat) : Int :=
  match fmt with
  | 0 => signedOf 16 (bytesAt bs (2 * j) 2)
  | 1 => signedOf 40 (bytesAt bs (8 * j) 5)
  | _ => signedOf 40 (bytesAt bs (256 * (j / 48) + 5 * (j % 48)) 5)

/-- Pack elements as W40 flits. -/
def packW40 (vs : List Int) : List Byte :=
  (groups 48 (vs.length / 48 + 1) vs).flatMap fun g =>
    if g = [] then []
    else
      let b := g.flatMap fun v => toBytes 5 (unsignedOf 40 v)
      b ++ List.replicate (256 - b.length) 0

/-- Pack elements as X64, sign-extended. -/
def packX64 (vs : List Int) : List Byte := vs.flatMap fun v => toBytes 8 (unsignedOf 64 v)

/-- Bytes of an image's element format. -/
def elemBytes (fmt : Nat) : Nat := if fmt = 0 then 2 else 8

/-! ### Transmits -/

/-- A transmit that is ready: its payload, where it reads, and the transmit image that it sends. -/
structure TxReady where
  payload : List Byte
  place : Nat
  size : Nat
  img : Option Nat
  deriving DecidableEq, Repr

/-- The readiness check of a transmit at its slot start (R290, R310, R320): the transmit, or F. -/
def State.txReady (s : State) (l : Nat) (d : SDesc) : Except Nat TxReady :=
  let k := s.link l
  let up : Bool := k.st = 3
  let im := k.txi d.img
  let at0 := txAddr l (d.img * 0x3000)
  match d.kind with
  | 0 =>
    let n := d.nflit * 256
    if up && !im.sending && im.fill = n then .ok { payload := s.rd at0 n, place := at0, size := n, img := some d.img }
    else .error im.fill
  | 1 =>
    match s.dev.job.bow with
    | some a =>
      if up && decide (d.par 29 20 ≤ s.fld aBowres 19 10) then
        .ok { payload := s.bowBytes a, place := 0, size := 0, img := none }
      else .error (s.fld aBowres 19 10)
    | none => .error (s.fld aBowres 19 10)
  | _ =>
    let n := d.nflit * 48
    let src := d.par 29 28
    if src = 2 then
      let r := (s.link (d.par 27 22)).rxi (d.par 21 19)
      let at1 := rxAddr (d.par 27 22) (d.par 21 19 * 0x3000)
      if up && r.st = 2 && decide (2 ≤ r.kind) && r.nflit = d.nflit then
        let bs := s.rd at1 r.len
        .ok { payload := packW40 ((range 0 n).map (imgElem bs (if r.x64 then 1 else 2))), place := at1, size := r.len,
              img := none }
      else .error 0
    else
      let m := n * elemBytes src
      if up && !im.sending && im.fill = m then
        let bs := s.rd at0 m
        .ok { payload := packW40 ((range 0 n).map (imgElem bs src)), place := at0, size := m, img := some d.img }
      else .error im.fill

/-- The slack of a transmit (R294): ns from the image's last fill to the slot start. -/
def slackOf (l : Nat) (d : SDesc) (img : Nat) : Prog :=
  ask fun s =>
    let ns := min ((s.dev.beat.time - ((s.link l).txi img).fillAt) * 2 / 11) 0xFFFF
    modLink l fun k =>
      { k with
        sentData := true
        slack := Tab.insert d.stream (min ns (Tab.get (fun _ => 0xFFFF) k.slack d.stream)) k.slack
        minStream := if ns < k.minSlack then d.stream else k.minStream
        minSlack := min ns k.minSlack }

/-- A ready transmit: the flits leave, then the image becomes OPEN with fill 0 and the token is counted (R290). -/
def sendReady (l : Nat) (d : SDesc) (t : TxReady) : Prog :=
  block
    [onlyIf (t.size ≠ 0) (touch t.place t.size),
     ask fun s =>
       if t.size ≠ 0 ∧ (s.poisonIn t.place t.size).isSome then
         block [modLink l fun k => { k with quiet := true }, report (linkPage l) .poisonConsumed 0 d.key]
       else
         block
           [(match t.img with
             | some i => block [modTx l i fun x => { x with sending := true }, slackOf l d i]
             | none => .done),
            sendSlot l (d.beat + s.hoff) d.slot d.stream t.payload,
            (match t.img with
             | some i => modTx l i fun x => { x with sending := false, fill := 0 }
             | none => .done),
            d.count]]

/-- The number of the slot that starts next on a link, counted from local beat 0 (R264): the one at whose edge the clock
stands, unless it has started there, else the one after. -/
def State.nextSlot (s : State) (l : Nat) : Nat :=
  let now := s.beat.toNat * 8 + s.dev.beat.sub / slotLen
  if s.dev.beat.sub % slotLen = 0 ∧ (s.link l).lastSlot ≠ some now then now else now + 1

/-- The local beat and slot of a descriptor, as a slot number (R454). -/
def SDesc.at (d : SDesc) (s : State) : Nat := (d.beat + s.hoff).toNat * 8 + d.slot

/-- A slot without scheduled flits leaves (R280, R290). -/
def emptySlot (l n : Nat) : Prog :=
  ask fun s =>
    onlyIf ((s.link l).pers = 0 ∧ 2 ≤ s.lstate l ∧ s.lstate l ≤ 5 ∧ s.devState ≠ 6)
      (sendSlot l (BitVec.ofNat 48 (n / 8)) (n % 8) 0 [])

/-- The transmit that heads the queue has its slot now: it is checked, and its flits or the empty slot leave (R290). -/
def headSlot (l n : Nat) (d : SDesc) : Prog :=
  block
    [modLink l fun k => { k with txq := k.txq.drop 1 },
     ask fun s =>
       if (s.link l).quiet then emptySlot l n
       else
         match s.txReady l d with
         | .ok t => sendReady l d t
         | .error f => block [slotMiss l d f, emptySlot l n]]

/-- SLOT_START (R290, R310, R320): the next slot of the link starts. Data is never sent late: a head whose slot has passed
is missed (log entry 28). -/
def execSlotStart (l : Fin 48) (s : State) : Out :=
  perform
    (ask fun s =>
      let n := s.nextSlot l
      block
        [advance ((n - s.beat.toNat * 8) * slotLen - s.dev.beat.sub),
         modLink l fun k => { k with lastSlot := some n },
         ask fun s =>
           match s.dev.dbg.frozen, (s.link l).txq with
           | false, d :: _ =>
             if d.at s = n then headSlot l n d
             else if d.at s < n then
               block
                 [modLink l fun k => { k with txq := k.txq.drop 1 },
                  onlyIf ((s.link l).quiet = false) (slotMiss l d ((s.link l).txi d.img).fill),
                  emptySlot l n]
             else emptySlot l n
           | _, _ => emptySlot l n]) s

/-! ### Receives -/

/-- An error of the receive queue (R291). -/
def slotErr (l : Nat) (e : ErrCode) (stream n key : Nat) : Prog :=
  report (linkPage l) e (l * 2 ^ 24 + stream * 2 ^ 16 + n) key

/-- The head of the receive queue is consumed. -/
def popRx (l : Nat) : Prog := modLink l fun k => { k with rxq := k.rxq.drop 1 }

/-- The transmit image that a receive with LADD adds is ready (R321); `none` when the receive adds none. -/
def State.laddOk (s : State) (l : Nat) (d : SDesc) : Option Bool :=
  if 2 ≤ d.kind ∧ d.par 29 29 = 1 then
    let im := (s.link l).txi (d.par 27 25)
    some (!im.sending && im.fill = d.nflit * 48 * elemBytes (d.par 28 28))
  else none

/-- The head's slot header arrives: its image becomes EMPTY, and its previous contents are lost (R291). -/
def emptyImage (l : Nat) (d : SDesc) : Prog :=
  onlyIf (d.kind ≠ 1) (block [clearAt (rxAddr l (d.img * 0x3000)) 0x3000, modRx l d.img fun _ => {}])

/-- A header that matches the head (R291, R321): its image empties and fills. -/
def beginReceive (l : Nat) (d : SDesc) : Prog :=
  ask fun s =>
    if s.laddOk l d = some false then slotMiss l d ((s.link l).txi (d.par 27 25)).fill
    else
      block
        [emptyImage l d,
         onlyIf (d.kind ≠ 1) (modRx l d.img fun _ => { st := 1, nflit := d.nflit, kind := d.kind }),
         modLink l fun k => { k with cur := some d }]

/-- Match a scheduled header against the receive queue, `fuel` heads at most (R291). A head whose slot lies before the
header's has passed without flits. -/
def matchHeader (l : Nat) (key nflit : Nat) : Nat → Prog
  | 0 => .done
  | fuel + 1 =>
    ask fun s =>
      match (s.link l).rxq with
      | [] => slotErr l .slotUnexpected 0 nflit key
      | d :: _ =>
        if key < d.key then slotErr l .slotUnexpected d.stream nflit key
        else if d.key < key then
          block [popRx l, slotErr l .slotEmpty d.stream 0 d.key, matchHeader l key nflit fuel]
        else if nflit ≠ d.nflit then block [popRx l, emptyImage l d, slotErr l .slotEmpty d.stream nflit d.key]
        else block [popRx l, beginReceive l d]

/-- SLOT_HEADER_RECEIVED (R291): a header with SCHED = 1 on a link in UP. -/
def execSlotHeaderReceived (l : Fin 48) (h : SlotHdr) (s : State) : Out :=
  perform
    (ask fun s =>
      onlyIf ((s.link l).pers = 0 ∧ s.lstate l = 3 ∧ s.devState ≠ 6)
        (matchHeader l ((h.beat - s.hoff).toNat * 8 + h.slot.toNat) h.nflit.toNat ((s.link l).rxq.length + 1))) s

/-- All flits of the receive in progress have arrived, when it is of one of the kinds `ks`: `k` completes it. Fewer flits
leave the slot incomplete (R291). -/
def completeReceive (l : Nat) (ks : List Nat) (payload : List Byte) (k : SDesc → Prog) : Prog :=
  ask fun s =>
    match (s.link l).cur with
    | none => .done
    | some d =>
      onlyIf (ks.contains d.kind)
        (block
          [modLink l fun x => { x with cur := none },
           if payload.length = d.nflit * 256 then k d else slotErr l .slotEmpty d.stream (payload.length / 256) d.key])

/-- SLOT_RECEIVE_COMPLETE (R291): a DATA receive fills its image. -/
def execSlotReceiveComplete (l : Fin 48) (payload : List Byte) (s : State) : Out :=
  perform
    (completeReceive l [0] payload fun d =>
      block
        [writeAt (rxAddr l (d.img * 0x3000)) payload,
         modRx l d.img fun x => { x with st := 2, len := d.nflit * 256, x64 := false },
         d.count]) s

/-- The accumulator takes the record (R311). -/
def bowOk (a : Option Bow) (bs : List Byte) : Bool :=
  match a with
  | some a => !bowBad a.nb bs
  | none => true

/-- BOW_RECEIVE (R310, R311): a BOW receive combines its record into the accumulator. -/
def execBowReceive (l : Fin 48) (payload : List Byte) (s : State) : Out :=
  perform
    (completeReceive l [1] payload fun d =>
      ask fun s =>
        block
          [bowReceive payload,
           onlyIf (bowOk s.dev.job.bow payload) d.count]) s

/-- The sums of a REEL or PROMENADE receive (R321). -/
def State.reelSum (s : State) (l : Nat) (d : SDesc) (payload : List Byte) : List Int :=
  let n := d.nflit * 48
  let fmt := d.par 28 28
  let loc := s.rd (txAddr l (d.par 27 25 * 0x3000)) (n * elemBytes fmt)
  (range 0 n).map fun j =>
    let x := imgElem payload 2 j
    if d.par 29 29 = 1 then signedOf 40 (unsignedOf 40 (x + imgElem loc fmt j)) else x

/-- REEL_RECEIVE (R318, R321): the elements, with the local image added under LADD, go to the receive image. A local image
that is poisoned is consumed (R424). -/
def execReelReceive (l : Fin 48) (payload : List Byte) (s : State) : Out :=
  perform
    (completeReceive l [2, 3] payload fun d =>
      let lo := txAddr l (d.par 27 25 * 0x3000)
      let n := d.nflit * 48 * elemBytes (d.par 28 28)
      block
        [onlyIf (d.par 29 29 = 1) (touch lo n),
         ask fun s =>
           if d.par 29 29 = 1 ∧ (s.poisonIn lo n).isSome then report (linkPage l) .poisonConsumed 0 d.key
           else
             let x64 : Bool := d.par 24 24 = 1
             let vs := s.reelSum l d payload
             block
               [onlyIf (d.par 29 29 = 1) (modTx l (d.par 27 25) fun x => { x with fill := 0 }),
                writeAt (rxAddr l (d.img * 0x3000)) (if x64 then packX64 vs else packW40 vs),
                modRx l d.img fun x => { x with st := 2, len := d.nflit * (if x64 then 384 else 256), x64 := x64 },
                d.count]]) s

/-- RECEIVE_SLOT_PASSES (R291): the head's slot passes without scheduled flits. -/
def execReceiveSlotPasses (l : Fin 48) (s : State) : Out :=
  perform
    (ask fun s =>
      match (s.link l).rxq with
      | [] => .done
      | d :: _ =>
        onlyIf (s.reach d.beat)
          (block
            [advanceSlot d.beat ((d.slot + 1) * slotLen),
             popRx l,
             slotErr l .slotEmpty d.stream 0 d.key])) s

/-! ### Job start, job end and STOP -/

/-- The sequencer and link buffers at job start (R286, R287, R294). -/
def seqJobStart (l : Nat) : Prog :=
  ask fun s =>
    block
      [(Eff.regClear ((128 + l) * 32) 32).prog,
       (Eff.tokClear ((128 + l) * 64) 64).prog,
       modHart (128 + l) fun h =>
         { h with
           pc := BitVec.ofNat 18 (s.fld (ioa (linkPage l) 0x114) 12 0)
           ls := [], le := [], lc := [], ld := 0, lbase := 0
           shadows := [], wait := none, run := true, rels := [], halted := false, haltReq := none, stepping := none },
       modLink l fun k =>
         { k with
           txq := [], rxq := [], lastTx := none, lastRx := none, tx := [], rx := [], cur := none, quiet := false
           slack := [], minSlack := 0xFFFF, minStream := 0, sentData := false
           hops := [], beOut := [], lwait := none }]

/-- The LINK_SLACK record of a link that sent a DATA slot (R294). -/
def slackRecord (l : Nat) : Prog :=
  ask fun s =>
    let k := s.link l
    onlyIf k.sentData
      (block
        [modLink l fun k => { k with sentData := false },
         offer { page := linkPage l, code := 0x81, sev := 0,
                 payload := toBytes 8 l ++ (range 0 256).flatMap fun i =>
                   toBytes 2 (Tab.get (fun _ => 0xFFFF) k.slack i) }])

/-- A link and its sequencer at STOP and at job end (R234, R283, R294). -/
def seqStop (l : Nat) : Prog :=
  block
    [modHart (128 + l) fun h => { h with run := false, wait := none },
     modLink l fun k => { k with txq := [], rxq := [], cur := none, hops := [], beOut := [], lwait := none },
     slackRecord l]

end Sys2Proof.Machine
end

