-- ==== Sys2Proof/Machine/BestEffort.lean ====
section
/-! DEFINITION. Best-effort traffic: BEPUT, routing, forwarding, delivery and acknowledgement (R295-R298). -/
namespace Sys2Proof.Machine

/-! ### Routing (R296, R297) -/

/-- The dimension in which a packet to `dest` moves next: X, then Y, then Z. -/
def State.beDim (s : State) (dest : Nat) : Option Nat := (range 0 3).find? fun d => dimBits d dest ≠ s.coord d

/-- It moves in the + direction of dimension `d`. -/
def State.bePlus (s : State) (d dest : Nat) : Bool :=
  let x := distance true (s.coord d) (dimBits d dest) (s.size d)
  decide (x ≤ s.size d - x)

/-- The sum of the three source and the three destination coordinates. -/
def coordSum (src dest : Nat) : Nat :=
  (range 0 3).foldl (fun a d => a + dimBits d src + dimBits d dest) 0

/-- The link that a packet takes: link j of the group, else the first UP link after it. -/
def State.beLink (s : State) (d : Nat) (plus : Bool) (src dest : Nat) : Option Nat :=
  let g := 2 * d + if plus then 0 else 1
  let j := coordSum src dest % 8
  ((range 0 8).map fun i => 8 * g + (j + i) % 8).find? fun l => (s.link l).pers = 0 && s.lstate l = 3

/-- The packet is on VC1: it has crossed the dateline of dimension `d`, or its next hop crosses it (R297). -/
def State.beVc (s : State) (d : Nat) (plus : Bool) (src : Nat) : Bool :=
  let c := s.coord d
  let x := dimBits d src
  if plus then decide (c < x) || c = s.size d - 1 else decide (x < c) || c = 0

/-- Put a packet at its output link, or BE_UNREACHABLE on the page of the link that it would take (R296). -/
def bePlace (p : BePacket) : Prog :=
  ask fun s =>
    match s.beDim p.dest.toNat with
    | none => .done
    | some d =>
      let plus := s.bePlus d p.dest.toNat
      match s.beLink d plus p.src.toNat p.dest.toNat with
      | none =>
        report (linkPage (8 * (2 * d + if plus then 0 else 1) + coordSum p.src.toNat p.dest.toNat % 8))
          .beUnreachable 0 p.daddr.toNat
      | some l => modLink l fun k => { k with hops := k.hops ++ [{ vc := s.beVc d plus p.src.toNat, pkt := p }] }

/-! ### BEPUT (R298) -/

/-- A valid request; `own` is the own coordinate. -/
def beValid (bs : List Byte) (s : State) : Bool :=
  let w2 := bytesAt bs 16 8
  let dest := bits w2 43 24
  bytesAt bs 0 8 % 16 = 0 && bytesAt bs 8 8 % 16 = 0 && bits w2 63 44 = 0 && bits w2 18 13 = 0
    && decide (16 ≤ bits w2 12 0 ∧ bits w2 12 0 ≤ 4096) && bits w2 12 0 % 16 = 0 && bytesAt bs 24 8 = 0
    && dest ≠ s.coordWord && (range 0 3).all fun d => decide (dimBits d dest < s.size d)

/-- BEPUT after its read: the request's checks, the source, and the packet (R298). -/
def beputBody (u : Nat) (bs : List Byte) : Prog :=
  ask fun s =>
    let l := u - 128
    let w2 := bytesAt bs 16 8
    let n := bits w2 12 0
    if ¬beValid bs s then seqFault u
    else if 64 ≤ (s.link l).beOut.length then .done
    else
      match s.figRange (bytesAt bs 8 8) n true false with
      | .error _ => seqFault u
      | .ok ps =>
        if ps.any fun (_, pa, m) => (s.poisonIn pa m).isSome then
          block [forEach ps fun (_, pa, m) => touch pa m, seqFault u]
        else
          let no := (s.link l).beSeq
          let p : BePacket :=
            { daddr := BitVec.ofNat 64 (bytesAt bs 0 8), src := BitVec.ofNat 20 s.coordWord,
              dest := BitVec.ofNat 20 (bits w2 43 24), seqNo := no, inject := s.beat,
              data := ps.flatMap fun (_, pa, m) => s.rd pa m }
          block
            [forEach ps fun (_, pa, m) => block [bankRange (linkPage l) none pa m, touch pa m],
             modLink l fun k =>
               { k with
                 beSeq := no + 1
                 beOut := k.beOut ++ [{ seqNo := no, dest := p.dest, ten := bitAt w2 19, tok := bits w2 23 20 }] },
             bePlace p,
             retire u 4]

/-- BEPUT (R298). -/
def execBeput (u : UnitId) (f : S4Q) (s : State) : Out :=
  instr u 4 (seqLegal u f)
    (ask fun s => seqRead u.num (s.reg u.num f.rs1.toNat).toNat 32 (beputBody u.num)) s

/-! ### Forwarding, delivery, acknowledgement -/

/-- The service order of R297: injection beat, source coordinate, sequence number. -/
def beBefore (a b : BePacket) : Bool :=
  decide (a.inject.toNat < b.inject.toNat) ||
    (a.inject = b.inject && (decide (a.src.toNat < b.src.toNat) ||
      (a.src = b.src && decide (a.seqNo < b.seqNo))))

/-- The packet that a channel serves next. -/
def beFirst (vc : Bool) (hs : List BeHop) : Option BeHop :=
  (hs.filter fun h => h.vc = vc).foldl (fun best h =>
    match best with
    | none => some h
    | some b => if beBefore h.pkt b.pkt then some h else some b) none

/-- The flits of a packet on the wire: a head and its body (R280, R298); the head's payload is the packet's fields. -/
def beFlits (stop vc : Bool) (p : BePacket) : List Byte :=
  let head := toBytes 8 p.daddr.toNat ++ toBytes 4 p.src.toNat ++ toBytes 4 p.dest.toNat ++ toBytes 8 p.seqNo
    ++ toBytes 8 p.inject.toNat ++ toBytes 4 p.data.length
  flit 2 stop vc (head ++ List.replicate (256 - head.length) 0) ++ (flitsOf p.data).flatMap (flit 3 stop vc)

/-- BE_PACKET_FORWARD (R295, R297): the next hop has room for the packet that the channel serves next; a link that is not
UP sends it by another (R296). -/
def execBePacketForward (l : Fin 48) (vc : Bool) (s : State) : Out :=
  perform
    (ask fun s =>
      match beFirst vc (s.link l).hops with
      | none => .done
      | some h =>
        block
          [modLink l fun k => { k with hops := k.hops.erase h },
           if (s.link l).pers = 0 ∧ s.lstate l = 3 then transmit (beFlits s.dev.stop.active vc h.pkt) else bePlace h.pkt]) s

/-- The write of a packet at its destination, and its acknowledgement once it is visible (R298). -/
def beWrite (l : Nat) (p : BePacket) : Prog :=
  ask fun s =>
    match s.figRange p.daddr.toNat p.data.length false true with
    | .error (a, _) => report (linkPage l) .beRemoteFault 0 a
    | .ok ps =>
      block
        [forEach ps fun (_, pa, n) => forEach (pieces n pa n) fun x => bankReq (linkPage l) x.1 true,
         guardD (.seq l) p.daddr.toNat p.data.length
           (forEach ps fun (va, pa, n) => writeAt pa ((p.data.drop (va - p.daddr.toNat)).take n)),
         transmit (toBytes 8 p.seqNo)]

/-- BE_PACKET_DELIVERY (R297, R298): a packet arrives on a link in UP; it is written here, or goes on towards its
destination. After STOP packets are abandoned (R283). -/
def execBePacketDelivery (l : Fin 48) (p : BePacket) (s : State) : Out :=
  perform
    (ask fun s =>
      onlyIf ((s.link l).pers = 0 ∧ s.lstate l = 3 ∧ s.dev.stop.active = false)
        (if p.dest.toNat = s.coordWord then beWrite l p else bePlace p)) s

/-- BE_ACKNOWLEDGEMENT (R298): the request of the link's sequencer with that sequence number is acknowledged. -/
def execBeAcknowledgement (a : BeAck) (s : State) : Out :=
  perform
    (ask fun s =>
      match (s.link a.link).beOut.find? fun r => r.seqNo = a.seqNo with
      | none => .done
      | some r =>
        block
          [modLink a.link fun k => { k with beOut := k.beOut.erase r },
           onlyIf r.ten (addTok (128 + a.link) r.tok 1)]) s

end Sys2Proof.Machine
end

