-- ==== Sys2Proof/Machine/Bridges.lean ====
section
/-! DEFINITION. Bridges to Rhoeb pods: frames, windows, scan, conversion, return and STOP (R323-R329). -/
namespace Sys2Proof.Machine

/-- Register `o` of bridge `n` (R332). -/
abbrev brReg (n o : Nat) : Nat := red (0x200 + 0x40 * n + o)

/-- LINK, B0 and BSH of BRCFG, and BRCOUNT (R332). -/
def State.brLink (s : State) (n : Nat) : Nat := s.fld (brReg n 0) 28 23
def State.brB0 (s : State) (n : Nat) : Nat := s.fld (brReg n 0) 22 10
def State.brSh (s : State) (n : Nat) : Nat := s.fld (brReg n 0) 9 5
def State.brCount (s : State) (n : Nat) : Nat := (s.ioVal (brReg n 0xC)).toNat

/-- The bucket of element `i` (R326). -/
def State.brBucket (s : State) (n i : Nat) : Nat := s.brB0 n + i / 2 ^ s.brSh n

/-- Bridge `n` carries frames: enabled, its link UP (R323, R332). -/
def State.brUp (s : State) (n : Nat) : Bool := s.brOn n && s.lstate (s.brLink n) = 3

/-- Bridge `n` is at work: it carries frames, in a job. -/
def State.brLive (s : State) (n : Nat) : Bool := s.job && s.brUp n

/-! ### Frames (R323) -/

/-- The bytes of a frame: the header, its CRC-32C and the payload. -/
def frameBytes (typ gen step offset credits outc : Nat) (payload : List Byte) : List Byte :=
  let h := toBytes 1 typ ++ toBytes 1 gen ++ toBytes 2 payload.length ++ toBytes 4 step ++ toBytes 8 offset
    ++ toBytes 4 0x3F800000 ++ toBytes 4 credits ++ toBytes 1 outc ++ toBytes 3 0
  h ++ toBytes 4 (crc32c (h ++ payload)).toNat ++ payload

/-- Send a frame; it is kept for a repeat after NAK, newest first. -/
def sendFrame (n typ step offset credits outc : Nat) (payload : List Byte) : Prog :=
  ask fun s =>
    let b := frameBytes typ (s.brGen n) step offset credits outc payload
    block [transmit b, modBridge n fun x => { x with sent := b :: x.sent }]

/-- The sent frame that a NAK answers (R323): the latest with its STEP and OFFSET, else the latest (log entry 29). -/
def Bridge.naked (b : Bridge) (fr : BridgeFrame) : List Byte :=
  let key := toBytes 4 fr.step.toNat ++ toBytes 8 fr.offset.toNat
  (b.sent.find? fun x => (x.drop 4).take 12 = key).getD (b.sent.headD [])

/-- The common checks of a received frame of type `typ` (R323): a reserved TYPE, or another GEN than the link's
personality, raises BRIDGE_FORMAT. -/
def onFrame (n typ : Nat) (fr : BridgeFrame) (k : Prog) : Prog :=
  ask fun s =>
    onlyIf (s.brUp n)
      (if fr.typ.toNat = 0 ∨ 5 < fr.typ.toNat ∨ fr.gen.toNat ≠ (s.link (s.brLink n)).pers then
         report 0xC8 .bridgeFormat 0 0
       else onlyIf (fr.typ.toNat = typ) k)

/-- BRIDGE_FRAME_CRC_FAIL (R323): the frame is discarded and answered with NAK, in a job or not. -/
def execBridgeFrameCrcFail (n : Fin 8) (s : State) : Out :=
  perform
    (ask fun s =>
      onlyIf (s.brUp n) (block [transmit (frameBytes 4 (s.brGen n) 0 0 0 0 []), report 0xC8 .bridgeRetry 0 0])) s

/-- BRIDGE_NAK_FRAME (R323): the frame is repeated. -/
def execBridgeNakFrame (n : Fin 8) (fr : BridgeFrame) (s : State) : Out :=
  perform
    (onFrame n 4 fr <| ask fun s => block [transmit ((s.bridge n).naked fr), report 0xC8 .bridgeRetry 0 0]) s

/-! ### The window (R324, R325) -/

/-- BRIDGE_WINDOW_OPEN (R324): at the edge of the window's first beat the bridge grants 64 credits, once in a step. -/
def execBridgeWindowOpen (n : Fin 8) (s : State) : Out :=
  perform
    (ask fun s =>
      onlyIf (s.brLive n ∧ s.edgeDue 0 (s.fld (brReg n 4) 23 0) ∧ (s.bridge n).closed ∧ ¬(s.bridge n).ended)
        (block
          [advanceSlot (s.stepBeat (s.fld (brReg n 4) 23 0)) 0,
           modBridge n fun b => { b with closed := false, credit := 64 },
           sendFrame n 3 0 0 64 0 []])) s

/-- Two byte ranges share a byte. -/
def overlaps (a m b n : Nat) : Bool := decide (max a b < min (a + m) (b + n))

/-- The bytes that have arrived. -/
def Bridge.have (b : Bridge) : Nat := b.got.foldl (fun a g => a + g.2) 0

/-- A frame that R324 or R325 refuses. -/
def State.frameRefused (s : State) (n : Nat) (fr : BridgeFrame) : Bool :=
  let b := s.bridge n
  let o := fr.offset.toNat
  let m := fr.payload.length
  b.closed || b.credit = 0 || fr.len.toNat ≠ m || m % 2 ≠ 0 || decide (4096 < m) || o % 2 ≠ 0
    || decide (2 * s.brCount n < o + m) || b.got.any fun g => overlaps o m g.1 g.2

/-- A good DATA frame: its bytes, the bookkeeping, and the credit once they are visible (R324, R326). -/
def takeFrame (n : Nat) (fr : BridgeFrame) : Prog :=
  ask fun s =>
    let va := s.redAddr (0x210 + 0x40 * n) + fr.offset.toNat
    let m := fr.payload.length
    match s.figRange va m false true with
    | .error (a, _) => report 0xC8 .bridgeFormat 0 a
    | .ok ps =>
      let st := fr.step.toNat
      block
        [forEach ps fun (_, pa, k) => forEach (pieces k pa k) fun x => bankReq (linkPage (s.brLink n)) x.1 true,
         guardD (.seq (s.brLink n)) va m (forEach ps fun (x, pa, k) => writeAt pa ((fr.payload.drop (x - va)).take k)),
         modBridge n fun b =>
           { b with
             got := b.got ++ [(fr.offset.toNat, m)]
             scales := b.scales ++ [(fr.offset.toNat, m, fr.scale)]
             steps := match b.steps with
               | none => some (st, st, st)
               | some (first, lo, hi) => some (first, min lo st, max hi st) },
         ask fun s => onlyIf ((s.bridge n).have = 2 * s.brCount n) (setFld (brReg n 0x34) 31 31 1),
         sendFrame n 3 0 0 1 0 []]

/-- BRIDGE_DATA_FRAME (R324, R329): after STOP it is discarded. -/
def execBridgeDataFrame (n : Fin 8) (fr : BridgeFrame) (s : State) : Out :=
  perform
    (onFrame n 1 fr <| ask fun s =>
      onlyIf (s.job ∧ ¬s.dev.stop.active)
        (if s.frameRefused n fr then report 0xC8 .bridgeFormat 0 fr.offset.toNat else takeFrame n fr)) s

/-- BRIDGE_WINDOW_END (R325, R326): at BRW1 the result must be complete; credit is withheld and the scan begins. -/
def execBridgeWindowEnd (n : Fin 8) (s : State) : Out :=
  perform
    (ask fun s =>
      onlyIf (s.job ∧ s.brOn n ∧ s.edgeDue 0 (s.fld (brReg n 8) 23 0) ∧ ¬(s.bridge n).ended)
        (block
          [advanceSlot (s.stepBeat (s.fld (brReg n 8) 23 0)) 0,
           modBridge n fun b => { b with ended := true, closed := true, credit := 0, scanning := b.have = 2 * s.brCount n },
           onlyIf ((s.bridge n).have ≠ 2 * s.brCount n) (report 0xC8 .bridgeWindow 0 0)])) s

/-! ### Elements (R327) -/

/-- The scale of the frame that covers byte `o`. -/
def Bridge.scaleAt (b : Bridge) (o : Nat) : Nat :=
  match b.scales.find? fun x => x.1 ≤ o && decide (o < x.1 + x.2.1) with
  | some x => x.2.2.toNat
  | none => 0x3F800000

/-- An FP16 code (IEEE 754 binary16). -/
def decodeFp16 (c : Nat) : Num :=
  let (s, e, m, v) := decodeFloat 10 5 (-14) c
  if e = 31 then (if m = 0 then .inf s else .nan) else v

/-- The exact value of an element (R327): a product with an infinite or NaN factor is not finite. -/
def brValue (gen code scale : Nat) : Num :=
  if gen = 1 then decodeFmt .bf16 code
  else
    match decodeFp16 code, decodeFmt .fp32 scale with
    | .fin s m e, .fin t k f => .fin (s != t) (m * k) (e + f)
    | _, _ => .nan

/-- The values of the pod's result, from its bytes. -/
def State.brValues (s : State) (n : Nat) (bs : List Byte) : List Num :=
  (range 0 (s.brCount n)).map fun i => brValue (s.brGen n) (bytesAt bs (2 * i) 2) ((s.bridge n).scaleAt (2 * i))

/-- floor(log2 |x|) of a nonzero finite number (R307). -/
def topOf : Num → Option Int
  | .fin _ m e => if m = 0 then none else some (Nat.log2 m + e)
  | _ => none

/-- local_exponent of R307. -/
def localExponent (vs : List Num) : Int :=
  match vs.filterMap topOf with
  | [] => -128
  | t :: ts => min (max (ts.foldl max t) (-127)) 127

/-- The pod exponent of each bucket that the result touches (R326). -/
def State.podExps (s : State) (n : Nat) (vs : List Num) : Tab Int :=
  let last := s.brCount n - 1
  (range 0 (last / 2 ^ s.brSh n + 1)).map fun k =>
    (s.brB0 n + k, localExponent ((vs.drop (k * 2 ^ s.brSh n)).take (2 ^ s.brSh n)))

/-- Read the pod's result and go on with its bytes; a poisoned byte is consumed (R178). -/
def readResult (n va len : Nat) (k : List Byte → Prog) : Prog :=
  ask fun s =>
    match s.figRange va len true false with
    | .error (_, .poison a) => report 0xC8 .poisonConsumed 0 a
    | .error (a, _) => report 0xC8 .bridgeFormat 0 a
    | .ok ps =>
      block
        [forEach ps fun (_, pa, m) => block [bankRange (linkPage (s.brLink n)) none pa m, touch pa m],
         if ps.any fun (_, pa, m) => (s.poisonIn pa m).isSome then report 0xC8 .poisonConsumed 0 va
         else k (ps.flatMap fun (_, pa, m) => s.rd pa m)]

/-- BRIDGE_SCAN_DONE (R326): the pod exponents, BRSTEPn and the pod's NF. -/
def execBridgeScanDone (n : Fin 8) (s : State) : Out :=
  perform
    (ask fun s =>
      onlyIf ((s.bridge n).scanning ∧ s.dev.stop.active = false)
        (block
          [modBridge n fun b => { b with scanning := false },
           readResult n (s.redAddr (0x210 + 0x40 * n)) (2 * s.brCount n) fun bs => ask fun s =>
             let vs := s.brValues n bs
             block
               [modBridge n fun b => { b with exps := s.podExps n vs },
                ioSet (brReg n 0x38) (BitVec.ofNat 32 (match (s.bridge n).steps with | some (first, _, _) => first | none => 0)),
                setFld (brReg n 0x34) 30 29 (if vs.all Num.isFin then 1 else 3)]])) s

/-- BRIDGE_CONVERSION (R327): every element as GG16 at its bucket's agreed exponent. -/
def execBridgeConversion (n : Fin 8) (s : State) : Out :=
  perform
    (ask fun s =>
      onlyIf ((s.bridge n).converting ∧ s.dev.stop.active = false)
        (block
          [modBridge n fun b => { b with converting := false },
           readResult n (s.redAddr (0x210 + 0x40 * n)) (2 * s.brCount n) fun bs => ask fun s =>
             let qs := (s.brValues n bs).zipIdx.map fun (v, i) => gg16 v (s.dev.job.agreed.getD (s.brBucket n i) (-128))
             let out := qs.flatMap fun q => toBytes 2 q.1
             let va := s.redAddr (0x218 + 0x40 * n)
             match s.figRange va out.length false true with
             | .error (x, _) => report 0xC8 .bridgeFormat 0 x
             | .ok ps =>
               block
                 [guardD (.seq (s.brLink n)) va out.length
                    (forEach ps fun (x, pa, m) => writeAt pa ((out.drop (x - va)).take m)),
                  satAdd (brReg n 0x3C) 31 0 (qs.filter fun q => q.2.1).length,
                  setFld (brReg n 0x34) 28 28 1,
                  onlyIf (s.fld (brReg n 0x20) 31 31 = 1)
                    (addTok (s.fld (brReg n 0x20) 13 8) (s.fld (brReg n 0x20) 5 0) 1)]])) s

/-! ### The return (R328) -/

/-- FP16 as a result format (R328). -/
def pFp16 : FParam := { mb := 10, eb := 5, emin := -14, maxM := 2047, maxE := 5, sat := false,
                        infCode := 0x7C00, nanCode := 0x7E00 }

/-- Bytes of the return on the wire. -/
def State.retLen (s : State) (n : Nat) : Nat :=
  let b := (s.ioVal (brReg n 0x28)).toNat
  if s.brGen n = 2 then b / 2 else b

/-- The wire bytes of a return from the bytes read: BF16 verbatim, or FP32 as FP16 (R328). -/
def retBytes (gen : Nat) (bs : List Byte) : List Byte :=
  if gen = 2 then
    (range 0 (bs.length / 4)).flatMap fun i => toBytes 2 (roundTo pFp16 (decodeFmt .fp32 (bytesAt bs (4 * i) 4))).1
  else bs

/-- Send return frames while the pod's credits last; `fuel` bounds their number. -/
def returnFrames (n : Nat) : Nat → Prog
  | 0 => .done
  | fuel + 1 =>
    ask fun s =>
      match (s.bridge n).ret with
      | none => .done
      | some o =>
        let m := min 4096 (s.retLen n - o)
        let k := if s.brGen n = 2 then 2 else 1
        onlyIf (m ≠ 0 ∧ (s.bridge n).grant ≠ 0 ∧ s.dev.stop.active = false)
          (readResult n (s.redAddr (0x22C + 0x40 * n) + k * o) (k * m) fun bs => ask fun s =>
            block
              [sendFrame n 1 (s.ioVal (ioa 0xD0 0x100)).toNat o 0 (s.fld aBowres 31 30) (retBytes (s.brGen n) bs),
               modBridge n fun b => { b with ret := some (o + m), grant := b.grant - 1 },
               returnFrames n fuel])

/-- BRIDGE_RETURN_START (R328): from BRRW the bridge returns its area to the pod; not under STOP. -/
def execBridgeReturnStart (n : Fin 8) (s : State) : Out :=
  perform
    (ask fun s =>
      onlyIf (s.brLive n ∧ s.dev.stop.active = false ∧ (s.bridge n).ret = none ∧ s.fld aBowres 31 30 ≠ 3
        ∧ s.reach (s.stepBeat (s.fld (brReg n 0x24) 23 0)))
        (block
          [advanceSlot (s.stepBeat (s.fld (brReg n 0x24) 23 0)) 0,
           modBridge n fun b => { b with ret := some 0 },
           ask fun s => returnFrames n (s.bridge n).grant])) s

/-- BRIDGE_CREDIT_FRAME (R323, R328): the pod grants credits, and the return goes on. -/
def execBridgeCreditFrame (n : Fin 8) (fr : BridgeFrame) (s : State) : Out :=
  perform
    (onFrame n 3 fr <| ask fun s => onlyIf (s.job)
      (block
        [modBridge n fun b => { b with grant := b.grant + fr.credits.toNat },
         ask fun s => returnFrames n (s.bridge n).grant])) s

/-- The return of an enabled bridge has completed (R328). -/
def State.retDone (s : State) (n : Nat) : Bool := s.retLen n = 0 || (s.bridge n).ret = some (s.retLen n)

/-! ### STOP (R329), steps and jobs (R333) -/

/-- A bridge when STOP takes effect (R329). -/
def bridgeStop (n : Nat) : Prog :=
  ask fun s =>
    onlyIf (s.brOn n)
      (block
        [modBridge n fun b =>
           { b with stopping := true, stopBeat := s.beat, closed := true, credit := 0, ret := none, scanning := false, converting := false },
         sendFrame n 2 0 0 0 0 []])

/-- BRIDGE_STOP_REPEAT (R329): in the beat after its last STOP frame, or a later one, the bridge repeats the frame, until the
pod answers or the job ends. -/
def execBridgeStopRepeat (n : Fin 8) (s : State) : Out :=
  perform
    (ask fun s =>
      onlyIf (s.brOn n ∧ (s.bridge n).stopping)
        (block
          [advanceBeat ((s.bridge n).stopBeat + 1),
           ask fun s => modBridge n fun b => { b with stopBeat := s.beat },
           sendFrame n 2 0 0 0 0 []])) s

/-- BRIDGE_STOP_FRAME (R329): a pod stops while a job runs. -/
def execBridgeStopFrame (n : Fin 8) (fr : BridgeFrame) (s : State) : Out :=
  perform
    (onFrame n 2 fr <| ask fun s => onlyIf (s.job)
      (block
        [sendFrame n 5 0 0 0 0 [],
         setMask (brReg n 0x34) 0x08000000,
         report 0xC8 .bridgeStop 0 0])) s

/-- BRIDGE_STOP_ACK_FRAME (R329). -/
def execBridgeStopAckFrame (n : Fin 8) (fr : BridgeFrame) (s : State) : Out :=
  perform
    (ask fun s =>
      onlyIf (s.brUp n)
        (if fr.gen.toNat ≠ (s.link (s.brLink n)).pers then report 0xC8 .bridgeFormat 0 0
         else onlyIf (fr.typ = 5) (modBridge n fun b => { b with stopping := false }))) s

/-- A bridge at a step start (R333). -/
def bridgeStep (n : Nat) : Prog :=
  block
    [setFld (brReg n 0x34) 31 28 0,
     ioSet (brReg n 0x38) 0,
     modBridge n fun b =>
       { b with sent := b.sent.take 1, ended := false, closed := true, credit := 0, got := [], scales := [], steps := none, exps := [], ret := none,
                scanning := false, converting := false }]

/-- A bridge at job start (R333). -/
def bridgeJobStart (n : Nat) : Prog :=
  block
    [modBridge n fun _ => {},
     ioSet (brReg n 0x3C) 0,
     setFld (brReg n 0x34) 27 27 0]

end Sys2Proof.Machine
end

