-- ==== Sys2Proof/Machine/Icu.lean ====
section
/-! DEFINITION. The interrupt controller and the Caller watchdogs (R388-R395, R434). -/
namespace Sys2Proof.Machine

/-! ### Sources -/

/-- ICU.SRCn as configured. -/
def State.src (s : State) (n : Nat) : Nat := (s.ioVal (srcAddr n)).toNat

/-- The Caller cores that may receive a source: TARGET, but for the two sources whose targets R384 and R392 give. -/
def State.targets (s : State) (n : Nat) : Nat :=
  if n = 0 then s.dev.icu.target0.toNat else if n = 1 then 0xF else bits (s.src n) 13 10

/-- A source stands on a Caller core's in-service stack (R389). -/
def State.inService (s : State) (n : Nat) : Bool := (range 64 4).any fun u => (s.hart u).insvc.any fun x => x.1 = n

/-- A source has been chosen for a core that has not entered yet. -/
def State.chosen (s : State) (n : Nat) : Bool := (range 64 4).any fun u => (s.hart u).taken = some n

/-- RPRIO of a Caller core, −1 with an empty stack (R390). -/
def Hart.rprio (h : Hart) : Int :=
  match h.insvc with
  | [] => -1
  | x :: _ => x.2

/-- Caller core `c` is eligible for a source of priority `p` (R390). -/
def State.eligible (s : State) (n p c : Nat) : Bool :=
  let h := s.hart (64 + c)
  bitAt (s.targets n) c && h.run && !h.halted && !h.fatal && h.taken.isNone
    && decide (max h.rprio (s.fld (ioa 0xD (0x140 + 4 * c)) 3 0) < (p : Int))

/-- The eligible core with the lowest RPRIO, then the lowest number (R390). -/
def State.bestCore (s : State) (n p : Nat) : Option Nat :=
  ((range 0 4).filter (s.eligible n p)).foldl (fun b c =>
    match b with
    | none => some c
    | some d => if (s.hart (64 + c)).rprio < (s.hart (64 + d)).rprio then some c else some d) none

/-- The deliverable source with the highest PRIO, then the lowest number, and its core (R390). -/
def State.nextDelivery (s : State) : Option (Nat × Nat) :=
  let cands : List (Nat × Nat × Nat) := (range 0 256).filterMap fun n =>
    if s.dev.icu.pend.getLsbD n && bitAt (s.src n) 8 && !s.inService n && !s.chosen n then
      (s.bestCore n (bits (s.src n) 3 0)).map fun c => (bits (s.src n) 3 0, n, c)
    else none
  (cands.foldl (fun (b : Option (Nat × Nat × Nat)) x =>
    match b with
    | none => some x
    | some y => if y.1 < x.1 then some x else some y) none).map fun x => (x.2.1, x.2.2)

/-- Deliver up to `f` sources (R390). -/
def deliver : Nat → Prog
  | 0 => .done
  | f + 1 =>
    ask fun s =>
      match s.nextDelivery with
      | none => .done
      | some (n, c) => block [modHart (64 + c) fun h => { h with taken := some n }, deliver f]

/-- A pending source that goes to hosts alone is delivered to them (R393, R394). -/
def hostDelivery (n : Nat) : Prog :=
  ask fun s =>
    let hosts := (bitsSet 4 (bits (s.src n) 17 14)).filter fun p => s.present p
    onlyIf (s.dev.icu.pend.getLsbD n ∧ bits (s.src n) 13 10 = 0 ∧ hosts ≠ [] ∧ ¬s.dev.icu.level.getLsbD n)
      (block
        [forEach hosts fun p => hpIrq p 4,
         modIcu fun i => { i with pend := i.pend &&& ~~~(BitVec.ofNat 256 (2 ^ n)) }])

/-- ICU_ARBITRATION (R390, R393): nothing while GDIS is 1. -/
def execIcuArbitration (s : State) : Out :=
  perform
    (ask fun s =>
      onlyIf (s.fld (ioa 0xD 8) 0 0 = 0) (block [forEach (range 2 254) hostDelivery, deliver 4])) s

/-- INTERRUPT_ENTRY (R382, R391): the chosen core enters at its next boundary, and the source joins its stack. PEND of a
source whose condition does not stand clears. -/
def execInterruptEntry (n : Fin 4) (s : State) : Out :=
  perform
    (ask fun s =>
      let u := 64 + n.val
      let h := s.hart u
      match h.taken with
      | none => .done
      | some k =>
        let prio := bits (s.src k) 3 0
        if h.fatal then modHart u fun h => { h with taken := none }
        else
          onlyIf (h.run ∧ ¬h.halted)
            (block
              [enter u 1 0 k prio 0 0,
               modHart u fun h =>
                 { h with taken := none, insvc := if h.fatal then [] else (k, prio) :: h.insvc },
               ask fun s =>
                 onlyIf (¬(s.hart u).fatal ∧ (bitAt (s.src k) 9 ∨ ¬s.dev.icu.level.getLsbD k))
                   (modIcu fun i => { i with pend := i.pend &&& ~~~(BitVec.ofNat 256 (2 ^ k)) })])) s

/-- The effect of Caller core `n`'s write to ICU.EOI (R392). -/
def eoiBy (n : Nat) (v : Reg32) : Prog :=
  ask fun s =>
    let k := bits v.toNat 7 0
    let u := 64 + n
    let pop : Bool := match (s.hart u).insvc with | x :: _ => x.1 = k | [] => false
    if pop then modHart u fun h => { h with insvc := h.insvc.drop 1 }
    else
      block
        [satAdd (ioa 0xD 0x158) 31 16 1,
         setFld (ioa 0xD 0x158) 9 8 n,
         setFld (ioa 0xD 0x158) 7 0 k,
         report 0xD .icuOrder 0 0,
         modIcu fun i => { i with target0 := 0xF &&& ~~~(BitVec.ofNat 4 (2 ^ n)) },
         icuEvent 0]

/-- The effect of a write to ICU.SWSET (R388). -/
def swsetBy (v : Reg32) : Prog :=
  let k := bits v.toNat 7 0
  onlyIf (0xA0 ≤ k ∧ k ≤ 0xDF) (icuEvent k)

/-- GLITCH_FILTER_CHANGE (R388, R395, R464): a filtered pin takes a new level. -/
def execGlitchFilterChange (p : FilterPin) (level : Bool) (s : State) : Out :=
  perform
    (match p with
     | .perst => block [modIcu fun i => { i with perst := level }, icuLevel 0xC !level]
     | .therm => block [modIcu fun i => { i with therm := level }, icuLevel 0xD !level]
     | .alert => block [modIcu fun i => { i with alert := level }, alertSync]) s

/-! ### Caller watchdogs -/

/-- CALLER_WDOG (R384, R434): the watchdog of Caller core `n` expires. -/
def execCallerWdog (n : Fin 4) (s : State) : Out :=
  perform
    (ask fun s =>
      let u := 64 + n.val
      let limit := s.fld (ioa (callerPage n) 0x100) 15 0
      onlyIf ((s.hart u).run ∧ ¬(s.hart u).fatal ∧ limit ≠ 0)
        (block
          [advanceTime ((s.hart u).wdStart + limit * 5500),
           modHart u fun h => { h with fatal := true, wait := none, insvc := [], taken := none },
           report (callerPage n) .callerWdog (s.hart u).pc.toNat 0,
           icuEvent 1,
           ask fun s =>
             onlyIf ((range 64 4).all fun v => (s.hart v).fatal) (report (callerPage n) .callerLost 0 0)])) s

/-- A write to CALLER.WDKICK of Caller core `n` (R434). -/
def kickBy (n : Nat) : Prog := ask fun s => modHart (64 + n) fun h => { h with wdStart := s.dev.beat.time }

end Sys2Proof.Machine
end

