-- ==== Sys2Proof/Machine/Dram.lean ====
section
/-! DEFINITION. DRAM bank queues (R172-R175), scrubbing (R180), the hosts' accesses to device memory (R339, R404) and the
CXL link of a partition (R336). -/
namespace Sys2Proof.Machine

/-! ### Bank queues -/

/-- The number of a bank, as `bankOf` numbers it. -/
def bankNum : BankId → Nat
  | .stacked s ch b => (s.val * 64 + ch.val) * 32 + b.val
  | .far ch b => 32768 + ch.val * 32 + b.val

/-- One presented request comes before another for a freed entry: it has waited longer, or as long in ac and its requester
has the lower I/O page (R174). -/
def BReq.sooner (r q : BReq) : Bool :=
  match r.since, q.since with
  | some t, some v => decide (t / 5 < v / 5 ∨ (t / 5 = v / 5 ∧ r.page < q.page))
  | _, _ => false

/-- The request that a freed entry goes to: of those presented the one that comes before all others, in the order of its
requester (R174). -/
def nextAdmitted (waiting : List BReq) : Option BReq :=
  (waiting.filter fun r => r.since.isSome).foldl
    (fun m r => match m with
      | none => some r
      | some q => if r.sooner q then some r else some q) none

/-- BANK_ADMISSION (R174, R187). -/
def execBankAdmission (b : BankId) (s : State) : Out :=
  perform
    (ask fun s =>
      let n := bankNum b
      let k := s.bank n
      match nextAdmitted k.waiting with
      | none => .done
      | some r =>
        onlyIf (k.queue.length < bankCap n)
          (block
            [modBank n fun k =>
               { k with queue := k.queue ++ [{ r with data := [], guard := none }], waiting := k.waiting.erase r },
             admitted r,
             onlyIf (r.strm.isSome) (admSettle (r.page - 0x20))])) s

/-- The place in its queue of the request that a bank turn serves (R172). -/
def Bank.choice (k : Bank) : Option Nat :=
  match k.queue.findIdx? BReq.promoted with
  | some i => some i
  | none =>
    match k.queue.findIdx? fun r => some r.row = k.openRow with
    | some i => some i
    | none => if k.queue = [] then none else some 0

/-- Which requests of a queue the turn of the request `r` at place `i` serves: itself, and the other requesters' reads of
the sector or line that it reads, but none ahead of which its requester has an earlier request to it (R172, R175). `left`
are the requests passed over. -/
def turnServes (r : BReq) (i : Nat) : List BReq → List BReq → List Bool
  | _, [] => []
  | left, q :: qs =>
    let own : Bool := left.any fun p => p.page = q.page && p.addr = q.addr
    if i = 0 then true :: turnServes r (q :: qs).length left qs
    else if !r.write && !q.write && q.addr = r.addr && q.page ≠ r.page && !own then true :: turnServes r (i - 1) left qs
    else false :: turnServes r (i - 1) (left ++ [q]) qs

/-- The requests that a turn leaves in the queue: one that is older than a served one is passed, and promoted at 16
(R173). -/
def turnLeaves : List (BReq × Bool) → List BReq
  | [] => []
  | (q, served) :: qs =>
    if served then turnLeaves qs
    else if qs.any Prod.snd then
      { q with passes := q.passes + 1, promoted := decide (16 ≤ q.passes + 1) } :: turnLeaves qs
    else q :: turnLeaves qs

/-- The requester learns at the turn what its read finds; a host's or a Streamer's own command has said it. -/
def BReq.learns (r : BReq) : Bool := !r.write && r.strm.isNone && (pageUnit r.page).isSome

/-- BANK_TURN (R172, R173, R177, R178): one request is served, and the reads merged with it; `ecc` is what its access
finds. -/
def execBankTurn (b : BankId) (ecc : Ecc) (s : State) : Out :=
  perform
    (ask fun s =>
      let n := bankNum b
      let k := s.bank n
      match k.choice with
      | none => .done
      | some i =>
        match k.queue[i]? with
        | none => .done
        | some r =>
          let all := k.queue.zip (turnServes r i [] k.queue)
          let served := (all.filter Prod.snd).map Prod.fst
          block
            [modBank n fun k =>
               ({ k with queue := turnLeaves all, openRow := some r.row } : Bank).present s.dev.beat.time,
             onlyIf (served.any BReq.learns ∧ ¬s.disabled r.addr)
               (block
                 [eccEvent r.addr ecc,
                  onlyIf (ecc ≠ .clean) (forEach served fun q =>
                    match q.rdr with
                    | some x => readTakes q.page x q.addr (ecc = .uncorrectable)
                    | none => .done)])]) s

/-- SCRUB (R180, R182, R190): while scrubbing is enabled, a sector or line that no queued request of its bank competes with
is read; correction writes back the data that it already has. -/
def execScrub (addr : BitVec 44) (ecc : Ecc) (s : State) : Out :=
  perform
    (ask fun s =>
      let a := addr.toNat - addr.toNat % grain addr.toNat
      match bankOf a with
      | none => .done
      | some (n, _, page, _, _) =>
        onlyIf (s.fld (ioa page 0x100) 7 0 ≠ 0 ∧ (s.bank n).queue = [] ∧ ¬s.disabled a) (eccEvent a ecc)) s

/-! ### CXL.mem and the BOOT window -/

/-- The ranges of partition `p` with SIZE ≠ 0, as physical base and bytes (R339). -/
def State.hdm (s : State) (p : Nat) : List (Nat × Nat) :=
  ((range 0 4).map fun i =>
    (s.fld (ioa (hpPage p) (0x130 + 8 * i)) 13 0 * 2 ^ 30, s.fld (ioa (hpPage p) (0x134 + 8 * i)) 13 0 * 2 ^ 30)).filter
    fun r => r.2 ≠ 0

/-- The physical address of device physical address `a` in ranges laid end to end (R339). -/
def hdmAddr : List (Nat × Nat) → Nat → Option Nat
  | [], _ => none
  | (b, n) :: rs, a => if a < n then some (b + a) else hdmAddr rs (a - n)

/-- The physical address of an access of `n` bytes, when all of it lies in one range that the partition may reach. -/
def State.hdmAt (s : State) (p a n : Nat) : Option Nat :=
  match hdmAddr (s.hdm p) a, hdmAddr (s.hdm p) (a + (n - 1)) with
  | some x, some y => if s.right p 2 && y = x + (n - 1) then some x else none
  | _, _ => none

/-- BOOT.STAT.PHASE is WAIT or FAILED (R404). -/
def State.bootOpen (s : State) : Bool := let f := s.fld (ioa 8 0x100) 31 28; f = 1 || f = 6

/-- The BOOT window, at the stage memories of cores 0–31 (R404). -/
def bootBase : Nat := stageBase 0
abbrev bootSize : Nat := 0x4000000

/-! ### The CXL link of a partition -/

/-- The mask bit of MSI-X vector `v` of partition `p` (R341). -/
def State.masked (s : State) (p v : Nat) : Bool := bitAt (s.byte (sram 0x10 p (0xF000 + 16 * v + 12))).toNat 0

/-- Pending messages that may be sent are sent (R336, R341). -/
def sendPending (p : Nat) : Prog :=
  ask fun s =>
    let vs := (bitsSet 8 (s.part p).pba.toNat).filter fun v => !s.masked p v
    onlyIf ((s.part p).cxlUp)
      (modPart p fun x =>
        { x with msix := x.msix ++ vs
                 pba := vs.foldl (fun m v => m &&& ~~~(BitVec.ofNat 8 (2 ^ v))) x.pba })

/-- CXL_LINK_RESET (R336): link-down, hot reset or PERST_N of a partition's lanes. Nothing but its CXL functions changes:
the MSI-X table is reset. -/
def execCxlLinkReset (p : Fin 4) (s : State) : Out :=
  perform
    (ask fun s =>
      onlyIf (s.present p)
        (block
          [modPart p fun x => { x with cxlUp := false },
           clearAt (sram 0x10 p 0xF000) 0x80])) s

/-- CXL_LINK_UP (R336): the lanes work again; messages that fell due meanwhile are sent. -/
def execCxlLinkUp (p : Fin 4) (s : State) : Out :=
  perform
    (ask fun s => onlyIf (s.present p) (block [modPart p fun x => { x with cxlUp := true }, sendPending p])) s

end Sys2Proof.Machine
end

