-- ==== Sys2Proof/Machine/Hash.lean ====
section
/-! DEFINITION. SHAKE256 of FIPS 202 and KMAC256 of NIST SP 800-185, which R8, R354, R358, R365, R407, R412 and R415 name
(PRESUMED from those standards, log entry 16). -/
namespace Sys2Proof.Machine

/-- Lane `i` of a Keccak state, which is one number with lane x, y at bits 64 (x + 5 y) and up, and the number that `n`
lanes make. -/
def laneAt (a i : Nat) : Nat := a >>> (64 * i) % 2 ^ 64
def lanes (n : Nat) (f : Nat → Nat) : Nat := (range 0 n).foldl (fun v i => v + f i <<< (64 * i)) 0

/-- A lane rotated left by less than 64. -/
def rotLane (v n : Nat) : Nat := v <<< n % 2 ^ 64 + v >>> (64 - n)

/-- The round constants of Keccak-f[1600]. -/
def keccakRc : List Nat :=
  [0x0000000000000001, 0x0000000000008082, 0x800000000000808A, 0x8000000080008000, 0x000000000000808B,
   0x0000000080000001, 0x8000000080008081, 0x8000000000008009, 0x000000000000008A, 0x0000000000000088,
   0x0000000080008009, 0x000000008000000A] ++
  [0x000000008000808B, 0x800000000000008B, 0x8000000000008089, 0x8000000000008003, 0x8000000000008002,
   0x8000000000000080, 0x000000000000800A, 0x800000008000000A, 0x8000000080008081, 0x8000000000008080,
   0x0000000080000001, 0x8000000080008008]

/-- The rotation offsets, indexed by x + 5y. -/
def keccakRot : List Nat :=
  [0, 1, 62, 28, 27, 36, 44, 6, 55, 20, 3, 10, 43, 25, 39, 41, 45, 15, 21, 8, 18, 2, 61, 56, 14]

/-- One round: θ, ρ, π, χ and ι. -/
def keccakRound (a rc : Nat) : Nat :=
  let c := lanes 5 fun x => (range 0 5).foldl (fun v y => v ^^^ laneAt a (x + 5 * y)) 0
  let d := lanes 5 fun x => laneAt c ((x + 4) % 5) ^^^ rotLane (laneAt c ((x + 1) % 5)) 1
  let b := lanes 25 fun i =>
    let j := (i % 5 + 3 * (i / 5)) % 5 + 5 * (i % 5)
    rotLane (laneAt a j ^^^ laneAt d (j % 5)) (keccakRot.getD j 0)
  lanes 25 (fun i =>
    let y := 5 * (i / 5)
    laneAt b i ^^^ ((2 ^ 64 - 1 - laneAt b ((i + 1) % 5 + y)) &&& laneAt b ((i + 2) % 5 + y))) ^^^ rc

/-- Keccak-f[1600]. -/
def keccakF (a : Nat) : Nat := keccakRc.foldl keccakRound a

/-- Absorb blocks of 136 bytes. -/
def absorb : Nat → Nat → List Byte → Nat
  | 0, a, _ => a
  | f + 1, a, bs => if bs = [] then a else absorb f (keccakF (a ^^^ ofBytes (bs.take 136))) (bs.drop 136)

/-- Squeeze `n` blocks of 136 bytes. -/
def squeeze : Nat → Nat → List Byte
  | 0, _ => []
  | n + 1, a => toBytes 136 (a % 2 ^ 1088) ++ squeeze n (keccakF a)

/-- The sponge with rate 136 bytes: `suffix` is the domain byte of the padding. -/
def sponge (suffix : Nat) (m : List Byte) (n : Nat) : List Byte :=
  let z := 136 - m.length % 136
  let pad := if z = 1 then [BitVec.ofNat 8 (suffix + 128)]
    else BitVec.ofNat 8 suffix :: List.replicate (z - 2) 0 ++ [0x80]
  (squeeze (n / 136 + 1) (absorb (m.length / 136 + 2) 0 (m ++ pad))).take n

/-- The first `n` bytes of SHAKE256. -/
def shake256 (m : List Byte) (n : Nat) : List Byte := sponge 0x1F m n

/-- A length as the shortest big-endian bytes, for up to 2^64. -/
def beBytes (v : Nat) : List Byte :=
  let b := ((toBytes 8 v).reverse).dropWhile fun x => x = 0
  if b = [] then [0] else b

/-- left_encode, right_encode, encode_string and bytepad of SP 800-185. -/
def leftEncode (v : Nat) : List Byte := BitVec.ofNat 8 (beBytes v).length :: beBytes v
def rightEncode (v : Nat) : List Byte := beBytes v ++ [BitVec.ofNat 8 (beBytes v).length]
def encodeString (s : List Byte) : List Byte := leftEncode (8 * s.length) ++ s
def bytepad (x : List Byte) : List Byte :=
  let b := leftEncode 136 ++ x
  b ++ List.replicate ((136 - b.length % 136) % 136) 0

/-- The ASCII bytes of a string. -/
def ascii (s : String) : List Byte := s.toList.map fun c => BitVec.ofNat 8 c.toNat

/-- KMAC256 with an output of `n` bytes. -/
def kmac256 (key m : List Byte) (n : Nat) (custom : String) : List Byte :=
  sponge 0x04 (bytepad (encodeString (ascii "KMAC") ++ encodeString (ascii custom))
    ++ bytepad (encodeString key) ++ m ++ rightEncode (8 * n)) n

end Sys2Proof.Machine
end

