-- ==== Sys2Proof/Machine/Job.lean ====
section
/-! DEFINITION. The life of a job: its start, the edges of a step, the commit, STOP and job end (R213-R236, R333, R432). -/
namespace Sys2Proof.Machine

/-- I/O addresses of the UPD step registers (R235). -/
abbrev upd (o : Nat) : Nat := ioa 0xD0 o

/-- The pages that exist (R342). -/
def allPages : List Nat := (range 0 0x140).filter fun p => (pageKind p).isSome

/-- Trigger the snapshots of every page whose SNAP_TRIG bit `b` is set, with cause `c` (R436, R437). -/
def snapAll (b c : Nat) : Prog :=
  ask fun s => forEach (allPages.filter fun p => s.fld (ioa p 0x40) b b = 1) fun p => snapTrigger p c 0

/-- DEV.STATE, which an F error holds at FATAL (R409). -/
def setDevState (x : Nat) : Prog := ask fun s => onlyIf (s.devState ≠ 6) (setFld aState 2 0 x)

/-! ### Job start -/

/-- Apply the pending shadow at I/O offset `a` (R4). -/
def applyShadow (a : Nat) : Prog :=
  ask fun s =>
    let x := Tab.get (fun _ => 0) s.shadow a
    let m : Reg32 := (x >>> 32).setWidth 32
    block [ioSet a ((s.ioVal a &&& ~~~m) ||| (x.setWidth 32 &&& m)), (Eff.shadow a 0).prog]

/-- The pages whose block a job starts: every page with a run state, and of the HP pages the owner's (R4, R349). -/
def State.jobPage (s : State) (page : Nat) : Bool :=
  match pageKind page with
  | some (.hp, p) => s.owner = p
  | some (k, _) => [PageKind.core, .clus, .fmc, .strm, .upd, .red, .beat, .link, .pwr, .dbg].contains k
  | none => false

/-- A compute core at job start (R76, R104, R375). -/
def coreJobStart (c : Nat) : Prog :=
  ask fun s =>
    onlyIf (¬(s.hart c).fatal)
      (block
        [(Eff.regClear (c * 32) 32).prog,
         (Eff.tokClear (c * 64) 64).prog,
         modHart c fun h =>
           { h with
             pc := BitVec.ofNat 18 (s.fld (ioa (corePage c) 0x100) 16 0)
             ls := [], le := [], lc := [], ld := 0, lbase := 0
             shadows := [], wait := none, run := true, halted := false, haltReq := none, stepping := none
             esp := BitVec.ofNat 32 (s.store c 14).len, capdepth := 0
             mbuf := [], fills := [], deadFills := [], dcctl := none, tlb := [], dets := [], rels := [], tprog := 0, tags := [], tileRows := [], tq := [] },
         cinvLines c,
         forEach (range 1 15) fun i => setCreg c i (s.store c (16 + i)),
         forEach [0x10C, 0x110, 0x140, 0x144, 0x148] fun o => ioSet (ioa (corePage c) o) 0,
         arrayJobStart c,
         vecJobStart c,
         strmJobStart c])

/-- The beginning of a step (R213, R333). -/
def stepBegin : Prog :=
  block
    [setEdge 0,
     ioSet aBowres 0,
     ioSet (red 0x12C) 0,
     ioSet (red 0x130) 0,
     ioSet (red 0x134) 0xFFFFFFFF,
     setFld aStepStat 27 26 0,
     forEach (range 0 8) bridgeStep]

/-- JOB_START_BEAT (R14, R236, R361): the job begins when the local beat count equals its start beat. -/
def execJobStartBeat (s : State) : Out :=
  perform
    (ask fun s =>
      match s.job, s.dev.job.pending with
      | true, some b =>
        block
          [reachBeat b,
           ask fun s => forEach (s.shadow.filter fun x => s.jobPage (x.1 / 0x1000)) fun x => applyShadow x.1,
           setDevState 3,
           ask fun s =>
             modJob fun j =>
               { j with pending := none, start := b, time0 := s.dev.beat.time, bow := none, stepNo := 0, ckWait := false },
           setPair (ioa 0x10 0x104) 0,
           modDbg fun d => { d with h := none, r := none, frozen := false },
           forEach (range 0 64) coreJobStart,
           forEach (range 0 48) seqJobStart,
           forEach (range 0 8) bridgeJobStart,
           ioSet aStepStat 0x01000000,
           forEach [0x114, 0x118, 0x11C, 0x120, 0x208, 0x20C, 0x210] fun o => ioSet (upd o) 0,
           evalBegin,
           stepBegin]
      | _, _ => .done) s

/-- STEP_START (R213, R333): the next step begins. -/
def execStepStart (s : State) : Out :=
  perform
    (ask fun s =>
      let p := s.fld (upd 0x130) 23 0
      onlyIf (s.edgeDue 4 p)
        (block
          [advanceSlot (s.stepBeat p) 0,
           modJob fun j => { j with stepNo := j.stepNo + 1 },
           stepBegin])) s

/-! ### Outcome -/

/-- OUTCOME_BEAT (R214, R217, R228, R316): the step scalar file is complete by then (R244). -/
def execOutcomeBeat (s : State) : Out :=
  perform
    (ask fun s =>
      let off := s.fld (upd 0x134) 23 0
      let o := s.fld aBowres 31 30
      onlyIf (s.edgeDue 2 off ∧ o ≠ 3)
        (block
          [advanceSlot (s.stepBeat off) 0,
           evalEnd,
           setEdge 3,
           onlyIf s.dev.job.ckWait (block [setFld (upd 0x120) 31 31 1, modJob fun j => { j with ckWait := false }]),
           setFld aStepStat 27 26 o,
           if o = 1 ∧ s.dev.job.gnfSince then report 0xC8 .gnfLate 0 0
           else onlyIf (o ≠ 0) (setFld aStepStat 25 24 2)])) s

/-! ### Job end -/

/-- DCCTL of every core returns to its reset value (R191). -/
def resetDcctl : Prog :=
  forEach (range 0 64) fun c =>
    block [ioSet (aDcctl c) (ioReset (aDcctl c)), modHart c fun h => { h with dcctl := none }]

/-- A system halt and the taint end with the job (R452, R454). -/
def endDebug : Prog :=
  block
    [setFld (ioa 0x10 0x100) 28 28 0,
     modDbg fun d => { d with h := none, r := none, frozen := false },
     forEach (range 0 64 ++ range 128 48) fun u =>
       modHart u fun h => if h.halted ∧ h.reason = 5 then { h with halted := false } else h]

/-- A unit issues no further instruction. -/
def haltUnit (u : Nat) : Prog :=
  modHart u fun h => { h with run := false, wait := none, haltReq := none, stepping := none }

/-- The job ends (R234). -/
def endJob : Prog :=
  block
    [setFld aFig 29 29 0,
     forEach (range 0 64) fun c => block [haltUnit c, strmStop c, unitsRun c, drainAll c],
     forEach (range 0 48) seqStop,
     resetDcctl,
     snapAll 5 7,
     endDebug,
     setDevState 2,
     setFld aStepStat 25 24 0,
     icuEvent 9,
     ask fun s => forEach s.jobParts fun p => hpIrq p 1]

/-! ### Commit -/

/-- A signed byte field. -/
def State.sfld (s : State) (a hi lo : Nat) : Int := signedOf 8 (s.fld a hi lo)

/-- UPD.LSCALE after a commit with this outcome (R221). -/
def State.nextLscale (s : State) (apply : Bool) : Nat :=
  let lse := s.sfld (upd 0x108) 7 0
  if apply then
    let run := min (s.fld (upd 0x108) 23 8 + 1) 0xFFFF
    let int := s.fld (upd 0x140) 15 0
    if int ≠ 0 ∧ int ≤ run then unsignedOf 8 (min (lse + s.fld (upd 0x13C) 23 20) (s.sfld (upd 0x13C) 15 8))
    else run * 256 + unsignedOf 8 lse
  else
    min (s.fld (upd 0x108) 31 24 + 1) 255 * 2 ^ 24
      + unsignedOf 8 (max (lse - s.fld (upd 0x13C) 19 16) (s.sfld (upd 0x13C) 7 0))

/-- The checkpoint latch (R228). -/
def latchCheckpoint : Prog :=
  ask fun s =>
    block
      [ioSet (upd 0x120) (BitVec.ofNat 32 ((s.fld (upd 0x120) 15 0 + 1) % 2 ^ 16)),
       ioSet (upd 0x124) (s.ioVal (upd 0x100)),
       ioSet (upd 0x128) (s.ioVal (upd 0x104)),
       ioSet (upd 0x12C) (s.ioVal (upd 0x108)),
       modJob fun j => { j with ckWait := true }]

/-- Every pending CMTWAIT read completes with the committed LSCALE (R219). -/
def completeCmtwait : Prog :=
  ask fun s =>
    forEach (range 0 64) fun c =>
      block
        [modHart c fun h =>
           { h with shadows := h.shadows.map fun x =>
               if x.commit && !x.arrived then { x with arrived := true, data := (s.ioVal (upd 0x108)).setWidth 64 } else x },
         landShadows c,
         tryHalt c]

/-- What follows the counters in the commit action (R221); a J error of the same commit comes before job end (R234). -/
def commitRest (skip : Bool) : Prog :=
  ask fun s =>
    let lim := s.fld (upd 0x13C) 31 24
    if skip ∧ lim ≠ 0 ∧ lim < s.fld (upd 0x108) 31 24 then report 0xD0 .skipLimit 0 0
    else
      block
        [ioSet (upd 0x114) 0,
         ioSet (upd 0x118) 0,
         completeCmtwait,
         onlyIf ((s.ioVal (upd 0x148)).toNat ≠ 0
             ∧ (s.ioVal (upd 0x100)).toNat + (s.ioVal (upd 0x104)).toNat = (s.ioVal (upd 0x148)).toNat
             ∧ s.dev.stop.due = none) endJob]

/-- The commit action of R221, once every core has arrived. -/
def commitStep : Prog :=
  ask fun s =>
    let apply : Bool := s.outcome = 1
    let cnt := if apply then upd 0x100 else upd 0x104
    let every := s.fld (upd 0x144) 15 0
    let nstep := (s.fld aStepStat 23 0 + 1) % 2 ^ 24
    block
      [setFld aStepStat 25 24 1,
       if s.ioVal cnt = 0xFFFFFFFF then report 0xD0 .stepWrap 0 0
       else
         block
           [ioSet cnt (s.ioVal cnt + 1),
            ioSet (upd 0x108) (BitVec.ofNat 32 (s.nextLscale apply)),
            setFld aStepStat 23 0 nstep,
            onlyIf (every ≠ 0 ∧ nstep % every = 0) latchCheckpoint,
            evalBegin,
            clearGnf,
            commitRest (!apply)]]

/-- COMMIT_BEAT (R214, R221, R234, R316, R328). -/
def execCommitBeat (s : State) : Out :=
  perform
    (ask fun s =>
      let off := s.fld (upd 0x138) 23 0
      onlyIf (s.edgeDue 3 off ∧ s.window)
        (block
          [advanceSlot (s.stepBeat off) 0,
           setEdge 4,
           forEach ((range 0 8).filter fun n => s.brOn n && !s.retDone n) fun _ => report 0xC8 .bridgeWindow 0 0,
           if s.pair (upd 0x114) ≠ 2 ^ 64 - 1 then report 0xD0 .stepOverrun 0 0 else commitStep])) s

/-! ### STOP -/

/-- An F error's code (R427). -/
def fatalCode (c : Nat) : Bool := c = 0x13 || c = 0x53 || c = 0x54

/-- STOP takes effect: by a local error's code, or by a flit on a link (R124, R161, R191, R211, R231, R232, R283, R329,
R439). -/
def takeStop (code : Nat) (link : Option Nat) : Prog :=
  ask fun s =>
    let torn : Bool := s.window && s.outcome = 1
    block
      [modStop fun x =>
         { x with due := none, active := true, forced := false, since := s.dev.beat.time,
                  parts := s.jobParts.foldl (fun m p => m ||| BitVec.ofNat 4 (2 ^ p)) 0 },
       setFld aFig 29 29 0,
       forEach (range 0 64) fun c => block [haltUnit c, arrayStop c, strmStop c, unitsStop c, drainAll c],
       forEach (range 0 48) seqStop,
       forEach (range 0 8) bridgeStop,
       resetDcctl,
       modJob fun j => { j with pending := none },
       setFld aStepStat 31 31 (if torn then 1 else 0),
       setFld aStepStat 25 24 3,
       endDebug,
       setDevState 5,
       icuEvent 8,
       offer { page := 0, code := 0x83, sev := 0,
               payload := match link with
                 | none => toBytes 8 code
                 | some l => toBytes 8 (2 ^ 63 + l) },
       snapAll 6 6]

/-- The JOB interrupt of a local J error's STOP in state `s` is due at once, or within 8 µs (R432). -/
def jobIrqDue (s : State) : Prog :=
  if s.dev.stop.forced then jobIrqPoint else modStop fun x => { x with forceAt := some (s.dev.beat.time + 44000) }

/-- STOP (R231, R432): an error of the device's own takes effect as STOP. -/
def execStop (s : State) : Out :=
  perform
    (ask fun s =>
      match s.dev.stop.due with
      | none => .done
      | some c =>
        onlyIf s.job
          (block
            [takeStop c none, onlyIf (¬fatalCode c) (jobIrqDue s)])) s

/-- STOP_RECEIVED (R231, R432): the first flit with STOP set arrives on a link. -/
def execStopReceived (l : Fin 48) (s : State) : Out :=
  perform
    (ask fun s =>
      onlyIf (s.job ∧ (s.link l).pers = 0 ∧ 2 ≤ s.lstate l ∧ s.lstate l ≤ 5)
        (block [takeStop 0 (some l), jobIrqPoint])) s

/-- JOB_IRQ_DEADLINE (R432): 8 µs after STOP took effect. -/
def execJobIrqDeadline (s : State) : Out :=
  perform
    (ask fun s =>
      match s.dev.stop.forceAt with
      | none => .done
      | some t => block [advanceTime t, jobIrqPoint]) s

end Sys2Proof.Machine
end

