-- ==== Sys2Proof/Machine/Figure.lean ====
section
/-! DEFINITION. Figures: their checks at JOB_LOAD (R226, R240-R242, R358-R360, R373), what loading one writes, and the table
checks of JOB_START (R213, R222, R234, R244, R317, R325, R326). -/
namespace Sys2Proof.Machine

/-! ### Layout (R359) -/

/-- A figure's section. -/
structure FigSec where
  typ : Nat
  unit : Nat
  data : List Byte
  deriving DecidableEq, Repr

/-- An entry of the section table. -/
structure FigEntry where
  typ : Nat
  unit : Nat
  scope : Nat
  off : Nat
  size : Nat
  rsv : Nat
  deriving DecidableEq, Repr

/-- The section table of a figure. -/
def figTable (b : List Byte) : List FigEntry :=
  (range 0 (bytesAt b 24 4)).map fun i =>
    let e := 256 + 32 * i
    { typ := bytesAt b e 2, unit := bytesAt b (e + 2) 2, scope := bytesAt b (e + 4) 4, off := bytesAt b (e + 8) 8,
      size := bytesAt b (e + 16) 8, rsv := bytesAt b (e + 24) 8 }

/-- Every byte of a range is zero. -/
def zeroAt (b : List Byte) (o n : Nat) : Bool := bytesAt b o n = 0

/-- The 2-bit personality of link `l` in the header. -/
def figPers (pers l : Nat) : Nat := bits pers (2 * l + 1) (2 * l)

/-- The header is right: MAGIC, FORMAT, LENGTH, NSEC, TSIZE, LINKSET, PERS and the reserved fields (R359, R360). -/
def figHeaderOk (b : List Byte) (tsize : Nat) : Bool :=
  decide (256 ≤ b.length) && b.take 8 = ascii "QZFIGURE" && bytesAt b 8 4 = 1 && zeroAt b 12 4
    && bytesAt b 16 8 = b.length && decide (1 ≤ bytesAt b 24 4 ∧ bytesAt b 24 4 ≤ 8192) && bytesAt b 28 4 = tsize
    && decide (bytesAt b 32 8 < 2 ^ 48) && decide (bytesAt b 52 4 ≤ 65535) && zeroAt b 56 200
    && decide (256 + 32 * bytesAt b 24 4 ≤ b.length)
    && (range 0 48).all fun l => figPers (bytesAt b 40 12) l ≠ 3

/-- The size that a section type permits (R360). -/
def figSizeOk (typ size nlayer : Nat) : Bool :=
  match typ with
  | 1 => size % 2 = 0 && decide (2 ≤ size ∧ size ≤ 262144)
  | 2 => size = 3056
  | 3 => size = 64
  | 4 => size % 8 = 0 && decide (24 ≤ size ∧ size ≤ 2 ^ 26)
  | 5 => size % 2 = 0 && decide (2 ≤ size ∧ size ≤ 16384)
  | 6 => size % 16 = 0 && decide (16 ≤ size ∧ size ≤ 65536)
  | 7 => size % 8 = 0
  | 8 => size % 128 = 0 && decide (size ≤ 524288)
  | 9 => size % 4 = 0 && decide (size ≤ 524288)
  | 10 => size % 4 = 0 && decide (size ≤ 2097152)
  | 11 => size = 192
  | 12 => size = nlayer
  | 13 => true
  | _ => false

/-- Units that a section type names (R359, R360). -/
def figUnits (typ : Nat) : Nat :=
  match typ with
  | 1 | 2 | 3 => 64
  | 5 | 6 => 48
  | _ => 1

/-- A table entry is right by itself. -/
def figEntryOk (b : List Byte) (e : FigEntry) : Bool :=
  e.rsv = 0 && bits e.scope 30 20 = 0 && e.off % 16 = 0 && decide (e.unit < figUnits e.typ)
    && figSizeOk e.typ e.size (bytesAt b 52 4) && decide (e.off + e.size ≤ b.length)
    && (e.size = 0 || decide (256 + 32 * bytesAt b 24 4 ≤ e.off))

/-- No two sections overlap. -/
def noOverlap : List FigEntry → Bool
  | [] => true
  | e :: es => (es.all fun f => e.size = 0 || f.size = 0 || !overlaps e.off e.size f.off f.size) && noOverlap es

/-- The section of a table entry. -/
def figSec (b : List Byte) (e : FigEntry) : FigSec := { typ := e.typ, unit := e.unit, data := (b.drop e.off).take e.size }

/-- The sections that serve the device at `coord` (R359). -/
def figServing (b : List Byte) (coord : Nat) : List FigSec :=
  ((figTable b).filter fun e => bitAt e.scope 31 || bits e.scope 19 0 = coord).map (figSec b)

/-- The section of a type and unit, empty when none serves. -/
def secOf (ss : List FigSec) (typ unit : Nat) : List Byte :=
  match ss.find? fun x => x.typ = typ && x.unit = unit with
  | some x => x.data
  | none => []

/-! ### Contents -/

/-- A capability that a figure may hold (R373). -/
def capLoadable (c : Cap) : Bool :=
  !c.valid ||
    (Nat.land c.perm (pSys + pDebug) = 0 && decide (c.otype ≤ 4) && c.toNat / 2 ^ 124 % 8 = 0
      && (c.len = 0 ||
        match c.otype with
        | 2 => decide (0x20000 ≤ c.base ∧ c.base + c.len ≤ 0x140000) && !overlaps c.base c.len 0x60000 0x4000
        | 1 | 4 => decide (c.base + c.len ≤ 0x20000)
        | 3 => decide (c.base + c.len ≤ 256)
        | _ => true))

/-- The capability in the 16 bytes at `o`; one with VALID = 0 is null (R373). -/
def capIn (b : List Byte) (o : Nat) : Cap :=
  let c : Cap := BitVec.ofNat 128 (bytesAt b o 16)
  if c.valid then c else 0

/-- A register record may name the register at I/O offset `a` with value `v` (R360). -/
def recordOk (w : Nat) : Bool :=
  let a := bits w 23 0
  let page := match pageKind (a / 0x1000) with
    | some (k, _) => [PageKind.core, .clus, .link, .fmc, .strm, .red, .upd].contains k
    | none => false
  page && a % 4 = 0 && bits w 31 24 = 0 &&
    match regAt a with
    | none => false
    | some r => r.flds ≠ [] && (r.flds.all fun f => f.cls = .h) && BitVec.ofNat 32 (w / 2 ^ 32) &&& ~~~(r.mask .h) = 0

/-- The content of a section is right, whichever device it serves (R226, R360, R373). -/
def figContentOk (x : FigSec) : Bool :=
  match x.typ with
  | 1 | 5 => (range 0 (x.data.length / 2)).all fun i => decide (bytesAt x.data (2 * i) 2 < 2 ^ 14)
  | 2 => (range 0 191).all fun i => capLoadable (capIn x.data (16 * i))
  | 4 => bytesAt x.data 0 8 % 16 = 0
  | 7 => (range 0 (x.data.length / 8)).all fun i => recordOk (bytesAt x.data (8 * i) 8)
  | 12 => x.data.all fun v => v.toNat < 2
  | _ => true

/-- No type and unit serves twice, but for types 4 and 7 (R360). -/
def noTwice : List FigSec → Bool
  | [] => true
  | x :: xs =>
    (x.typ = 4 || x.typ = 7 || xs.all fun y => y.typ ≠ x.typ || y.unit ≠ x.unit) && noTwice xs

/-- The figure obeys R359 and R360 for the device at `coord` with BEAT.TSIZE `tsize`. -/
def figOk (b : List Byte) (tsize coord : Nat) : Bool :=
  figHeaderOk b tsize && ((figTable b).all (figEntryOk b)) && noOverlap (figTable b)
    && (((figTable b).map (figSec b)).all figContentOk)
    && (let ss := figServing b coord
        noTwice ss && ((range 0 64).all fun c => ss.any fun x => x.typ = 1 && x.unit = c)
          && ((range 0 48).all fun l => ss.any fun x => x.typ = 5 && x.unit = l))

/-! ### UPD tables (R240-R242) -/

/-- An FP32 code is finite. -/
def fin32 (c : Nat) : Bool := bits c 30 23 ≠ 255

/-- A schedule directory entry is right (R241), and a power directory entry (R242). -/
def schedOk (e : Nat) : Bool :=
  bits e 62 53 = 0 && bits e 31 17 = 0 && (!bitAt e 63 || decide (bits e 16 0 + bits e 47 32 + 1 ≤ 131072))
def powerOk (e : Nat) : Bool := bits e 62 32 = 0

/-- An Update Descriptor is right against the directories (R240). -/
def descOk (dirs d : List Byte) : Bool :=
  let w := bytesAt d 0 8
  let x := bytesAt d 64 8
  let sv (k : Nat) : Bool := bitAt (bytesAt dirs (8 * k) 8) 63
  let pv (k : Nat) : Bool := bitAt (bytesAt dirs (128 + 8 * k) 8) 63
  if ¬bitAt w 0 then d.all fun b => b = 0
  else
    bits w 63 52 = 0 && bits x 63 32 = 0 && bits x 7 3 = 0 && zeroAt d 80 48 && bits w 7 6 ≠ 3
      && ((range 0 14).all fun i => fin32 (bytesAt d (8 + 4 * i) 4))
      && (!bitAt w 32 || sv (bits w 36 33)) && (!bitAt w 37 || sv (bits w 41 38))
      && ((range 0 3).all fun i => !bitAt w (20 + i) || pv (bits w (25 + 3 * i) (23 + 3 * i)))
      && (!bitAt x 0 ||
        (decide (bits x 2 1 < 2) && bits x 15 8 ≠ 0 && bits x 31 16 ≠ 0
          && (let e := bytesAt d 72 4; fin32 e && bits e 30 0 ≠ 0 && !bitAt e 31)
          && (let e := bytesAt d 76 4; fin32 e && (bits e 30 0 = 0 || !bitAt e 31))))

/-- The UPD tables are right (R240). -/
def updOk (ss : List FigSec) : Bool :=
  let dirs := secOf ss 11 0
  let ds := secOf ss 8 0
  ((range 0 16).all fun k => schedOk (bytesAt dirs (8 * k) 8)) && ((range 0 8).all fun k => powerOk (bytesAt dirs (128 + 8 * k) 8))
    && (range 0 (ds.length / 128)).all fun i => descOk dirs ((ds.drop (128 * i)).take 128)

/-! ### Loading -/

/-- Write whole blocks of SRAM from bytes, the last padded with zeros. -/
def loadBlocks (a : Nat) (bs : List Byte) : Prog :=
  forEach (range 0 ((bs.length + 7) / 8)) fun i =>
    let v := bytesAt bs (8 * i) 8
    block [setBlk (a / 8 + i) v, freshChk (a / 8 + i) v]

/-- Load a program image of 2 bytes per syllable (R360, R419). -/
def loadProgram (u : Nat) (bs : List Byte) : Prog :=
  block
    [clearAt (pmAddr u 0) (pmSize u * 2),
     forEach (range 0 ((bs.length + 7) / 8)) fun i =>
       let v := (range 0 4).foldl (fun w k => w + bytesAt bs (8 * i + 2 * k) 2 % 2 ^ 14 * 2 ^ (14 * k)) 0
       block [setBlk (pmAddr u (4 * i) / 8) v, freshChk (pmAddr u (4 * i) / 8) v]]

/-- Write an H field's register directly; its pending shadow is discarded (R347). -/
def ioDirect (a : Nat) (v : Reg32) : Prog := block [ioSet a v, (Eff.shadow a 0).prog]

/-- Write the sections that serve the device (R347, R360, R373, R374). -/
def loadSections (ss : List FigSec) : Prog :=
  block
    [forEach (range 0 64) fun c => block
       [loadProgram c (secOf ss 1 c),
        forEach (range 1 255) fun e => setStore c e (if e < 192 then capIn (secOf ss 2 c) (16 * (e - 1)) else 0),
        forEach (range 0 16) fun n =>
          ioDirect (ioa (corePage c) (0x180 + 4 * n)) (BitVec.ofNat 32 (bytesAt (secOf ss 3 c) (4 * n) 4) &&& 0x00FFFFFF)],
     forEach (range 0 48) fun l => block
       [loadProgram (128 + l) (secOf ss 5 l),
        clearAt (seqMem l 0) 0x10000,
        loadBlocks (seqMem l 0) (secOf ss 6 l)],
     forEach (ss.filter fun x => x.typ = 7) fun x =>
       forEach (range 0 (x.data.length / 8)) fun i =>
         ioDirect (bytesAt x.data (8 * i) 3) (BitVec.ofNat 32 (bytesAt x.data (8 * i + 4) 4)),
     clearAt (pm 0) 0x301000,
     loadBlocks (pm 0) (secOf ss 8 0),
     loadBlocks (pm 0x80000) (secOf ss 9 0),
     loadBlocks (pm 0x100000) (secOf ss 10 0),
     loadBlocks (pm 0x300000) (secOf ss 11 0)]

/-- The preloads of a figure as partition address and bytes (R360). -/
def preloads (ss : List FigSec) : List (Nat × List Byte) :=
  (ss.filter fun x => x.typ = 4).map fun x => (bytesAt x.data 0 8, x.data.drop 8)

/-- A preload can be written: it translates and meets no poison (R360). -/
def State.preloadOk (s : State) (x : Nat × List Byte) : Bool :=
  match s.figRange x.1 x.2.length false true with
  | .error _ => false
  | .ok ps => ps.all fun (_, pa, n) => !s.writeLost pa n

/-- Write the preloads in table order. -/
def writePreloads (xs : List (Nat × List Byte)) : Prog :=
  forEach xs fun x =>
    ask fun s =>
      match s.figRange x.1 x.2.length false true with
      | .error _ => .done
      | .ok ps => forEach ps fun (va, pa, n) => writeAt pa ((x.2.drop (va - x.1)).take n)

/-! ### The checks of JOB_START -/

/-- An enabled bridge's window and buckets (R317, R325, R326). -/
def State.bridgeOk (s : State) (n : Nat) : Bool :=
  let w0 := s.fld (brReg n 4) 23 0
  let w1 := s.fld (brReg n 8) 23 0
  let cnt := (s.ioVal (brReg n 0xC)).toNat
  decide (w0 < w1) && cnt ≠ 0 && decide (w1 + (cnt + 65535) / 65536 + 2 ≤ s.fld (red 0x100) 23 0)
    && decide (s.fld (brReg n 0) 22 10 + (cnt - 1) / 2 ^ s.fld (brReg n 0) 9 5 < s.nb)

/-- The tables of the step are right (R213, R222, R234, R244, R317). -/
def State.stepTableOk (s : State) : Bool :=
  let p := s.fld (upd 0x130) 23 0
  let out := s.fld (upd 0x134) 23 0
  let cmt := s.fld (upd 0x138) 23 0
  let lse := s.sfld (upd 0x108) 7 0
  let lo := s.sfld (upd 0x13C) 7 0
  let hi := s.sfld (upd 0x13C) 15 8
  let sl := s.fld (red 0x100) 23 0
  let settle := s.fld (red 0x104) 23 0
  let batches := (s.ioVal (upd 0x148)).toNat
  decide (1 ≤ out ∧ out < cmt ∧ cmt < p) && decide (lo ≤ hi ∧ lo ≤ lse ∧ lse ≤ hi)
    && decide (16 ≤ out ∧ cmt + 16 ≤ p + out) && decide (1 ≤ sl ∧ sl < settle ∧ settle ≤ out)
    && ((range 0 8).all fun n => !s.brOn n || s.bridgeOk n) && decide (s.nb ≤ 8192)
    && (batches = 0 || decide ((s.ioVal (upd 0x100)).toNat + (s.ioVal (upd 0x104)).toNat < batches))

/-- Every link of the figure's set is UP with the personality that the figure names (R279). -/
def State.linksUp (s : State) : Bool :=
  (bitsSet 48 s.dev.job.linkset.toNat).all fun l =>
    s.lstate l = 3 && (s.link l).pers = figPers s.dev.job.pers.toNat l

end Sys2Proof.Machine
end

