-- ==== Sys2Proof/Machine/Recorder.lean ====
section
/-! DEFINITION. The error collector's handlers, the checker test mode and the recorders (R426, R429-R433, R437-R444). -/
namespace Sys2Proof.Machine

/-! ### The collector -/

/-- A read of ERR.CLAIM: the value that it returns (R430). -/
def State.claimVal (s : State) : Nat :=
  match (range 0 4).reverse.find? fun v => s.slotSt v = 1 with
  | some v => 2 ^ 31 + v
  | none => 0

/-- What a read of ERR.CLAIM does (R430). -/
def claimEffect : Prog :=
  ask fun s =>
    match (range 0 4).reverse.find? fun v => s.slotSt v = 1 with
    | some v => block [setSlotSt v 2, setFld (ioa 0xE 0x104) 9 8 v]
    | none => .done

/-- A write to ERR.DONE (R430, R432). -/
def doneEffect (v : Reg32) : Prog :=
  ask fun s =>
    let n := v.toNat % 4
    onlyIf (s.slotSt n = 2)
      (block [setSlotSt n 0, onlyIf (n = 2 ∧ s.dev.stop.forceAt.isSome) jobIrqPoint])

/-! ### Checker test mode -/

/-- Blocks of memory `m` of unit `u`; none for a memory or unit that does not exist (R424, R426). -/
def xpBlocks (m u : Nat) : Nat :=
  match m with
  | 1 => if u < 64 then 32768 else 0
  | 2 => if u < 4 then 65536 else 0
  | 3 => if u < 48 then 2048 else 0
  | 4 => if u < 64 then 262144 else 0
  | 5 => if u < 64 then 32768 else 0
  | 6 => if u < 64 then 4608 else 0
  | 7 => if u < 64 then 327680 else 0
  | 8 => if u < 64 then 5120 else 0
  | 9 => if u < 64 then 8192 else 0
  | 0xA => if u < 64 then 544 else 0
  | 0xB => if u < 4 then 131072 else 0
  | 0xC => if u < 4 then 4096 else 0
  | 0xD => if u < 48 then 40960 else 0
  | 0xE => if u = 0 then 406016 else 0
  | 0xF => if u = 0 then 262144 else 0
  | _ => 0

/-- The address of block `b` of memory `m` of unit `u`. -/
def xpAddr (m u b : Nat) : Nat :=
  match m with
  | 4 => stageBase u + 8 * b
  | 0xB => callerBase u + 8 * b
  | _ => sram m u (8 * b)

/-- A write to ERR.XPTEST (R426); `deny` reports the discarded write. -/
def xptestEffect (v : Reg32) (deny : Prog) : Prog :=
  ask fun s =>
    let op := bits v.toNat 31 30
    let m := bits v.toNat 29 24
    let u := bits v.toNat 23 18
    let b := bits v.toNat 17 0
    let k := xpAddr m u b / 8
    if s.job ∨ xpBlocks m u ≤ b then deny
    else if op = 1 then
      block
        [setBlk k (s.pair (ioa 0xE 0x1C4)),
         setChk k { vs := s.fld (ioa 0xE 0x1CC) 17 16, col := s.fld (ioa 0xE 0x1CC) 15 8, row := s.fld (ioa 0xE 0x1CC) 7 0 }]
    else onlyIf (op = 2)
      (block
        [setPair (ioa 0xE 0x1C4) (s.blkData k),
         ioSet (ioa 0xE 0x1CC) (BitVec.ofNat 32
           (s.blkClass k * 2 ^ 24 + (s.chk k).vs * 2 ^ 16 + (s.chk k).col * 2 ^ 8 + (s.chk k).row))])

/-! ### The rings -/

/-- Where the device recorder's ring, the snapshot rings and the holding buffer stand in MEM 0x0F. -/
abbrev ringBase : Nat := sram 0xF 0 0
abbrev snapBase : Nat := sram 0xF 0 0x100000
abbrev holdBase : Nat := sram 0xF 0 0x1F0000
abbrev ringSize : Nat := 0x100000
/-- The spill ring (R441). -/
abbrev spillBase : Nat := 0x3FFFF000000
abbrev spillSize : Nat := 0xF00000

/-- A record with its CRC (R438): `flags` are bits 15:14 of bytes 2–3. -/
def mkRecord (code flags beat seq : Nat) (payload : List Byte) : List Byte :=
  let body (crc : Nat) := toBytes 2 code ++ toBytes 2 (flags * 2 ^ 14 + 16 + payload.length) ++ toBytes 6 beat
    ++ toBytes 2 seq ++ toBytes 4 crc ++ payload
  body (crc32c (body 0)).toNat

/-- The PAD of `n` bytes before a record with this BEAT and SEQ (R438). -/
def padRecord (n beat seq : Nat) : List Byte :=
  if n < 16 then [0, 0, 8, 0, 0, 0, 0, 0] else mkRecord 0 0 beat seq (List.replicate (n - 16) 0)

/-- HP.IRQ.REC of every partition with EVT (R341, R441, R442). -/
def recIrq : Prog := ask fun s => forEach ((range 0 4).filter fun p => s.right p 3) fun p => hpIrq p 3

/-- The ring is about to overwrite `n` bytes at `off`: unspilled records there are lost (R441). -/
def overrun (off n : Nat) : Prog :=
  ask fun s =>
    let hit (r : Nat × Nat) : Bool := decide (r.1 < off + n ∧ off < r.1 + r.2)
    onlyIf (s.dev.recd.unspilled.any hit)
      (block
        [modRec fun r => { r with unspilled := r.unspilled.filter fun x => !hit x },
         setMask (ioa 0xF 0x104) 0x20000000,
         icuEvent 7,
         recIrq])

/-- Write one record to the on-die ring (R438, R441). -/
def ringWrite (rec' : List Byte) : Prog :=
  ask fun s =>
    let off := s.fld (ioa 0xF 0x10C) 19 0
    let n := rec'.length
    let wrap : Bool := ringSize < off + n
    let at' := if wrap then 0 else off
    block
      [onlyIf wrap
         (block
           [overrun off (ringSize - off),
            writeAt (ringBase + off) (padRecord (ringSize - off) (bytesAt rec' 4 6) (bytesAt rec' 10 2))]),
       overrun at' n,
       writeAt (ringBase + at') rec',
       setFld (ioa 0xF 0x10C) 19 0 ((at' + n) % ringSize),
       ask fun s =>
         onlyIf (s.fld (ioa 0xF 0x100) 0 0 = 1)
           (modRec fun r => { r with unspilled := r.unspilled ++ [(at', n)] })]

/-- FREEZE is in effect. -/
def State.recFrozen (s : State) : Bool := s.fld (ioa 0xF 0x104) 31 31 = 1

/-- Write an admitted record: to the ring, or while frozen to the holding buffer (R442). -/
def recWrite (rec' : List Byte) : Prog :=
  ask fun s =>
    let e := s.dev.recd.heldEnd
    if s.recFrozen then
      if e + rec'.length ≤ 16384 then
        block
          [writeAt (holdBase + e) rec',
           modRec fun r => { r with heldEnd := e + rec'.length },
           setFld (ioa 0xF 0x124) 14 0 (e + rec'.length)]
      else block [satAdd (ioa 0xF 0x124) 31 16 1, setMask (ioa 0xF 0x104) 0x40000000, recIrq]
    else ringWrite rec'

/-- Admit a record: its SEQ, and the suppression word of its entry (R438, R440). -/
def admitRec (o : Offer) : Prog :=
  ask fun s =>
    let n := o.code % 256
    let supp := Tab.get (fun _ => 0) s.dev.recd.supp n
    let pay := o.payload ++ List.replicate ((8 - o.payload.length % 8) % 8) 0
    let trunc : Bool := supp ≠ 0 && decide (1024 < 16 + 8 + pay.length)
    let full := if supp = 0 then pay else toBytes 8 (min supp 0xFFFFFFFF) ++ pay.take (if trunc then pay.length - 8 else pay.length)
    let seq := (s.ioVal (ioa 0xF 0x108)).toNat
    block
      [ioSet (ioa 0xF 0x108) (s.ioVal (ioa 0xF 0x108) + 1),
       modRec fun r => { r with supp := Tab.put (fun _ => 0) r.supp n 0 },
       recWrite (mkRecord o.code ((if supp ≠ 0 then 2 else 0) + (if trunc then 1 else 0)) s.beat.toNat seq full)]

/-- The copy of a posted payload is over (R439). -/
def postDone (o : Offer) : Prog :=
  match o.poster with
  | none => .done
  | some c =>
    if c < 64 then modHart c fun h => { h with posting := false } else modRec fun r => { r with postBusy := false }

/-- RECORD_ADMISSION (R438-R440): the oldest offered record meets its rate limit. -/
def execRecordAdmission (s : State) : Out :=
  perform
    (ask fun s =>
      match s.dev.recd.offers with
      | [] => .done
      | o :: os =>
        let n := o.code % 256
        let burst := s.fld (ioa 0xF (0x400 + 4 * n)) 15 8
        let spent := Tab.get (fun _ => 0) s.dev.recd.spent n
        block
          [modRec fun r => { r with offers := os },
           postDone o,
           if burst = 0 then admitRec o
           else if spent < burst then
             block [modRec fun r => { r with spent := Tab.put (fun _ => 0) r.spent n (spent + 1) }, admitRec o]
           else if 1 ≤ o.code ∧ o.code ≤ 0x7F ∧ 2 ≤ o.sev then admitRec o
           else modRec fun r => { r with supp := Tab.put (fun _ => 0) r.supp n (min (Tab.get (fun _ => 0) r.supp n + 1) 0xFFFFFFFF) }]) s

/-- SPILL (R441): the oldest unspilled record is copied to the spill ring. -/
def execSpill (s : State) : Out :=
  perform
    (ask fun s =>
      match s.dev.recd.unspilled with
      | [] => .done
      | (off, n) :: rest =>
        onlyIf (s.fld (ioa 0xF 0x100) 0 0 = 1)
          (block
            [touch (ringBase + off) n,
             ask fun s =>
               let r := s.rd (ringBase + off) n
               let sp := s.fld (ioa 0xF 0x110) 23 0
               let wrap : Bool := spillSize < sp + n
               let at' := if wrap then 0 else sp
               block
                 [onlyIf wrap
                    (writeAt (spillBase + sp) (padRecord (spillSize - sp) (bytesAt r 4 6) (bytesAt r 10 2))),
                  writeAt (spillBase + at') r,
                  setFld (ioa 0xF 0x110) 23 0 ((at' + n) % spillSize),
                  modRec fun x => { x with unspilled := rest }]])) s

/-- RATE_LIMIT_REFILL (R440): at a measure edge every bucket gains RATE tokens. -/
def execRateLimitRefill (s : State) : Out :=
  perform
    (block
      [advanceBeat (BitVec.ofNat 48 ((s.beat.toNat / 1024 + 1) * 1024)),
       ask fun s =>
         forEach s.dev.recd.spent fun (n, x) =>
           modRec fun r =>
             { r with spent := Tab.put (fun _ => 0) r.spent n (x - s.fld (ioa 0xF (0x400 + 4 * n)) 7 0) }]) s

/-! ### Posts -/

/-- REC_BADCODE of a post: code and length as written (R439). -/
def badPost (page : Nat) (v : Reg32) : Prog := report page .recBadcode (bits v.toNat 30 16 * 2 ^ 16 + bits v.toNat 10 0) 0

/-- A post of `LEN` bytes at `off` of the memory at `base`, `size` bytes long, with a code from `lo` to `hi`. -/
def postFrom (page base size off lo hi poster : Nat) (v : Reg32) (busy : Prog) : Prog :=
  let code := bits v.toNat 30 16
  let len := bits v.toNat 10 0
  if code < lo ∨ hi < code ∨ len % 8 ≠ 0 ∨ 1008 < len ∨ size < off + len then badPost page v
  else
    block
      [touch (base + off) len,
       busy,
       ask fun s => offer { page := page, code := code, sev := 0, payload := s.rd (base + off) len, poster := some poster }]

/-- A write to CORE.RECPOST of core `c` (R439). -/
def recpostEffect (c : Nat) (v : Reg32) : Prog :=
  ask fun s =>
    onlyIf ((s.hart c).posting = false)
      (postFrom (corePage c) (stageBase c) 0x200000 (s.fld (ioa (corePage c) 0x150) 20 3 * 8) 0xF0 0xFF c v
        (modHart c fun h => { h with posting := true }))

/-- Caller core `n`'s write to REC.POST (R439). -/
def postEffect (n : Nat) (v : Reg32) : Prog :=
  ask fun s =>
    onlyIf (s.dev.recd.postBusy = false)
      (postFrom 0xF (callerBase n) 0x100000 (s.fld (ioa 0xF 0x130) 20 3 * 8) 0xC0 0xEF 64 v
        (modRec fun r => { r with postBusy := true }))

/-! ### Readers -/

/-- The word at RDADDR (R443). -/
def rddataAt (s : State) : Nat := ringBase + s.fld (ioa 0xF 0x114) 19 2 * 4

/-- The spill word at SPRDADDR (R443). -/
def spillAt (s : State) : Nat := spillBase + s.fld (ioa 0xF 0x11C) 23 2 * 4

/-- The next word of the selected snapshot (R437). -/
def snpAt (s : State) : Nat :=
  snapBase + s.fld (ioa 0xF 0x128) 13 5 * 2048 + s.fld (ioa 0xF 0x128) 4 0 * 64 + s.dev.recd.snpWord % 16 * 4

/-- A reserved part of the spill window lies behind the ring: the spec gives no value there (log entry 3). -/
def State.spillWord (s : State) : Nat :=
  if spillAt s < spillBase + spillSize then s.rdNat (spillAt s) 4 else s.freeVal.toNat % 2 ^ 32

/-- What a read of RDDATA, SPRDDATA or SNPDATA does beside returning its word. -/
def rddataEffect : Prog :=
  ask fun s =>
    block [touch (rddataAt s) 4, setFld (ioa 0xF 0x114) 19 2 ((s.fld (ioa 0xF 0x114) 19 2 + 1) % 2 ^ 18)]

def sprddataEffect : Prog :=
  ask fun s =>
    block
      [if spillAt s < spillBase + spillSize then touch (spillAt s) 4 else useFree,
       setFld (ioa 0xF 0x11C) 23 2 ((s.fld (ioa 0xF 0x11C) 23 2 + 1) % 2 ^ 22)]

def snpdataEffect : Prog :=
  ask fun s => block [touch (snpAt s) 4, modRec fun r => { r with snpWord := (r.snpWord + 1) % 16 }]

/-! ### FREEZE and THAW -/

/-- FREEZE (R442). -/
def freezeRec : Prog := setMask (ioa 0xF 0x104) 0x80000000

/-- The held records, cut by their LEN fields. -/
def heldRecords : Nat → List Byte → List (List Byte)
  | 0, _ => []
  | f + 1, bs =>
    let n := bytesAt bs 2 2 % 2 ^ 11
    if bs = [] ∨ n < 16 then [] else bs.take n :: heldRecords f (bs.drop n)

/-- THAW (R442): the held records go to the rings, then THAWED. -/
def thawRec : Prog :=
  ask fun s =>
    onlyIf s.recFrozen
      (block
        [touch holdBase s.dev.recd.heldEnd,
         ask fun s =>
           let lost := s.fld (ioa 0xF 0x124) 31 16
           block
             [setFld (ioa 0xF 0x104) 31 31 0,
              forEach (heldRecords 1024 (s.rd holdBase s.dev.recd.heldEnd)) ringWrite,
              modRec fun r => { r with heldEnd := 0 },
              ioSet (ioa 0xF 0x124) 0,
              admitRec { page := 0xF, code := 0x84, sev := 0, payload := toBytes 8 lost }]])

/-! ### Snapshots -/

/-- The order in which causes of one record come first (R437). -/
def causeOrder : List Nat := [5, 4, 3, 2, 6, 7, 1]

/-- Take a snapshot of page `p` with the sampled values (R437). -/
def snapshotOf (p : Nat) (vals : List Nat) : Prog :=
  ask fun s =>
    let ts := s.dev.recd.trigs.filter fun t => t.1 = p
    match causeOrder.findSome? fun c => ts.find? fun t => t.2.1 = c with
    | none => .done
    | some (_, c, e) =>
      let k := Tab.get (fun _ => 0) s.dev.recd.snapSeq p
      let en := ofBits ((range 0 8).map fun i => s.fld (ioa p (0x20 + 4 * i)) 31 31 = 1)
      let body := vals.flatMap (toBytes 4) ++ toBytes 6 s.beat.toNat ++ toBytes 1 c ++ toBytes 1 en
        ++ toBytes 2 (if 2 ≤ c ∧ c ≤ 5 then e else 0) ++ toBytes 2 0 ++ toBytes 4 k ++ List.replicate 12 0
      block
        [modRec fun r =>
           { r with trigs := r.trigs.filter (fun t => t.1 ≠ p), snapSeq := Tab.put (fun _ => 0) r.snapSeq p ((k + 1) % 2 ^ 32) },
         writeAt (snapBase + p * 2048 + k % 32 * 64) (body ++ toBytes 4 (crc32c body).toNat)]

end Sys2Proof.Machine
end

