-- ==== Sys2Proof/Machine/Sec.lean ====
section
/-! DEFINITION. Fuses as the SEC block sees them, measurement registers and the device's keys (R402, R407, R412, R414, R418). -/
namespace Sys2Proof.Machine

/-- The active owner: the highest slot that is VALID and not revoked (R402). -/
def Fuses.active (f : Fuses) : Option Nat :=
  (range 0 4).reverse.find? fun k => f.ovalid.getLsbD k && !f.revoke.getLsbD k

/-- Exactly `n` bytes, cut or padded with zeros. -/
def fit (n : Nat) (bs : List Byte) : List Byte := bs.take n ++ List.replicate (n - bs.length) 0

/-- The hash of owner slot `k`, 32 bytes. -/
def Fuses.hashOf (f : Fuses) (k : Nat) : List Byte := fit 32 (Tab.get (fun _ => []) f.ohash k)

/-- The active owner's hash, or 32 zero bytes (R407, R413). -/
def Fuses.activeHash (f : Fuses) : List Byte :=
  match f.active with
  | some k => f.hashOf k
  | none => List.replicate 32 0

/-- FUSE.OPTIONS (R402, R418). -/
def State.options (s : State) : Nat := s.dev.fuses.options.toNat % 2 ^ 17

/-- The fuse page after fuse load (R402, R418). -/
def fuseViews : Prog :=
  ask fun s =>
    let f := s.dev.fuses
    block
      [ioSet (ioa 0xA 0x100) (BitVec.ofNat 32
         (2 ^ 31 + f.ovalid.toNat * 2 ^ 26 + f.revoke.toNat * 2 ^ 22 + f.active.getD 7 * 2 ^ 19 + f.svn % 128)),
       ioSet (ioa 0xA 0x104) (BitVec.ofNat 32 s.options),
       ioSet (ioa 0xA 0x108) (BitVec.ofNat 32 (f.repairs % 2 ^ 16)),
       forEach (range 0 8) fun i => block
         [ioSet (ioa 9 (0x400 + 4 * i)) (BitVec.ofNat 32 (ofBytes (((fit 32 f.vhash).drop (4 * i)).take 4))),
          ioSet (ioa 9 (0x420 + 4 * i)) (BitVec.ofNat 32 (ofBytes ((f.activeHash.drop (4 * i)).take 4)))]]

/-- The bytes of `n` registers from I/O offset `a`, word 0 first (R418). -/
def State.regBytes (s : State) (a n : Nat) : List Byte := (range 0 n).flatMap fun i => toBytes 4 (s.ioVal (a + 4 * i)).toNat

/-- Measurement register `i` (R407). -/
def State.measure (s : State) (i : Nat) : List Byte := s.regBytes (ioa 9 (0x200 + 0x40 * i)) 16

/-- Set measurement register `i`. -/
def setMeasure (i : Nat) (bs : List Byte) : Prog :=
  forEach (range 0 16) fun k => ioSet (ioa 9 (0x200 + 0x40 * i + 4 * k)) (BitVec.ofNat 32 (ofBytes ((bs.drop (4 * k)).take 4)))

/-- Extend measurement register `i` with `d` (R407). -/
def extendM (i : Nat) (d : List Byte) : Prog := ask fun s => setMeasure i (shake256 (s.measure i ++ d) 64)

/-- The seeds of the identity key and of the transport key (R412). -/
def State.idSeed (s : State) : List Byte := shake256 (ascii "QZG1-ID-DSA" ++ fit 32 s.dev.fuses.seed) 72
def State.kemSeed (s : State) : List Byte := shake256 (ascii "QZG1-ID-KEM" ++ fit 32 s.dev.fuses.seed) 64

/-- The identity public key and the encapsulation key (R412). -/
def State.idKey (s : State) : List Byte := fit 48 (Config.slhPublic192f s.idSeed)
def State.kemKey (s : State) : List Byte := fit 1568 (Config.mlkemPublic (s.kemSeed.take 32) (s.kemSeed.drop 32))

/-- DEV.UID and DEV.NONCE as 8 bytes. -/
def State.uidBytes (s : State) : List Byte := toBytes 8 (s.pair 0x110)
def State.nonceBytes (s : State) : List Byte := toBytes 8 (s.pair 0x118)

end Sys2Proof.Machine
end

