-- ==== Sys2Proof/Machine/Mailbox.lean ====
section
/-! DEFINITION. Mailboxes, the command journal and the commands of the hosts (R350-R368, R413-R417, R442, R451). -/
namespace Sys2Proof.Machine

/-! ### Slots (R350, R351) -/

/-- Slot `sl` of partition `p`, in the BAR2 area. -/
def slotAddr (p sl : Nat) : Nat := sram 0x10 p (0x1000 + 0x1000 * sl)

/-- The state of a slot: 0 IDLE, 1 QUEUED, 2 ACTIVE, 3 DONE. -/
def State.mbSlot (s : State) (p sl : Nat) : Nat := Tab.get (fun _ => 0) (s.part p).slots sl

/-- Set the state of a slot. -/
def setSlot (p sl x : Nat) : Prog := modPart p fun t => { t with slots := Tab.put (fun _ => 0) t.slots sl x }

/-- MB_PROTOCOL (R351). -/
def mbError (p sl off : Nat) : Prog := report (hpPage p) .mbProtocol sl off

/-- BAR2 of a partition answers: power, lanes and link are there (R335, R336). -/
def State.barUp (s : State) (p : Nat) : Bool := s.dev.pwr.on && s.present p && (s.part p).cxlUp

/-- A write of `v` to DOORBELL (R351, R388). -/
def doorbellEffect (p v : Nat) : Prog :=
  ask fun s =>
    let sl := v % 4
    if s.mbSlot p sl = 0 then
      block [setSlot p sl 1, modPart p fun t => { t with order := t.order ++ [sl] }, icuEvent (2 + p)]
    else mbError p sl 0

/-- A write of `v` to MBACK (R351). -/
def mbackEffect (p v : Nat) : Prog :=
  forEach (bitsSet 4 v) fun sl => ask fun s => if s.mbSlot p sl = 3 then setSlot p sl 0 else mbError p sl 8

/-- DOORBELL (R351). -/
def execDoorbell (p : Fin 4) (v : Reg32) (s : State) : Out :=
  perform (ask fun s => onlyIf (s.barUp p) (doorbellEffect p v.toNat)) s

/-- MBACK (R351). -/
def execMback (p : Fin 4) (v : Reg32) (s : State) : Out :=
  perform (ask fun s => onlyIf (s.barUp p) (mbackEffect p v.toNat)) s

/-- MAILBOX_SLOT_WRITE (R350, R351): a write to BAR2 at `off`. Any other access than the table permits has no effect. -/
def execMailboxSlotWrite (p : Fin 4) (off : BitVec 19) (data : List Byte) (s : State) : Out :=
  perform
    (ask fun s =>
      let o := off.toNat
      let n := data.length
      let sl := o / 0x1000 - 1
      onlyIf (s.barUp p ∧ o % n = 0)
        (if o < 0x1000 then
           onlyIf (n = 4 ∨ n = 8)
             (if o = 0 then doorbellEffect p (ofBytes (data.take 4))
              else onlyIf (o = 8) (mbackEffect p (ofBytes (data.take 4))))
         else if o < 0x5000 then
           onlyIf ((n = 1 ∨ n = 2 ∨ n = 4 ∨ n = 8) ∧ o % 0x1000 < 0xC00)
             (if s.mbSlot p sl = 0 then writeAt (slotAddr p sl + o % 0x1000) data else mbError p sl o)
         else
           onlyIf (0xF000 ≤ o ∧ o < 0xF080 ∧ (n = 4 ∨ n = 8))
             (block [writeAt (sram 0x10 p o) data, sendPending p]))) s

/-! ### Requests -/

/-- Bytes of the request in a slot; inline arguments begin at 0x40. -/
def State.req (s : State) (p sl o n : Nat) : List Byte := s.rd (slotAddr p sl + o) n
def State.reqNat (s : State) (p sl o n : Nat) : Nat := ofBytes (s.req p sl o n)
def State.arg (s : State) (p sl o n : Nat) : Nat := s.reqNat p sl (0x40 + o) n
def State.opcode (s : State) (p sl : Nat) : Nat := s.reqNat p sl 0 2
def State.arglen (s : State) (p sl : Nat) : Nat := s.reqNat p sl 2 2

/-- A row of the opcode table (R353, R357, R417, R451): the rights of which one suffices, ARGLEN, and whether it is
critical. -/
structure CmdRow where
  rights : List Nat
  len : Nat
  crit : Bool
  deriving DecidableEq, Repr

/-- The opcode table (R357). -/
def cmdRow (op : Nat) : Option CmdRow :=
  match op with
  | 0x0001 | 0x0002 => some { rights := [], len := 0, crit := false }
  | 0x0010 => some { rights := [], len := 48, crit := false }
  | 0x0101 => some { rights := [1], len := 48, crit := true }
  | 0x0102 => some { rights := [1], len := 8, crit := true }
  | 0x0103 => some { rights := [1, 0], len := 0, crit := true }
  | 0x0110 => some { rights := [], len := 8, crit := true }
  | 0x0111 => some { rights := [0], len := 96, crit := true }
  | 0x0120 | 0x0122 | 0x0131 => some { rights := [0], len := 8, crit := true }
  | 0x0121 => some { rights := [0], len := 16, crit := true }
  | 0x0130 => some { rights := [], len := 48, crit := true }
  | 0x0132 => some { rights := [0], len := 64, crit := true }
  | 0x0140 | 0x0141 => some { rights := [0], len := 0, crit := true }
  | _ => none

/-! ### Responses and the journal -/

/-- Result codes (R350). -/
abbrev rOk : Nat := 0
abbrev rAccepted : Nat := 1
abbrev rRejected : Nat := 2
abbrev rFailed : Nat := 3

/-- Where entry `jseq` of the journal of partition `p` is mirrored (R366, R367). -/
def journalAddr (p jseq : Nat) : Nat := 0x3FFFFF00000 + p * 0x40000 + 64 * (jseq % 4096)

/-- The journal entry of the command in a slot (R365). -/
def State.journalEntry (s : State) (p sl jseq result reason abeat dbeat rdata : Nat) : List Byte :=
  let crit : Bool := match cmdRow (s.opcode p sl) with | some r => r.crit | none => false
  let hash := shake256 (s.req p sl 0 64 ++ s.req p sl 0x40 (min (s.arglen p sl) 3008)) 16
  let b := toBytes 8 (if crit then s.reqNat p sl 8 8 else 0) ++ toBytes 4 jseq ++ toBytes 2 (s.opcode p sl)
    ++ [BitVec.ofNat 8 result, BitVec.ofNat 8 sl] ++ toBytes 2 reason ++ toBytes 6 abeat ++ hash ++ toBytes 6 dbeat
    ++ toBytes 2 0 ++ toBytes 8 rdata ++ toBytes 4 0
  b ++ toBytes 4 (crc32c b).toNat

/-- Write a result to the journal and then to the response area of a slot (R350, R366, R367). -/
def respond (p sl jseq result reason abeat rdata : Nat) (data : List Byte) : Prog :=
  ask fun s =>
    let done := if result = rAccepted then 0 else s.beat.toNat
    block
      [writeAt (journalAddr p jseq) (s.journalEntry p sl jseq result reason abeat done rdata),
       writeAt (slotAddr p sl + 0xC00)
         (toBytes 2 result ++ toBytes 2 reason ++ toBytes 4 jseq ++ toBytes 6 abeat ++ toBytes 2 data.length
           ++ List.replicate 16 0 ++ data)]

/-- A final result: the slot is DONE and HP.IRQ.MB is set (R341, R351). -/
def finishCmd (p sl jseq result reason abeat rdata : Nat) (data : List Byte) : Prog :=
  block
    [respond p sl jseq result reason abeat rdata data,
     setSlot p sl 3,
     modPart p fun t => { t with active := t.active.filter fun a => a.slot ≠ sl },
     hpIrq p 0]

/-- A command that is being checked: partition, slot, journal number and acceptance beat. -/
structure Cmd where
  p : Nat
  sl : Nat
  jseq : Nat
  abeat : Nat
  deriving DecidableEq, Repr

def Cmd.ok (c : Cmd) (reason rdata : Nat) (data : List Byte) : Prog := finishCmd c.p c.sl c.jseq rOk reason c.abeat rdata data
def Cmd.reject (c : Cmd) (reason rdata : Nat) : Prog := finishCmd c.p c.sl c.jseq rRejected reason c.abeat rdata []

/-- ACCEPTED: the command goes on (R351). -/
def Cmd.accept (c : Cmd) : Prog :=
  ask fun s =>
    block
      [respond c.p c.sl c.jseq rAccepted 0 c.abeat 0 [],
       modPart c.p fun t =>
         { t with active := some { slot := c.sl, opcode := s.opcode c.p c.sl, jseq := c.jseq,
                                    abeat := BitVec.ofNat 48 c.abeat } }]

/-- The partition may take its next command: the device has reached READY and no command of it is ACTIVE (R351, R404). -/
def State.nextCmd (s : State) (p : Nat) : Option Nat :=
  match (s.part p).active, (s.part p).order with
  | none, sl :: _ => if s.dev.pwr.on && s.present p && decide (2 ≤ s.devState) then some sl else none
  | _, _ => none

/-- A queued command receives its journal number (R366). -/
def takeCmd (p sl : Nat) (k : Cmd → Prog) : Prog :=
  ask fun s =>
    let c : Cmd := { p := p, sl := sl, jseq := (s.ioVal (ioa (hpPage p) 0x118)).toNat, abeat := s.beat.toNat }
    block
      [modPart p fun t => { t with order := t.order.drop 1 },
       setSlot p sl 2,
       ioSet (ioa (hpPage p) 0x118) (s.ioVal (ioa (hpPage p) 0x118) + 1),
       k c]

/-- The next command leaves QUEUED: its journal entry is first written (R351, R366). -/
def leaveQueue (p sl : Nat) (k : Cmd → Prog) : Prog :=
  takeCmd p sl fun c =>
    block [ask fun s => writeAt (journalAddr p c.jseq) (s.journalEntry p sl c.jseq 4 0 0 0 0), k c]

/-! ### The checks of R356 -/

/-- The message of a TAG (R354). -/
def State.tagMessage (s : State) (p sl : Nat) : List Byte :=
  s.uidBytes ++ s.nonceBytes ++ toBytes 1 p ++ s.req p sl 0 16 ++ s.req p sl 32 32 ++ s.req p sl 0x40 (s.arglen p sl)

/-- The TAG verifies under key `k` (R354). -/
def State.tagOk (s : State) (p sl : Nat) (k : List Byte) : Bool :=
  kmac256 k (s.tagMessage p sl) 16 "QZG1-CMD" = s.req p sl 16 16

/-- HP.CTR (R355). -/
def State.ctr (s : State) (p : Nat) : Nat := s.pair (ioa (hpPage p) 0x110)

/-- Orders 2 to 4. -/
def State.gateA (s : State) (p sl : Nat) (r : CmdRow) : Option Nat :=
  if s.arglen p sl ≠ r.len then some 2
  else if s.devState = 6 ∧ r.crit then some 3
  else if r.rights ≠ [] ∧ ¬(r.rights.any (s.right p)) then some 4
  else if s.opcode p sl = 0x0110 ∧ s.arg p sl 0 1 ≠ p ∧ ¬s.right p 0 then some 4
  else none

/-- Orders 5 to 7 of a critical command other than KEY_INSTALL. -/
def State.gateB (s : State) (p sl : Nat) (r : CmdRow) : Option Nat :=
  if ¬r.crit then none
  else
    match (s.part p).key with
    | none => some 5
    | some k =>
      if ¬s.tagOk p sl k then some 6
      else if s.reqNat p sl 8 8 ≤ s.ctr p then some 7
      else none

/-- The reserved header fields are zero (order 8). -/
def State.headerOk (s : State) (p sl : Nat) : Bool := s.reqNat p sl 4 4 = 0 && s.reqNat p sl 32 32 = 0

/-- What a command does: `rdata` of the journal, the argument check of order 8 and what follows it. -/
structure Meaning where
  rdata : State → Nat → Nat → Nat := fun _ _ _ => 0
  argOk : State → Nat → Nat → Bool := fun _ _ _ => true
  body : Cmd → Prog

/-- The next command of partition `p` has opcode `op`: it leaves QUEUED, is checked, and acts (R351, R356). -/
def command (p op : Nat) (m : Meaning) : Prog :=
  ask fun s =>
    match s.nextCmd p, cmdRow op with
    | some sl, some r =>
      onlyIf (s.opcode p sl = op)
        (leaveQueue p sl fun c => ask fun s =>
          let rd := if s.arglen p sl = r.len then m.rdata s p sl else 0
          match s.gateA p sl r with
          | some w => c.reject w rd
          | none =>
            match s.gateB p sl r with
            | some w => block [onlyIf (w = 6) (report (hpPage p) .cmdAuth 0 0), c.reject w rd]
            | none =>
              block
                [onlyIf r.crit (setPair (ioa (hpPage p) 0x110) (s.reqNat p sl 8 8)),
                 if ¬s.headerOk p sl ∨ ¬m.argOk s p sl then c.reject 8 rd else m.body c])
    | _, _ => .done

/-- BAD_OPCODE (R356): the next command's opcode is in no row of the table. -/
def execBadOpcode (p : Fin 4) (s : State) : Out :=
  perform
    (ask fun s =>
      match s.nextCmd p with
      | none => .done
      | some sl => onlyIf ((cmdRow (s.opcode p sl)).isNone) (leaveQueue p sl fun c => c.reject 1 0)) s

/-! ### Plain commands -/

/-- NOP (R357). -/
def execMailboxNop (p : Fin 4) (s : State) : Out := perform (command p 0x0001 { body := fun c => c.ok 0 0 [] }) s

/-- STATUS (R357): DEV.STATE, DEV.FIG, BEAT.BSTAT and HP.CTR. -/
def execStatus (p : Fin 4) (s : State) : Out :=
  perform
    (command p 0x0002
      { body := fun c => ask fun s =>
          c.ok 0 0 (toBytes 4 (s.ioVal aState).toNat ++ toBytes 4 (s.ioVal aFig).toNat ++ toBytes 4 s.bstat.toNat
            ++ toBytes 8 (s.ctr c.p)) }) s

/-! ### Host windows -/

/-- The physical address of offset `o` of the host window of partition `p` (R162). -/
def hostWin (p o : Nat) : Nat := 0x40000000000 + p * 2 ^ 40 + o

/-- The device reaches `n` bytes at `o` of the host window (R163, R340). -/
def State.hostOk (s : State) (p o n : Nat) : Bool := decide (o + n ≤ s.hwBytes p) && (s.part p).cxlUp

/-! ### ATTEST (R413) -/

/-- Length of an attestation report. -/
abbrev reportLen : Nat := 37936

/-- ATTEST (R413). -/
def execAttest (p : Fin 4) (s : State) : Out :=
  perform
    (command p 0x0010
      { argOk := fun s p sl => s.arg p sl 32 8 % 64 = 0 && s.arg p sl 40 8 = 0
        body := fun c => ask fun s =>
          if s.hwBytes c.p < s.arg c.p c.sl 32 8 + reportLen then c.reject 8 0 else c.accept }) s

/-- The signed part of the report (R413). -/
def State.reportBody (s : State) (p sl : Nat) : List Byte :=
  let f := s.dev.fuses
  ascii "QZATTEST" ++ toBytes 4 1 ++ toBytes 4 reportLen ++ s.uidBytes ++ s.nonceBytes ++ toBytes 1 p ++ toBytes 1 s.devState
    ++ toBytes 1 (f.active.getD 0xFF) ++ toBytes 1 0 ++ toBytes 4 s.options ++ toBytes 8 f.svn
    ++ toBytes 8 s.fingerprint ++ toBytes 6 (if s.locked then s.beat.toNat else 0) ++ toBytes 2 0 ++ s.req p sl 0x40 32
    ++ (range 0 8).flatMap s.measure ++ f.activeHash ++ s.idKey ++ s.kemKey ++ toBytes 16 0

/-- The active command of partition `p` when it has opcode `op`. -/
def State.activeCmd (s : State) (p op : Nat) : Option Active :=
  match (s.part p).active with
  | some a => if a.opcode = op then some a else none
  | none => none

/-- End an accepted command. -/
def endCmd (p : Nat) (a : Active) (result reason rdata : Nat) (data : List Byte) : Prog :=
  finishCmd p a.slot a.jseq result reason a.abeat.toNat rdata data

/-- ATTEST_DONE (R413): the report is built, signed and written. -/
def execAttestDone (p : Fin 4) (s : State) : Out :=
  perform
    (ask fun s =>
      match s.activeCmd p 0x0010 with
      | none => .done
      | some a =>
        let dest := s.arg p a.slot 32 8
        let body := s.reportBody p a.slot
        let rep := body ++ fit 35664 (Config.slhSign192f s.idSeed (ascii "QZG1-ATTEST") body)
        if s.hostOk p dest reportLen then
          block
            [writeAt (hostWin p dest) rep,
             endCmd p a rOk 0 0 (toBytes 8 reportLen ++ shake256 rep 32)]
        else endCmd p a rFailed 0x32 0 []) s

/-! ### Figures and jobs -/

/-- Unload the figure (R358, R362, R363): the neighbour checks repeat, and with the job ended no STOP frame does (R329). -/
def unloadFigure : Prog :=
  block
    [setFld aFig 31 31 0,
     setPair 0x124 0,
     forEach (range 0 8) fun n => modBridge n fun b => { b with stopping := false },
     recheckLinks]

/-- JOB_LOAD (R13, R358). -/
def execJobLoad (p : Fin 4) (s : State) : Out :=
  perform
    (command p 0x0101
      { argOk := fun s p sl => s.arg p sl 0 8 % 4096 = 0 && decide (1 ≤ s.arg p sl 8 8 ∧ s.arg p sl 8 8 ≤ 2 ^ 30)
        body := fun c => ask fun s =>
          let other : Bool := (s.loaded || s.fld aFig 30 30 = 1) && s.owner ≠ c.p
          if s.job then c.reject 0x10 0
          else if other then c.reject 0x11 0
          else
            block
              [onlyIf s.loaded unloadFigure,
               setFld aFig 30 30 1,
               setFld aFig 1 0 c.p,
               modJob fun j =>
                 { j with fetching := some (s.arg c.p c.sl 0 8, s.arg c.p c.sl 8 8), wantDigest := s.req c.p c.sl 0x50 32,
                          coord := s.coordWord },
               c.accept] }) s

/-- A JOB_LOAD ends FAILED: no figure is loaded. -/
def loadFails (p : Nat) (a : Active) (reason : Nat) : Prog :=
  block [setFld aFig 30 30 0, modJob fun j => { j with fetching := none }, endCmd p a rFailed reason 0 []]

/-- The figure `b` loads (R347, R358-R360, R407). -/
def loadFigure (p : Nat) (a : Active) (b : List Byte) (ss : List FigSec) : Prog :=
  ask fun s =>
    let h := shake256 b 32
    block
      [writePreloads (preloads ss),
       loadSections ss,
       modJob fun j =>
         { j with fetching := none, linkset := BitVec.ofNat 48 (bytesAt b 32 8), pers := BitVec.ofNat 96 (bytesAt b 40 12) },
       setFld aFig 30 30 0,
       setFld aFig 31 31 1,
       setPair 0x124 (ofBytes (h.take 8)),
       extendM 7 (s.dev.job.wantDigest ++ toBytes 1 p),
       satAdd (ioa 9 0x100) 7 0 1,
       recheckLinks,
       endCmd p a rOk 0 (ofBytes (h.take 8)) (h.take 8)]

/-- FIGURE_FETCH_DONE (R358-R360): the figure's bytes are read through the partition's PTT, checked and loaded. -/
def execFigureFetchDone (p : Fin 4) (s : State) : Out :=
  perform
    (ask fun s =>
      match s.activeCmd p 0x0101, s.dev.job.fetching with
      | some a, some (va, n) =>
        match s.figRange va n true false with
        | .error _ => loadFails p a 0x1A
        | .ok ps =>
          block
            [forEach ps fun (_, pa, m) => touch pa m,
             ask fun s =>
               let b := ps.flatMap fun (_, pa, m) => s.rd pa m
               let ss := figServing b s.dev.job.coord
               if ps.any fun (_, pa, m) => (s.poisonIn pa m).isSome then loadFails p a 0x1A
               else if shake256 b 32 ≠ s.dev.job.wantDigest then loadFails p a 0x19
               else if ¬figOk b (s.fld aTsize 19 0) s.dev.job.coord then loadFails p a 0x18
               else if ¬updOk ss then loadFails p a 0x17
               else if ¬(preloads ss).all s.preloadOk then loadFails p a 0x1A
               else loadFigure p a b ss]
      | _, _ => .done) s

/-- The reason that refuses JOB_START, if any (R14, R361). -/
def State.startRefused (s : State) (c : Cmd) (b : Nat) : Option Nat :=
  if ¬s.loaded then some 0x12
  else if s.owner ≠ c.p then some 0x11
  else if s.job then some 0x10
  else if (range 0 64).any fun u => (s.hart u).fatal then some 0x27
  else if ¬s.locked then some 0x13
  else if b < c.abeat + 64 then some 0x14
  else if ¬s.stepTableOk then some 0x15
  else if ¬s.linksUp then some 0x16
  else none

/-- JOB_START (R14, R361). -/
def execJobStart (p : Fin 4) (s : State) : Out :=
  perform
    (command p 0x0102
      { rdata := fun s p sl => s.arg p sl 0 6
        argOk := fun s p sl => s.arg p sl 6 2 = 0
        body := fun c => ask fun s =>
          let b := s.arg c.p c.sl 0 6
          match s.startRefused c b with
          | some w => c.reject w b
          | none =>
            block
              [setFld aFig 29 29 1,
               modStop fun x =>
                 { hostRecs := x.hostRecs, resetAfter := x.resetAfter, since := x.since, forceAt := x.forceAt, parts := x.parts },
               modJob fun j => { j with pending := some (BitVec.ofNat 48 b) },
               c.ok 0 b []] }) s

/-- STOP of a running job by JOB_ABORT: the error, and its effect at once (R231, R362). -/
def abortJob : Prog :=
  block
    [report 0 .jobAborted 0 0,
     ask fun s =>
       onlyIf s.job (block [takeStop 0x56 none, jobIrqDue s])]

/-- Another partition's load in progress ends FAILED with ABORTED (R362). -/
def abortLoad (p : Nat) : Prog :=
  ask fun s =>
    match s.activeCmd p 0x0101 with
    | some a => loadFails p a 0x1B
    | none => .done

/-- JOB_ABORT (R231, R362, R409). The headers carry the STOP of a running job until the next JOB_START (log entry 22). -/
def execJobAbort (p : Fin 4) (s : State) : Out :=
  perform
    (command p 0x0103
      { body := fun c => ask fun s =>
          let loading : Bool := s.fld aFig 30 30 = 1
          if ¬s.loaded ∧ ¬loading then c.reject 0x12 0
          else if s.owner ≠ c.p ∧ ¬s.right c.p 0 then c.reject 0x11 0
          else
            block
              [onlyIf s.job abortJob,
               onlyIf loading (abortLoad s.owner),
               onlyIf s.loaded unloadFigure,
               clearAt (pm 0) 0x301000,
               onlyIf (s.devState ≠ 1) (setDevState 2),
               onlyIf (¬s.job) (modStop fun x => { x with active := false }),
               c.ok 0 0 []] }) s

/-! ### Partitions -/

/-- The queued slots of a partition are discarded (R363, R366). -/
def discardQueued (t : Nat) : Nat → Prog
  | 0 => .done
  | f + 1 =>
    ask fun s =>
      match (s.part t).order with
      | [] => .done
      | sl :: _ => block [takeCmd t sl fun c => c.reject 0x26 0, discardQueued t f]

/-- RESET_PARTITION (R363). -/
def execResetPartition (p : Fin 4) (s : State) : Out :=
  perform
    (command p 0x0110
      { argOk := fun s p sl => s.arg p sl 1 7 = 0 && decide (s.arg p sl 0 1 < 4) && s.present (s.arg p sl 0 1)
        body := fun c => ask fun s =>
          let t := s.arg c.p c.sl 0 1
          if s.job ∧ s.owner = t then c.reject 0x10 0
          else
            block
              [discardQueued t 4,
               onlyIf (s.loaded ∧ s.owner = t) unloadFigure,
               forEach [0x104, 0x108, 0x10C, 0x120, 0x124] fun o => ioDirect (ioa (hpPage t) o) 0,
               c.ok 0 0 []] }) s

/-- A range of GiB that lies in stacked or far memory and leaves its last GiB alone (R338). -/
def rangeOk (base size : Nat) : Bool :=
  size = 0 || decide (base + size ≤ 256) || decide (1024 ≤ base ∧ base + size ≤ 2048)
    || decide (3072 ≤ base ∧ base + size ≤ 4095)

/-- No two ranges overlap. -/
def rangesApart : List (Nat × Nat) → Bool
  | [] => true
  | (b, n) :: rs => (rs.all fun r => n = 0 || r.2 = 0 || !overlaps b n r.1 r.2) && rangesApart rs

/-- The rights and ranges of a PARTITION_ASSIGN argument (R338). -/
def layoutRights (a : List Byte) (p : Nat) : Nat := bytesAt a (24 * p) 1
def layoutBase (a : List Byte) (p i : Nat) : Nat := bytesAt a (24 * p + 8 + 4 * i) 2
def layoutSize (a : List Byte) (p i : Nat) : Nat := bytesAt a (24 * p + 10 + 4 * i) 2

/-- Reserved bits of the argument are zero (R338). -/
def layoutZero (a : List Byte) : Bool :=
  (range 0 4).all fun p =>
    decide (layoutRights a p < 16) && zeroAt a (24 * p + 1) 7
      && (range 0 4).all fun i => decide (layoutBase a p i < 2 ^ 14 ∧ layoutSize a p i < 2 ^ 14)

/-- None of the BAD_ARG cases of R338 holds. -/
def State.layoutOk (s : State) (a : List Byte) : Bool :=
  ((range 0 4).all fun p => s.present p || layoutRights a p = 0) && ((range 0 4).any fun p => bitAt (layoutRights a p) 0)
    && ((range 0 4).all fun p => (range 0 4).all fun i => rangeOk (layoutBase a p i) (layoutSize a p i))
    && rangesApart ((range 0 4).flatMap fun p => (range 0 4).map fun i => (layoutBase a p i, layoutSize a p i))

/-- Set the rights and ranges of all partitions (R338). -/
def setLayout (a : List Byte) : Prog :=
  forEach (range 0 4) fun p => block
    [setFld (ioa (hpPage p) 0x100) 3 0 (layoutRights a p),
     forEach (range 0 4) fun i => block
       [ioSet (ioa (hpPage p) (0x130 + 8 * i)) (BitVec.ofNat 32 (layoutBase a p i)),
        ioSet (ioa (hpPage p) (0x134 + 8 * i)) (BitVec.ofNat 32 (layoutSize a p i))]]

/-- PARTITION_ASSIGN (R338). -/
def execPartitionAssign (p : Fin 4) (s : State) : Out :=
  perform
    (command p 0x0111
      { argOk := fun s p sl => layoutZero (s.req p sl 0x40 96)
        body := fun c => ask fun s =>
          let a := s.req c.p c.sl 0x40 96
          if s.job then c.reject 0x10 0
          else if ¬s.layoutOk a then c.reject 8 0
          else block [setLayout a, c.ok 0 0 []] }) s

/-! ### Links -/

/-- SET_COORDINATE (R278, R363). -/
def execSetCoordinate (p : Fin 4) (s : State) : Out :=
  perform
    (command p 0x0120
      { argOk := fun s p sl => decide (s.arg p sl 0 4 < 2 ^ 20) && s.arg p sl 7 1 = 0
        body := fun c => ask fun s =>
          let w := s.arg c.p c.sl 0 4
          let sx := s.arg c.p c.sl 4 1
          let sy := s.arg c.p c.sl 5 1
          let sz := s.arg c.p c.sl 6 1
          let inRange : Bool := decide (sx ≤ 128 ∧ sy ≤ 128 ∧ sz ≤ 64 ∧ bits w 19 13 < sx ∧ bits w 12 6 < sy ∧ bits w 5 0 < sz)
          if s.loaded then c.reject 0x20 0
          else if ¬inRange then c.reject 0x21 0
          else
            block
              [ioSet aCoord (BitVec.ofNat 32 w),
               ioSet aTsize (BitVec.ofNat 32 ((sx - 1) * 2 ^ 13 + (sy - 1) * 2 ^ 6 + (sz - 1))),
               recheckLinks,
               c.ok 0 0 []] }) s

/-- A link goes to OFF (R275, R363). -/
def linkOff (l : Nat) : Prog := block [setLinkState l 0, modLink l fun k => { k.forget with nbyp := 0, plink := 0 }]

/-- LINK_ENABLE (R275, R278, R279, R363). -/
def execLinkEnable (p : Fin 4) (s : State) : Out :=
  perform
    (command p 0x0121
      { rdata := fun _ _ _ => 0
        argOk := fun s p sl =>
          let set := s.arg p sl 0 8
          let clr := s.arg p sl 8 8
          decide (set < 2 ^ 48 ∧ clr < 2 ^ 48) && Nat.land set clr = 0
        body := fun c => ask fun s =>
          let set := s.arg c.p c.sl 0 8
          let clr := s.arg c.p c.sl 8 8
          let named := bitsSet 48 (Nat.lor set clr)
          let flat := (bitsSet 48 set).filter fun l => s.size (linkDim l) = 1
          let mask := flat.foldl (fun m l => m + 2 ^ l) 0
          if named.any s.inLinkset then c.reject 0x23 0
          else
            block
              [forEach (bitsSet 48 clr) linkOff,
               forEach ((bitsSet 48 set).filter fun l => !flat.contains l) train,
               c.ok (if mask = 0 then 0 else 0x22) mask (toBytes 8 mask)] }) s

/-- LINK_PERSONALITY (R16, R274, R363). -/
def execLinkPersonality (p : Fin 4) (s : State) : Out :=
  perform
    (command p 0x0122
      { argOk := fun s p sl => decide (s.arg p sl 0 1 < 48 ∧ s.arg p sl 1 1 < 3) && s.arg p sl 2 6 = 0
        body := fun c => ask fun s =>
          let l := s.arg c.p c.sl 0 1
          let x := s.arg c.p c.sl 1 1
          let others := ((range 0 48).filter fun k => k ≠ l && (s.link k).pers ≠ 0).length
          if s.lstate l ≠ 0 then c.reject 0x24 0
          else if x ≠ 0 ∧ 8 ≤ others then c.reject 0x25 0
          else block [modLink l fun k => { k with pers := x }, c.ok 0 0 []] }) s

/-! ### KEY_INSTALL (R414, R415) -/

/-- KEY_INSTALL (R415): after orders 2 to 4 the command is ACCEPTED, and the blob's checks begin. -/
def execKeyInstall (p : Fin 4) (s : State) : Out :=
  perform
    (ask fun s =>
      match s.nextCmd p, cmdRow 0x0130 with
      | some sl, some r =>
        onlyIf (s.opcode p sl = 0x0130)
          (leaveQueue p sl fun c => ask fun s =>
            match s.gateA p sl r with
            | some w => c.reject w 0
            | none => c.accept)
      | _, _ => .done) s

/-- Bytes of a key blob (R414). -/
abbrev blobLen : Nat := 31488

/-- SLH-DSA-SHAKE-256s: key `pk` has hash `h`, and its signature over `m` verifies (R406, R414, R416). -/
def sigOk (pk h ctx m sig : List Byte) : Bool := shake256 pk 32 = h && Config.slhVerify256s pk ctx m sig

/-- Bytewise exclusive or. -/
def xorBytes (a b : List Byte) : List Byte := a.zipWith (fun x y => x ^^^ y) b

/-- The key that a blob wraps (R415). -/
def State.blobKey (s : State) (p : Nat) (b : List Byte) : List Byte :=
  let ss := fit 32 (Config.mlkemDecaps (s.kemSeed.take 32) (s.kemSeed.drop 32) ((b.drop 32).take 1568))
  xorBytes ((b.drop 1600).take 32)
    (shake256 (ascii "QZG1-KW" ++ ss ++ s.uidBytes ++ s.nonceBytes ++ toBytes 1 p) 32)

/-- The reason that steps b to f refuse a blob with, if any (R415). -/
def State.blobRefused (s : State) (p sl : Nat) (b : List Byte) : Option Nat :=
  let f := s.dev.fuses
  if shake256 b 32 ≠ s.req p sl 0x48 32 then some 0x33
  else if b.take 8 ≠ s.uidBytes ∨ (b.drop 8).take 8 ≠ s.nonceBytes ∨ bytesAt b 16 1 ≠ p then some 8
  else if f.active ≠ some (bytesAt b 17 1) then some 0x30
  else if ¬sigOk ((b.drop 1632).take 64) f.activeHash (ascii "QZG1-KEY") (b.take 1696) (b.drop 1696) then some 0x31
  else if ¬s.tagOk p sl (s.blobKey p b) then some 6
  else none

/-- KEY_INSTALL_DONE (R355, R356, R415): orders 6 to 8, and on success the key. -/
def execKeyInstallDone (p : Fin 4) (s : State) : Out :=
  perform
    (ask fun s =>
      match s.activeCmd p 0x0130 with
      | none => .done
      | some a0 =>
        let a : Active := { a0 with abeat := s.beat }
        let addr := s.arg p a.slot 0 8
        let b := s.rd (hostWin p addr) blobLen
        if ¬s.hostOk p addr blobLen then endCmd p a rRejected 0x32 0 []
        else
          match s.blobRefused p a.slot b with
          | some w => block [onlyIf (w = 6) (report (hpPage p) .cmdAuth 0 0), endCmd p a rRejected w 0 []]
          | none =>
            if s.reqNat p a.slot 8 8 ≤ s.ctr p then endCmd p a rRejected 7 0 []
            else
              block
                [setPair (ioa (hpPage p) 0x110) (s.reqNat p a.slot 8 8),
                 if ¬s.headerOk p a.slot ∨ addr % 64 ≠ 0 ∨ s.arg p a.slot 40 8 ≠ 0 then endCmd p a rRejected 8 0 []
                 else
                   block
                     [modPart p fun t => { t with key := some (s.blobKey p b) },
                      setFld (ioa (hpPage p) 0x11C) 0 0 1,
                      endCmd p a rOk 0 0 []]]) s

/-! ### DEBUG_UNLOCK and FUSE_PROGRAM -/

/-- A DEBUG record (R455): event, PORTS, a zero byte, H, R and a zero byte. -/
def debugRecord (event ports h r : Nat) : Prog :=
  offer { page := 0x10, code := 0x85, sev := 0,
          payload := toBytes 1 event ++ toBytes 1 ports ++ toBytes 1 0 ++ toBytes 6 h ++ toBytes 6 r ++ toBytes 1 0 }

/-- DEBUG_UNLOCK (R451). -/
def execDebugUnlock (p : Fin 4) (s : State) : Out :=
  perform
    (command p 0x0131
      { argOk := fun s p sl => decide (s.arg p sl 0 1 < 8) && s.arg p sl 1 7 = 0
        body := fun c => ask fun s =>
          let ports := s.arg c.p c.sl 0 1
          if bitAt s.options 16 then c.reject 0x38 0
          else block [setFld (ioa 0x10 0x100) 31 29 ports, debugRecord 1 ports 0 0, c.ok 0 0 []] }) s

/-- FIELD, INDEX and VALUE of FUSE_PROGRAM may stand together (R416, FUSE_FIELD). -/
def State.fuseFieldOk (s : State) (field index value : Nat) : Bool :=
  let f := s.dev.fuses
  match field with
  | 1 => (range 0 4).find? (fun k => !f.oprog.getLsbD k && !f.ovalid.getLsbD k) = some index
  | 2 => decide (index < 4) && f.ovalid.getLsbD index && !f.revoke.getLsbD index
  | 3 => decide (f.svn < value ∧ value ≤ 64)
  | 4 => Nat.land value (2 ^ 16) = value
  | _ => false

/-- The reason that refuses FUSE_PROGRAM at order 9, if any (R416). -/
def State.fuseRefused (s : State) (p sl : Nat) : Option Nat :=
  let f := s.dev.fuses
  let field := s.arg p sl 0 1
  let sig := s.arg p sl 48 8
  let au := s.rd (hostWin p sig) 29856
  let m := s.uidBytes ++ s.nonceBytes ++ s.req p sl 0x40 48
  let ok (h : List Byte) : Bool := sigOk (au.take 64) h (ascii "QZG1-FUSE") m (au.drop 64)
  if s.job then some 0x10
  else if ¬s.fuseFieldOk field (s.arg p sl 1 1) (s.arg p sl 8 8) then some 0x34
  else if field = 1 ∧ f.oprog.getLsbD (s.arg p sl 1 1) then some 0x35
  else if ¬s.hostOk p sig 29856 then some 0x32
  else
    match f.active with
    | none => if field ≠ 1 then some 0x30 else if ok (fit 32 f.vhash) then none else some 0x36
    | some _ => if ok f.activeHash then none else some 0x31

/-- FUSE_PROGRAM (R416). -/
def execFuseProgram (p : Fin 4) (s : State) : Out :=
  perform
    (command p 0x0132
      { argOk := fun s p sl =>
          let field := s.arg p sl 0 1
          s.arg p sl 2 6 = 0 && s.arg p sl 56 8 = 0 && s.arg p sl 48 8 % 64 = 0
            && (field = 1 || field = 2 || s.arg p sl 1 1 = 0) && (field = 3 || field = 4 || s.arg p sl 8 8 = 0)
            && (field = 1 || s.arg p sl 16 32 = 0)
        body := fun c => ask fun s =>
          match s.fuseRefused c.p c.sl with
          | some w => c.reject w 0
          | none => c.accept }) s

/-- The fuses after a programming whose copies read back equal (R416). -/
def Fuses.program (f : Fuses) (field index value : Nat) (hash : List Byte) : Fuses :=
  match field with
  | 1 =>
    { f with oprog := f.oprog ||| BitVec.ofNat 4 (2 ^ index), ovalid := f.ovalid ||| BitVec.ofNat 4 (2 ^ index)
             ohash := Tab.insert index hash f.ohash }
  | 2 => { f with revoke := f.revoke ||| BitVec.ofNat 4 (2 ^ index) }
  | 3 => { f with svn := value }
  | _ => { f with options := f.options ||| BitVec.ofNat 32 value }

/-- FUSE_PROGRAM_DONE (R416): the copies are read back. What a mismatch leaves in the fuses is not stated: the slot counts
as programmed, and whether the copies agree at the next fuse load is a free value (log entry 3). -/
def execFuseProgramDone (p : Fin 4) (readBackOk : Bool) (s : State) : Out :=
  perform
    (ask fun s =>
      match s.activeCmd p 0x0132 with
      | none => .done
      | some a =>
        let field := s.arg p a.slot 0 1
        let index := s.arg p a.slot 1 1
        if readBackOk then
          block
            [modDev fun d =>
               { d with fuses := d.fuses.program field index (s.arg p a.slot 8 8) (s.req p a.slot 0x50 32) },
             fuseViews,
             endCmd p a rOk 0 0 []]
        else
          block
            [modDev fun d =>
               { d with fuses := { d.fuses with
                  oprog := if field = 1 then d.fuses.oprog ||| BitVec.ofNat 4 (2 ^ index) else d.fuses.oprog
                  damaged := d.fuses.damaged || s.freeVal.getLsbD 0 } },
             useFree,
             endCmd p a rFailed 0x37 0 []]) s

/-! ### FREEZE and THAW -/

/-- FREEZE (R442). -/
def execFreeze (p : Fin 4) (s : State) : Out :=
  perform (command p 0x0140 { body := fun c => block [freezeRec, c.ok 0 0 []] }) s

/-- THAW (R442). -/
def execThaw (p : Fin 4) (s : State) : Out :=
  perform (command p 0x0141 { body := fun c => block [thawRec, c.ok 0 0 []] }) s

end Sys2Proof.Machine
end

