-- ==== Sys2Proof/Machine/Power.lean ====
section
/-! DEFINITION. Input, rails, device reset, fuse load, the PWR samples and the start of a boot (R398-R405, R407, R409-R412). -/
namespace Sys2Proof.Machine

/-- I/O addresses of the PWR page (R411). -/
abbrev pwr (o : Nat) : Nat := ioa 0xB o

/-! ### Device reset -/

/-- A device reset (R401): everything of the device returns to its reset value but its fuses, the pins, the TAP (R445) and
the straps sampled at PWR_OK. Memory keeps what no rule clears (log entry 6). -/
def deviceReset : Prog :=
  block
    [(Eff.ioClear).prog,
     (Eff.shadowClear).prog,
     (Eff.regClear 0 (192 * 32)).prog,
     (Eff.tokClear 0 (192 * 64)).prog,
     (Eff.capClear).prog,
     modDev fun d =>
       { beat := { time := d.beat.time }
         fuses := d.fuses
         icu := { perst := d.icu.perst, therm := d.icu.therm, alert := d.icu.alert }
         dbg := { tapRsp := d.dbg.tapRsp, ir := d.dbg.ir, bscan := d.dbg.bscan }
         pwr := { on := d.pwr.on, rising := d.pwr.rising, lockout := d.pwr.lockout, strap := d.pwr.strap,
                  boots := d.pwr.boots + 1 }
         readData := d.readData
         readPoison := d.readPoison
         lastOut := d.lastOut
         free := d.free },
     forEach (range 0 64) fun c => block [arrayJobStart c, vecJobStart c, (Eff.xpClear (sram 0xA c 0 / 8) 544).prog],
     clearAt (sram 0xE 0 0) 0x319000,
     clearAt (sram 0xF 0 0) 0x200000,
     clearAt (sram 0x10 0 0) 0x4000000,
     clearAt spillBase spillSize,
     clearAt 0x3FFFFF00000 0x100000,
     ask fun s => icuLevel 0xC (!s.dev.icu.perst),
     ask fun s => icuLevel 0xD (!s.dev.icu.therm),
     alertSync]

/-- STOP, when a job runs, then the rails are removed: nothing of the device stays (R398-R400). -/
def powerOff (lock : Bool) : Prog :=
  block
    [ask fun s => onlyIf s.job (takeStop 0x50 none),
     deviceReset,
     clearAt 0 0x40000000000,
     clearAt (2 ^ 48) (2 ^ 45),
     modDev fun d => { d with dbg := {}, pwr := { d.pwr with on := false, rising := false, lockout := lock } }]

/-- The start of the rail sequence (R399): INPUT_RISE. -/
def execInputRise (s : State) : Out :=
  performAlways
    (ask fun s => onlyIf (¬s.dev.pwr.on ∧ ¬s.dev.pwr.lockout) (modPwr fun p => { p with rising := true })) s

/-- INPUT_RANGE (R399): 40–46 V or 56–58 V for 100 µs. -/
def execInputRange (mv : BitVec 16) (s : State) : Out :=
  perform
    (let v := mv.toNat
     onlyIf (40000 ≤ v ∧ v < 46000 ∨ 56000 < v ∧ v ≤ 58000)
       (block
         [ioSet (pwr 0x104) (BitVec.ofNat 32 v),
          setMask (pwr 0x114) 0x20000000,
          report 0xB .inputRange 0 0,
          alertSync])) s

/-- INPUT_LOSS (R399): below 40 V or above 58 V. Only an input below 40 V lets the sequence start again. -/
def execInputLoss (mv : BitVec 16) (s : State) : Out :=
  performAlways
    (ask fun s =>
      let low : Bool := mv.toNat < 40000
      onlyIf (low ∨ 58000 < mv.toNat)
        (if s.dev.pwr.on then powerOff !low
         else modPwr fun p => { p with rising := false, lockout := p.lockout && !low })) s

/-- RAIL_FAULT (R400): a rail leaves ±5 % for 10 µs after PWR_OK. -/
def execRailFault (s : State) : Out := perform (powerOff true) s

/-- PWR_OK (R334, R400, R401): every rail is in tolerance; the straps are sampled and the device is reset. -/
def execPwrOk (strap : BitVec 2) (s : State) : Out :=
  performAlways
    (ask fun s =>
      onlyIf (s.dev.pwr.rising ∧ ¬s.dev.pwr.on)
        (block [deviceReset, modPwr fun p => { p with on := true, rising := false, strap := strap }])) s

/-- A write of `v` to PWR.DEVRST (R401). -/
def devrstEffect (v : Reg32) : Prog :=
  ask fun s =>
    onlyIf (v = 0x52530001)
      (if s.job then block [report 0xB .devReset 0 0, modStop fun x => { x with resetAfter := true }]
       else deviceReset)

/-- DEVICE_RESET_AFTER_STOP (R401): 10 µs after STOP took effect. -/
def execDeviceResetAfterStop (s : State) : Out :=
  perform
    (ask fun s =>
      onlyIf (s.dev.stop.resetAfter ∧ ¬s.job)
        (block [advanceTime (s.dev.stop.since + 55000), deviceReset])) s

/-! ### Fuse load and the boot ROM -/

/-- BOOT.STAT.PHASE, ERR and UNIT. -/
def setPhase (phase err unit : Nat) : Prog :=
  ioSet (ioa 8 0x100) (BitVec.ofNat 32 (phase * 2 ^ 28 + err * 2 ^ 24 + unit % 256 * 2 ^ 16))

/-- BOOT.STAT.PHASE. -/
def State.bootPhase (s : State) : Nat := s.fld (ioa 8 0x100) 31 28

/-- FUSE_LOAD (R402-R404, R407, R412): the fuses are read, a new nonce is drawn, and the ROM starts. M1's OPTIONS and SVN
count take the widths of R413 (log entry 17). -/
def execFuseLoad (s : State) : Out :=
  perform
    (ask fun s =>
      let f := s.dev.fuses
      onlyIf (s.fld (ioa 0xA 0x100) 31 31 = 0)
        (block
          [setPair 0x118 (Config.nonce s.dev.pwr.boots).toNat,
           if f.damaged then
             block
               [ioSet (ioa 0xA 0x100) 0xC0380000,
                alertSync,
                report 0xA .fuseLoad 0 0]
           else
             block
               [fuseViews,
                setPair 0x110 f.uid.toNat,
                extendM 0 Config.romDigest,
                extendM 1 (fit 32 f.vhash ++ f.activeHash ++ toBytes 4 s.options ++ toBytes 8 f.svn),
                forEach (range 0 12) fun i =>
                  ioSet (ioa 9 (0x440 + 4 * i)) (BitVec.ofNat 32 (ofBytes ((s.idKey.drop (4 * i)).take 4))),
                setFld (ioa 9 0x100) 31 31 1,
                setPhase 1 0 0]])) s

/-- A write of `v` to BOOT.GO (R405). -/
def bootGoEffect (v : Reg32) : Prog :=
  ask fun s =>
    let n := v.toNat
    if s.bootOpen ∧ 1 ≤ n ∧ n ≤ bootSize then
      block
        [setPhase 2 0 0,
         forEach (range 2 6) fun i => setMeasure i [],
         modPwr fun p => { p with bootLen := n }]
    else report 8 .bootProtocol 0 0

/-! ### Samples -/

/-- PWR_SAMPLE (R411): the hottest junction `tj` in quarters of a degree and the averaged input current `iin` in mA. -/
def execPwrSample (tj : BitVec 12) (iin : BitVec 16) (s : State) : Out :=
  perform
    (ask fun s =>
      let q := tj.toNat
      let ttrip := min (s.fld (pwr 0x110) 31 24) 110
      let ilim := min (s.fld (pwr 0x110) 15 8) 0x58
      let above : Bool := 4 * ttrip < q
      let warm : Bool := 4 * s.fld (pwr 0x110) 23 16 < q
      let tjTrip : Bool := above && decide (1 ≤ s.dev.pwr.hot)
      let oc : Bool := 500 * ilim < iin.toNat
      let crit : Bool := 472 < q
      block
        [ioSet (pwr 0x10C) (BitVec.ofNat 32 q),
         ioSet (pwr 0x108) (BitVec.ofNat 32 iin.toNat),
         modPwr fun p => { p with hot := if above then 1 else 0 },
         setFld (pwr 0x100) 30 30 (if warm then 1 else 0),
         icuLevel 0xB warm,
         onlyIf (tjTrip ∨ crit) (setMask (pwr 0x114) 0x80000000),
         onlyIf oc (setMask (pwr 0x114) 0x40000000),
         onlyIf tjTrip (report 0xB .tjTrip 0 0),
         onlyIf oc (report 0xB .overcurrent 0 0),
         onlyIf crit (report 0xB .tjCrit 0 0),
         alertSync,
         onlyIf crit (powerOff true)]) s

end Sys2Proof.Machine
end

