-- ==== Sys2Proof/Machine/Io.lean ====
section
/-! DEFINITION. The I/O space: what a register reads as, what a write does, who may write (R3-R6, R342-R349, R436, R437 and
the register tables of the blocks). -/
namespace Sys2Proof.Machine

/-! ### What a register reads as -/

/-- The pages' run and shadow bits and ERR (R346). -/
def State.statusReg (s : State) (page : Nat) : Nat :=
  (if s.running page then 2 ^ 31 else 0)
    + (if s.shadow.any fun x => x.1 / 0x1000 = page then 2 ^ 30 else 0)
    + (if s.ioVal (ioa page 0x14) = 0 then 0 else 2 ^ 29)

/-- CORE.CSTAT (R75). -/
def State.cstat (s : State) (c : Nat) : Nat :=
  let h := s.hart c
  let w := match h.wait with | some w => w.tok * 2 ^ 22 + 2 ^ 21 | none => 0
  w + h.lbase * 2 ^ 18 + h.ld * 2 ^ 15 + (if h.halted then 2 ^ 14 else 0) + (if h.fatal then 2 ^ 13 else 0)

/-- CLUS.ARRSTAT of core `c` (R134). -/
def State.arrstat (s : State) (c : Nat) : Nat :=
  let h := s.hart c
  let seat (b : Nat) : Bool := (Tab.get (fun _ => none) h.seats b).isSome
  let mmaf : Bool := h.arun.any fun q => match q.instr with | .mmaf _ _ => true | _ => false
  let stream : Bool := h.arun.any fun q => match q.instr with | .mma _ _ => true | .mmaf _ _ => true | _ => false
  h.modes.toNat * 2 ^ 16 + min h.aq.length 16 * 2 ^ 6 + (if mmaf then 2 ^ 5 else 0) + (if stream then 2 ^ 4 else 0)
    + (if seat 1 then 2 ^ 3 else 0) + (if seat 0 then 2 ^ 2 else 0)

/-- LINK.LSTAT and LINK.QSTAT (R305). -/
def State.lstat (s : State) (l : Nat) : Nat :=
  let k := s.link l
  k.st * 2 ^ 28 + k.pers * 2 ^ 26 + (if s.ridge = false ∧ s.parent = some l then 2 ^ 25 else 0) + k.nbyp * 2 ^ 23 + k.plink * 2 ^ 17
    + k.lanes * 2 ^ 13
def State.linkQstat (s : State) (l : Nat) : Nat :=
  let k := s.link l
  ofBits ((range 0 8).map fun i => (Tab.get (fun _ => {}) k.tx i).sending) * 2 ^ 24
    + ofBits ((range 0 8).map fun i => (Tab.get (fun _ => {}) k.rx i).st = 2) * 2 ^ 16 + k.rxq.length * 2 ^ 5 + k.txq.length

/-- STRM.QSTAT (R212). -/
def State.strmQstat (s : State) (c : Nat) : Nat :=
  let q := (s.hart c).xq
  min (s.strmTags c) 256 * 2 ^ 14 + (q.filter XFer.active).length * 2 ^ 10 + (q.filter fun x => !x.active).length * 2 ^ 4

/-- A source is pending (R389). -/
def State.pendOf (s : State) (n : Nat) : Bool := s.dev.icu.pend.getLsbD n

/-- ICU.ISSTAT of Caller core `c` (R395). -/
def State.isstat (s : State) (c : Nat) : Nat :=
  let st := (s.hart (64 + c)).insvc
  match st with
  | [] => 0
  | (n, p) :: _ => st.length * 2 ^ 16 + n * 2 ^ 8 + p

/-- The bank that BCSEL of a CLUS or FMC page selects (R190). -/
def State.selBank (s : State) (page : Nat) : Nat :=
  let ch := s.fld (ioa page 0x118) 10 5
  let b := s.fld (ioa page 0x118) 4 0
  if page < 0x80 then ((page - 0x70) * 64 + ch) * 32 + b else 32768 + ((page - 0xB0) * 4 + ch % 4) * 32 + b

/-- Registers whose value is not stored but follows from the state. -/
def State.derived (s : State) (k : PageKind) (i o : Nat) : Option Nat :=
  match k with
  | .dev => if o = 0x10C then some (s.dev.pwr.strap.toNat + (if s.dev.pwr.strap = 3 then 4 else 0)) else none
  | .hp => if o = 0x100 then some (s.fld (ioa (hpPage i) 0x100) 3 0 + (if s.present i then 16 else 0)) else none
  | .beat =>
    if o = 0x10C then some s.bstat.toNat
    else if o = 0x114 then some (s.beat.toNat % 2 ^ 32)
    else if o = 0x118 then some s.dev.beat.latch.toNat
    else none
  | .icu =>
    if 0x100 ≤ o ∧ o < 0x120 then some (ofBits ((range 0 32).map fun j => s.pendOf ((o - 0x100) / 4 * 32 + j)))
    else if 0x120 ≤ o ∧ o < 0x130 then some (s.isstat ((o - 0x120) / 4))
    else if 0x400 ≤ o ∧ o < 0x800 then
      let n := (o - 0x400) / 4
      some (s.src n % 2 ^ 30 + (if s.inService n then 2 ^ 30 else 0) + (if s.pendOf n then 2 ^ 31 else 0))
    else none
  | .err => if o = 0x108 then some s.claimVal else none
  | .recd =>
    if o = 0x118 then some (s.rdNat (rddataAt s) 4)
    else if o = 0x120 then some s.spillWord
    else if o = 0x12C then some (s.rdNat (snpAt s) 4)
    else if o = 0x134 then some (if s.dev.recd.postBusy then 2 ^ 31 else 0)
    else none
  | .dbg =>
    if o = 0x100 then
      some (s.fld (ioa 0x10 0x100) 31 28 * 2 ^ 28 + (if s.dev.dbg.h.isSome ∧ s.dev.dbg.frozen = false then 2 ^ 27 else 0)
        + (if s.dev.dbg.frozen then 2 ^ 26 else 0))
    else none
  | .core =>
    if o = 0x104 then some (s.cstat i)
    else if o = 0x114 then some (s.hart i).pc.toNat
    else if 0x118 ≤ o ∧ o < 0x138 then
      some ((range 0 8).foldl (fun v t => v + s.tok i ((o - 0x118) / 4 * 8 + t) * 2 ^ (4 * t)) 0)
    else if o = 0x154 then some (if (s.hart i).posting then 2 ^ 31 else 0)
    else none
  | .clus =>
    if o = 0x11C then
      let b := s.bank (s.selBank (clusPage i))
      some (b.ue * 2 ^ 16 + b.ce)
    else if 0x200 ≤ o ∧ o < 0x210 then some (s.arrstat (4 * i + (o - 0x200) / 4))
    else none
  | .fmc =>
    if o = 0x11C then
      let b := s.bank (s.selBank (fmcPage i))
      some (b.ue * 2 ^ 16 + b.ce)
    else none
  | .link =>
    if o = 0x100 then some (s.lstat i)
    else if o = 0x118 then some (s.linkQstat i)
    else if o = 0x11C then some ((s.link i).minStream * 2 ^ 24 + (s.link i).minSlack)
    else if o = 0x124 then some (Tab.get (fun _ => 0xFFFF) (s.link i).slack (s.fld (ioa (linkPage i) 0x120) 7 0))
    else none
  | .strm => if o = 0x100 then some (s.strmQstat i) else none
  | .upd =>
    if o = 0x110 then some (s.ioVal (upd 0x108)).toNat
    else if o = 0x204 then some (min s.stepT 0xFFFFFFFF)
    else if o = 0x224 then
      let a := s.fld (upd 0x220) 21 2 * 4
      some (if a < 0x319000 then s.rdNat (pm a) 4 else 0)
    else none
  | _ => none

/-- The value at I/O offset `a` (R342, R346): zero where no register is. -/
def State.ioRead (s : State) (a : Nat) : Nat :=
  match pageKind (a / 0x1000) with
  | none => 0
  | some (k, i) =>
    if a % 0x1000 = 0xC then s.statusReg (a / 0x1000)
    else
      match s.derived k i (a % 0x1000) with
      | some v => v % 2 ^ 32
      | none => (s.ioVal a).toNat

/-- What a read of the register at `a` does beside returning its value (R262, R304, R430, R437, R443). -/
def readEffect (a : Nat) : Prog :=
  if a = ioa 0xC 0x114 then ask fun s => modBeat fun b => { b with latch := BitVec.ofNat 16 (s.beat.toNat / 2 ^ 32) }
  else if a = ioa 0xE 0x108 then claimEffect
  else if a = ioa 0xF 0x118 then rddataEffect
  else if a = ioa 0xF 0x120 then sprddataEffect
  else if a = ioa 0xF 0x12C then snpdataEffect
  else if a = upd 0x224 then ask fun s =>
    let w := s.fld (upd 0x220) 21 2
    block [onlyIf (w * 4 < 0x319000) (touch (pm (w * 4)) 4), setFld (upd 0x220) 21 2 ((w + 1) % 2 ^ 20)]
  else .done

/-! ### What a write does -/

/-- The mask of the fields of class `c` that a write reaches; the fixed settings of R388 are not among them. -/
def writeMask (a : Nat) (r : RegRow) (c : FClass) : Reg32 :=
  match (if ioa 0xD 0x400 ≤ a ∧ a < ioa 0xD 0x800 then icuFixed ((a - ioa 0xD 0x400) / 4) else none) with
  | some (m, _) => r.mask c &&& ~~~m
  | none => r.mask c

/-- The fields of a register take a written value by their classes (R3, R4). -/
def writeFields (a : Nat) (r : RegRow) (v : Reg32) : Prog :=
  ask fun s =>
    let mh := writeMask a r .h
    let ml := writeMask a r .l
    let ms := writeMask a r .s
    let run := s.running (a / 0x1000)
    let m := if run then ml else ml ||| mh
    block
      [onlyIf (m ||| ms ≠ 0) (ioSet a (((s.ioVal a &&& ~~~m) ||| (v &&& m)) &&& ~~~(v &&& ms))),
       onlyIf (mh ≠ 0)
         ((Eff.shadow a (if run then (mh.setWidth 64 <<< 32) ||| ((v &&& mh).setWidth 64) else 0)).prog)]

/-- The core whose DCCTL stands at `a` (R190). -/
def dcctlOf (a : Nat) : Option Nat :=
  match pageKind (a / 0x1000) with
  | some (.clus, k) => if 0x180 ≤ a % 0x1000 ∧ a % 0x1000 < 0x190 then some (4 * k + (a % 0x1000 - 0x180) / 4) else none
  | _ => none

/-- The fields of a register take a written value; those of a DCCTL once the fills of its core in flight have been
installed (R189). -/
def takeWrite (a : Nat) (r : RegRow) (v : Reg32) : Prog :=
  match dcctlOf a with
  | none => writeFields a r v
  | some c => ask fun s =>
    if (s.hart c).filling then
      modHart c fun h =>
        { h with dcctl := some (((h.dcctl.getD (s.ioVal a)) &&& ~~~(r.mask .l)) ||| (v &&& r.mask .l)) }
    else writeFields a r v

/-- Apply every pending shadow of a page (R4). -/
def applyPage (page : Nat) : Prog :=
  ask fun s => forEach (s.shadow.filter fun x => x.1 / 0x1000 = page) fun x => applyShadow x.1

/-- Clearing a record's VALID clears the whole record (R190, R212, R435); ERR_STAT.LAST goes with the last of its bits
(R436). -/
def clearedRecord (a : Nat) (v : Reg32) : Prog :=
  let p := a / 0x1000
  let o := a % 0x1000
  let hit : Bool := v.getLsbD 31
  if o = 0x14 then ask fun s => onlyIf (s.fld a 31 28 = 0) (ioSet a 0)
  else
    match pageKind p with
    | some (.clus, _) | some (.fmc, _) => onlyIf (o = 0x104 ∧ hit) (block [ioSet a 0, ioSet (a + 4) 0, ioSet (a + 8) 0])
    | some (.strm, _) =>
      onlyIf (o = 0x108 ∧ hit) (block [ioSet a 0, ioSet (a + 4) 0, ioSet (a + 8) 0, ioSet (a + 12) 0])
    | some (.err, _) => onlyIf (o = 0x1A0 ∧ hit) (block [ioSet a 0, ioSet (a + 4) 0, ioSet (a + 8) 0])
    | _ => .done

/-- A level source whose condition still holds sets HP.IRQ.ICU of partition `p` again (R394). -/
def icuAgain (p : Nat) : Prog :=
  ask fun s =>
    let again : Bool := (range 2 0xDE).any fun n =>
      s.dev.icu.level.getLsbD n && !bitAt (s.src n) 9 && bits (s.src n) 13 10 = 0 && bitAt (s.src n) (14 + p)
    onlyIf (again ∧ s.fld (ioa 0xD 8) 0 0 = 0) (hpIrq p 4)

/-- What a write does beside setting fields; posts and EOI depend on the agent. -/
def writeEffect (g : Agent) (a : Nat) (v : Reg32) : Prog :=
  let p := a / 0x1000
  let o := a % 0x1000
  if o = 0x10 then ask fun s => onlyIf (v.getLsbD 0 ∧ ¬s.running p) (block [applyPage p, onlyIf (p = 0xC) recheckLinks])
  else if o = 0x40 then onlyIf (v.getLsbD 7) (snapTrigger p 1 0)
  else
    match pageKind p with
    | some (.hp, q) => onlyIf (o = 0x120 ∧ v.getLsbD 4) (icuAgain q)
    | some (.boot, _) => onlyIf (o = 0x104) (bootGoEffect v)
    | some (.pwr, _) => if o = 0x118 then devrstEffect v else onlyIf (o = 0x114) alertSync
    | some (.beat, _) => onlyIf (o = 0x100) recheckLinks
    | some (.icu, _) =>
      if o = 0x130 then (match g with | .caller n => eoiBy n v | _ => .done)
      else onlyIf (o = 0x154) (swsetBy v)
    | some (.err, _) =>
      if o = 0x10C then doneEffect v
      else onlyIf (o = 0x1C0) (xptestEffect v (report 0xE .hostWprot 0 0x1C0))
    | some (.recd, _) =>
      if o = 0x134 then (match g with | .caller n => postEffect n v | _ => .done)
      else onlyIf (o = 0x128) (modRec fun r => { r with snpWord := 0 })
    | some (.core, c) => onlyIf (o = 0x154) (recpostEffect c v)
    | some (.caller, n) => onlyIf (o = 0x104) (kickBy n)
    | some (.upd, _) => onlyIf (o = 0x214) (preReport v)
    | _ => .done

/-- A write by `g` to a register that no one keeps from it (R3, R346, R443): only Caller firmware writes LOCK, and a host's
write to POSTADDR is discarded. -/
def regWrite (g : Agent) (a : Nat) (v : Reg32) : Prog :=
  let host : Bool := match g with | .host _ => true | _ => false
  let caller : Bool := match g with | .caller _ => true | _ => false
  match regAt a with
  | none => .done
  | some r =>
    if a % 0x1000 = 0x44 ∧ ¬caller then .done
    else if a = ioa 0xF 0x130 ∧ host then .done
    else
      ask fun s =>
        let newDog : Bool := 0x60 ≤ a / 0x1000 && decide (a / 0x1000 < 0x64) && a % 0x1000 = 0x100 && s.fld a 15 0 = 0
        block
          [takeWrite a r v,
           onlyIf newDog (kickBy (a / 0x1000 - 0x60)),
           clearedRecord a v,
           writeEffect g a v]

/-! ### Who may write -/

/-- The I/O page of an agent, which reports its accesses to offsets that no page defines (R53, R342). -/
def agentPage : Agent → Nat
  | .host p => hpPage p
  | .caller n => callerPage n
  | .core c => corePage c
  | .debug => 0x10

/-- The agent is there: a host whose CXL link works (R335), a core that runs, the debug layer. -/
def State.live (s : State) : Agent → Bool
  | .host p => s.barUp p
  | .caller n => (s.hart (64 + n)).run
  | .core c => (s.hart c).run
  | .debug => true

/-- The right for a BAR0 write to a page (R344, R404). -/
def State.mayWrite (s : State) (p page : Nat) : Bool :=
  if s.bootPhase ≠ 5 then page = hpPage p || (p = 0 && (page = 0xB || page = 8))
  else
    match pageKind page with
    | some (.hp, q) => q = p || s.right p 0
    | some (.sec, _) | some (.fuse, _) => false
    | some (.core, _) | some (.clus, _) | some (.link, _) | some (.fmc, _) | some (.strm, _) | some (.red, _)
    | some (.upd, _) => s.right p 0 || s.right p 1
    | some _ => s.right p 0
    | none => true

/-- The offset is a command word of the DBG page (R455). -/
def isDbgCmd (a : Nat) : Bool := decide (ioa 0x10 0x110 ≤ a ∧ a < ioa 0x10 0x120)

/-- A write of `g` to DBG.CMD is discarded (R451): its port is locked, or it is no port. -/
def State.dbgDenied (s : State) (g : Agent) : Bool :=
  match g with
  | .host _ => s.fld (ioa 0x10 0x100) 30 30 = 0
  | .caller _ => s.fld (ioa 0x10 0x100) 31 31 = 0
  | _ => true

/-- HOST_WPROT (R344, R346, R426, R451): the page written, the partition and the offset. -/
def wprot (g : Agent) (a : Nat) : Prog :=
  report (a / 0x1000) .hostWprot (match g with | .host p => p.val | _ => 0) a

/-- A write of `v` by `g` at I/O offset `a`, a multiple of 4 (R53, R342-R346, R451). -/
def ioWrite (g : Agent) (a : Nat) (v : Reg32) : Prog :=
  if (pageKind (a / 0x1000)).isNone then report (agentPage g) .ioUnmapped 0 a
  else ask fun s =>
    let denied : Bool := match g with
      | .host p => !s.mayWrite p (a / 0x1000) || s.fld (ioa (a / 0x1000) 0x44) 0 0 = 1
      | _ => false
    if denied ∨ (isDbgCmd a ∧ s.dbgDenied g) then wprot g a else regWrite g a v

end Sys2Proof.Machine
end

