-- ==== Sys2Proof/Machine/Bundle.lean ====
section
/-! DEFINITION. The boot bundle: its checks, its measurement and what it loads (R404-R408). -/
namespace Sys2Proof.Machine

/-- A section of the bundle (R406). -/
structure BootSec where
  typ : Nat
  target : Nat
  off : Nat
  size : Nat
  data : List Byte
  deriving DecidableEq, Repr

/-- Bytes of the signature at the end of a bundle (R406). -/
abbrev bootSigLen : Nat := 29792

/-- The bundle in the BOOT window. -/
def State.bundle (s : State) : List Byte := s.rd bootBase s.dev.pwr.bootLen

/-- Its section table (R406). -/
def bootSecs (b : List Byte) : List BootSec :=
  (range 0 (bytesAt b 24 4)).map fun i =>
    let e := 256 + 16 * i
    { typ := bytesAt b e 4, off := bytesAt b (e + 4) 4, size := bytesAt b (e + 8) 4, target := bytesAt b (e + 12) 4,
      data := (b.drop (bytesAt b (e + 4) 4)).take (bytesAt b (e + 8) 4) }

/-- No two sections overlap. -/
def bootApart : List BootSec → Bool
  | [] => true
  | e :: es => (es.all fun f => e.size = 0 || f.size = 0 || !overlaps e.off e.size f.off f.size) && bootApart es

/-- Check 1 (R408): the header, and sections that lie between the table and the signature (log entry 17). -/
def bundleFormatOk (b : List Byte) : Bool :=
  let n := bytesAt b 24 4
  decide (256 + bootSigLen ≤ b.length) && b.take 8 = ascii "QZBUNDLE" && bytesAt b 8 4 = 1 && bytesAt b 12 4 = b.length
    && decide (1 ≤ n ∧ n ≤ 256) && zeroAt b 28 4 && zeroAt b 96 160 && decide (256 + 16 * n + bootSigLen ≤ b.length)
    && (let ss := bootSecs b
        (ss.all fun e => decide (256 + 16 * n ≤ e.off ∧ e.off + e.size ≤ b.length - bootSigLen)) && bootApart ss)

/-- The size and target that a section type permits (R406). -/
def bootSecOk (e : BootSec) : Bool :=
  match e.typ with
  | 1 => e.size % 2 = 0 && decide (e.size ≤ 524288 ∧ e.target < 4)
  | 2 => decide (e.size ≤ 0x100000 ∧ e.target < 4)
  | 3 => e.size = 4096 && decide (e.target < 4)
  | 4 => e.size = 64 && decide (e.target < 4)
  | 5 => e.size = 4 && decide (e.target < 4)
  | 6 => decide (e.target < 2)
  | 7 => e.size % 8 = 0 && e.target = 0
  | 8 => e.size = 104 && e.target = 0
  | _ => false

/-- The section of a type and target, empty when there is none. -/
def bootSec (ss : List BootSec) (typ target : Nat) : List Byte :=
  match ss.find? fun x => x.typ = typ && x.target = target with
  | some x => x.data
  | none => []

/-- Check 5 (R408). -/
def bundleSecsOk (ss : List BootSec) : Bool :=
  ss.all bootSecOk
    && ((range 0 4).all fun n => [1, 5].all fun t => ss.any fun x => x.typ = t && x.target = n)
    && (ss.all fun x => x.typ ≠ 3 || (range 0 256).all fun e => let c := capIn x.data (16 * e); !c.valid || decide (c.otype ≤ 4))

/-- Extend measurement register `i` with the sections of the given types, when there are any (R407). -/
def extendSecs (i : Nat) (ss : List BootSec) (types : List Nat) : Prog :=
  let xs := ss.filter fun x => types.contains x.typ
  onlyIf (xs ≠ []) (extendM i (xs.flatMap BootSec.data))

/-- BUNDLE_VERIFY (R407, R408): checks 1 to 5, and the measurement. -/
def execBundleVerify (s : State) : Out :=
  perform
    (ask fun s =>
      onlyIf (s.bootPhase = 2)
        (let b := s.bundle
         let f := s.dev.fuses
         let ss := bootSecs b
         let pk := (b.drop 32).take 64
         let n := b.length - bootSigLen
         if ¬bundleFormatOk b then setPhase 6 1 0
         else if shake256 pk 32 ≠ fit 32 f.vhash then setPhase 6 2 0
         else if ¬Config.slhVerify256s pk (ascii "QZG1-BUNDLE") (b.take n) (b.drop n) then setPhase 6 3 0
         else if bytesAt b 16 8 < f.svn then setPhase 6 4 0
         else if ¬bundleSecsOk ss then setPhase 6 5 0
         else
           block
             [extendM 2 (b.take (256 + 16 * bytesAt b 24 4)),
              extendSecs 3 ss [1, 2],
              extendSecs 4 ss [3, 4, 5],
              extendSecs 5 ss [6, 7],
              extendSecs 6 ss [8],
              setPhase 3 0 0])) s

/-! ### Configuration and start -/

/-- The configuration records in table order (R406): I/O offset and value. -/
def bootRecords (ss : List BootSec) : List (Nat × Nat) :=
  (ss.filter fun x => x.typ = 7).flatMap fun x =>
    (range 0 (x.data.length / 8)).map fun i => (bytesAt x.data (8 * i) 3, bytesAt x.data (8 * i + 4) 4)

/-- A record may be applied: it names no BOOT, SEC, FUSE or DBG page, no unmapped offset and no RO field (R408). -/
def bootRecordOk (r : Nat × Nat) : Bool :=
  let p := r.1 / 0x1000
  p ≠ 8 && p ≠ 9 && p ≠ 0xA && p ≠ 0x10 && r.1 % 4 = 0 &&
    match regAt r.1 with
    | none => false
    | some x =>
      let w := x.mask .h ||| x.mask .l ||| x.mask .s ||| x.mask .wo
      w ≠ 0 && BitVec.ofNat 32 r.2 &&& ~~~w = 0

/-- The index of the first record that fails check 8. -/
def badRecord (rs : List (Nat × Nat)) : Option Nat := rs.findIdx? fun r => !bootRecordOk r

/-- Load Caller core `n` (R408). -/
def loadCaller (ss : List BootSec) (n : Nat) : Prog :=
  let u := 64 + n
  block
    [loadProgram u (bootSec ss 1 n),
     loadBlocks (callerBase n) (bootSec ss 2 n),
     forEach (range 1 255) fun e => setStore u e (capIn (bootSec ss 3 n) (16 * e)),
     forEach (range 0 16) fun d =>
       ioDirect (ioa (callerPage n) (0x180 + 4 * d)) (BitVec.ofNat 32 (bytesAt (bootSec ss 4 n) (4 * d) 4) &&& 0x00FFFFFF),
     ask fun s => forEach (range 1 15) fun i => setCreg u i (s.store u (16 + i)),
     ask fun s =>
       modHart u fun h =>
         { h with
           esp := BitVec.ofNat 32 (s.store u 14).len
           capdepth := 0
           pc := BitVec.ofNat 18 (bytesAt (bootSec ss 5 n) 0 4 % pmSize u)
           run := true
           wdStart := s.dev.beat.time }]

/-- The partition layout of the bundle, or the default of R337. -/
def bootLayout (ss : List BootSec) : Prog :=
  let l := bootSec ss 8 0
  if l = [] then setFld (ioa (hpPage 0) 0x100) 3 0 0xF
  else
    block
      [setLayout (l.take 96),
       forEach (range 0 4) fun p => setFld (ioa (hpPage p) 0x10C) 10 0 (bytesAt l (96 + 2 * p) 2)]

/-- DRAM_TRAINING_DONE (R404, R408): checks 6 to 8; then the records are applied, the Caller cores start and the device
is READY. The ROM writes as Caller core 0, on which it runs. -/
def execDramTrainingDone (badStack badFmc : Option (Fin 16)) (s : State) : Out :=
  perform
    (ask fun s =>
      onlyIf (s.bootPhase = 3)
        (let ss := bootSecs s.bundle
         let rs := bootRecords ss
         let l := bootSec ss 8 0
         match badStack, badFmc, badRecord rs with
         | some k, _, _ => setPhase 6 6 k.val
         | none, some k, _ => setPhase 6 7 k.val
         | none, none, some i => setPhase 6 8 (i % 256)
         | none, none, none =>
           if l ≠ [] ∧ ¬s.layoutOk (l.take 96) then setPhase 6 8 0
           else
             block
               [setPhase 4 0 0,
                forEach rs fun r => regWrite (.caller 0) r.1 (BitVec.ofNat 32 r.2),
                bootLayout ss,
                forEach (range 0 4) (loadCaller ss),
                setPhase 5 0 0,
                setDevState 2])) s

end Sys2Proof.Machine
end

