-- ==== Sys2Proof/Machine/CapInstr.lean ====
section
/-! DEFINITION. The capability instructions (R377-R380). -/
namespace Sys2Proof.Machine

/-- The reserved fields are zero and the unit is a core (R285, R377). -/
def capLegal (u : UnitId) (f : S2C) (fn : Nat) : Bool := f.fn = BitVec.ofNat 4 fn && f.rsvA = 0 && f.rsvB = 0 && !isSeq u.num

/-- An instruction that names a destination ca: c15 is none (R372). -/
def destOk (f : S2C) : Bool := f.ca ≠ 15

/-- Write ca, then complete. -/
def writeCa (u : UnitId) (f : S2C) (c : Cap) : Prog := block [setCreg u.num f.ca.toNat c, retire u.num 2]

/-- CMOV (R377, R378). -/
def execCmov (u : UnitId) (f : S2C) (s : State) : Out :=
  instr u 2 (capLegal u f 0 ∧ destOk f ∧ f.rs = 0)
    (capUse u.num [capIx f.cb.toNat] <| ask fun s => writeCa u f (s.creg u.num f.cb.toNat)) s

/-- CNULL (R377). -/
def execCnull (u : UnitId) (f : S2C) (s : State) : Out :=
  instr u 2 (capLegal u f 1 ∧ destOk f ∧ f.cb = 0 ∧ f.rs = 0) (writeCa u f 0) s

/-- A capability with new bounds. -/
def Cap.narrow (c : Cap) (base len : Nat) : Cap :=
  BitVec.ofNat 128 (c.toNat / 2 ^ 109 * 2 ^ 109 + len % 2 ^ 45 * 2 ^ 64 + base % 2 ^ 64)

/-- A capability with new permissions. -/
def Cap.setPerm (c : Cap) (p : Nat) : Cap :=
  BitVec.ofNat 128 (c.toNat / 2 ^ 116 * 2 ^ 116 + p % 128 * 2 ^ 109 + c.toNat % 2 ^ 109)

/-- A capability with a new object type. -/
def Cap.setOtype (c : Cap) (t : Nat) : Cap :=
  BitVec.ofNat 128 (c.toNat / 2 ^ 120 * 2 ^ 120 + t % 16 * 2 ^ 116 + c.toNat % 2 ^ 116)

/-- CNARROW (R377, R378). -/
def execCnarrow (u : UnitId) (f : S2C) (s : State) : Out :=
  instr u 2 (capLegal u f 0 ∧ destOk f ∧ f.rs.toNat % 2 = 0)
    (capUse u.num [capIx f.cb.toNat] <| ask fun s =>
      let c := s.creg u.num f.cb.toNat
      let b := (s.reg u.num f.rs.toNat).toNat
      let l := (s.reg u.num (f.rs.toNat + 1)).toNat
      if ¬c.valid then raise u.num .authority b
      else if ¬c.within b l then raise u.num .capBounds (c.firstOut b)
      else writeCa u f (c.narrow b l)) s

/-- CPERM (R377, R378). -/
def execCperm (u : UnitId) (f : S2C) (s : State) : Out :=
  instr u 2 (capLegal u f 0 ∧ destOk f)
    (capUse u.num [capIx f.cb.toNat] <| ask fun s =>
      let c := s.creg u.num f.cb.toNat
      if ¬c.valid then raise u.num .authority c.base
      else writeCa u f (c.setPerm (Nat.land c.perm ((s.reg u.num f.rs.toNat).toNat % 128)))) s

/-- The field that CGET reads (R377). -/
def Cap.field (c : Cap) (fn : Nat) : Nat :=
  match fn with
  | 0 => c.base
  | 1 => c.len
  | 2 => c.perm
  | 3 => c.otype
  | 4 => c.domain
  | _ => if c.valid then 1 else 0

/-- CGET (R377). -/
def execCget (u : UnitId) (f : S2C) (s : State) : Out :=
  instr u 2 (capLegal u f f.fn.toNat ∧ f.fn.toNat < 6 ∧ f.ca = 0)
    (capUse u.num [capIx f.cb.toNat] <|
      writeRd u.num 2 f.rs fun s => BitVec.ofNat 64 ((s.creg u.num f.cb.toNat).field f.fn.toNat)) s

/-- The Store index check of R378. -/
def storeAccess (u : UnitId) (f : S2C) (perm : Nat) (k : Nat → Prog) : Prog :=
  capUse u.num [capIx f.cb.toNat] <| ask fun s =>
    let i := (s.reg u.num f.rs.toNat).toNat
    match (s.creg u.num f.cb.toNat).err otStore perm i 1 with
    | some (c, a) => raise u.num c a
    | none => if 256 ≤ i then raise u.num .capBounds i else k i

/-- CLDS (R377, R378). -/
def execClds (u : UnitId) (f : S2C) (s : State) : Out :=
  instr u 2 (capLegal u f 0 ∧ destOk f)
    (storeAccess u f pR fun i => capUse u.num [i] <| ask fun s => writeCa u f (s.store u.num i)) s

/-- CSTS (R377, R378). -/
def execCsts (u : UnitId) (f : S2C) (s : State) : Out :=
  instr u 2 (capLegal u f 1)
    (storeAccess u f pW fun i => capUse u.num [capIx f.ca.toNat] <| ask fun s =>
      block [setStore u.num i (s.creg u.num f.ca.toNat), retire u.num 2]) s

/-- CCLRS (R377, R378). -/
def execCclrs (u : UnitId) (f : S2C) (s : State) : Out :=
  instr u 2 (capLegal u f 2 ∧ f.ca = 0)
    (storeAccess u f pW fun i => block [setStore u.num i 0, retire u.num 2]) s

/-- CMINT (R379). -/
def execCmint (u : UnitId) (f : S2C) (s : State) : Out :=
  instr u 2 (capLegal u f 0 ∧ destOk f ∧ f.rs.toNat % 2 = 0)
    (capUse u.num [capIx f.cb.toNat] <| ask fun s =>
      let c := s.creg u.num f.cb.toNat
      let b := (s.reg u.num f.rs.toNat).toNat
      let w := (s.reg u.num (f.rs.toNat + 1)).toNat
      let perm := bits w 51 45
      if bits w 63 60 ≠ 0 ∨ 5 < bits w 55 52 ∨ 2 ^ 44 < bits w 44 0 then raise u.num .illegal 0
      else if ¬(c.valid ∧ Nat.land c.perm pSys = pSys) ∨ Nat.land perm pDebug ≠ 0 ∧ Nat.land c.perm pDebug = 0
          ∨ ¬s.mayEnter u.num c.domain (bits w 59 56) then raise u.num .authority b
      else writeCa u f (mkCap (bits w 59 56) (bits w 55 52) perm (bits w 44 0) b)) s

/-- WESP (R379). -/
def execWesp (u : UnitId) (f : S2C) (s : State) : Out :=
  instr u 2 (capLegal u f 1 ∧ f.ca = 0)
    (capUse u.num [capIx f.cb.toNat] <| ask fun s =>
      let c := s.creg u.num f.cb.toNat
      let v := s.reg u.num f.rs.toNat
      if c.valid ∧ Nat.land c.perm pSys = pSys then
        block [modHart u.num fun h => { h with esp := BitVec.ofNat 32 v.toNat }, retire u.num 2]
      else raise u.num .authority 0) s

/-- HOME of a domain (R374). -/
def State.home (s : State) (u t : Nat) : Nat := s.fld (ioa (unitPage u) (0x180 + 4 * t)) 23 16

/-- What CCALL writes once its checks have passed (R380). -/
def ccallTo (u : Nat) (ca : Cap) (target : Nat) (ret : Cap) (link : Bool) : Prog :=
  ask fun s =>
    capUse u [s.home u ca.domain] <| ask fun s =>
      block
        [onlyIf link (setReg u 31 (BitVec.ofNat 64 (pcPlus u (s.hart u).pc.toNat 2))),
         setCreg u 12 (s.store u (s.home u ca.domain)),
         setCreg u 13 ret,
         setCreg u 15 (ca.setOtype otProgram),
         finish u (fun h => { h with pc := BitVec.ofNat 18 (target % pmSize u) }) none]

/-- CCALL (R380). -/
def execCcall (u : UnitId) (f : S2C) (s : State) : Out :=
  instr u 2 (capLegal u f 0 ∧ f.rs = 0 ∧ f.cb = 0)
    (capUse u.num [capIx f.ca.toNat, capIx 15] <| ask fun s =>
      let c := s.creg u.num f.ca.toNat
      let x := s.creg u.num 15
      let back := (s.reg u.num 31).toNat % pmSize u.num
      if ¬(c.valid ∧ Nat.land c.perm pX = pX ∧ (c.otype = otEntry ∨ c.otype = otReturn)) then
        raise u.num .authority c.base
      else if c.otype = otEntry then
        if ¬s.mayEnter u.num x.domain c.domain then raise u.num .authority c.base
        else if ¬c.within c.base 1 then raise u.num .capBounds c.base
        else ccallTo u.num c c.base (x.setOtype otReturn) true
      else if ¬c.within back 1 then raise u.num .capBounds back
      else ccallTo u.num c back 0 false) s

end Sys2Proof.Machine
end

