-- ==== Sys2Proof/Machine/Debug.lean ====
section
/-! DEFINITION. The debug command layer and system-synchronous halts (R446-R454). -/
namespace Sys2Proof.Machine

/-! ### Ports and responses -/

/-- The port's bit of PORTS (R451). -/
def portBit : DbgPort → Nat
  | .tap => 0
  | .host _ => 1
  | .caller _ => 2

/-- The port is there: power for the TAP, the CXL link of a host, a running Caller core (R445, R446). -/
def State.portLive (s : State) : DbgPort → Bool
  | .tap => true
  | .host p => s.barUp p
  | .caller n => (s.hart (64 + n)).run

/-- The port is unlocked (R451). -/
def State.unlocked (s : State) (p : DbgPort) : Bool := s.fld (ioa 0x10 0x100) (29 + portBit p) (29 + portBit p) = 1

/-- The response of a command: STATUS and DATA (R446). DATA of a command that returns none is a free value (log entry 3). -/
def dbgRespond (p : DbgPort) (status : Nat) (data : Option Nat) : Prog :=
  ask fun s =>
    let d := match data with
      | some v => v % 2 ^ 64
      | none => s.freeVal.toNat
    let r := status + d * 2 ^ 64
    block
      [onlyIf data.isNone useFree,
       match p with
       | .tap => modDbg fun g => { g with tapRsp := BitVec.ofNat 128 r }
       | _ => forEach (range 0 4) fun i => ioSet (ioa 0x10 (0x120 + 4 * i)) (BitVec.ofNat 32 (r / 2 ^ (32 * i)))]

/-- STATUS values (R447). -/
abbrev dOk : Nat := 0
abbrev dLocked : Nat := 2
abbrev dBad : Nat := 3
abbrev dFault : Nat := 4
abbrev dState : Nat := 5

/-- What a command makes of a state: an effect, then a status and perhaps data. -/
structure DbgDone where
  act : Prog := .done
  status : Nat := dOk
  data : Option Nat := none

/-- A refused command. -/
def dbgFail (st : Nat) : DbgDone := { status := st }

/-- A command of a port: LOCKED while the port is locked (R451). -/
def dbgCommand (p : DbgPort) (f : State → DbgDone) : Prog :=
  ask fun s =>
    onlyIf (s.portLive p)
      (if s.unlocked p then block [(f s).act, dbgRespond p (f s).status (f s).data]
       else dbgRespond p dLocked none)

/-- The unit code names a core, a Caller core or a sequencer (R446). -/
def isUnit (u : Nat) : Bool := decide (u < 0x44) || (decide (0x80 ≤ u) && decide (u < 0xB0))

/-- A debug write while a job runs taints the job (R452). -/
def taint : Prog := ask fun s => onlyIf s.job (setFld (ioa 0x10 0x100) 28 28 1)

/-! ### Commands on units -/

/-- HALT (R447, R449). -/
def dbgHalt (w : DbgWord) (s : State) : DbgDone :=
  let u := w.unit.toNat
  let h := s.hart u
  if ¬isUnit u then dbgFail dBad
  else if ¬h.run ∨ h.halted ∨ h.fatal then dbgFail dState
  else { act := block [askHalt u 1, tryHalt u] }

/-- A halted unit goes on (R69, R449); `how` is 1 for STEP and 0 for RESUME, which passes a breakpoint at the PC. -/
def unhalt (u how : Nat) : Prog :=
  ask fun s =>
    modHart u fun h =>
      { h with
        halted := false
        stepping := some how
        wait := h.wait.map fun x => { x with since := x.since + (s.dev.beat.time - h.haltAt) } }

/-- A command that needs a halted unit (R447); a core that has halted core-fatal is one (R76, R384). -/
def needHalted (w : DbgWord) (s : State) (k : Nat → DbgDone) : DbgDone :=
  if ¬isUnit w.unit.toNat then dbgFail dBad
  else if ¬((s.hart w.unit.toNat).halted ∨ (s.hart w.unit.toNat).fatal) then dbgFail dState
  else k w.unit.toNat

/-- A command that makes a halted unit go on; a core-fatal core leaves its state only by device reset (R384). -/
def needAlive (w : DbgWord) (s : State) (k : Nat → DbgDone) : DbgDone :=
  needHalted w s fun u => if (s.hart u).fatal then dbgFail dState else k u

/-- RESUME (R447). -/
def dbgResume (w : DbgWord) (s : State) : DbgDone := needAlive w s fun u => { act := unhalt u 0 }

/-- STEP (R447, R449): the unit executes one step and halts again. -/
def dbgStep (w : DbgWord) (s : State) : DbgDone := needAlive w s fun u => { act := unhalt u 1 }

/-- RDREG (R448). -/
def dbgRdreg (w : DbgWord) (s : State) : DbgDone :=
  needHalted w s fun u =>
    let a := w.addr.toNat
    if a < 0x20 then { data := some (s.reg u a).toNat }
    else if a = 0x20 then { data := some (s.hart u).pc.toNat }
    else if a = 0x200 then { data := some (s.hart u).reason.toNat }
    else if 0x100 ≤ a ∧ a < 0x140 then
      match s.readSr u (a - 0x100) with
      | some v => { data := some v }
      | none => dbgFail dBad
    else dbgFail dBad

/-- WRREG (R448, R452). -/
def dbgWrreg (w : DbgWord) (s : State) : DbgDone :=
  needHalted w s fun u =>
    let a := w.addr.toNat
    let v := w.data.toNat
    if 1 ≤ a ∧ a < 0x20 then { act := block [taint, setReg u a w.data] }
    else if a = 0x20 then { act := block [taint, modHart u fun h => { h with pc := BitVec.ofNat 18 (v % pmSize u) }] }
    else if 0x100 ≤ a ∧ a < 0x140 ∧ srWritable u (a - 0x100) ∧ srValueOk (a - 0x100) v then
      { act := block [taint, modHart u (Hart.writeSr u (a - 0x100) v)] }
    else dbgFail dBad

/-- SETBP (R447). -/
def dbgSetbp (w : DbgWord) (_ : State) : DbgDone :=
  let u := w.unit.toNat
  let v := w.data.toNat
  if 0x44 ≤ u then dbgFail dBad
  else
    { act := modHart u fun h =>
        { h with bps := Tab.put (fun _ => 0) h.bps (w.addr.toNat % 8)
                          (BitVec.ofNat 64 (v % 2 ^ 18 + bits v 63 63 * 2 ^ 63)) } }

/-- SETWP (R447). -/
def dbgSetwp (w : DbgWord) (_ : State) : DbgDone :=
  let u := w.unit.toNat
  if 0x40 ≤ u then dbgFail dBad
  else { act := modHart u fun h => { h with wps := Tab.put (fun _ => 0) h.wps (w.addr.toNat % 4) w.data } }

/-! ### Commands on memory and the I/O space -/

/-- RDP (R54, R447). -/
def dbgRdp (w : DbgWord) (s : State) : DbgDone :=
  let u := w.unit.toNat
  let a := w.addr.toNat
  let blks := (range 0 4).map fun i => pmAddr u ((a + i) % pmSize u) / 8
  if ¬isUnit u then dbgFail dBad
  else if blks.any s.blkBad then { act := forEach blks touchBlk, status := dFault }
  else { act := forEach blks touchBlk, data := some (s.pldWord u a) }

/-- WRP (R54, R447, R452). -/
def dbgWrp (w : DbgWord) (_ : State) : DbgDone :=
  let u := w.unit.toNat
  if ¬isUnit u then dbgFail dBad
  else { act := block [taint, pmWrite u 4 w.addr.toNat (w.data.toNat % 2 ^ 56)] }

/-- RDD (R447): the 8 bytes at a physical address. -/
def dbgRdd (w : DbgWord) (s : State) : DbgDone :=
  let a := w.addr.toNat
  if a % 8 ≠ 0 then dbgFail dBad
  else if ¬s.exists true a then dbgFail dFault
  else if (s.poisonIn a 8).isSome then { act := touch a 8, status := dFault }
  else { act := block [bankReq 0x10 a false, touch a 8], data := some (s.rdNat a 8) }

/-- WRD (R447, R452): not checked against durable ranges. -/
def dbgWrd (w : DbgWord) (s : State) : DbgDone :=
  let a := w.addr.toNat
  if a % 8 ≠ 0 then dbgFail dBad
  else if ¬s.exists true a then dbgFail dFault
  else
    { act := block [taint, bankReq 0x10 a true, writeAt a (toBytes 8 w.data.toNat)]
      status := if s.writeLost a 8 then dFault else dOk }

/-- RDIO (R345, R447). -/
def dbgRdio (w : DbgWord) (s : State) : DbgDone :=
  let a := w.addr.toNat
  if a % 4 ≠ 0 ∨ 2 ^ 24 ≤ a then dbgFail dBad
  else { act := readEffect a, data := some (s.ioRead a) }

/-- WRIO (R345, R447, R452). -/
def dbgWrio (w : DbgWord) (_ : State) : DbgDone :=
  let a := w.addr.toNat
  if a % 4 ≠ 0 ∨ 2 ^ 24 ≤ a then dbgFail dBad
  else { act := block [taint, ioWrite .debug a (BitVec.ofNat 32 w.data.toNat)] }

/-! ### Unit state -/

/-- A word of SRAM, or a fault when it is poisoned. -/
def State.sramWord (s : State) (a : Nat) : DbgDone :=
  if (s.poisonIn a 8).isSome then { act := touch a 8, status := dFault } else { act := touch a 8, data := some (s.rdNat a 8) }

/-- Half `h` of a capability. -/
def State.capHalf (s : State) (u ix h : Nat) (c : Cap) : DbgDone :=
  let b := sram 0xA u (16 * ix) / 8 + h
  if s.blkBad b then { act := touchBlk b, status := dFault }
  else { act := touchBlk b, data := some (if h = 0 then c.toNat % 2 ^ 64 else c.toNat / 2 ^ 64) }

/-- An accumulator word: `a` is the narrow tile; a wide pair shows its wide element (R450). Poisoned data is reported and
not consumed (R447). -/
def State.accWord (s : State) (u a m n k : Nat) : DbgDone :=
  let wide := s.wideMode u (a / 2)
  let acc := if wide then a / 2 else a
  let e := s.accGet u wide acc m n
  if s.accBad u wide acc m n then { act := accScan u wide acc m n, status := dFault }
  else
    { act := accScan u wide acc m n
      data := some (if k < 3 then unsignedOf 192 e.v / 2 ^ (64 * k) else e.poison % 4 + (if e.inexact then 4 else 0)) }

/-- A queued tile instruction or transfer is still to clear row `r` of tile `t`, whose bytes stand there from before the
tag (R80, R92, R194). -/
def State.tilePending (s : State) (u t r : Nat) : Bool :=
  let h := s.hart u
  (h.tq.any fun q => q.clears.any fun c => decide (c.1 = t ∧ c.2.1 ≤ r ∧ r < c.2.1 + c.2.2.1))
    || h.xq.any fun x => !x.active && x.dstTile == some t

/-- RDSTATE (R80, R450). -/
def dbgRdstate (w : DbgWord) (s : State) : DbgDone :=
  let u := w.unit.toNat
  let kind := bits w.addr.toNat 47 40
  let i := bits w.addr.toNat 39 0
  if 0x40 ≤ u then dbgFail dBad
  else if ¬((s.hart u).halted ∨ (s.hart u).fatal) then dbgFail dState
  else
    match kind with
    | 0 => if i < 32 * 128 then s.sramWord (vAddr u (i / 128) (i % 128 * 8)) else dbgFail dBad
    | 1 => if i < 8 * 128 then s.sramWord (mAddr u (i / 128) (i % 128 * 8)) else dbgFail dBad
    | 2 =>
      let t := i / 4096
      let b := i % 4096 * 8
      if 8 ≤ t then dbgFail dBad
      else
        match s.tag u t with
        | none => { data := some 0 }
        | some g =>
          if b / 256 < g.rows ∧ b % 256 < g.rb ∧ ¬s.tilePending u t (b / 256) then s.sramWord (tileAddr u t (b / 256) (b % 256)) else { data := some 0 }
    | 3 => if i < 16 * 2 ^ 16 then s.accWord u (i / 2 ^ 16) (i / 2 ^ 9 % 128) (i / 4 % 128) (i % 4) else dbgFail dBad
    | 4 => if i < 2 * 128 * 18 then s.sramWord (seatAddr u (i / 2304) (i / 18 % 128) (i % 18 * 8)) else dbgFail dBad
    | 5 => if i < 32 then s.capHalf u (capIx (i / 2)) (i % 2) (s.creg u (i / 2)) else dbgFail dBad
    | 6 => if i < 512 then s.capHalf u (i / 2) (i % 2) (s.store u (i / 2)) else dbgFail dBad
    | _ => dbgFail dBad

/-! ### System-synchronous halt -/

/-- The ports that are unlocked, as PORTS. -/
def State.ports (s : State) : Nat := s.fld (ioa 0x10 0x100) 31 29

/-- SYSHALT (R453). `H` is a job beat (log entry 19). -/
def dbgSyshalt (w : DbgWord) (s : State) : DbgDone :=
  let h : BitVec 48 := w.data.setWidth 48
  if w.unit ≠ 0xFF then dbgFail dBad
  else if s.jobOn ∧ s.dev.dbg.h = none ∧ (range 0 8).all (fun n => !s.brOn n) ∧ 64 ≤ (h - s.jobBeat).toInt then
    { act := modDbg fun d => { d with h := some h, r := none } }
  else dbgFail dState

/-- SYSRESUME (R454). -/
def dbgSysresume (w : DbgWord) (s : State) : DbgDone :=
  let r : BitVec 48 := w.data.setWidth 48
  if w.unit ≠ 0xFF then dbgFail dBad
  else if ¬s.dev.dbg.frozen ∨ (r - s.beat).toInt < 64 then dbgFail dState
  else
    match s.dev.dbg.r with
    | none => { act := modDbg fun d => { d with r := some r } }
    | some r' => if r' = r then {} else { act := report 0x10 .dbgSync 0 0, status := dState }

/-- HALT_RECEIVED (R453, R454): H, and R when it is not 0. A header that was sent before the resume beat and arrives after
it brings nothing new. -/
def execHaltReceived (l : Fin 48) (h r : BitVec 48) (s : State) : Out :=
  perform
    (ask fun s =>
      let stale : Bool := s.dev.dbg.h.isNone && r ≠ 0 && decide ((r - s.beat).toInt ≤ 0)
      onlyIf (s.jobOn ∧ s.lstate l = 3 ∧ (s.link l).pers = 0 ∧ ¬stale)
        (match s.dev.dbg.h with
         | none =>
           if (h - s.jobBeat).toInt ≤ 0 then report 0x10 .dbgSync 0 0
           else modDbg fun d => { d with h := some h, r := if r = 0 then none else some r }
         | some h' =>
           if h' ≠ h then report 0x10 .dbgSync 0 0
           else
             match s.dev.dbg.r with
             | none => onlyIf (r ≠ 0) (modDbg fun d => { d with r := some r })
             | some r' => onlyIf (r ≠ 0 ∧ r ≠ r') (report 0x10 .dbgSync 0 0))) s

/-- Every compute core and sequencer. -/
def jobUnits : List Nat := range 0 64 ++ range 128 48

/-- SYSHALT_BEAT (R454): the job beat reaches H. -/
def execSyshaltBeat (s : State) : Out :=
  perform
    (ask fun s =>
      match s.dev.dbg.h with
      | none => .done
      | some h =>
        onlyIf (s.jobOn ∧ ¬s.dev.dbg.frozen)
          (block
            [advanceBeat (h + s.hoff),
             modDbg fun d => { d with frozen := true },
             forEach jobUnits fun u => ask fun s =>
               onlyIf ((s.hart u).run ∧ ¬(s.hart u).halted ∧ ¬(s.hart u).fatal) (block [askHalt u 5, tryHalt u]),
             setDevState 4,
             debugRecord 2 s.ports h.toNat 0])) s

/-- SYSRESUME_BEAT (R454): at beat R the job beat reads H again, and the units go on. -/
def execSysresumeBeat (s : State) : Out :=
  perform
    (ask fun s =>
      match s.dev.dbg.h, s.dev.dbg.r with
      | some h, some r =>
        onlyIf (s.jobOn ∧ s.dev.dbg.frozen)
          (block
            [advanceBeat r,
             setPair (ioa 0x10 0x104) (r - h).toNat,
             modDbg fun d => { d with h := none, r := none, frozen := false },
             forEach jobUnits fun u => ask fun s =>
               let x := s.hart u
               if x.halted ∧ x.reason = 5 then unhalt u 0
               else onlyIf (x.haltReq = some 5) (modHart u fun y => { y with haltReq := none }),
             setDevState 3,
             debugRecord 3 s.ports h.toNat r.toNat])
      | _, _ => .done) s

/-! ### The command rows -/

/-- NOP (R447, R451): it returns the pending response, and no lock keeps it off. -/
def execDbgNop (p : DbgPort) (_w : DbgWord) (s : State) : Out :=
  perform
    (ask fun s =>
      onlyIf (s.portLive p)
        (answer (match p with
          | .tap => toBytes 16 s.dev.dbg.tapRsp.toNat
          | _ => s.regBytes (ioa 0x10 0x120) 4))) s

/-- HALT (R449). -/
def execHalt (p : DbgPort) (w : DbgWord) (s : State) : Out := perform (dbgCommand p (dbgHalt w)) s

/-- RESUME (R447). -/
def execResume (p : DbgPort) (w : DbgWord) (s : State) : Out := perform (dbgCommand p (dbgResume w)) s

/-- STEP (R449). -/
def execStep (p : DbgPort) (w : DbgWord) (s : State) : Out := perform (dbgCommand p (dbgStep w)) s

/-- RDREG (R448). -/
def execRdreg (p : DbgPort) (w : DbgWord) (s : State) : Out := perform (dbgCommand p (dbgRdreg w)) s

/-- WRREG (R448). -/
def execWrreg (p : DbgPort) (w : DbgWord) (s : State) : Out := perform (dbgCommand p (dbgWrreg w)) s

/-- RDP (R447). -/
def execRdp (p : DbgPort) (w : DbgWord) (s : State) : Out := perform (dbgCommand p (dbgRdp w)) s

/-- WRP (R447). -/
def execWrp (p : DbgPort) (w : DbgWord) (s : State) : Out := perform (dbgCommand p (dbgWrp w)) s

/-- RDD (R447). -/
def execRdd (p : DbgPort) (w : DbgWord) (s : State) : Out := perform (dbgCommand p (dbgRdd w)) s

/-- WRD (R447). -/
def execWrd (p : DbgPort) (w : DbgWord) (s : State) : Out := perform (dbgCommand p (dbgWrd w)) s

/-- RDIO (R447). -/
def execRdio (p : DbgPort) (w : DbgWord) (s : State) : Out := perform (dbgCommand p (dbgRdio w)) s

/-- WRIO (R447). -/
def execWrio (p : DbgPort) (w : DbgWord) (s : State) : Out := perform (dbgCommand p (dbgWrio w)) s

/-- SETBP (R447). -/
def execSetbp (p : DbgPort) (w : DbgWord) (s : State) : Out := perform (dbgCommand p (dbgSetbp w)) s

/-- SETWP (R447). -/
def execSetwp (p : DbgPort) (w : DbgWord) (s : State) : Out := perform (dbgCommand p (dbgSetwp w)) s

/-- SYSHALT (R453). -/
def execSyshalt (p : DbgPort) (w : DbgWord) (s : State) : Out := perform (dbgCommand p (dbgSyshalt w)) s

/-- SYSRESUME (R454). -/
def execSysresume (p : DbgPort) (w : DbgWord) (s : State) : Out := perform (dbgCommand p (dbgSysresume w)) s

/-- RDSTATE (R450). -/
def execRdstate (p : DbgPort) (w : DbgWord) (s : State) : Out := perform (dbgCommand p (dbgRdstate w)) s

/-- The command of an OP (R447): BAD for a reserved one. -/
def dbgOp (op : Nat) (w : DbgWord) (s : State) : DbgDone :=
  match op with
  | 0x01 => dbgHalt w s
  | 0x02 => dbgResume w s
  | 0x03 => dbgStep w s
  | 0x04 => dbgRdreg w s
  | 0x05 => dbgWrreg w s
  | 0x06 => dbgRdp w s
  | 0x07 => dbgWrp w s
  | 0x08 => dbgRdd w s
  | 0x09 => dbgWrd w s
  | 0x0A => dbgRdio w s
  | 0x0B => dbgWrio w s
  | 0x0C => dbgSetbp w s
  | 0x0D => dbgSetwp w s
  | 0x0E => dbgSyshalt w s
  | 0x0F => dbgSysresume w s
  | 0x10 => dbgRdstate w s
  | _ => dbgFail dBad

/-- A write of CMD3 executes the word in CMD0–CMD3 (R446, R455). -/
def cmdWritten (p : DbgPort) : Prog :=
  ask fun s =>
    let c (i : Nat) : Nat := (s.ioVal (ioa 0x10 (0x110 + 4 * i))).toNat
    let v := c 0 + c 1 * 2 ^ 32 + c 2 * 2 ^ 64 + c 3 * 2 ^ 96
    onlyIf (v % 256 ≠ 0)
      (dbgCommand p (dbgOp (v % 256)
        { unit := BitVec.ofNat 8 (v / 2 ^ 8), addr := BitVec.ofNat 48 (v / 2 ^ 16), data := BitVec.ofNat 64 (v / 2 ^ 64) }))

end Sys2Proof.Machine
end

