-- ==== Sys2Proof/Machine/RegCmd.lean ====
section
/-! DEFINITION. IN and OUT, and the commands that read or write one register (R4, R53, R219, R259, R262, R304, R342-R347,
R376, R388, R392, R401, R405, R426, R430, R434, R437, R439, R443). -/
namespace Sys2Proof.Machine

/-! ### Accesses -/

/-- A write of `v` by `g` at offset `a`: a write of DBG.CMD3 also executes (R446). -/
def ioStore (g : Agent) (a : Nat) (v : Reg32) : Prog :=
  ask fun s =>
    let open' : Bool := a = ioa 0x10 0x11C && !s.dbgDenied g
      && (match g with | .host p => s.mayWrite p 0x10 && s.fld (ioa 0x10 0x44) 0 0 = 0 | _ => true)
    block
      [ioWrite g a v,
       onlyIf open'
         (match g with
          | .host p => cmdWritten (.host p)
          | .caller n => cmdWritten (.caller n)
          | _ => .done)]

/-- A register write of an agent as a command of its own: nothing comes of one that is not there, or that is not a 4-byte
access at a multiple of 4 (R343). -/
def writeCmd (g : Agent) (a : Nat) (v : Reg32) (s : State) : Out :=
  perform (ask fun s => onlyIf (s.live g ∧ a % 4 = 0) (ioStore g a v)) s

/-- A register read of an agent as a command of its own: the value is returned, and the read has its effect. -/
def readCmd (g : Agent) (a : Nat) (s : State) : Out :=
  perform (ask fun s => onlyIf (s.live g) (block [answer (toBytes 4 (s.ioRead a)), readEffect a])) s

/-! ### IN and OUT -/

/-- The agent that a unit is in the I/O space. -/
def unitAgent : UnitId → Agent
  | .core c => .core c
  | .caller n => .caller n
  | .seq _ => .debug

/-- The permissions of IN and OUT at offset `a` (R376). -/
def ioPerm (a : Nat) : Nat :=
  let p := a / 0x1000
  if p ≤ 0xF ∨ 0x60 ≤ p ∧ p ≤ 0x63 then pIo + pSys
  else if p = 0x10 then pIo + pSys + pDebug
  else pIo

/-- The address and the checks of IN and OUT in the order of R53. -/
def ioAccess (u : Nat) (f : S2I) (k : Nat → Prog) : Prog :=
  capUse u [capIx 2] <| ask fun s =>
    let a := (s.dAddr u f) % 2 ^ 24
    let c := s.creg u 2
    if ¬c.authOk otIo (ioPerm a) then raise u .authority a
    else if a % 4 ≠ 0 then raise u .align a
    else if ¬c.within a 4 then raise u .capBounds (c.firstOut a)
    else k a

/-- The shadow of an IN (R55): the value is captured at issue (log entry 9); rd takes it zero-extended (log entry 18). An
IN from UPD.CMTWAIT by a compute core returns at the commit (R219). -/
def inShadow (s : State) (u rd a : Nat) (waits : Bool) : Shadow :=
  { rd := rd, left := 3, data := if waits then 0 else BitVec.ofNat 64 (s.ioRead a), arrived := !waits,
    pc := (s.hart u).pc, addr := BitVec.ofNat 64 a, phys := 0, commit := waits, fill := none }

/-- The core has arrived for the step (R219). -/
def arrive (c : Nat) : Prog :=
  setMask (upd (if c < 32 then 0x114 else 0x118)) (BitVec.ofNat 32 (2 ^ (c % 32)))

/-- IN (R53, R219). -/
def inInstr (u : UnitId) (f : S2I) (s : State) : Out :=
  instr u 2 (¬isSeq u.num)
    (ioAccess u.num f fun a => ask fun s =>
      let waits : Bool := isCore u.num && a = upd 0x110
      block
        [onlyIf waits (arrive u.num),
         finish u.num (seqPc u.num 2) (some (inShadow s u.num f.rd.toNat a waits)),
         if (pageKind (a / 0x1000)).isNone then report (agentPage (unitAgent u)) .ioUnmapped 0 a
         else readEffect a]) s

/-- IN (R53). -/
def execInp (u : UnitId) (f : S2I) (s : State) : Out := inInstr u f s

/-- CMTWAIT (R219): an IN from UPD.CMTWAIT. -/
def execCmtwait (u : UnitId) (f : S2I) (s : State) : Out := inInstr u f s

/-- OUT (R53): posted; it acts at issue (log entry 9). -/
def execOutp (u : UnitId) (f : S2I) (s : State) : Out :=
  instr u 2 (¬isSeq u.num)
    (ioAccess u.num f fun a => ask fun s =>
      let v : Reg32 := (s.reg u.num f.rd.toNat).setWidth 32
      block [retire u.num 2, ioStore (unitAgent u) a v]) s

/-! ### Register writes -/

/-- REGISTER_WRITE (R343, R344). -/
def execRegisterWrite (a : Agent) (off : BitVec 24) (v : Reg32) (s : State) : Out := writeCmd a off.toNat v s

/-- COMMIT (R4): a write to the COMMIT register of a page. -/
def execCommit (a : Agent) (page : BitVec 12) (v : Reg32) (s : State) : Out := writeCmd a (ioa page.toNat 0x10) v s

/-- SNAP_TRIG_FIRE (R436, R437): a write to the SNAP_TRIG register of a page with FIRE set. -/
def execSnapTrigFire (a : Agent) (page : BitVec 12) (v : Reg32) (s : State) : Out :=
  writeCmd a (ioa page.toNat 0x40) (v ||| 0x80) s

/-- EOI (R392). -/
def execEoi (a : Agent) (v : Reg32) (s : State) : Out := writeCmd a (ioa 0xD 0x130) v s

/-- SWSET (R388). -/
def execSwset (a : Agent) (v : Reg32) (s : State) : Out := writeCmd a (ioa 0xD 0x154) v s

/-- PREREPORT (R259). -/
def execPrereport (a : Agent) (v : Reg32) (s : State) : Out := writeCmd a (upd 0x214) v s

/-- DEVRST (R401). -/
def execDevrst (a : Agent) (v : Reg32) (s : State) : Out := writeCmd a (pwr 0x118) v s

/-- BOOT_GO (R405). -/
def execBootGo (a : Agent) (v : Reg32) (s : State) : Out := writeCmd a (ioa 8 0x104) v s

/-- DONE (R430). -/
def execDone (a : Agent) (v : Reg32) (s : State) : Out := writeCmd a (ioa 0xE 0x10C) v s

/-- XPTEST_WRITE (R426): a write of ERR.XPTEST with OP 1. -/
def execXptestWrite (a : Agent) (v : Reg32) (s : State) : Out := writeCmd a (ioa 0xE 0x1C0) (putBits v 31 30 1) s

/-- XPTEST_READ (R426): a write of ERR.XPTEST with OP 2. -/
def execXptestRead (a : Agent) (v : Reg32) (s : State) : Out := writeCmd a (ioa 0xE 0x1C0) (putBits v 31 30 2) s

/-- WDKICK (R434). -/
def execWdkick (a : Agent) (n : Fin 4) (v : Reg32) (s : State) : Out := writeCmd a (ioa (callerPage n) 0x104) v s

/-- RECPOST (R439). -/
def execRecpost (a : Agent) (c : Fin 64) (v : Reg32) (s : State) : Out := writeCmd a (ioa (corePage c) 0x154) v s

/-- POST (R439). -/
def execPost (a : Agent) (v : Reg32) (s : State) : Out := writeCmd a (ioa 0xF 0x134) v s

/-! ### Register reads with an effect -/

/-- CNT_LO_READ (R304). -/
def execCntLoRead (a : Agent) (s : State) : Out := readCmd a (ioa 0xC 0x114) s

/-- CLAIM (R430). -/
def execClaim (a : Agent) (s : State) : Out := readCmd a (ioa 0xE 0x108) s

/-- RDDATA (R443). -/
def execRddata (a : Agent) (s : State) : Out := readCmd a (ioa 0xF 0x118) s

/-- SPRDDATA (R443). -/
def execSprddata (a : Agent) (s : State) : Out := readCmd a (ioa 0xF 0x120) s

/-- SNPDATA (R437). -/
def execSnpdata (a : Agent) (s : State) : Out := readCmd a (ioa 0xF 0x12C) s

/-- PMDATA (R262). -/
def execPmdata (a : Agent) (s : State) : Out := readCmd a (upd 0x224) s

/-- SNAPSHOT (R437): the pending triggers of a page give one record; sampled reads have no effect. -/
def execSnapshot (page : BitVec 12) (s : State) : Out :=
  perform
    (ask fun s =>
      let p := page.toNat
      snapshotOf p ((range 0 8).map fun i =>
        if s.fld (ioa p (0x20 + 4 * i)) 31 31 = 1 then s.ioRead (ioa p (s.fld (ioa p (0x20 + 4 * i)) 11 2 * 4)) else 0)) s

end Sys2Proof.Machine
end

