-- ==== Sys2Proof/Machine/HostAcc.lean ====
section
/-! DEFINITION. Accesses of a host: device memory (R339), the BOOT window (R404), BAR0 (R343) and the reads of BAR2 (R350,
R367). -/
namespace Sys2Proof.Machine

/-- The bytes of a host read, with its own writes that wait for admission (R174), marked where poisoned (R178). -/
def hostAnswer (p a n : Nat) : Prog :=
  ask fun s =>
    let bs := (range a n).map fun x => (s.postedByte (hpPage p) x).getD (s.rdByte x)
    if (range a n).any fun x => (s.postedByte (hpPage p) x).isNone && s.poisoned x then answerPoison bs else answer bs

/-- A host write of bytes: to DRAM a request for each sector or line (R174, R187). -/
def hostStore (p a : Nat) (bs : List Byte) : Prog :=
  forEach (pieces bs.length a bs.length) fun (b, m) =>
    storeGrain (hpPage p) { w := .other, va := 0, n := 0, leads := [] }
      ((((bs.drop (b - a)).take m).zipIdx).map fun x => (b + x.2, x.1)) false

/-! ### BAR0 and BAR2 -/

/-- An access of 4 bytes at a multiple of 4, or of 8 at a multiple of 8 (R343). -/
def barAligned (a n : Nat) : Bool := (n = 4 || n = 8) && a % n = 0

/-- A read of BAR0 (R343): each word in turn, the lower first, with its effect. Another access completes with Unsupported
Request: no data (log entry 10). -/
def bar0Read (a n : Nat) : Prog :=
  if barAligned a n ∧ a + n ≤ 0x1000000 then
    block
      [answer [],
       forEach (range 0 (n / 4)) fun k => ask fun s =>
         block [answer (s.dev.readData ++ toBytes 4 (s.ioRead (a + 4 * k))), readEffect (a + 4 * k)]]
  else answer []

/-- A write of BAR0 (R343, R344): each word in turn, the lower first; another access has no effect. -/
def bar0Write (p : Fin 4) (a : Nat) (bs : List Byte) : Prog :=
  onlyIf (barAligned a bs.length ∧ a + bs.length ≤ 0x1000000)
    (forEach (range 0 (bs.length / 4)) fun k =>
      ioStore (.host p) (a + 4 * k) (BitVec.ofNat 32 (ofBytes ((bs.drop (4 * k)).take 4))))

/-- MBSTAT (R350). -/
def State.mbstat (s : State) (p : Nat) : Nat := (range 0 4).foldl (fun n sl => n + s.mbSlot p sl * 2 ^ (4 * sl)) 0

/-- The words of BAR2 below the slots (R350). -/
def State.bar2Word (s : State) (p a : Nat) : Nat := if a = 4 then s.mbstat p else 0

/-- A read of BAR2 (R350, R367): the journal window reads the mirror in far memory, marked where poisoned; what is not listed
reads zero; another access completes with Unsupported Request. -/
def bar2Read (p : Fin 4) (a n : Nat) : Prog :=
  ask fun s =>
    let sized : Bool := [1, 2, 4, 8].contains n && a % n = 0
    if a < 0x1000 then
      if barAligned a n then answer ((range 0 (n / 4)).flatMap fun k => toBytes 4 (s.bar2Word p (a + 4 * k))) else answer []
    else if a < 0x5000 then
      if sized then block [touch (sram 0x10 p a) n, ask fun s => answer (s.rd (sram 0x10 p a) n)] else answer []
    else if 0xF000 ≤ a ∧ a < 0xF080 then
      if barAligned a n then answer (s.rd (sram 0x10 p a) n) else answer []
    else if 0xF800 ≤ a ∧ a < 0xF808 then
      if barAligned a n then answer ((toBytes 8 (s.part p).pba.toNat).drop (a - 0xF800) |>.take n) else answer []
    else if 0x40000 ≤ a ∧ a + n ≤ 0x80000 then
      if sized then
        let j := journalAddr p 0 + (a - 0x40000)
        block [bankRange (hpPage p) none j n, touch j n, hostAnswer p j n]
      else answer []
    else answer (List.replicate n 0)

/-- CXL_MEM_ACCESS (R178, R339, R343, R350, R404). -/
def execCxlMemAccess (p : Fin 4) (dpa : Nat) (op : MemOp) (s : State) : Out :=
  perform
    (ask fun s =>
      let read (n : Nat) (ecc : Ecc) : Prog :=
        match s.hdmAt p dpa n with
        | none => answerPoison (List.replicate n 0)
        | some a =>
          block
            [bankRange (hpPage p) none a n,
             onlyIf (¬s.disabled a) (eccEvent a ecc),
             touch a n,
             hostAnswer p a n]
      onlyIf (s.dev.pwr.on ∧ s.present p ∧ (s.part p).cxlUp)
        (match op with
         | .read n => read n .clean
         | .readEcc n ecc => read n ecc
         | .write bs =>
           match s.hdmAt p dpa bs.length with
           | none => report (hpPage p) .hostMemRange 0 dpa
           | some a => hostStore p a bs
         | .bootRead n =>
           if p.val = 0 ∧ s.bootOpen ∧ dpa + n ≤ bootSize then
             block [touch (bootBase + dpa) n, ask fun s => answer (s.rd (bootBase + dpa) n)]
           else answer (List.replicate n 0)
         | .bootWrite bs =>
           onlyIf (p.val = 0 ∧ s.bootOpen ∧ dpa + bs.length ≤ bootSize) (writeAt (bootBase + dpa) bs)
         | .bar0Read n => bar0Read dpa n
         | .bar0Write bs => bar0Write p dpa bs
         | .bar2Read n => bar2Read p dpa n)) s

end Sys2Proof.Machine
end

