-- ==== Sys2Proof/Machine/Side.lean ====
section
/-! DEFINITION. The TAP (R445), the SMBus target (R463), ALERT_N (R464) and the management chain (R466-R468, R471). -/
namespace Sys2Proof.Machine

/-! ### The TAP -/

/-- TAP_RESET (R445): TRST_N low resets the TAP and nothing else; IEEE 1149.1 then selects IDCODE. -/
def execTapReset (s : State) : Out := perform (modDbg fun d => { d with ir := 1, bscan := 0 }) s

/-- EXTEST (R445): the boundary register takes what is shifted in, in INIT; at other times it acts as BYPASS. -/
def execExtest (pins : BitVec 32) (s : State) : Out :=
  perform
    (ask fun s =>
      if s.devState = 1 then modDbg fun d => { d with ir := 0, bscan := pins } else modDbg fun d => { d with ir := 0xFF }) s

/-- IDCODE (R445). -/
def execIdcode (s : State) : Out :=
  perform (block [modDbg fun d => { d with ir := 1 }, answer (toBytes 4 0x10001CE3)]) s

/-- SAMPLE_PRELOAD (R445): the sideband pins are captured and shifted out. -/
def execSamplePreload (pins : BitVec 32) (s : State) : Out :=
  perform (block [modDbg fun d => { d with ir := 2, bscan := pins }, answer (toBytes 4 pins.toNat)]) s

/-- BYPASS (R445): 0xFF and every code that no instruction has. -/
def execBypass (ir : BitVec 8) (s : State) : Out :=
  perform (onlyIf (ir ≠ 0 ∧ ir ≠ 1 ∧ ir ≠ 2 ∧ ir ≠ 0x20) (modDbg fun d => { d with ir := 0xFF })) s

/-! ### The readable set -/

/-- The offset lies in the readable set (R471). -/
def readable (a : Nat) : Bool :=
  a % 4 = 0 &&
    (decide (0x100 ≤ a ∧ a < 0x12C) || decide (0xB100 ≤ a ∧ a < 0xB118) || decide (0xC104 ≤ a ∧ a < 0xC11C) || a = 0xA100)

/-- Fuse load has ended (R463, R467). -/
def State.fuseLoaded (s : State) : Bool := s.fld (ioa 0xA 0x100) 31 31 = 1

/-! ### SMBus -/

/-- One step of the CRC-8 of a PEC, polynomial x^8 + x^2 + x + 1 (SMBus 3.2; log entry 16). -/
def pecBit (c : BitVec 8) : BitVec 8 := if c.getLsbD 7 then (c <<< 1) ^^^ 0x07 else c <<< 1

/-- The PEC of the bytes of a transfer. -/
def pecOf (bs : List Byte) : Byte := bs.foldl (fun c b => (range 0 8).foldl (fun c _ => pecBit c) (c ^^^ b)) 0

/-- SMBUS_BLOCK_WRITE (R463): command 0x01 with 3 bytes sets the read pointer. A wrong PEC is refused. -/
def execSmbusBlockWrite (data : List Byte) (pec : Option Byte) (s : State) : Out :=
  perform
    (ask fun s =>
      let good : Bool := match pec with
        | none => true
        | some p => p = pecOf ([0xB0, 0x01, BitVec.ofNat 8 data.length] ++ data)
      onlyIf (s.fuseLoaded ∧ data.length = 3 ∧ good) (modPwr fun p => { p with smbPtr := BitVec.ofNat 24 (ofBytes data) })) s

/-- SMBUS_BLOCK_READ (R463): command 0x02 returns 4 bytes and moves the pointer; outside the readable set, a count of 0.
The answer is the count, the bytes and the PEC. -/
def execSmbusBlockRead (s : State) : Out :=
  perform
    (ask fun s =>
      let a := s.dev.pwr.smbPtr.toNat
      let bs : List Byte := if readable a then 4 :: toBytes 4 (s.ioRead a) else [0]
      onlyIf s.fuseLoaded
        (block
          [answer (bs ++ [pecOf ([0xB0, 0x02, 0xB1] ++ bs)]),
           onlyIf (readable a) (modPwr fun p => { p with smbPtr := p.smbPtr + 4 })])) s

/-- ALERT_RESPONSE (R463): the Alert Response Address is answered while the device drives ALERT_N. -/
def execAlertResponse (s : State) : Out :=
  perform (ask fun s => onlyIf (s.fuseLoaded ∧ s.drivesAlert) (answer [0x58])) s

/-! ### The management chain -/

/-- The frame that a device sends on for the frame `d` (R467). -/
def State.mchServe (s : State) (d : List Byte) : List Byte :=
  let pos := bytesAt d 2 2
  let target := bytesAt d 8 8
  let mine : Bool := bytesAt d 7 1 = 0 && (if bytesAt d 1 1 = 1 then target = pos else target = s.pair 0x110)
  let a := bytesAt d 4 3
  let head := d.take 2 ++ toBytes 2 (pos + 1) ++ toBytes 3 a
  let body :=
    if mine then
      if readable a then head ++ [1] ++ (d.drop 8).take 8 ++ toBytes 4 (s.ioRead a)
      else head ++ [2] ++ (d.drop 8).take 12
    else head ++ (d.drop 7).take 13
  body ++ toBytes 4 (crc32c body).toNat

/-- MCH_FRAME (R466-R468): before the end of fuse load, and without power, the frame passes unchanged; a frame with a wrong
CRC or a reserved OP is discarded. -/
def execMchFrame (data : List Byte) (s : State) : Out :=
  performAlways
    (ask fun s =>
      onlyIf (data.length = 24 ∧ bytesAt data 0 1 = 0xA5)
        (if ¬s.dev.pwr.on ∨ ¬s.fuseLoaded then transmit data
         else
           onlyIf ((crc32c (data.take 20)).toNat = bytesAt data 20 4 ∧ (bytesAt data 1 1 = 1 ∨ bytesAt data 1 1 = 2))
             (transmit (s.mchServe data)))) s

end Sys2Proof.Machine
end

