-- ==== Sys2Proof/Machine/Waits.lean ====
section
/-! DEFINITION. The end of a token wait (R67): the waiting instruction goes on. -/
namespace Sys2Proof.Machine

/-- Issue a waiting instruction again: every instruction that can wait on a token (R67, R82, R107, R150, R193, R248). -/
def reissue (i : Instr) (s : State) : Out :=
  match i with
  | .waittok u f => execWaittok u f s
  | .waittokN u f => execWaittokN u f s
  | .tld u f => execTld u f s
  | .tst u f => execTst u f s
  | .tzero u f => execTzero u f s
  | .trel u f => execTrel u f s
  | .tsave u f => execTsave u f s
  | .trestore u f => execTrestore u f s
  | .mseat u f => execMseat u f s
  | .mma u f => execMma u f s
  | .mmaf u f => execMmaf u f s
  | .mzero u f => execMzero u f s
  | .manchor u f => execManchor u f s
  | .mdrain u f => execMdrain u f s
  | .mwait u f => execMwait u f s
  | .vld u f => execVld u f s
  | .vlds u f => execVlds u f s
  | .vldff u f => execVldff u f s
  | .vgth u f => execVgth u f s
  | .vgthff u f => execVgthff u f s
  | .vst u f => execVst u f s
  | .vsct u f => execVsct u f s
  | .vmld u f => execVmld u f s
  | .vmst u f => execVmst u f s
  | .tbrow u f => execTbrow u f s
  | .tbcol u f => execTbcol u f s
  | .updMom u f => execUpdMom u f s
  | .updWgt u f => execUpdWgt u f s
  | .updRow u f => execUpdRow u f s
  | .sq u f => execSq u f s
  | _ => .next s

/-- TOKEN_WAIT_SATISFIED (R67, R69, R75): the token that the unit's oldest instruction waits for holds enough; the wait ends
and the instruction goes on. -/
def execTokenWaitSatisfied (u : UnitId) (s : State) : Out :=
  match (s.hart u.num).wait with
  | none => .next s
  | some w =>
    if s.dev.pwr.on ∧ (s.hart u.num).run ∧ ¬(s.hart u.num).halted ∧ w.need ≤ s.tok u.num w.tok then
      reissue w.instr ((waitEnds u.num).run s)
    else .next s

end Sys2Proof.Machine
end

