-- ==== Sys2Proof/Machine/Dispatch.lean ====
section
/-! DEFINITION. One arm per command. -/
namespace Sys2Proof.Machine

/-- What a command does (everything but the queue). -/
def exec (i : Instr) (s : State) : Host.Outcome State Fault Refusal :=
  match i with
  | .nop u f => Sys2Proof.Machine.execNop u f s
  | .waittok u f => Sys2Proof.Machine.execWaittok u f s
  | .waittokN u f => Sys2Proof.Machine.execWaittokN u f s
  | .tokenWaitSatisfied u => Sys2Proof.Machine.execTokenWaitSatisfied u s
  | .tokenTimeout c => Sys2Proof.Machine.execTokenTimeout c s
  | .sigtok u f => Sys2Proof.Machine.execSigtok u f s
  | .sigtokR u f => Sys2Proof.Machine.execSigtokR u f s
  | .sigtokRelease u => Sys2Proof.Machine.execSigtokRelease u s
  | .fence u f => Sys2Proof.Machine.execFence u f s
  | .lfence u f => Sys2Proof.Machine.execLfence u f s
  | .ret u f => Sys2Proof.Machine.execRet u f s
  | .eret u f => Sys2Proof.Machine.execEret u f s
  | .cinv u f => Sys2Proof.Machine.execCinv u f s
  | .alu u f => Sys2Proof.Machine.execAlu u f s
  | .addi u f => Sys2Proof.Machine.execAddi u f s
  | .andi u f => Sys2Proof.Machine.execAndi u f s
  | .ori u f => Sys2Proof.Machine.execOri u f s
  | .xori u f => Sys2Proof.Machine.execXori u f s
  | .shli u f => Sys2Proof.Machine.execShli u f s
  | .shri u f => Sys2Proof.Machine.execShri u f s
  | .srai u f => Sys2Proof.Machine.execSrai u f s
  | .ld u sz f => Sys2Proof.Machine.execLd u sz f s
  | .ldu u sz f => Sys2Proof.Machine.execLdu u sz f s
  | .st u sz f => Sys2Proof.Machine.execSt u sz f s
  | .inp u f => Sys2Proof.Machine.execInp u f s
  | .outp u f => Sys2Proof.Machine.execOutp u f s
  | .br u f => Sys2Proof.Machine.execBr u f s
  | .brLong u f => Sys2Proof.Machine.execBrLong u f s
  | .j u f => Sys2Proof.Machine.execJ u f s
  | .call u f => Sys2Proof.Machine.execCall u f s
  | .loop u f => Sys2Proof.Machine.execLoop u f s
  | .mfsr u f => Sys2Proof.Machine.execMfsr u f s
  | .mtsr u f => Sys2Proof.Machine.execMtsr u f s
  | .li u f => Sys2Proof.Machine.execLi u f s
  | .pld u f => Sys2Proof.Machine.execPld u f s
  | .pst u f => Sys2Proof.Machine.execPst u f s
  | .loadDataArrival u ecc => Sys2Proof.Machine.execLoadDataArrival u ecc s
  | .mergingBufferDrain u => Sys2Proof.Machine.execMergingBufferDrain u s
  | .tld u f => Sys2Proof.Machine.execTld u f s
  | .tst u f => Sys2Proof.Machine.execTst u f s
  | .tzero u f => Sys2Proof.Machine.execTzero u f s
  | .trel u f => Sys2Proof.Machine.execTrel u f s
  | .tsave u f => Sys2Proof.Machine.execTsave u f s
  | .trestore u f => Sys2Proof.Machine.execTrestore u f s
  | .tileRowArrival c ecc => Sys2Proof.Machine.execTileRowArrival c ecc s
  | .mseat u f => Sys2Proof.Machine.execMseat u f s
  | .mma u f => Sys2Proof.Machine.execMma u f s
  | .mmaf u f => Sys2Proof.Machine.execMmaf u f s
  | .mzero u f => Sys2Proof.Machine.execMzero u f s
  | .manchor u f => Sys2Proof.Machine.execManchor u f s
  | .mdrain u f => Sys2Proof.Machine.execMdrain u f s
  | .mwait u f => Sys2Proof.Machine.execMwait u f s
  | .arrayInstructionStart c => Sys2Proof.Machine.execArrayInstructionStart c s
  | .arrayInstructionComplete c k => Sys2Proof.Machine.execArrayInstructionComplete c k s
  | .vsetl u f => Sys2Proof.Machine.execVsetl u f s
  | .vectorInteger u f => Sys2Proof.Machine.execVectorInteger u f s
  | .vectorFloat u f => Sys2Proof.Machine.execVectorFloat u f s
  | .vectorFma u f => Sys2Proof.Machine.execVectorFma u f s
  | .vectorFunction u f => Sys2Proof.Machine.execVectorFunction u f s
  | .vectorCompare u f => Sys2Proof.Machine.execVectorCompare u f s
  | .vectorMaskOp u f => Sys2Proof.Machine.execVectorMaskOp u f s
  | .vectorReduction u f => Sys2Proof.Machine.execVectorReduction u f s
  | .vcvt u f => Sys2Proof.Machine.execVcvt u f s
  | .vmv u f => Sys2Proof.Machine.execVmv u f s
  | .vbcast u f => Sys2Proof.Machine.execVbcast u f s
  | .vmvx u f => Sys2Proof.Machine.execVmvx u f s
  | .vins u f => Sys2Proof.Machine.execVins u f s
  | .vmpop u f => Sys2Proof.Machine.execVmpop u f s
  | .vld u f => Sys2Proof.Machine.execVld u f s
  | .vlds u f => Sys2Proof.Machine.execVlds u f s
  | .vldff u f => Sys2Proof.Machine.execVldff u f s
  | .vgth u f => Sys2Proof.Machine.execVgth u f s
  | .vgthff u f => Sys2Proof.Machine.execVgthff u f s
  | .vst u f => Sys2Proof.Machine.execVst u f s
  | .vsct u f => Sys2Proof.Machine.execVsct u f s
  | .vmld u f => Sys2Proof.Machine.execVmld u f s
  | .vmst u f => Sys2Proof.Machine.execVmst u f s
  | .tbrow u f => Sys2Proof.Machine.execTbrow u f s
  | .tbcol u f => Sys2Proof.Machine.execTbcol u f s
  | .updMom u f => Sys2Proof.Machine.execUpdMom u f s
  | .updWgt u f => Sys2Proof.Machine.execUpdWgt u f s
  | .updRow u f => Sys2Proof.Machine.execUpdRow u f s
  | .updStart c => Sys2Proof.Machine.execUpdStart c s
  | .sq u f => Sys2Proof.Machine.execSq u f s
  | .transferStart c => Sys2Proof.Machine.execTransferStart c s
  | .streamerRequest c k ecc => Sys2Proof.Machine.execStreamerRequest c k ecc s
  | .transferComplete c k => Sys2Proof.Machine.execTransferComplete c k s
  | .cmov u f => Sys2Proof.Machine.execCmov u f s
  | .cnull u f => Sys2Proof.Machine.execCnull u f s
  | .cnarrow u f => Sys2Proof.Machine.execCnarrow u f s
  | .cperm u f => Sys2Proof.Machine.execCperm u f s
  | .cget u f => Sys2Proof.Machine.execCget u f s
  | .clds u f => Sys2Proof.Machine.execClds u f s
  | .csts u f => Sys2Proof.Machine.execCsts u f s
  | .cclrs u f => Sys2Proof.Machine.execCclrs u f s
  | .cmint u f => Sys2Proof.Machine.execCmint u f s
  | .wesp u f => Sys2Proof.Machine.execWesp u f s
  | .ccall u f => Sys2Proof.Machine.execCcall u f s
  | .larm u f => Sys2Proof.Machine.execLarm u f s
  | .lwaitb u f => Sys2Proof.Machine.execLwaitb u f s
  | .lwaitbComplete l => Sys2Proof.Machine.execLwaitbComplete l s
  | .beput u f => Sys2Proof.Machine.execBeput u f s
  | .icuArbitration => Sys2Proof.Machine.execIcuArbitration s
  | .interruptEntry n => Sys2Proof.Machine.execInterruptEntry n s
  | .eoi a v => Sys2Proof.Machine.execEoi a v s
  | .swset a v => Sys2Proof.Machine.execSwset a v s
  | .glitchFilterChange p level => Sys2Proof.Machine.execGlitchFilterChange p level s
  | .jobStartBeat => Sys2Proof.Machine.execJobStartBeat s
  | .outcomeBeat => Sys2Proof.Machine.execOutcomeBeat s
  | .commitBeat => Sys2Proof.Machine.execCommitBeat s
  | .cmtwait u f => Sys2Proof.Machine.execCmtwait u f s
  | .stepScalarsReady => Sys2Proof.Machine.execStepScalarsReady s
  | .prereport a v => Sys2Proof.Machine.execPrereport a v s
  | .stop => Sys2Proof.Machine.execStop s
  | .stopReceived l => Sys2Proof.Machine.execStopReceived l s
  | .jobIrqDeadline => Sys2Proof.Machine.execJobIrqDeadline s
  | .beatEvaluation => Sys2Proof.Machine.execBeatEvaluation s
  | .slot0HeaderReceived l h => Sys2Proof.Machine.execSlot0HeaderReceived l h s
  | .holdoverStart => Sys2Proof.Machine.execHoldoverStart s
  | .holdoverTimeout => Sys2Proof.Machine.execHoldoverTimeout s
  | .refLost => Sys2Proof.Machine.execRefLost s
  | .refReturn => Sys2Proof.Machine.execRefReturn s
  | .beatChainInput count => Sys2Proof.Machine.execBeatChainInput count s
  | .laneLock l => Sys2Proof.Machine.execLaneLock l s
  | .trainFail l => Sys2Proof.Machine.execTrainFail l s
  | .laneLockLoss l => Sys2Proof.Machine.execLaneLockLoss l s
  | .idRecordReceived l r => Sys2Proof.Machine.execIdRecordReceived l r s
  | .slotStart l => Sys2Proof.Machine.execSlotStart l s
  | .slotHeaderReceived l h => Sys2Proof.Machine.execSlotHeaderReceived l h s
  | .slotReceiveComplete l payload => Sys2Proof.Machine.execSlotReceiveComplete l payload s
  | .flitError l touchesScheduled e => Sys2Proof.Machine.execFlitError l touchesScheduled e s
  | .bePacketForward l vc => Sys2Proof.Machine.execBePacketForward l vc s
  | .bePacketDelivery l p => Sys2Proof.Machine.execBePacketDelivery l p s
  | .beAcknowledgement a => Sys2Proof.Machine.execBeAcknowledgement a s
  | .bowSeal => Sys2Proof.Machine.execBowSeal s
  | .bowReceive l payload => Sys2Proof.Machine.execBowReceive l payload s
  | .bowSettle => Sys2Proof.Machine.execBowSettle s
  | .reelReceive l payload => Sys2Proof.Machine.execReelReceive l payload s
  | .bridgeWindowOpen n => Sys2Proof.Machine.execBridgeWindowOpen n s
  | .bridgeDataFrame n fr => Sys2Proof.Machine.execBridgeDataFrame n fr s
  | .bridgeCreditFrame n fr => Sys2Proof.Machine.execBridgeCreditFrame n fr s
  | .bridgeNakFrame n fr => Sys2Proof.Machine.execBridgeNakFrame n fr s
  | .bridgeFrameCrcFail n => Sys2Proof.Machine.execBridgeFrameCrcFail n s
  | .bridgeStopFrame n fr => Sys2Proof.Machine.execBridgeStopFrame n fr s
  | .bridgeStopAckFrame n fr => Sys2Proof.Machine.execBridgeStopAckFrame n fr s
  | .bridgeStopRepeat n => Sys2Proof.Machine.execBridgeStopRepeat n s
  | .bridgeWindowEnd n => Sys2Proof.Machine.execBridgeWindowEnd n s
  | .bridgeScanDone n => Sys2Proof.Machine.execBridgeScanDone n s
  | .bridgeConversion n => Sys2Proof.Machine.execBridgeConversion n s
  | .bridgeReturnStart n => Sys2Proof.Machine.execBridgeReturnStart n s
  | .bankAdmission b => Sys2Proof.Machine.execBankAdmission b s
  | .bankTurn b ecc => Sys2Proof.Machine.execBankTurn b ecc s
  | .scrub addr ecc => Sys2Proof.Machine.execScrub addr ecc s
  | .cxlMemAccess p dpa op => Sys2Proof.Machine.execCxlMemAccess p dpa op s
  | .cxlLinkReset p => Sys2Proof.Machine.execCxlLinkReset p s
  | .registerWrite a off v => Sys2Proof.Machine.execRegisterWrite a off v s
  | .commit a page v => Sys2Proof.Machine.execCommit a page v s
  | .cntLoRead a => Sys2Proof.Machine.execCntLoRead a s
  | .doorbell p v => Sys2Proof.Machine.execDoorbell p v s
  | .mback p v => Sys2Proof.Machine.execMback p v s
  | .mailboxSlotWrite p off data => Sys2Proof.Machine.execMailboxSlotWrite p off data s
  | .mailboxNop p => Sys2Proof.Machine.execMailboxNop p s
  | .status p => Sys2Proof.Machine.execStatus p s
  | .attest p => Sys2Proof.Machine.execAttest p s
  | .attestDone p => Sys2Proof.Machine.execAttestDone p s
  | .jobLoad p => Sys2Proof.Machine.execJobLoad p s
  | .figureFetchDone p => Sys2Proof.Machine.execFigureFetchDone p s
  | .jobStart p => Sys2Proof.Machine.execJobStart p s
  | .jobAbort p => Sys2Proof.Machine.execJobAbort p s
  | .resetPartition p => Sys2Proof.Machine.execResetPartition p s
  | .partitionAssign p => Sys2Proof.Machine.execPartitionAssign p s
  | .setCoordinate p => Sys2Proof.Machine.execSetCoordinate p s
  | .linkEnable p => Sys2Proof.Machine.execLinkEnable p s
  | .linkPersonality p => Sys2Proof.Machine.execLinkPersonality p s
  | .keyInstall p => Sys2Proof.Machine.execKeyInstall p s
  | .keyInstallDone p => Sys2Proof.Machine.execKeyInstallDone p s
  | .debugUnlock p => Sys2Proof.Machine.execDebugUnlock p s
  | .fuseProgram p => Sys2Proof.Machine.execFuseProgram p s
  | .fuseProgramDone p readBackOk => Sys2Proof.Machine.execFuseProgramDone p readBackOk s
  | .freeze p => Sys2Proof.Machine.execFreeze p s
  | .thaw p => Sys2Proof.Machine.execThaw p s
  | .inputRise => Sys2Proof.Machine.execInputRise s
  | .inputRange mv => Sys2Proof.Machine.execInputRange mv s
  | .inputLoss mv => Sys2Proof.Machine.execInputLoss mv s
  | .railFault => Sys2Proof.Machine.execRailFault s
  | .pwrOk strap => Sys2Proof.Machine.execPwrOk strap s
  | .devrst a v => Sys2Proof.Machine.execDevrst a v s
  | .fuseLoad => Sys2Proof.Machine.execFuseLoad s
  | .pwrSample tj iin => Sys2Proof.Machine.execPwrSample tj iin s
  | .bootGo a v => Sys2Proof.Machine.execBootGo a v s
  | .bundleVerify => Sys2Proof.Machine.execBundleVerify s
  | .dramTrainingDone badStack badFmc => Sys2Proof.Machine.execDramTrainingDone badStack badFmc s
  | .claim a => Sys2Proof.Machine.execClaim a s
  | .done a v => Sys2Proof.Machine.execDone a v s
  | .xptestWrite a v => Sys2Proof.Machine.execXptestWrite a v s
  | .xptestRead a v => Sys2Proof.Machine.execXptestRead a v s
  | .callerWdog n => Sys2Proof.Machine.execCallerWdog n s
  | .wdkick a n v => Sys2Proof.Machine.execWdkick a n v s
  | .recpost a c v => Sys2Proof.Machine.execRecpost a c v s
  | .post a v => Sys2Proof.Machine.execPost a v s
  | .recordAdmission => Sys2Proof.Machine.execRecordAdmission s
  | .spill => Sys2Proof.Machine.execSpill s
  | .rateLimitRefill => Sys2Proof.Machine.execRateLimitRefill s
  | .rddata a => Sys2Proof.Machine.execRddata a s
  | .sprddata a => Sys2Proof.Machine.execSprddata a s
  | .snpdata a => Sys2Proof.Machine.execSnpdata a s
  | .pmdata a => Sys2Proof.Machine.execPmdata a s
  | .snapTrigFire a page v => Sys2Proof.Machine.execSnapTrigFire a page v s
  | .snapshot page => Sys2Proof.Machine.execSnapshot page s
  | .dbgNop p w => Sys2Proof.Machine.execDbgNop p w s
  | .halt p w => Sys2Proof.Machine.execHalt p w s
  | .resume p w => Sys2Proof.Machine.execResume p w s
  | .step p w => Sys2Proof.Machine.execStep p w s
  | .rdreg p w => Sys2Proof.Machine.execRdreg p w s
  | .wrreg p w => Sys2Proof.Machine.execWrreg p w s
  | .rdp p w => Sys2Proof.Machine.execRdp p w s
  | .wrp p w => Sys2Proof.Machine.execWrp p w s
  | .rdd p w => Sys2Proof.Machine.execRdd p w s
  | .wrd p w => Sys2Proof.Machine.execWrd p w s
  | .rdio p w => Sys2Proof.Machine.execRdio p w s
  | .wrio p w => Sys2Proof.Machine.execWrio p w s
  | .setbp p w => Sys2Proof.Machine.execSetbp p w s
  | .setwp p w => Sys2Proof.Machine.execSetwp p w s
  | .syshalt p w => Sys2Proof.Machine.execSyshalt p w s
  | .sysresume p w => Sys2Proof.Machine.execSysresume p w s
  | .rdstate p w => Sys2Proof.Machine.execRdstate p w s
  | .haltReceived l h r => Sys2Proof.Machine.execHaltReceived l h r s
  | .syshaltBeat => Sys2Proof.Machine.execSyshaltBeat s
  | .sysresumeBeat => Sys2Proof.Machine.execSysresumeBeat s
  | .tapReset => Sys2Proof.Machine.execTapReset s
  | .extest pins => Sys2Proof.Machine.execExtest pins s
  | .idcode => Sys2Proof.Machine.execIdcode s
  | .samplePreload pins => Sys2Proof.Machine.execSamplePreload pins s
  | .bypass ir => Sys2Proof.Machine.execBypass ir s
  | .smbusBlockWrite data pec => Sys2Proof.Machine.execSmbusBlockWrite data pec s
  | .smbusBlockRead => Sys2Proof.Machine.execSmbusBlockRead s
  | .alertResponse => Sys2Proof.Machine.execAlertResponse s
  | .mchFrame data => Sys2Proof.Machine.execMchFrame data s
  | .stepStart => Sys2Proof.Machine.execStepStart s
  | .badOpcode p => Sys2Proof.Machine.execBadOpcode p s
  | .undefinedInstruction u w => Sys2Proof.Machine.execUndefinedInstruction u w s
  | .vectorDataArrival c ecc => Sys2Proof.Machine.execVectorDataArrival c ecc s
  | .prefetchFill c ecc => Sys2Proof.Machine.execPrefetchFill c ecc s
  | .seqWaittokTimeout l => Sys2Proof.Machine.execSeqWaittokTimeout l s
  | .deviceResetAfterStop => Sys2Proof.Machine.execDeviceResetAfterStop s
  | .receiveSlotPasses l => Sys2Proof.Machine.execReceiveSlotPasses l s
  | .cxlLinkUp p => Sys2Proof.Machine.execCxlLinkUp p s

end Sys2Proof.Machine
end

