-- ==== Sys2Proof/WellFormed.lean ====
section
/-! DEFINITION. The well-formed commands: the operands that a sender can send beyond what their types say. `exec` is
total and does not rely on it. -/
namespace Sys2Proof

/-- Whole flits, of which a slot carries at most 48 (R280, R288). -/
def flitsWf (p : List Byte) : Bool := decide (p.length % 256 = 0 ∧ p.length ≤ 48 * 256)

/-- A host access moves at least one byte (R339, R404). -/
def memOpWf : MemOp → Bool
  | .read n | .readEcc n _ | .bootRead n | .bar0Read n | .bar2Read n => decide (0 < n)
  | .write data | .bootWrite data | .bar0Write data => decide (0 < data.length)

/-- The command is well-formed: an access to a register is aligned (R343), a mailbox access has a size that R350 names, a
payload is whole flits (R280), a frame has its length (R466), and a code that R445 or a table of R46 gives to another
command does not stand for this one. -/
def Instr.wf : Instr → Bool
  | .slotHeaderReceived _ h => 1 ≤ h.nflit.toNat
  | .slotReceiveComplete _ p => flitsWf p
  | .bePacketDelivery _ p => p.data.length % 16 = 0 && 16 ≤ p.data.length && p.data.length ≤ 4096
  | .bowReceive _ p => flitsWf p
  | .reelReceive _ p => flitsWf p
  | .scrub a _ => a.toNat % 32 = 0
  | .cxlMemAccess _ _ op => memOpWf op
  | .registerWrite _ off _ => off.toNat % 4 = 0
  | .mailboxSlotWrite _ off data => [1, 2, 4, 8].contains data.length && off.toNat % data.length = 0
  | .bypass ir => !([0, 1, 2, 0x20] : List (BitVec 8)).contains ir
  | .smbusBlockWrite data _ => data.length ≤ 255
  | .mchFrame data => data.length = 24
  | .undefinedInstruction _ w => !Machine.assigned w
  | .nop .. | .waittok .. | .waittokN .. | .tokenWaitSatisfied .. | .tokenTimeout .. | .sigtok .. | .sigtokR ..
  | .sigtokRelease .. | .fence .. | .lfence .. | .ret .. | .eret .. | .cinv .. | .alu .. | .addi .. | .andi ..
  | .ori .. | .xori .. | .shli .. | .shri .. | .srai .. | .ld .. | .ldu .. | .st .. | .inp .. | .outp .. | .br ..
  | .brLong .. | .j .. | .call .. | .loop .. | .mfsr .. | .mtsr .. | .li .. | .pld .. | .pst ..
  | .loadDataArrival .. | .mergingBufferDrain .. | .tld .. | .tst .. | .tzero .. | .trel .. | .tsave ..
  | .trestore .. | .tileRowArrival .. | .mseat .. | .mma .. | .mmaf .. | .mzero .. | .manchor .. | .mdrain ..
  | .mwait .. | .arrayInstructionStart .. | .arrayInstructionComplete .. | .vsetl .. | .vectorInteger ..
  | .vectorFloat .. | .vectorFma .. | .vectorFunction .. | .vectorCompare .. | .vectorMaskOp ..
  | .vectorReduction .. | .vcvt .. | .vmv .. | .vbcast .. | .vmvx .. | .vins .. | .vmpop .. | .vld .. | .vlds ..
  | .vldff .. | .vgth .. | .vgthff .. | .vst .. | .vsct .. | .vmld .. | .vmst .. | .tbrow .. | .tbcol ..
  | .updMom .. | .updWgt .. | .updRow .. | .updStart .. | .sq .. | .transferStart .. | .streamerRequest ..
  | .transferComplete .. | .cmov .. | .cnull .. | .cnarrow .. | .cperm .. | .cget .. | .clds .. | .csts ..
  | .cclrs .. | .cmint .. | .wesp .. | .ccall .. | .larm .. | .lwaitb .. | .lwaitbComplete .. | .beput ..
  | .icuArbitration | .interruptEntry .. | .eoi .. | .swset .. | .glitchFilterChange .. | .jobStartBeat
  | .outcomeBeat | .commitBeat | .cmtwait .. | .stepScalarsReady | .prereport .. | .stop | .stopReceived ..
  | .jobIrqDeadline | .beatEvaluation | .slot0HeaderReceived .. | .holdoverStart | .holdoverTimeout | .refLost
  | .refReturn | .beatChainInput .. | .laneLock .. | .trainFail .. | .laneLockLoss .. | .idRecordReceived ..
  | .slotStart .. | .flitError .. | .bePacketForward .. | .beAcknowledgement .. | .bowSeal | .bowSettle
  | .bridgeWindowOpen .. | .bridgeDataFrame .. | .bridgeCreditFrame .. | .bridgeNakFrame ..
  | .bridgeFrameCrcFail .. | .bridgeStopFrame .. | .bridgeStopAckFrame .. | .bridgeStopRepeat ..
  | .bridgeWindowEnd .. | .bridgeScanDone .. | .bridgeConversion .. | .bridgeReturnStart .. | .bankAdmission ..
  | .bankTurn .. | .cxlLinkReset .. | .commit .. | .cntLoRead .. | .doorbell .. | .mback .. | .mailboxNop ..
  | .status .. | .attest .. | .attestDone .. | .jobLoad .. | .figureFetchDone .. | .jobStart .. | .jobAbort ..
  | .resetPartition .. | .partitionAssign .. | .setCoordinate .. | .linkEnable .. | .linkPersonality ..
  | .keyInstall .. | .keyInstallDone .. | .debugUnlock .. | .fuseProgram .. | .fuseProgramDone .. | .freeze ..
  | .thaw .. | .inputRise | .inputRange .. | .inputLoss .. | .railFault | .pwrOk .. | .devrst .. | .fuseLoad
  | .pwrSample .. | .bootGo .. | .bundleVerify | .dramTrainingDone .. | .claim .. | .done .. | .xptestWrite ..
  | .xptestRead .. | .callerWdog .. | .wdkick .. | .recpost .. | .post .. | .recordAdmission | .spill
  | .rateLimitRefill | .rddata .. | .sprddata .. | .snpdata .. | .pmdata .. | .snapTrigFire .. | .snapshot ..
  | .dbgNop .. | .halt .. | .resume .. | .step .. | .rdreg .. | .wrreg .. | .rdp .. | .wrp .. | .rdd .. | .wrd ..
  | .rdio .. | .wrio .. | .setbp .. | .setwp .. | .syshalt .. | .sysresume .. | .rdstate .. | .haltReceived ..
  | .syshaltBeat | .sysresumeBeat | .tapReset | .extest .. | .idcode | .samplePreload .. | .smbusBlockRead
  | .alertResponse | .stepStart | .badOpcode .. | .vectorDataArrival .. | .prefetchFill .. | .seqWaittokTimeout ..
  | .deviceResetAfterStop | .receiveSlotPasses .. | .cxlLinkUp .. => true

/-- The unit whose instruction or event the command is, where it names one (R45, R285). -/
def Instr.unit : Instr → Option UnitId
  | .nop u _ | .waittok u _ | .waittokN u _ | .tokenWaitSatisfied u | .sigtok u _ | .sigtokR u _ | .sigtokRelease u
  | .fence u _ | .lfence u _ | .ret u _ | .eret u _ | .cinv u _ | .alu u _ | .addi u _ | .andi u _ | .ori u _
  | .xori u _ | .shli u _ | .shri u _ | .srai u _ | .ld u _ _ | .ldu u _ _ | .st u _ _ | .inp u _ | .outp u _
  | .br u _ | .brLong u _ | .j u _ | .call u _ | .loop u _ | .mfsr u _ | .mtsr u _ | .li u _ | .pld u _ | .pst u _
  | .loadDataArrival u _ | .mergingBufferDrain u | .tld u _ | .tst u _ | .tzero u _ | .trel u _ | .tsave u _
  | .trestore u _ | .mseat u _ | .mma u _ | .mmaf u _ | .mzero u _ | .manchor u _ | .mdrain u _ | .mwait u _
  | .vsetl u _ | .vectorInteger u _ | .vectorFloat u _ | .vectorFma u _ | .vectorFunction u _ | .vectorCompare u _
  | .vectorMaskOp u _ | .vectorReduction u _ | .vcvt u _ | .vmv u _ | .vbcast u _ | .vmvx u _ | .vins u _
  | .vmpop u _ | .vld u _ | .vlds u _ | .vldff u _ | .vgth u _ | .vgthff u _ | .vst u _ | .vsct u _ | .vmld u _
  | .vmst u _ | .tbrow u _ | .tbcol u _ | .updMom u _ | .updWgt u _ | .updRow u _ | .sq u _ | .cmov u _
  | .cnull u _ | .cnarrow u _ | .cperm u _ | .cget u _ | .clds u _ | .csts u _ | .cclrs u _ | .cmint u _
  | .wesp u _ | .ccall u _ | .larm u _ | .lwaitb u _ | .beput u _ | .cmtwait u _ | .undefinedInstruction u _ => some u
  | .tokenTimeout .. | .tileRowArrival .. | .arrayInstructionStart .. | .arrayInstructionComplete .. | .updStart ..
  | .transferStart .. | .streamerRequest .. | .transferComplete .. | .lwaitbComplete .. | .icuArbitration
  | .interruptEntry .. | .eoi .. | .swset .. | .glitchFilterChange .. | .jobStartBeat | .outcomeBeat | .commitBeat
  | .stepScalarsReady | .prereport .. | .stop | .stopReceived .. | .jobIrqDeadline | .beatEvaluation
  | .slot0HeaderReceived .. | .holdoverStart | .holdoverTimeout | .refLost | .refReturn | .beatChainInput ..
  | .laneLock .. | .trainFail .. | .laneLockLoss .. | .idRecordReceived .. | .slotStart .. | .slotHeaderReceived ..
  | .slotReceiveComplete .. | .flitError .. | .bePacketForward .. | .bePacketDelivery .. | .beAcknowledgement ..
  | .bowSeal | .bowReceive .. | .bowSettle | .reelReceive .. | .bridgeWindowOpen .. | .bridgeDataFrame ..
  | .bridgeCreditFrame .. | .bridgeNakFrame .. | .bridgeFrameCrcFail .. | .bridgeStopFrame ..
  | .bridgeStopAckFrame .. | .bridgeStopRepeat .. | .bridgeWindowEnd .. | .bridgeScanDone .. | .bridgeConversion ..
  | .bridgeReturnStart .. | .bankAdmission .. | .bankTurn .. | .scrub .. | .cxlMemAccess .. | .cxlLinkReset ..
  | .registerWrite .. | .commit .. | .cntLoRead .. | .doorbell .. | .mback .. | .mailboxSlotWrite ..
  | .mailboxNop .. | .status .. | .attest .. | .attestDone .. | .jobLoad .. | .figureFetchDone .. | .jobStart ..
  | .jobAbort .. | .resetPartition .. | .partitionAssign .. | .setCoordinate .. | .linkEnable ..
  | .linkPersonality .. | .keyInstall .. | .keyInstallDone .. | .debugUnlock .. | .fuseProgram ..
  | .fuseProgramDone .. | .freeze .. | .thaw .. | .inputRise | .inputRange .. | .inputLoss .. | .railFault
  | .pwrOk .. | .devrst .. | .fuseLoad | .pwrSample .. | .bootGo .. | .bundleVerify | .dramTrainingDone ..
  | .claim .. | .done .. | .xptestWrite .. | .xptestRead .. | .callerWdog .. | .wdkick .. | .recpost .. | .post ..
  | .recordAdmission | .spill | .rateLimitRefill | .rddata .. | .sprddata .. | .snpdata .. | .pmdata ..
  | .snapTrigFire .. | .snapshot .. | .dbgNop .. | .halt .. | .resume .. | .step .. | .rdreg .. | .wrreg ..
  | .rdp .. | .wrp .. | .rdd .. | .wrd .. | .rdio .. | .wrio .. | .setbp .. | .setwp .. | .syshalt ..
  | .sysresume .. | .rdstate .. | .haltReceived .. | .syshaltBeat | .sysresumeBeat | .tapReset | .extest ..
  | .idcode | .samplePreload .. | .bypass .. | .smbusBlockWrite .. | .smbusBlockRead | .alertResponse
  | .mchFrame .. | .stepStart | .badOpcode .. | .vectorDataArrival .. | .prefetchFill .. | .seqWaittokTimeout ..
  | .deviceResetAfterStop | .receiveSlotPasses .. | .cxlLinkUp .. => none

end Sys2Proof
end

