-- ==== Sys2Proof/Safety.lean ====
section
/-! DEFINITION. The terms in which statements speak of the block: the invariant of every state, when a unit can issue an
instruction, and what a command leaves unchanged. -/
namespace Sys2Proof.Machine

/-! ### The invariant -/

/-- Every sparse table is in its canonical form, so that equal contents are equal data. -/
def State.canonical (s : State) : Bool :=
  Memory.wf s.mem && Tab.wf (fun _ => 0) s.xp && Tab.wf ioReset s.io && Tab.wf (fun _ => 0) s.shadow
    && Tab.wf (fun _ => 0) s.caps && Tab.wf (fun _ => 0) s.regs && Tab.wf (fun _ => 0) s.toks

/-- What the spec hard-wires: s0 of every unit (R50), c0 and Store entry 0 (R372, R373) hold nothing, and no token
exceeds 15 (R66). -/
def State.hardWired (s : State) : Bool :=
  s.regs.all (fun e => decide (e.1 % 32 ≠ 0)) && s.caps.all (fun e => decide (e.1 % 256 ≠ 0))
    && s.toks.all (fun e => decide (e.2 ≤ 15))

/-- The invariant of the block. -/
def State.Inv (s : State) : Prop := s.canonical = true ∧ s.hardWired = true

/-! ### Issue -/

/-- A read of block `k` finds nothing to correct and no poison (R421). -/
def State.clean (s : State) (k : Nat) : Bool := s.blkClass k = 0 && !s.blkBad k

/-- Block `k` is one of a protected SRAM, and not of the capabilities. -/
def plainBlock (k : Nat) : Bool :=
  match sramOf (8 * k) with
  | some (m, _, _) => m ≠ 0xA
  | none => false

/-- The capability blocks numbered `ixs` of unit `u` are clean (R424). -/
def State.capsClean (s : State) (u : Nat) (ixs : List Nat) : Bool :=
  ixs.all fun i => s.clean (sram 0xA u (16 * i) / 8) && s.clean (sram 0xA u (16 * i) / 8 + 1)

/-- The program memory under the next `len` syllables of unit `u` is clean (R424). -/
def State.pmClean (s : State) (u len : Nat) : Bool :=
  (range 0 len).all fun i => s.clean (pmAddr u (((s.hart u).pc.toNat + i) % pmSize u) / 8)

/-- No load shadow is open, no halt is asked for and no STEP runs: nothing but the instruction itself happens at the next
boundary (R55, R449). -/
def Hart.quiet (h : Hart) : Bool := h.shadows = [] && h.haltReq = none && h.stepping = none

/-- The authority to fetch `len` syllables (R376): sequencers need none (R285). -/
def State.mayFetch (s : State) (u len : Nat) : Bool :=
  decide (128 ≤ u) || (s.capsClean u [capIx 15] && s.fetchErr u len = none)

/-- Unit `u` can issue an instruction of `len` syllables now: the device has power (R398), the unit runs and waits for
nothing (R67), and the fetch checks of R44, R60, R376, R424 and R449 pass. -/
def State.canIssue (s : State) (u len : Nat) : Bool :=
  s.dev.pwr.on && s.ready u && (s.hart u).breakAt = none && s.pmClean u len && s.mayFetch u len
    && decide ((s.hart u).pc.toNat + len ≤ pmSize u) && !(s.hart u).straddles len

/-- Unit `u` can issue an instruction of `len` syllables now, and nothing else stands at its boundary. -/
def State.issues (s : State) (u len : Nat) : Bool := s.canIssue u len && (s.hart u).quiet

/-! ### Frames -/

/-- The pieces of the state. -/
inductive Piece where
  | mem | xp | io | shadow | caps | regs | toks
  | beat | harts | links | bridges | parts | banks | fuses | job | stop | recd | icu | dbg | pwr | out | free
  deriving DecidableEq, Repr

/-- A piece is the same in two states. `out` is what the block last answered and put on a wire. -/
def Piece.same (s t : State) : Piece → Prop
  | .mem => t.mem = s.mem
  | .xp => t.xp = s.xp
  | .io => t.io = s.io
  | .shadow => t.shadow = s.shadow
  | .caps => t.caps = s.caps
  | .regs => t.regs = s.regs
  | .toks => t.toks = s.toks
  | .beat => t.dev.beat = s.dev.beat
  | .harts => t.dev.harts = s.dev.harts
  | .links => t.dev.links = s.dev.links
  | .bridges => t.dev.bridges = s.dev.bridges
  | .parts => t.dev.parts = s.dev.parts
  | .banks => t.dev.banks = s.dev.banks
  | .fuses => t.dev.fuses = s.dev.fuses
  | .job => t.dev.job = s.dev.job
  | .stop => t.dev.stop = s.dev.stop
  | .recd => t.dev.recd = s.dev.recd
  | .icu => t.dev.icu = s.dev.icu
  | .dbg => t.dev.dbg = s.dev.dbg
  | .pwr => t.dev.pwr = s.dev.pwr
  | .out => t.dev.readData = s.dev.readData ∧ t.dev.readPoison = s.dev.readPoison ∧ t.dev.lastOut = s.dev.lastOut
  | .free => t.dev.free = s.dev.free

/-- Nothing but the pieces `ps` differs, and the queue of commands does not. -/
def Only (ps : List Piece) (s t : State) : Prop := (∀ p, p ∉ ps → p.same s t) ∧ t.pending = s.pending

/-- Of the units, only `u` changes, and it becomes `h`. -/
def OneHart (s t : State) (u : Nat) (h : Hart) : Prop := t.hart u = h ∧ ∀ v, v ≠ u → t.hart v = s.hart v

/-- Of the scalar registers, only `rd` of unit `u` changes, and it becomes `v`; a write to s0 is discarded (R50). -/
def OneReg (s t : State) (u rd : Nat) (v : Word) : Prop :=
  t.reg u rd = (if rd % 32 = 0 then 0 else v) ∧ ∀ w r, ¬(w = u ∧ r % 32 = rd % 32) → t.reg w r = s.reg w r

/-- Of the capability registers and Stores, only cr of unit `u` changes, and it becomes `c`; a write to c0 is discarded
(R372). -/
def OneCreg (s t : State) (u r : Nat) (c : Cap) : Prop :=
  (∀ w i, i < 16 → t.creg w i = if w = u ∧ i = r ∧ r ≠ 0 then c else s.creg w i) ∧
  ∀ w e, e < 256 → t.store w e = s.store w e

/-- Of the capability registers and Stores, only Store entry `e` of unit `u` changes, and it becomes `c`; a write to
entry 0 is discarded (R373). -/
def OneStore (s t : State) (u e : Nat) (c : Cap) : Prop :=
  (∀ w i, i < 256 → t.store w i = if w = u ∧ i = e ∧ e ≠ 0 then c else s.store w i) ∧
  ∀ w r, r < 16 → t.creg w r = s.creg w r

/-- Of the tokens, only token `i` of unit `u` changes, and it becomes `n`. -/
def OneTok (s t : State) (u i n : Nat) : Prop :=
  t.tok u i = n ∧ ∀ v j, j < 64 → ¬(v = u ∧ j = i) → t.tok v j = s.tok v j

/-- The wait of an S4-U or S4-V instruction is over: it has none, or its token holds 1 (R67). -/
def State.waitOver (s : State) (u : Nat) (wte : Bool) (wtok : BitVec 6) : Prop := wte = true → 1 ≤ s.tok u wtok.toNat

/-- What such an instruction takes from its token (R67). -/
def TookToken (s t : State) (u : Nat) (wte : Bool) (wtok : BitVec 6) : Prop :=
  OneTok s t u wtok.toNat (s.tok u wtok.toNat - if wte then 1 else 0)

/-- A four-syllable instruction of unit `u` completes: its token is taken, the unit is `h` with the PC moved on, and
beside these only the pieces `ps` change. -/
def Done4 (ps : List Piece) (s t : State) (u : Nat) (wte : Bool) (wtok : BitVec 6) (h : Hart) : Prop :=
  Only (.toks :: .harts :: ps) s t ∧ TookToken s t u wte wtok ∧ OneHart s t u (seqPc u 4 h)

/-- Such an instruction changes its token and its unit alone. -/
def Issued4 (s t : State) (u : Nat) (wte : Bool) (wtok : BitVec 6) (h : Hart) : Prop := Done4 [] s t u wte wtok h

/-- A two-syllable instruction of unit `u` completes, and nothing but the unit, which is `h`, and its PC changes. -/
def Moved2 (s t : State) (u : Nat) (h : Hart) : Prop := Only [.harts] s t ∧ OneHart s t u (seqPc u 2 h)

/-- An instruction of `len` syllables completes with `v` in `rd` and nothing else: the PC moves on, with the end test of
R61. -/
def Wrote (s t : State) (u len rd : Nat) (v : Word) : Prop :=
  Only [.regs, .harts] s t ∧ OneReg s t u rd v ∧ OneHart s t u (seqPc u len (s.hart u))

/-! ### Memory as statements speak of it -/

/-- Every block of the `n` bytes at `a` is a clean block of a protected SRAM; `a` and `n` are multiples of 8. -/
def State.plain (s : State) (a n : Nat) : Bool :=
  decide (a % 8 = 0 ∧ n % 8 = 0) && (range (a / 8) (n / 8)).all fun k => plainBlock k && s.clean k

/-- The `n` bytes at partition address `va` lie in one page, at `pa`, and unit `u` has their translation cached
(R165-R168). -/
def State.lands (s : State) (u va n : Nat) (rd wr : Bool) (pa : Nat) : Prop :=
  s.trRange u va n rd wr = .ok [(va, pa, n)] ∧ (u < 64 → s.tlbAfter 64 (s.hart u).tlb va = (s.hart u).tlb)

/-- No store of the unit waits (R185), no line is cached (R184) and no watchpoint is set (R447). -/
def Hart.bare (h : Hart) : Bool := h.mbuf = [] && h.cache = [] && h.wps = []

/-- The checks of R52 pass for a scalar access of `n` bytes at `a`, which is physical address `pa`. -/
def State.reaches (s : State) (u a n : Nat) (wr : Bool) (pa : Nat) : Prop :=
  s.capsClean u [capIx 1] = true ∧ (s.creg u 1).authOk otData (if wr then pW else pR) = true ∧ a % n = 0 ∧
    (s.creg u 1).within a n = true ∧ s.tr u a (!wr) wr = .ok pa ∧
    (u < 64 → s.tlbAfter 64 (s.hart u).tlb a = (s.hart u).tlb)

/-- Every row of `rows` (address, bytes) lies within c1 and in plain memory, where `pa` says. -/
def State.rowsLand (s : State) (u : Nat) (wr : Bool) (rows : List (Nat × Nat)) (pa : Nat → Nat) : Prop :=
  ∀ x ∈ rows, (s.creg u 1).within x.1 x.2 = true ∧ s.lands u x.1 x.2 (!wr) wr (pa x.1) ∧ s.plain (pa x.1) x.2 = true ∧
    (wr = true → s.durable x.1 x.2 = false)

/-- The ranges of `rows` do not overlap where `pa` places them. -/
def apart (rows : List (Nat × Nat)) (pa : Nat → Nat) : Prop :=
  rows.Pairwise fun x y => pa x.1 + x.2 ≤ pa y.1 ∨ pa y.1 + y.2 ≤ pa x.1

/-- The byte strings of `l` stand at their addresses, and every other byte of memory reads as before. -/
def Stored (s t : State) (l : List (Nat × List Byte)) : Prop :=
  (∀ e ∈ l, t.rd e.1 e.2.length = e.2) ∧ ∀ x, (∀ e ∈ l, x < e.1 ∨ e.1 + e.2.length ≤ x) → t.rdByte x = s.rdByte x

/-- Nothing in any SRAM is damaged or poisoned (R420, R421). -/
def State.undamaged (s : State) : Prop := ∀ k, s.clean k = true

/-- Loaded bytes as LD and LDU extend them (R52). -/
def loadValue (signed : Bool) (n v : Nat) : Word :=
  if signed then (BitVec.ofNat (8 * n) v).signExtend 64 else (BitVec.ofNat (8 * n) v).setWidth 64

/-- A shadow of three instructions for a load at the unit's PC (R55). -/
def openShadow (h : Hart) (rd a pa : Nat) (v : Word) (arrived : Bool) : Shadow :=
  { rd := rd, left := 3, data := v, arrived := arrived, pc := h.pc, addr := BitVec.ofNat 64 a, phys := pa, commit := false,
    fill := none }

/-- A register whose fields are all of class H or L, on a page where a write has no other effect; a write of DCCTLj waits for
the fills in flight (R189). -/
def fieldReg (a : Nat) (r : RegRow) : Prop :=
  regAt a = some r ∧ a % 4 = 0 ∧ 0x100 ≤ a % 0x1000 ∧ (∀ c, c < 64 → a ≠ aDcctl c) ∧ (r.flds.all fun f => f.cls = .h || f.cls = .l) = true ∧
    match pageKind (a / 0x1000) with
    | some (.core, _) | some (.clus, _) | some (.link, _) | some (.fmc, _) | some (.strm, _) => True
    | _ => False

/-! ### Links, bridges, partitions, banks and registers -/

/-- Of the links, only `l` changes, and it becomes `k`. -/
def OneLink (s t : State) (l : Nat) (k : Link) : Prop := t.link l = k ∧ ∀ m, m ≠ l → t.link m = s.link m

/-- Of the bridges, only `n` changes, and it becomes `b`. -/
def OneBridge (s t : State) (n : Nat) (b : Bridge) : Prop := t.bridge n = b ∧ ∀ m, m ≠ n → t.bridge m = s.bridge m

/-- Of the partitions, only `p` changes, and it becomes `x`. -/
def OnePart (s t : State) (p : Nat) (x : Part) : Prop := t.part p = x ∧ ∀ q, q ≠ p → t.part q = s.part q

/-- Of the DRAM banks, only `b` changes, and it becomes `x`. -/
def OneBank (s t : State) (b : Nat) (x : Bank) : Prop := t.bank b = x ∧ ∀ c, c ≠ b → t.bank c = s.bank c

/-- The registers of `l` hold the values beside them, and every other register the value it held. -/
def Holds (s t : State) (l : List (Nat × Reg32)) : Prop :=
  (∀ e ∈ l, t.ioVal e.1 = e.2) ∧ ∀ a, (∀ e ∈ l, a ≠ e.1) → t.ioVal a = s.ioVal a

/-- The block of page `page` has reported `e` since `s` (R427, R429, R436): ERR_STAT names it, and the records offered
end with its own. -/
def Reported (s t : State) (page : Nat) (e : ErrCode) : Prop :=
  t.fld (ioa page 0x14) 15 0 = e.code ∧
    ∃ o, o.page = page ∧ o.code = e.code ∧ t.dev.recd.offers = s.dev.recd.offers ++ [o]

/-! ### The scalar functions as the spec words them (R45, R47) -/

/-- The functions of ALU on words of `w` bits. -/
def aluSpec (w : Nat) (fn : BitVec 4) (a b : BitVec w) : BitVec w :=
  match fn.toNat with
  | 0 => a + b
  | 1 => a - b
  | 2 => a &&& b
  | 3 => a ||| b
  | 4 => a ^^^ b
  | 5 => a <<< (b.toNat % w)
  | 6 => a >>> (b.toNat % w)
  | 7 => a.sshiftRight (b.toNat % w)
  | 8 => if a.slt b then 1 else 0
  | 9 => if a.ult b then 1 else 0
  | 10 => a * b
  | 11 => BitVec.ofInt w (a.toInt * b.toInt / (2 ^ w : Nat))
  | 12 => BitVec.ofNat w (a.toNat * b.toNat / 2 ^ w)
  | 13 => if b = 0 then BitVec.allOnes w else a / b
  | _ => if b = 0 then a else a % b

/-- ALU with its W bit (R45): W = 1 takes bits 31:0 and sign-extends the result. -/
def aluResult (f : S2R) (a b : Word) : Word :=
  if f.w then (aluSpec 32 f.fn (a.setWidth 32) (b.setWidth 32)).signExtend 64 else aluSpec 64 f.fn a b

/-- The condition of a short branch: rs1 against zero. -/
def shortCond (c : BitVec 3) (a : Word) : Prop :=
  match c.toNat with
  | 0 => a = 0
  | 1 => a ≠ 0
  | 2 => a.slt 0
  | 3 => ¬a.slt 0
  | 4 => BitVec.slt 0 a
  | _ => ¬BitVec.slt 0 a

/-- The condition of a long branch: rs1 against rs2. -/
def longCond (c : BitVec 3) (a b : Word) : Prop :=
  match c.toNat with
  | 0 => a = b
  | 1 => a ≠ b
  | 2 => a.slt b
  | 3 => ¬a.slt b
  | 4 => a.ult b
  | _ => ¬a.ult b

/-- A PC `off` syllables on, in the program memory of the unit (R43). -/
def State.pcAt (s : State) (u : Nat) (off : Int) : Nat := (((s.hart u).pc.toNat + off) % (pmSize u : Nat)).toNat

end Sys2Proof.Machine
end

