-- ==== Sys2Proof/Certificates/Slice0/Obligations.lean ====
section
/-! DEFINITION. The statements for the provers. `Only ps s t` is the frame: nothing but the pieces `ps` of the state
differs. -/
open Sys2Proof Sys2Proof.Machine

/-! ### Scalar instructions -/

/-- ALU writes the function that FN4 names, on 64 bits or on bits 31:0 (R45, R47). -/
def Obligations.AluWritesItsFunction : Prop :=
  ∀ (s : State) (u : UnitId) (f : S2R), s.Inv → s.issues u.num 2 = true → f.fn ≠ 15 →
    ∃ t, exec (.alu u f) s = .next t ∧
      Wrote s t u.num 2 f.rd.toNat (aluResult f (s.reg u.num f.rs1.toNat) (s.reg u.num f.rs2.toNat))

/-- The immediate forms, LI and NOP (R47). -/
def Obligations.ImmediatesWriteTheirResult : Prop :=
  ∀ (s : State) (u : UnitId), s.Inv →
    (s.issues u.num 2 = true → ∀ f : S2I,
      (∃ t, exec (.addi u f) s = .next t ∧
        Wrote s t u.num 2 f.rd.toNat (s.reg u.num f.rs1.toNat + f.imm.signExtend 64)) ∧
      (∃ t, exec (.andi u f) s = .next t ∧
        Wrote s t u.num 2 f.rd.toNat (s.reg u.num f.rs1.toNat &&& f.imm.signExtend 64)) ∧
      (∃ t, exec (.ori u f) s = .next t ∧
        Wrote s t u.num 2 f.rd.toNat (s.reg u.num f.rs1.toNat ||| f.imm.signExtend 64)) ∧
      (∃ t, exec (.xori u f) s = .next t ∧
        Wrote s t u.num 2 f.rd.toNat (s.reg u.num f.rs1.toNat ^^^ f.imm.signExtend 64)) ∧
      (f.imm.toNat < 64 →
        (∃ t, exec (.shli u f) s = .next t ∧
          Wrote s t u.num 2 f.rd.toNat (s.reg u.num f.rs1.toNat <<< f.imm.toNat)) ∧
        (∃ t, exec (.shri u f) s = .next t ∧
          Wrote s t u.num 2 f.rd.toNat (s.reg u.num f.rs1.toNat >>> f.imm.toNat)) ∧
        ∃ t, exec (.srai u f) s = .next t ∧
          Wrote s t u.num 2 f.rd.toNat ((s.reg u.num f.rs1.toNat).sshiftRight f.imm.toNat))) ∧
    (s.issues u.num 4 = true → ∀ f : S4I, f.rs1 = 0 →
      (f.sub = 0 → ∃ t, exec (.li u f) s = .next t ∧ Wrote s t u.num 4 f.rd.toNat (f.imm.signExtend 64)) ∧
      (f.sub = 1 → ∃ t, exec (.li u f) s = .next t ∧
        Wrote s t u.num 4 f.rd.toNat (f.imm ++ (s.reg u.num f.rd.toNat).setWidth 32))) ∧
    (s.issues u.num 1 = true →
      ∃ t, exec (.nop u ⟨0⟩) s = .next t ∧ Only [.harts] s t ∧ OneHart s t u.num (seqPc u.num 1 (s.hart u.num)))

/-- The control transfers: taken, the PC is the target and the levels that do not contain it close (R62); not taken, it
moves on with the end test (R61). CALL also writes the next address to s31 and closes no level (R47, R50). -/
def Obligations.BranchesMoveThePc : Prop :=
  ∀ (s : State) (u : UnitId), s.Inv →
    (s.issues u.num 2 = true → ∀ f : S2B, f.cond.toNat < 6 →
      (shortCond f.cond (s.reg u.num f.rs1.toNat) → ∃ t, exec (.br u f) s = .next t ∧ Only [.harts] s t ∧
        OneHart s t u.num (jumpPc u.num (s.pcAt u.num f.off.toInt) (s.hart u.num))) ∧
      (¬shortCond f.cond (s.reg u.num f.rs1.toNat) → ∃ t, exec (.br u f) s = .next t ∧ Only [.harts] s t ∧
        OneHart s t u.num (seqPc u.num 2 (s.hart u.num)))) ∧
    (s.issues u.num 4 = true → ∀ f : S4B, f.cond.toNat < 6 → f.rsvA = 0 → f.rsvB = 0 →
      (longCond f.cond (s.reg u.num f.rs1.toNat) (s.reg u.num f.rs2.toNat) →
        ∃ t, exec (.brLong u f) s = .next t ∧ Only [.harts] s t ∧
          OneHart s t u.num (jumpPc u.num (s.pcAt u.num f.off.toInt) (s.hart u.num))) ∧
      (¬longCond f.cond (s.reg u.num f.rs1.toNat) (s.reg u.num f.rs2.toNat) →
        ∃ t, exec (.brLong u f) s = .next t ∧ Only [.harts] s t ∧
          OneHart s t u.num (seqPc u.num 4 (s.hart u.num)))) ∧
    (s.issues u.num 2 = true → ∀ f : S2J,
      (∃ t, exec (.j u f) s = .next t ∧ Only [.harts] s t ∧
        OneHart s t u.num (jumpPc u.num (s.pcAt u.num f.off.toInt) (s.hart u.num))) ∧
      ∃ t, exec (.call u f) s = .next t ∧ Only [.regs, .harts] s t ∧
        OneReg s t u.num 31 (BitVec.ofNat 64 (s.pcAt u.num 2)) ∧
        OneHart s t u.num { s.hart u.num with pc := BitVec.ofNat 18 (s.pcAt u.num f.off.toInt) }) ∧
    (s.issues u.num 1 = true →
      ∃ t, exec (.ret u ⟨0⟩) s = .next t ∧ Only [.harts] s t ∧
        OneHart s t u.num (jumpPc u.num (s.reg u.num 31).toNat (s.hart u.num)))

/-- LOOP opens a level or skips its body (R60), and MFSR and MTSR read and write the special registers (R51). -/
def Obligations.LoopsAndSpecialRegisters : Prop :=
  ∀ (s : State) (u : UnitId), s.Inv → s.issues u.num 2 = true →
    (∀ f : S2L, f.len ≠ 0 → f.rsv = 0 →
      let h := s.hart u.num
      let c := (s.reg u.num f.rs.toNat).toNat % 2 ^ 32
      (c ≠ 0 → h.ld < 4 → ∃ t, exec (.loop u f) s = .next t ∧
        Moved2 s t u.num
          { h with
            ls := Tab.put (fun _ => 0) h.ls h.ld (BitVec.ofNat 18 (s.pcAt u.num 2))
            le := Tab.put (fun _ => 0) h.le h.ld (BitVec.ofNat 18 (s.pcAt u.num (2 + f.len.toNat)))
            lc := Tab.put (fun _ => 0) h.lc h.ld (BitVec.ofNat 32 c)
            ld := h.ld + 1 }) ∧
      (c = 0 → ∃ t, exec (.loop u f) s = .next t ∧ Only [.harts] s t ∧
        OneHart s t u.num
          (let p := { h with pc := BitVec.ofNat 18 (s.pcAt u.num (2 + f.len.toNat)) }
           if h.lbase < h.ld ∧ p.pc.toNat = h.lev (h.ld - 1) then endTest 4 p else closeLoops 4 p))) ∧
    (∀ f : S2S, f.rsvA = 0 → f.rsvB = 0 →
      (f.sr.toNat = 0x10 → s.vecBusy u.num = false) →
      (∀ v, s.readSr u.num f.sr.toNat = some v →
        ∃ t, exec (.mfsr u f) s = .next t ∧ Wrote s t u.num 2 f.r.toNat (BitVec.ofNat 64 v)) ∧
      (srWritable u.num f.sr.toNat = true → srValueOk f.sr.toNat (s.reg u.num f.r.toNat).toNat = true →
        ∃ t, exec (.mtsr u f) s = .next t ∧
          Moved2 s t u.num ((s.hart u.num).writeSr u.num f.sr.toNat (s.reg u.num f.r.toNat).toNat)))

/-- The end test of R61 on the innermost level, and the closing rule of R62: a level closes exactly while it does not
contain the target. -/
def Obligations.HardwareLoopsTurnAndClose : Prop :=
  ∀ (u len : Nat) (h : Hart), h.ld ≤ 4 →
    (let p := { h with pc := BitVec.ofNat 18 ((h.pc.toNat + len) % pmSize u) }
     let k := h.ld - 1
     (¬(h.lbase < h.ld ∧ p.pc.toNat = h.lev k) → seqPc u len h = p) ∧
     (h.lbase < h.ld → p.pc.toNat = h.lev k → 1 < h.lcv k →
       seqPc u len h =
         { p with lc := Tab.put (fun _ => 0) h.lc k (BitVec.ofNat 32 (h.lcv k - 1)), pc := BitVec.ofNat 18 (h.lsv k) }) ∧
     (h.lbase < h.ld → p.pc.toNat = h.lev k → h.lcv k = 1 →
       seqPc u len h = endTest 4 { p with lc := Tab.put (fun _ => 0) h.lc k 0, ld := k })) ∧
    ∀ a, let t := jumpPc u a h
      t.pc = BitVec.ofNat 18 (a % pmSize u) ∧ t.ls = h.ls ∧ t.le = h.le ∧ t.lc = h.lc ∧ t.lbase = h.lbase ∧ t.ld ≤ h.ld ∧
      (∀ k, t.ld ≤ k → k < h.ld → h.lbase ≤ k ∧ ¬(h.lsv k ≤ t.pc.toNat ∧ t.pc.toNat < h.lev k)) ∧
      (h.lbase < t.ld → h.lsv (t.ld - 1) ≤ t.pc.toNat ∧ t.pc.toNat < h.lev (t.ld - 1))

/-! ### Tokens -/

/-- The instructions and events of the operand tokens (R66-R68): a wait that is met subtracts and completes, a wait that
is not met holds the unit and keeps the instruction, and a release adds, up to 15, once the unit's stores are visible. A
wait that its token now satisfies ends, and the waiting instruction goes on (R67, R69): a WAITTOK completes. -/
def Obligations.TokenInstructionsCount : Prop :=
  (∀ (s : State) (u : UnitId), s.Inv →
     (s.issues u.num 1 = true → ∀ f : S1, tokOk u.num f.arg7.toNat = true →
       (1 ≤ s.tok u.num f.arg7.toNat → ∃ t, exec (.waittok u f) s = .next t ∧ Only [.toks, .harts] s t ∧
         OneTok s t u.num f.arg7.toNat (s.tok u.num f.arg7.toNat - 1) ∧
         OneHart s t u.num (seqPc u.num 1 (s.hart u.num))) ∧
       (s.tok u.num f.arg7.toNat < 1 → ∃ t, exec (.waittok u f) s = .next t ∧ Only [.harts] s t ∧
         OneHart s t u.num { s.hart u.num with
           wait := some { tok := f.arg7.toNat, need := 1, since := s.dev.beat.time, instr := .waittok u f } })) ∧
     (s.issues u.num 2 = true → ∀ f : S2T, f.n ≠ 0 → f.rs = 0 → f.rsvA = 0 → f.rsvB = 0 → tokOk u.num f.tok.toNat = true →
       (f.n.toNat ≤ s.tok u.num f.tok.toNat → ∃ t, exec (.waittokN u f) s = .next t ∧ Only [.toks, .harts] s t ∧
         OneTok s t u.num f.tok.toNat (s.tok u.num f.tok.toNat - f.n.toNat) ∧
         OneHart s t u.num (seqPc u.num 2 (s.hart u.num))) ∧
       (s.tok u.num f.tok.toNat < f.n.toNat → ∃ t, exec (.waittokN u f) s = .next t ∧ Only [.harts] s t ∧
         OneHart s t u.num { s.hart u.num with
           wait := some { tok := f.tok.toNat, need := f.n.toNat, since := s.dev.beat.time, instr := .waittokN u f } })) ∧
     ((s.hart u.num).mbuf = [] →
       (s.issues u.num 1 = true → u.num < 128 → ∀ f : S1, f.arg7.toNat < 64 →
         ∃ t, exec (.sigtok u f) s = .next t ∧ Only [.harts] s t ∧
           OneHart s t u.num (seqPc u.num 1 { s.hart u.num with
             rels := (s.hart u.num).rels ++ [{ core := u.num, tok := f.arg7.toNat, n := 1 }] })) ∧
       (s.issues u.num 2 = true → ∀ f : S2T, f.n ≠ 0 → f.rsvA = 0 → f.rsvB = 0 →
         ∃ t, exec (.sigtokR u f) s = .next t ∧ Only [.harts] s t ∧
           OneHart s t u.num (seqPc u.num 2 { s.hart u.num with
             rels := (s.hart u.num).rels ++
               [{ core := (s.reg u.num f.rs.toNat).toNat % 64, tok := f.tok.toNat, n := f.n.toNat }] }))) ∧
     (s.dev.pwr.on = true → s.postsDone u.num = true → ∀ r rest, (s.hart u.num).rels = r :: rest → r.tok < 64 →
       s.tok r.core r.tok + r.n ≤ 15 →
       ∃ t, exec (.sigtokRelease u) s = .next t ∧ Only [.toks, .harts] s t ∧
         OneTok s t r.core r.tok (s.tok r.core r.tok + r.n) ∧ OneHart s t u.num { s.hart u.num with rels := rest })) ∧
  ∀ (s : State) (u : UnitId) (f : S1) (w : Wait), s.Inv → (s.hart u.num).wait = some w → w.instr = .waittok u f →
    w.tok = f.arg7.toNat → w.need = 1 → (s.hart u.num).halted = false → tokOk u.num f.arg7.toNat = true →
    1 ≤ s.tok u.num f.arg7.toNat →
    ((modHart u.num fun h => { h with wait := none }).run s).issues u.num 1 = true →
      ∃ t, exec (.tokenWaitSatisfied u) s = .next t ∧ Only [.io, .toks, .harts] s t ∧
        OneTok s t u.num f.arg7.toNat (s.tok u.num f.arg7.toNat - 1) ∧
        OneHart s t u.num (seqPc u.num 1 { s.hart u.num with wait := none })

/-! ### Capabilities -/

/-- The instructions that write a capability register or read a field of one (R377-R379), where their checks pass, and the
Capability Store (R373, R378): CLDS reads, CSTS writes and CCLRS clears the entry that rs names, within cb. -/
def Obligations.CapabilityInstructions : Prop :=
  (∀ (s : State) (u : UnitId) (f : S2C), s.Inv → s.issues u.num 2 = true → u.num < 128 → f.rsvA = 0 → f.rsvB = 0 →
    s.capsClean u.num [capIx f.cb.toNat] = true →
    let c := s.creg u.num f.cb.toNat
    let a := s.reg u.num f.rs.toNat
    let b := s.reg u.num (f.rs.toNat + 1)
    let writes := fun (i : Instr) (d : Cap) => ∃ t, exec i s = .next t ∧ Only [.xp, .caps, .harts] s t ∧
      OneCreg s t u.num f.ca.toNat d ∧ OneHart s t u.num (seqPc u.num 2 (s.hart u.num))
    (f.ca ≠ 15 →
      (f.fn = 0 → f.rs = 0 → writes (.cmov u f) c) ∧
      (f.fn = 1 → f.rs = 0 → f.cb = 0 → writes (.cnull u f) 0) ∧
      (f.fn = 0 → f.rs.toNat % 2 = 0 → c.valid = true → c.within a.toNat b.toNat = true →
        ∃ d : Cap, writes (.cnarrow u f) d ∧ d.base = a.toNat ∧ d.len = b.toNat ∧ d.valid = true ∧ d.perm = c.perm ∧
          d.otype = c.otype ∧ d.domain = c.domain) ∧
      (f.fn = 0 → c.valid = true →
        ∃ d : Cap, writes (.cperm u f) d ∧ d.perm = Nat.land c.perm (a.toNat % 128) ∧ d.base = c.base ∧ d.len = c.len ∧
          d.valid = true ∧ d.otype = c.otype ∧ d.domain = c.domain) ∧
      (f.fn = 0 → f.rs.toNat % 2 = 0 → bits b.toNat 63 60 = 0 → bits b.toNat 55 52 ≤ 5 → bits b.toNat 44 0 ≤ 2 ^ 44 →
        c.valid = true → Nat.land c.perm pSys = pSys →
        (Nat.land (bits b.toNat 51 45) pDebug ≠ 0 → Nat.land c.perm pDebug ≠ 0) →
        s.mayEnter u.num c.domain (bits b.toNat 59 56) = true →
        ∃ d : Cap, writes (.cmint u f) d ∧ d.valid = true ∧ d.base = a.toNat ∧ d.len = bits b.toNat 44 0 ∧
          d.perm = bits b.toNat 51 45 ∧ d.otype = bits b.toNat 55 52 ∧ d.domain = bits b.toNat 59 56)) ∧
    (f.ca = 0 → f.fn.toNat < 6 → ∃ t, exec (.cget u f) s = .next t ∧ Wrote s t u.num 2 f.rs.toNat
      (BitVec.ofNat 64 (if f.fn = 0 then c.base else if f.fn = 1 then c.len else if f.fn = 2 then c.perm
        else if f.fn = 3 then c.otype else if f.fn = 4 then c.domain else if c.valid then 1 else 0))) ∧
    (f.ca = 0 → f.fn = 1 → c.valid = true → Nat.land c.perm pSys = pSys →
      ∃ t, exec (.wesp u f) s = .next t ∧ Moved2 s t u.num { s.hart u.num with esp := a.setWidth 32 })) ∧
  ∀ (s : State) (u : UnitId) (f : S2C), s.Inv → s.issues u.num 2 = true → u.num < 128 → f.rsvA = 0 → f.rsvB = 0 →
    s.capsClean u.num [capIx f.cb.toNat] = true →
    let c := s.creg u.num f.cb.toNat
    let i := (s.reg u.num f.rs.toNat).toNat
    i < 256 → c.valid = true → c.otype = otStore → c.base ≤ i → i < c.base + c.len →
    (Nat.land c.perm pR = pR → f.fn = 0 → f.ca ≠ 15 → s.capsClean u.num [i] = true →
      ∃ t, exec (.clds u f) s = .next t ∧ Only [.xp, .caps, .harts] s t ∧ OneCreg s t u.num f.ca.toNat (s.store u.num i) ∧
        OneHart s t u.num (seqPc u.num 2 (s.hart u.num))) ∧
    (Nat.land c.perm pW = pW → f.fn = 1 → s.capsClean u.num [capIx f.ca.toNat] = true →
      ∃ t, exec (.csts u f) s = .next t ∧ Only [.xp, .caps, .harts] s t ∧ OneStore s t u.num i (s.creg u.num f.ca.toNat) ∧
        OneHart s t u.num (seqPc u.num 2 (s.hart u.num))) ∧
    (Nat.land c.perm pW = pW → f.fn = 2 → f.ca = 0 →
      ∃ t, exec (.cclrs u f) s = .next t ∧ Only [.xp, .caps, .harts] s t ∧ OneStore s t u.num i 0 ∧
        OneHart s t u.num (seqPc u.num 2 (s.hart u.num)))

/-- CCALL through an ENTRY capability and back through a RETURN capability (R380). -/
def Obligations.CcallCrossesDomains : Prop :=
  ∀ (s : State) (u : UnitId) (f : S2C), s.Inv → s.issues u.num 2 = true → u.num < 128 →
    f.fn = 0 → f.rsvA = 0 → f.rsvB = 0 → f.rs = 0 → f.cb = 0 →
    let c := s.creg u.num f.ca.toNat
    let x := s.creg u.num 15
    let back := (s.reg u.num 31).toNat % pmSize u.num
    s.capsClean u.num [capIx f.ca.toNat, capIx 15] = true → s.capsClean u.num [s.home u.num c.domain] = true →
    c.valid = true → Nat.land c.perm pX = pX →
    (c.otype = otEntry → s.mayEnter u.num x.domain c.domain = true → c.within c.base 1 = true →
      ∃ t, exec (.ccall u f) s = .next t ∧ Only [.xp, .caps, .regs, .harts] s t ∧
        OneReg s t u.num 31 (BitVec.ofNat 64 (s.pcAt u.num 2)) ∧
        OneHart s t u.num { s.hart u.num with pc := BitVec.ofNat 18 (c.base % pmSize u.num) } ∧
        t.creg u.num 12 = s.store u.num (s.home u.num c.domain) ∧
        (t.creg u.num 13).otype = otReturn ∧ (t.creg u.num 13).base = x.base ∧ (t.creg u.num 13).len = x.len ∧
        (t.creg u.num 13).perm = x.perm ∧ (t.creg u.num 13).domain = x.domain ∧
        (t.creg u.num 15).otype = otProgram ∧ (t.creg u.num 15).base = c.base ∧ (t.creg u.num 15).len = c.len ∧
        (t.creg u.num 15).perm = c.perm ∧ (t.creg u.num 15).domain = c.domain ∧
        (∀ i, i < 16 → i ≠ 12 → i ≠ 13 → i ≠ 15 → t.creg u.num i = s.creg u.num i) ∧
        ∀ e, e < 256 → t.store u.num e = s.store u.num e) ∧
    (c.otype = otReturn → c.within back 1 = true →
      ∃ t, exec (.ccall u f) s = .next t ∧ Only [.xp, .caps, .harts] s t ∧
        OneHart s t u.num { s.hart u.num with pc := BitVec.ofNat 18 back } ∧
        t.creg u.num 12 = s.store u.num (s.home u.num c.domain) ∧ t.creg u.num 13 = 0 ∧
        (t.creg u.num 15).otype = otProgram ∧ (t.creg u.num 15).base = c.base ∧ (t.creg u.num 15).domain = c.domain ∧
        ∀ i, i < 16 → i ≠ 12 → i ≠ 13 → i ≠ 15 → t.creg u.num i = s.creg u.num i)

/-! ### Exceptions -/

/-- The unit can take an exception whose frame goes to `pa` (R382): Store entry 14 may write the frame below ESP, the
frame lies in one translated piece of whole SRAM blocks outside the durable ranges, fewer than four frames are open, the
capability blocks are clean, and no store of the unit waits or is cached. -/
def canEnter (s : State) (u pa : Nat) : Prop :=
  let h := s.store u 14
  let top := (s.hart u).esp.toNat
  u < 128 ∧ (s.hart u).capdepth < 4 ∧ h.authOk otData pW = true ∧ 64 ≤ top ∧ top ≤ h.len ∧
    s.capsClean u (14 :: (range 1 15).map capIx) = true ∧
    s.trRange u (h.base + top - 64) 64 false true = .ok [(h.base + top - 64, pa, 64)] ∧
    pa % 8 = 0 ∧ ((range 0 8).all fun i => plainBlock (pa / 8 + i)) = true ∧
    s.durable (h.base + top - 64) 64 = false ∧ (s.hart u).mbuf = [] ∧ (s.hart u).cache = []

/-- What exception entry with `cause` leaves (R382, R383): the frame at `pa` holds the cause, the PC, the loop depths and
the domain; the PC is the handler's address from Store entry 15; c1–c15 come from Store entries 1–15 and the interrupted
ones stand in the Store block of the old depth. The scalar registers are kept. -/
def entered (s t : State) (u cause pa : Nat) : Prop :=
  let h := s.hart u
  (t.hart u).pc = BitVec.ofNat 18 ((s.store u 15).base % pmSize u) ∧ (t.hart u).capdepth = h.capdepth + 1 ∧
    (t.hart u).esp = h.esp - 64 ∧ (t.hart u).lbase = h.ld ∧ (t.hart u).ld = h.ld ∧ (t.hart u).wait = none ∧
    (∀ i, 1 ≤ i → i < 16 → t.creg u i = s.store u i) ∧
    (∀ i, 1 ≤ i → i < 16 → t.store u (192 + 16 * h.capdepth + i) = s.creg u i) ∧
    t.rdByte (pa + 7) = BitVec.ofNat 8 cause ∧ bits (t.rdNat pa 8) 17 0 = h.pc.toNat ∧
    bits (t.rdNat (pa + 8) 8) 8 6 = h.ld ∧ bits (t.rdNat (pa + 8) 8) 5 3 = h.lbase ∧
    bits (t.rdNat (pa + 8) 8) 19 16 = (s.creg u 15).domain ∧
    ∀ w r, t.reg w r = s.reg w r

/-- An opcode that no table assigns takes ILLEGAL (R46, R382): a core enters its handler, and a sequencer stops. A wait
whose limit has passed takes TOKEN_TIMEOUT (R69): the clock stands 1 ac past the limit at the earliest, the wait ends, and
the core enters its handler. -/
def Obligations.IllegalAndTimeoutTakeTheException : Prop :=
  (∀ (s : State) (u : UnitId) (w : BitVec 56), s.Inv → assigned w = false → s.issues u.num (lengthOf w) = true →
    ((s.hart u.num).ld ≤ 4 → (s.hart u.num).lbase ≤ 4 → ∀ pa, canEnter s u.num pa →
      ∃ t, exec (.undefinedInstruction u w) s = .next t ∧ entered s t u.num 0x01 pa) ∧
    (128 ≤ u.num → ∃ t, exec (.undefinedInstruction u w) s = .next t ∧ (t.hart u.num).run = false ∧
      (t.hart u.num).pc = (s.hart u.num).pc ∧ t.fld (ioa (unitPage u.num) 0x14) 15 0 = 0x3A ∧ t.regs = s.regs ∧
      t.mem = s.mem)) ∧
  ∀ (s : State) (c : Fin 64) (w : Wait) (pa : Nat), s.Inv → s.dev.pwr.on = true → (s.hart c).wait = some w →
    (s.hart c).run = true → (s.hart c).halted = false → s.ioVal (ioa (corePage c) 0x108) ≠ 0 →
    s.tok c w.tok < w.need → (s.hart c).quiet = true → (s.hart c).ld ≤ 4 → (s.hart c).lbase ≤ 4 → canEnter s c pa →
    ∃ t, exec (.tokenTimeout c) s = .next t ∧ entered s t c 0x0E pa ∧
      w.since + 5 * ((s.ioVal (ioa (corePage c) 0x108)).toNat + 1) ≤ t.dev.beat.time

/-! ### Loads, stores and ordering -/

/-- LD and LDU (R52, R55): the load captures its value and opens a shadow of three instructions; the data is there at
once from the unit's own memory, and is on its way otherwise. A load of a stacked or far line that misses also asks its
bank. No instruction of a queue must come first (R84, R151). -/
def Obligations.LoadsOpenTheirShadow : Prop :=
  ∀ (s : State) (u : UnitId) (f : S2I) (sz : LSize), s.Inv → s.issues u.num 2 = true →
    let a := (s.reg u.num f.rs1.toNat + f.imm.signExtend 64).toNat
    let n := lsBytes sz
    let h := s.hart u.num
    (∀ pa, u.num < 128 → h.bare = true → s.reaches u.num a n false pa → pa % 8 + n ≤ 8 →
      s.memWaits u.num a n false = false →
      let sh := fun b arrived => { openShadow h f.rd.toNat a pa (loadValue b n (s.rdNat pa n)) arrived with
                                   bytes := n, signed := b, stamp := h.stamps + 1 }
      (cachedTier pa = false → s.clean (pa / 8) = true →
        (∃ t, exec (.ld u sz f) s = .next t ∧ Only [.harts] s t ∧ OneHart s t u.num
          { seqPc u.num 2 h with stamps := h.stamps + 1, shadows := [sh true (ownMem u.num pa)] }) ∧
        (sz ≠ .d → ∃ t, exec (.ldu u sz f) s = .next t ∧ Only [.harts] s t ∧ OneHart s t u.num
          { seqPc u.num 2 h with stamps := h.stamps + 1, shadows := [sh false (ownMem u.num pa)] })) ∧
      (cachedTier pa = true → s.poisonIn pa n = none → (s.bankWaits fun r => r.page = unitPage u.num) = false →
        (u.num < 64 → s.fld (aDcctl u.num) 16 16 = 0 ∨ ∀ d ∈ h.dets, d.pc ≠ h.pc) →
        ∃ t, exec (.ld u sz f) s = .next t ∧ Only [.harts, .banks] s t ∧
          (t.hart u.num).shadows = [{ sh true false with fill := some (pa - pa % 64) }] ∧
          (t.hart u.num).pc = (seqPc u.num 2 h).pc)) ∧
    (128 ≤ u.num → a % n = 0 → a + n ≤ 0x10000 → s.clean (seqMem (u.num - 128) a / 8) = true →
      ∃ t, exec (.ld u sz f) s = .next t ∧ Only [.harts] s t ∧ OneHart s t u.num
        { seqPc u.num 2 h with shadows := [openShadow h f.rd.toNat a (seqMem (u.num - 128) a)
            (loadValue true n (s.rdNat (seqMem (u.num - 128) a) n)) true] })

/-- The load shadow (R55): each completed instruction counts it down; at the third boundary an arrived load writes its
register, and one that has not arrived holds the unit until LOAD_DATA_ARRIVAL, which its bank's admission comes before
(R174). -/
def Obligations.LoadShadowsLandAtTheThirdBoundary : Prop :=
  ∀ (s : State) (u : UnitId) (x : Shadow), s.Inv → (s.hart u.num).shadows = [x] → (s.hart u.num).haltReq = none →
    (s.hart u.num).stepping = none →
    let h := s.hart u.num
    (s.canIssue u.num 1 = true →
      (1 < x.left → ∃ t, exec (.nop u ⟨0⟩) s = .next t ∧ Only [.harts] s t ∧
        OneHart s t u.num { seqPc u.num 1 h with shadows := [{ x with left := x.left - 1 }] }) ∧
      (x.left = 1 → x.arrived = true → ∃ t, exec (.nop u ⟨0⟩) s = .next t ∧ Only [.regs, .harts] s t ∧
        OneReg s t u.num x.rd x.data ∧ OneHart s t u.num { seqPc u.num 1 h with shadows := [] }) ∧
      (x.left = 1 → x.arrived = false → ∃ t, exec (.nop u ⟨0⟩) s = .next t ∧ Only [.harts] s t ∧
        OneHart s t u.num { seqPc u.num 1 h with shadows := [{ x with left := 0 }] })) ∧
    (x.left = 0 → exec (.nop u ⟨0⟩) s = .next s) ∧
    (s.dev.pwr.on = true → x.arrived = false → x.commit = false → x.fill = none → x.bad = false → h.dcctl = none →
      s.readHeld u.num x.stamp = false →
      (x.left = 0 → ∃ t, exec (.loadDataArrival u .clean) s = .next t ∧ Only [.regs, .harts, .banks] s t ∧
        OneReg s t u.num x.rd x.data ∧ OneHart s t u.num { h with shadows := [] }) ∧
      (0 < x.left → ∃ t, exec (.loadDataArrival u .clean) s = .next t ∧ Only [.harts, .banks] s t ∧
        OneHart s t u.num { h with shadows := [{ x with arrived := true }] }))

/-- ST (R52, R185): a core's store takes an entry of the merging buffer, from which its own loads read it; a sequencer's
store writes its memory (R284). A drain writes the entry at the latest 32 ac after its allocation. -/
def Obligations.StoresMergeAndDrain : Prop :=
  ∀ (s : State) (u : UnitId), s.Inv →
    (s.issues u.num 2 = true → ∀ (f : S2I) (sz : LSize),
      let a := (s.reg u.num f.rs1.toNat + f.imm.signExtend 64).toNat
      let n := lsBytes sz
      let bs := toBytes n (s.reg u.num f.rd.toNat).toNat
      (∀ pa, u.num < 128 → (s.hart u.num).bare = true → s.reaches u.num a n true pa → pa % 64 + n ≤ 64 →
        s.memWaits u.num a n true = false →
        ∃ t, exec (.st u sz f) s = .next t ∧ Only [.harts] s t ∧
          OneHart s t u.num
            { seqPc u.num 2 (s.hart u.num) with
              mbuf := [{ line := pa - pa % 64, va := BitVec.ofNat 64 (a - a % 64),
                         bytes := (range 0 n).map fun i => (pa % 64 + i, bs.getD i 0),
                         born := s.dev.beat.time, stamp := (s.hart u.num).stamps }] } ∧
          ∀ i, i < n → (t.hart u.num).mbByte (pa + i) = some (bs.getD i 0)) ∧
      (128 ≤ u.num → a % n = 0 → a + n ≤ 0x10000 → s.clean (seqMem (u.num - 128) a / 8) = true →
        ∃ t, exec (.st u sz f) s = .next t ∧ Only [.mem, .xp, .harts] s t ∧ Stored s t [(seqMem (u.num - 128) a, bs)] ∧
          OneHart s t u.num (seqPc u.num 2 (s.hart u.num)))) ∧
    (s.dev.pwr.on = true → ∀ (e : MbEntry) (es : List MbEntry) (o : Nat) (bs : List Byte), (s.hart u.num).mbuf = e :: es →
      e.bytes = (range 0 bs.length).map (fun i => (o + i, bs.getD i 0)) → 0 < bs.length → o % 8 = 0 → bs.length % 8 = 0 →
      o + bs.length ≤ 64 → e.line % 64 = 0 → ((range (e.line / 8) 8).all plainBlock) = true →
      s.durable (e.va.toNat + o) 1 = false → (s.hart u.num).cache = [] →
      ∃ t, exec (.mergingBufferDrain u) s = .next t ∧ Only [.mem, .xp, .harts, .beat] s t ∧
        Stored s t [(e.line + o, bs)] ∧ OneHart s t u.num { s.hart u.num with mbuf := es } ∧
        e.born + 5 * 32 ≤ t.dev.beat.time)

/-- PLD and PST (R54): four syllables of program memory, read or written through the capability that CAP names. -/
def Obligations.ProgramSpaceLoadsAndStores : Prop :=
  ∀ (s : State) (u : UnitId) (f : S4P), s.Inv → s.issues u.num 4 = true → u.num < 128 → f.rsvA = 0 → f.rsvB = 0 →
    s.capsClean u.num [capIx f.cap.toNat] = true →
    let h := s.hart u.num
    let a := ((s.reg u.num f.rs1.toNat).toNat + f.off.toNat) % pmSize u.num
    let c := s.creg u.num f.cap.toNat
    ((range 0 4).all fun i => s.clean (pmAddr u.num ((a + i) % pmSize u.num) / 8)) = true → c.within a 4 = true →
    (c.authOk otProgram pR = true → ∃ t, exec (.pld u f) s = .next t ∧ Only [.harts] s t ∧
      OneHart s t u.num { seqPc u.num 4 h with shadows :=
        [openShadow h f.r.toNat a (pmAddr u.num a) (BitVec.ofNat 64 (s.pldWord u.num a)) true] }) ∧
    (c.authOk otProgram pW = true → ∃ t, exec (.pst u f) s = .next t ∧ Only [.mem, .xp, .harts] s t ∧
      OneHart s t u.num (seqPc u.num 4 h) ∧
      ∀ j, j < pmSize u.num → t.syllable u.num j =
        if (j + pmSize u.num - a) % pmSize u.num < 4 then
          (s.reg u.num f.r.toNat).toNat / 2 ^ (14 * ((j + pmSize u.num - a) % pmSize u.num)) % 2 ^ 14
        else s.syllable u.num j)

/-- FENCE, LFENCE and CINV (R71, R72, R187). The merging buffer drains; once the loads have returned and the stores are
visible FENCE completes, and LFENCE once the units are idle as well. LFENCE and CINV invalidate the unlocked cache ways. A
fence whose conditions do not hold drains and waits; CINV waits for the fills in flight. -/
def Obligations.FencesAndInvalidation : Prop :=
  ∀ (s : State) (u : UnitId) (f : S1), s.Inv → s.issues u.num 1 = true → u.num < 128 → f.arg7 = 0 →
    let d := (drainAll u.num).run s
    let h := d.hart u.num
    let kept := fun (x : State) => Tab.drop (fun i => !x.wayLocked u.num i) (x.hart u.num).cache
    ((s.hart u.num).mbuf = [] → Only [.harts] s d ∧ ∀ v, d.hart v = s.hart v) ∧
    (h.quiet = true → d.loadsBack u.num = true → d.storesVisible u.num = true →
      (∃ t, exec (.fence u f) s = .next t ∧ Only [.harts] d t ∧ OneHart d t u.num (seqPc u.num 1 h)) ∧
      (d.unitsIdle u.num = true → h.dcctl = none → ∃ t, exec (.lfence u f) s = .next t ∧ Only [.harts] d t ∧
        OneHart d t u.num (seqPc u.num 1 { h with fills := [], deadFills := h.deadFills ++ h.fills, cache := kept d })) ∧
      (d.unitsIdle u.num = false → exec (.lfence u f) s = .next d)) ∧
    (d.loadsBack u.num = false ∨ d.storesVisible u.num = false →
      exec (.fence u f) s = .next d ∧ exec (.lfence u f) s = .next d) ∧
    ((s.hart u.num).filling = false → ∃ t, exec (.cinv u f) s = .next t ∧ Only [.harts] s t ∧
      OneHart s t u.num (seqPc u.num 1 { s.hart u.num with cache := kept s })) ∧
    ((s.hart u.num).filling = true → exec (.cinv u f) s = .next s)

/-- ERET (R386): the newest frame is popped, and the PC, loop depths and capabilities that it names come back. -/
def Obligations.EretRestoresTheFrame : Prop :=
  ∀ (s : State) (u : UnitId) (pa : Nat) (fr : List Byte) (cs : List Cap), s.Inv → s.issues u.num 1 = true → u.num < 128 →
    0 < (s.hart u.num).capdepth → (s.hart u.num).mbuf = [] → s.capsClean u.num [capIx 14, capIx 15] = true →
    let h := s.hart u.num
    let a := (s.creg u.num 14).base + h.esp.toNat
    s.lands u.num a 64 true false pa → s.plain pa 64 = true → s.eretFrame u.num a = some fr →
    (u.num < 64 → frameFld fr 0 63 56 ≠ 0x0B ∧ frameFld fr 0 63 56 ≠ 0x0E) → s.eretCaps u.num fr = some cs →
    ∃ t, exec (.eret u ⟨0⟩) s = .next t ∧ Only [.xp, .caps, .harts] s t ∧
      (∀ i, 1 ≤ i → i < 16 → t.creg u.num i = cs.getD (i - 1) 0) ∧ (∀ e, e < 256 → t.store u.num e = s.store u.num e) ∧
      OneHart s t u.num (closeLoops 4
        { h with pc := BitVec.ofNat 18 (frameFld fr 0 17 0), ld := frameFld fr 8 8 6, lbase := frameFld fr 8 5 3,
                 capdepth := h.capdepth - 1, esp := h.esp + 64 })

/-- IN, OUT and CMTWAIT (R53, R219): IN opens a shadow with the register's value, OUT writes the register, and an IN from
UPD.CMTWAIT by a compute core marks the core arrived and waits for the commit. -/
def Obligations.InOutAndCommitWait : Prop :=
  ∀ (s : State) (u : UnitId) (f : S2I), s.Inv → s.issues u.num 2 = true → u.num < 128 →
    s.capsClean u.num [capIx 2] = true →
    let h := s.hart u.num
    let a := (s.reg u.num f.rs1.toNat + f.imm.signExtend 64).toNat % 2 ^ 24
    let c := s.creg u.num 2
    a % 4 = 0 → c.authOk otIo (ioPerm a) = true → c.within a 4 = true →
    (∀ r, fieldReg a r →
      (∃ t, exec (.inp u f) s = .next t ∧ Only [.harts] s t ∧ OneHart s t u.num
        { seqPc u.num 2 h with shadows := [openShadow h f.rd.toNat a 0 (BitVec.ofNat 64 (s.ioRead a)) true] }) ∧
      (r.mask .h = 0 → ∃ t, exec (.outp u f) s = .next t ∧ Only [.io, .harts] s t ∧
        OneHart s t u.num (seqPc u.num 2 h) ∧
        ∀ b, t.ioVal b = if b = a then
          (s.ioVal a &&& ~~~r.mask .l) ||| ((s.reg u.num f.rd.toNat).setWidth 32 &&& r.mask .l) else s.ioVal b)) ∧
    (a = ioa 0xD0 0x110 → u.num < 64 →
      ∃ t, exec (.cmtwait u f) s = .next t ∧ Only [.io, .harts] s t ∧
        t.fld (ioa 0xD0 (if u.num < 32 then 0x114 else 0x118)) (u.num % 32) (u.num % 32) = 1 ∧
        OneHart s t u.num { seqPc u.num 2 h with shadows :=
          [{ openShadow h f.rd.toNat a 0 0 false with commit := true }] })

/-! ### Tiles -/

/-- TLD and TST (R83, R84, R92, R100): once the tile is free and no queued access of the core comes first, every row is
copied between memory and the tile, and TLD tags the tile. -/
def Obligations.TileLoadAndStore : Prop :=
  ∀ (s : State) (c : Fin 64) (f : S4U) (pa : Nat → Nat), s.Inv → s.issues c 4 = true → f.sub = 0 →
    s.waitOver c f.wte f.wtok → (s.hart c).bare = true → (s.hart c).tprog = 0 → s.capsClean c [capIx 1] = true →
    let h := s.hart c
    let i := uf f 37 35
    let rows := s.rowList c f
    (s.reg c (uf f 34 30)).toNat % 16 = 0 → (s.reg c (uf f 29 25)).toNat % 16 = 0 →
    (uf f 24 21 < 0xD → uf f 20 14 = 0 → s.tilesFree c [] [i] (s.nextStamp c) = true → s.rowsWait c false rows = false →
      (s.creg c 1).authOk otData pR = true → s.rowsLand c false rows pa → (∀ x ∈ rows, region (pa x.1) = .stage c) →
      ∃ t, exec (.tld (.core c) f) s = .next t ∧
        Done4 [.mem, .xp] s t c f.wte f.wtok
          { h with
            tags := Tab.put (fun _ => none) h.tags i (some { rows := rowsOf f, rb := rbOf f, fmt := uf f 24 21 })
            stamps := h.stamps + 1 } ∧
        Stored s t (rows.zipIdx.map fun x => (tileAddr c i x.2 0, s.rd (pa x.1.1) (rbOf f)))) ∧
    (uf f 24 14 = 0 → s.shapeOk c i (rowsOf f) (rbOf f) = true → s.tilesFree c [i] [] (s.nextStamp c) = true →
      s.rowsWait c true rows = false → (s.creg c 1).authOk otData pW = true → s.rowsLand c true rows pa → apart rows pa →
      (∀ r, r < rowsOf f → s.plain (tileAddr c i r 0) (rbOf f) = true) →
      ∃ t, exec (.tst (.core c) f) s = .next t ∧
        Done4 [.mem, .xp] s t c f.wte f.wtok { h with stamps := h.stamps + 1 } ∧
        Stored s t (rows.zipIdx.map fun x => (pa x.1.1, s.rd (tileAddr c i x.2 0) (rbOf f))))

/-- TZERO clears the rows of a tile and tags it, TREL drops the tags it names (R85, R97), and the row that
TILE_ROW_ARRIVAL brings, once its banks have admitted it, is written into its tile (R84, R86). -/
def Obligations.TileZeroReleaseAndArrival : Prop :=
  ∀ (s : State) (c : Fin 64) (f : S4U), s.Inv →
    let h := s.hart c
    let i := uf f 37 35
    (s.issues c 4 = true → f.sub = 0 → s.waitOver c f.wte f.wtok →
      (uf f 34 25 = 0 → uf f 24 21 < 0xD → uf f 20 14 = 0 → s.tilesFree c [] [i] (s.nextStamp c) = true →
        ∃ t, exec (.tzero (.core c) f) s = .next t ∧
          Done4 [.mem, .xp] s t c f.wte f.wtok
            { h with
              tags := Tab.put (fun _ => none) h.tags i (some { rows := rowsOf f, rb := rbOf f, fmt := uf f 24 21 })
              stamps := h.stamps + 1 } ∧
          Stored s t ((range 0 (rowsOf f)).map fun r => (tileAddr c i r 0, List.replicate (rbOf f) 0))) ∧
      (f.rowsM1 = 0 → f.rbM1 = 0 → uf f 37 30 ≠ 0 → uf f 29 14 = 0 →
        s.tilesFree c [] (bitsSet 8 (uf f 37 30)) (s.nextStamp c) = true →
        Tab.wf (fun _ => none) h.tags = true →
        ∃ t, exec (.trel (.core c) f) s = .next t ∧ Only [.toks, .harts] s t ∧ TookToken s t c f.wte f.wtok ∧
          (t.hart c).pc = (seqPc c 4 h).pc ∧
          ∀ j, j < 8 → t.tag c j = if bitAt (uf f 37 30) j then none else s.tag c j)) ∧
    (s.dev.pwr.on = true → ∀ r rest, h.tileRows = r :: rest → s.rowHeld c r = false → r.bad = [] → r.tile < 8 →
      r.row < 128 → r.bytes.length % 8 = 0 → r.bytes.length ≤ 256 → h.tq = [] → h.vq = [] →
      ∃ t, exec (.tileRowArrival c .clean) s = .next t ∧ Only [.mem, .xp, .harts, .banks] s t ∧
        OneHart s t c { h with tileRows := rest } ∧ Stored s t [(tileAddr c r.tile r.row 0, r.bytes)])

/-- TSAVE and TRESTORE (R98): the header and the rows of every tile in use go to the save area, and come back from it with
their tags. -/
def Obligations.TileSaveAndRestore : Prop :=
  ∀ (s : State) (c : Fin 64) (f : S4U) (pa : Nat → Nat), s.Inv → s.issues c 4 = true → f.sub = 0 →
    s.waitOver c f.wte f.wtok → (s.hart c).bare = true → (s.hart c).tprog = 0 → s.capsClean c [capIx 1] = true →
    saveLegal f = true →
    let h := s.hart c
    let b := (s.reg c (uf f 34 30)).toNat
    let area := fun tiles => (b, 64) :: (saveRows tiles 64).map fun x => ((b + x.2.2.2) % 2 ^ 64, x.2.2.1)
    b % 64 = 0 →
    ((s.creg c 1).authOk otData pW = true → s.tilesFree c ((s.liveTiles c).map Prod.fst) [] (s.nextStamp c) = true →
      s.rowsWait c true (area (s.liveTiles c)) = false → s.rowsLand c true (area (s.liveTiles c)) pa →
      apart (area (s.liveTiles c)) pa →
      (∀ x ∈ saveRows (s.liveTiles c) 64, s.plain (tileAddr c x.1 x.2.1 0) x.2.2.1 = true) →
      ∃ t, exec (.tsave (.core c) f) s = .next t ∧
        Done4 [.mem, .xp] s t c f.wte f.wtok { h with stamps := h.stamps + 1 } ∧
        Stored s t ((pa b, s.saveHeader c) :: (saveRows (s.liveTiles c) 64).map fun x =>
          (pa ((b + x.2.2.2) % 2 ^ 64), s.rd (tileAddr c x.1 x.2.1 0) x.2.2.1))) ∧
    (∀ tiles, headerTags (s.rd (pa b) 64) = some tiles → (s.creg c 1).authOk otData pR = true →
      s.tilesFree c [] (range 0 8) (s.nextStamp c) = true → s.rowsWait c false [(b, 64 + 8 * 128 * 256)] = false →
      s.rowsLand c false (area tiles) pa → (∀ x ∈ area tiles, region (pa x.1) = .stage c) →
      Tab.wf (fun _ => none) h.tags = true →
      ∃ t, exec (.trestore (.core c) f) s = .next t ∧ Only [.toks, .harts, .mem, .xp] s t ∧ TookToken s t c f.wte f.wtok ∧
        (t.hart c).pc = (seqPc c 4 h).pc ∧ (∀ j, j < 8 → t.tag c j = (tiles.find? fun x => x.1 = j).map Prod.snd) ∧
        Stored s t ((saveRows tiles 64).map fun x =>
          (tileAddr c x.1 x.2.1 0, s.rd (pa ((b + x.2.2.2) % 2 ^ 64)) x.2.2.1)))

/-! ### The matrix array -/

/-- The array instructions of R118 enter the array queue with their checks passed: MSEAT tags its bank (R105), MZERO sets
the mode of its pair (R115), MMA and MMAF capture their operands (R119, R129), MWAIT holds the core until its condition is
met (R122), and MDRAIN joins them (R88, R125, R126). -/
def Obligations.ArrayInstructionsEnterTheQueue : Prop :=
  (∀ (s : State) (c : Fin 64) (f : S4U), s.Inv → s.issues c 4 = true → f.sub = 0 → s.waitOver c f.wte f.wtok →
     (s.hart c).aq.length < 16 →
     let h := s.hart c
     let r := fun hi lo => s.reg c (uf f hi lo)
     let q := fun (i : Instr) vals tile aux =>
       ({ instr := i, vals := vals, vl := h.vl, pc := h.pc, tile := tile, aux := aux, stamp := h.stamps + 1 } : QOp)
     let pair := if awOf f then accOf f else accOf f / 2
     (∀ g, uf f 33 14 = 0 → s.tag c (uf f 37 35) = some g → 1 ≤ g.fmt → g.fmt ≤ 0xA →
       s.shapeOk c (uf f 37 35) (rowsOf f) (rbOf f) = true → (geom g.fmt (rbOf f)).isSome = true →
       ∃ t, exec (.mseat (.core c) f) s = .next t ∧ Issued4 s t c f.wte f.wtok
         { h with
           seats := Tab.put (fun _ => none) h.seats (uf f 34 34) (some { rows := rowsOf f, rb := rbOf f, fmt := g.fmt })
           aq := h.aq ++ [q (.mseat (.core c) f) [] (some (uf f 37 35)) []]
           stamps := h.stamps + 1 }) ∧
     (∀ seat wf g sg, accOk (awOf f) (accOf f) = true → uf f 15 14 = 0 → s.seat c (uf f 32 32) = some seat →
       weightFmt seat.fmt (uf f 31 31 = 1) = some wf → geom seat.fmt (rbOf f) = some g → geom seat.fmt seat.rb = some sg →
       rowsOf f ≤ seat.rows → g.kb ≤ sg.kb → 0 < ncOf (r 25 21) → ncOf (r 25 21) ≤ 128 →
       coffOf (r 25 21) + ncOf (r 25 21) ≤ 128 → s.modeOk c (awOf f) (accOf f) = true →
       (awOf f = false → seat.fmt = wf ∧ (wf = 1 ∨ wf = 3) ∧ uf f 20 16 = 0) → s.capsClean c [capIx 1] = true →
       (s.creg c 1).authOk otData pR = true → (r 30 26).toNat % 128 = 0 →
       (s.creg c 1).within (r 30 26).toNat (panelBytes g) = true →
       s.ownStage c (r 30 26).toNat (panelBytes g) false = none →
       (∀ p ∈ pagePieces (panelBytes g / 4096 + 2) (r 30 26).toNat (panelBytes g), s.tlbAfter 64 h.tlb p.1 = h.tlb) →
       ∃ t, exec (.mma (.core c) f) s = .next t ∧ Issued4 s t c f.wte f.wtok
         { h with
           aq := h.aq ++
             [{ q (.mma (.core c) f) [r 30 26, r 25 21, r 20 16] none [(seat.fmt : Int), (wf : Int), (seat.rb : Int)] with
                phys := s.pagesAt c (r 30 26).toNat (panelBytes g) }]
           stamps := h.stamps + 1 }) ∧
     (∀ x, noShape f = true → uf f 23 14 = 0 → s.capsClean c [capIx (uf f 37 34)] = true →
       s.mmafAuth c (s.creg c (uf f 37 34)) (r 33 29).toNat (r 28 24).toNat = none →
       let at0 := (s.pagesAt c (r 33 29).toNat 64).headD 0
       let d := s.viewBytes c at0 64
       s.plain at0 64 = true → s.wideMode c 6 = true → s.wideMode c 7 = true →
       foldOf d = some x → (∀ e ∈ x.extents, (s.creg c (uf f 37 34)).within e.1 e.2 = true) →
       ∃ t, exec (.mmaf (.core c) f) s = .next t ∧ Issued4 s t c f.wte f.wtok
         { h with
           seats := []
           aq := h.aq ++ [q (.mmaf (.core c) f)
             ((range 0 8).map (fun i => BitVec.ofNat 64 (ofBytes ((d.drop (8 * i)).take 8))) ++ [r 28 24]) none []]
           stamps := h.stamps + 1 }) ∧
     (noShape f = true → accOk (awOf f) (accOf f) = true → uf f 32 14 = 0 →
       ∃ t, exec (.mzero (.core c) f) s = .next t ∧ Issued4 s t c f.wte f.wtok
         { h with
           modes := if awOf f then h.modes ||| BitVec.ofNat 8 (2 ^ pair) else h.modes &&& ~~~(BitVec.ofNat 8 (2 ^ pair))
           aq := h.aq ++ [q (.mzero (.core c) f) [] none [if s.wideMode c pair = awOf f then 0 else 1]]
           stamps := h.stamps + 1 }) ∧
     (noShape f = true → awOf f = true → accOf f < 8 → uf f 27 14 = 0 → s.modeOk c true (accOf f) = true →
       ∃ t, exec (.manchor (.core c) f) s = .next t ∧ Issued4 s t c f.wte f.wtok
         { h with aq := h.aq ++ [q (.manchor (.core c) f) [r 32 28] none []], stamps := h.stamps + 1 }) ∧
     (noShape f = true → accOk (uf f 36 36 = 1) (uf f 35 32) = true → uf f 31 14 = 0 →
       (uf f 37 37 = 0 ∨ uf f 36 32 = 0) → (uf f 37 37 = 0 → s.modeOk c (uf f 36 36 = 1) (uf f 35 32) = true) →
       (mwaitMet f (h.arun ++ h.aq) = true → ∃ t, exec (.mwait (.core c) f) s = .next t ∧ Issued4 s t c f.wte f.wtok h) ∧
       (mwaitMet f (h.arun ++ h.aq) = false → ∃ t, exec (.mwait (.core c) f) s = .next t ∧ Only [.toks, .harts] s t ∧
         TookToken s t c f.wte f.wtok ∧ (t.hart c).mwait = true ∧ (t.hart c).pc = h.pc))) ∧
  ∀ (s : State) (c : Fin 64) (f : S4U), s.Inv → s.issues c 4 = true → f.sub = 0 → s.waitOver c f.wte f.wtok →
    (s.hart c).aq.length < 16 → accOk (awOf f) (accOf f) = true → uf f 32 30 < 5 → uf f 29 28 = 0 → uf f 16 16 = 0 →
    uf f 15 14 = 0 → s.modeOk c (awOf f) (accOf f) = true → s.capsClean c [capIx 1] = true →
    (s.creg c 1).authOk otData pW = true →
    let h := s.hart c
    let d := drainOf f (s.reg c (uf f 26 22)) (s.reg c (uf f 21 17))
    bitAt d.param 31 = false → d.rb % osize d.ofmt = 0 → d.cstart + d.nc ≤ 128 → d.rd % 16 = 0 → d.opitch % 16 = 0 →
    d.yoff % 16 = 0 →
    (∀ r, r < d.rows → (s.creg c 1).within ((d.rd + r * d.opitch) % 2 ^ 64) d.rb = true ∧
      s.ownStage c ((d.rd + r * d.opitch) % 2 ^ 64) d.rb true = none ∧
      s.tlbAfter 64 h.tlb ((d.rd + r * d.opitch) % 2 ^ 64) = h.tlb) →
    ∃ t, exec (.mdrain (.core c) f) s = .next t ∧ Issued4 s t c f.wte f.wtok
      { h with
        aq := h.aq ++ [{ instr := .mdrain (.core c) f, vals := [s.reg c (uf f 26 22), s.reg c (uf f 21 17)], vl := h.vl,
                         pc := h.pc, tile := none, aux := [], stamp := h.stamps + 1 }]
        stamps := h.stamps + 1 }

/-- ARRAY_INSTRUCTION_START runs the head of the queue when R120 and R121 let it: an MSEAT copies the tile's rows into its
bank (R105), an MZERO zeroes its accumulator (R115), and an MANCHOR sets its anchor (R117). -/
def Obligations.ArrayHeadStarts : Prop :=
  ∀ (s : State) (c : Fin 64) (q : QOp) (rest : List QOp) (u : UnitId) (f : S4U), s.Inv → s.dev.pwr.on = true →
    s.dev.stop.active = false → (s.hart c).aq = q :: rest → s.mayStart c q (s.hart c).arun = true →
    (s.hart c).tq = [] → (s.hart c).vq = [] →
    let h := s.hart c
    let moved := { h with aq := rest, arun := h.arun ++ [q] }
    (q.instr = .mseat u f → rbOf f ≤ 144 → (∀ r, r < rowsOf f → s.plain (tileAddr c (uf f 37 35) r 0) (rbOf f) = true) →
      ∃ t, exec (.arrayInstructionStart c) s = .next t ∧ Only [.mem, .xp, .harts] s t ∧ OneHart s t c moved ∧
        Stored s t ((range 0 (rowsOf f)).map fun r =>
          (seatAddr c (uf f 34 34) r 0, s.rd (tileAddr c (uf f 37 35) r 0) (rbOf f)))) ∧
    (q.instr = .mzero u f →
      ∃ t, exec (.arrayInstructionStart c) s = .next t ∧ Only [.mem, .xp, .harts] s t ∧ OneHart s t c moved ∧
        Stored s t ((qTiles q).flatMap fun a =>
          [(accAddr c a 0 0, List.replicate 147456 0), (accStat c a 0 0, List.replicate 16384 0)])) ∧
    (q.instr = .manchor u f → s.undamaged →
      ∃ t, exec (.arrayInstructionStart c) s = .next t ∧ Only [.mem, .xp, .harts] s t ∧
        OneHart s t c
          { moved with anchors := Tab.put (fun _ => 0) h.anchors (accOf f) (anchorVal (q.vals.getD 0 0)) })

/-- ARRAY_INSTRUCTION_COMPLETE: an instruction that has acted at its start leaves the array (R121), and an MMA leaves in
every element of its rows and columns the sum of what it held and the column's contributions, block by block (R30, R119),
and counts its columns. -/
def Obligations.ArrayInstructionsComplete : Prop :=
  ∀ (s : State) (c : Fin 64) (k : Nat) (q : QOp) (u : UnitId) (f : S4U), s.Inv → s.dev.pwr.on = true →
    (s.hart c).arun[k]? = some q → (s.hart c).mwait = false → (∀ x ∈ (s.hart c).aq, ∀ v g, x.instr ≠ .mwait v g) →
    let h := s.hart c
    let left := { h with arun := h.arun.eraseIdx k }
    ((q.instr = .mseat u f ∨ q.instr = .mzero u f ∨ q.instr = .manchor u f ∨ q.instr = .mdrain u f) →
      ∃ t, exec (.arrayInstructionComplete c k) s = .next t ∧ Only [.harts] s t ∧ OneHart s t c left) ∧
    (∀ (g : Geom) (sf wf srb : Nat) (base word a : Word), q.instr = .mma u f → q.vals = [base, word, a] →
      q.aux = [(sf : Int), (wf : Int), (srb : Int)] →
      geom sf (rbOf f) = some g → s.undamaged → coffOf word + ncOf word ≤ 128 → rowsOf f ≤ 128 → srb ≤ 144 →
      accOk (awOf f) (accOf f) = true →
      (∀ o, o < panelBytes g → region (pageByte base.toNat q.phys o) = .stage c) →
      ∃ t, exec (.arrayInstructionComplete c k) s = .next t ∧ Only [.mem, .xp, .io, .harts] s t ∧ OneHart s t c left ∧
        (t.ioVal (arrReg c 0x240)).toNat = min ((s.ioVal (arrReg c 0x240)).toNat + ncOf word) (2 ^ 32 - 1) ∧
        ∀ m n, m < rowsOf f → n < ncOf word →
          t.accGet c (awOf f) (accOf f) m (coffOf word + n) =
            (let seat := s.rd (seatAddr c (uf f 32 32) m 0) srb
             let col := s.column (pageByte base.toNat q.phys) g n
             (rowContribs sf wf g seat (seat.drop (srb - 16)) col.1 col.2).foldl
               (fun el x => el.add x (if awOf f then 136 else 72) (s.anchorOf c (awOf f) (accOf f)))
               (s.accGet c (awOf f) (accOf f) m (coffOf word + n))))

/-- MDRAIN with FUSE = 0 and ZERO = 0 writes every row of its accumulator, rounded to the output format, into the core's
stage memory (R35-R38, R125). -/
def Obligations.DrainWritesItsRows : Prop :=
  ∀ (s : State) (c : Fin 64) (q : QOp) (rest : List QOp) (u : UnitId) (f : S4U) (rd pw : Word) (pa : Nat → Nat), s.Inv →
    s.dev.pwr.on = true → s.dev.stop.active = false → (s.hart c).aq = q :: rest → s.mayStart c q (s.hart c).arun = true →
    (s.hart c).tq = [] → (s.hart c).vq = [] → q.instr = .mdrain u f → q.vals = [rd, pw] → uf f 29 28 = 0 → uf f 27 27 = 0 → accOk (awOf f) (accOf f) = true →
    s.undamaged → (s.hart c).mbuf = [] → (s.hart c).cache = [] →
    let h := s.hart c
    let d := drainOf f rd pw
    let rows := (range 0 d.rows).map fun r => ((d.rd + r * d.opitch) % 2 ^ 64, d.rb)
    d.rb % osize d.ofmt = 0 → d.cstart + d.nc ≤ 128 →
    (∀ x ∈ rows, s.lands c x.1 x.2 false true (pa x.1) ∧ s.plain (pa x.1) x.2 = true ∧ s.durable x.1 x.2 = false) →
    apart rows pa →
    let out := fun r j => drainElem d (s.accGet c d.aw d.acc r (d.cstart + j)) (s.anchorOf c d.aw d.acc) none
    ∃ t, exec (.arrayInstructionStart c) s = .next t ∧ Only [.mem, .xp, .io, .harts, .job] s t ∧
      OneHart s t c { h with aq := rest, arun := h.arun ++ [q] } ∧
      t.dev.job = { s.dev.job with
        gnfSince := s.dev.job.gnfSince || (range 0 d.rows).any fun r => (range 0 d.nc).any fun j => (out r j).2.2.2 } ∧
      Stored s t (rows.zipIdx.map fun x => (pa x.1.1, (range 0 d.nc).flatMap fun j => toBytes (osize d.ofmt) (out x.2 j).1))

/-! ### Number formats -/

/-- The state of an accumulator element does not depend on the order of its contributions (R32); contributions on the
grid of the anchor whose sum stays inside the window are added exactly, and set no INEXACT (R33). Every code of E4M3,
E5M2, BF16 and FP32 that is no NaN converts to itself, zeros and infinities with their sign (R20, R35, R42), and the
drains of poison have the codes of R36. -/
def Obligations.NumbersAreExactAndRepresentable : Prop :=
  (∀ (w : Nat) (anchor : Int) (el : Acc) (cs ds : List (Nat × Int × Int)), cs.Perm ds →
    cs.foldl (fun x c => x.add c w anchor) el = ds.foldl (fun x c => x.add c w anchor) el) ∧
  (∀ (w : Nat) (anchor : Int) (el : Acc) (cs : List (Int × Int)), 0 < w → (∀ c ∈ cs, anchor ≤ c.2) →
    el.v.natAbs + (cs.map fun c => (c.1 * 2 ^ (c.2 - anchor).toNat).natAbs).sum < 2 ^ (w - 1) →
    (cs.map fun c => ((0, c.1, c.2) : Nat × Int × Int)).foldl (fun x c => x.add c w anchor) el =
      { el with v := el.v + (cs.map fun c => c.1 * 2 ^ (c.2 - anchor).toNat).sum }) ∧
  (∀ x ∈ [(Fmt.e4m3, pE4m3), (Fmt.e5m2, pE5m2), (Fmt.bf16, pBf16), (Fmt.fp32, pFp32)], ∀ c, c < 2 ^ x.1.width →
    decodeFmt x.1 c ≠ .nan → roundTo x.2 (decodeFmt x.1 c) = (c, false)) ∧
  ∀ (el : Acc) (a : Int), (el.poison = 1 → (roundTo pFp32 (el.num a)).1 = 0x7F800000 ∧ (roundTo pE4m3 (el.num a)).1 = 0x7F) ∧
    (el.poison = 2 → (roundTo pBf16 (el.num a)).1 = 0xFF80 ∧ (roundTo pE5m2 (el.num a)).1 = 0xFC) ∧
    (el.poison = 3 → (roundTo pFp32 (el.num a)).1 = 0x7FC00000 ∧ (roundTo pBf16 (el.num a)).1 = 0x7FC0)

/-! ### The vector unit -/

/-- The integer functions of the vector unit on elements of `w` bits (R143), and the sum reduction (R147). The
element-wise register instructions (R140, R143, R145, R149): the active elements take their results, the others and all
other memory stay, and floating-point results set the sticky flags. -/
def Obligations.VectorElementwise : Prop :=
  (∀ (w : Nat) (a b : BitVec w), 0 < w →
    let v := fun fn => BitVec.ofNat w (vInt w fn a.toNat b.toNat)
    v 0 = a + b ∧ v 1 = a - b ∧ v 2 = a * b ∧ v 3 = (if b.slt a then b else a) ∧ v 4 = (if a.slt b then b else a) ∧
      v 5 = (if a.ult b then a else b) ∧ v 6 = (if a.ult b then b else a) ∧ v 7 = a &&& b ∧ v 8 = a ||| b ∧ v 9 = a ^^^ b ∧
      v 10 = a <<< (b.toNat % w) ∧ v 11 = a >>> (b.toNat % w) ∧ v 12 = a.sshiftRight (b.toNat % w)) ∧
  (∀ (w len : Nat) (x : Nat → Nat) (active : Nat → Bool), (∀ i, x i < 2 ^ w) →
    reduce w 3 len x active = (((range 0 len).filter active).map x).sum % 2 ^ w) ∧
  ∀ (s : State) (c : Fin 64) (f : S2V), s.Inv → s.issues c 2 = true → s.undamaged → (s.hart c).vq = [] →
    (s.hart c).vloads = [] →
    let h := s.hart c
    let w := ewOf h.vl
    let n := w / 8
    let a := fun i => s.vElem c f.vs1.toNat n i
    let b := fun i => s.vElem c f.vs2.toNat n i
    let num := fun x => decodeFmt (fpFmt w) x
    let writes := fun (i : Instr) (g : Nat → Nat) (flags : Bool) => ∃ t, exec i s = .next t ∧ Only [.mem, .xp, .harts] s t ∧
      Stored s t ((s.actives c h.vl f.msk).map fun k => (vAddr c f.vd.toNat (k * n), toBytes n (g k))) ∧
      OneHart s t c (seqPc c 2 { h with
        stamps := h.stamps + 1
        vl := if flags then
          h.vl ||| (s.actives c h.vl f.msk).foldl (fun m k => m ||| flagsOf (fpFmt w) (g k) false) 0 else h.vl })
    (grp3 f h.vl = true →
      (f.fn.toNat < 13 → writes (.vectorInteger (.core c) f) (fun k => vInt w f.fn.toNat (a k) (b k)) false) ∧
      (fpOk h.vl = true → f.fn.toNat < 5 → writes (.vectorFloat (.core c) f)
        (fun k => (roundTo (fpPar w) (vFloat f.fn.toNat (num (a k)) (num (b k)))).1) true) ∧
      (fpOk h.vl = true → f.fn.toNat < 3 → writes (.vectorFma (.core c) f)
        (fun k => (roundTo (fpPar w)
          (vFma f.fn.toNat (num (a k)) (num (b k)) (num (s.vElem c f.vd.toNat n k)))).1) true)) ∧
    (grp2 f h.vl = true →
      (fpOk h.vl = true → f.fn.toNat < 7 → f.vs2 = 0 → writes (.vectorFunction (.core c) f)
        (fun k => (roundTo (fpPar w) (vFun f.fn.toNat (num (a k)))).1) true) ∧
      (f.fn = 0 → writes (.vmv (.core c) f) a false)) ∧
    (grpOk h.vl w f.vd.toNat = true → f.fn = 1 →
      writes (.vbcast (.core c) f) (fun _ => (s.reg c f.vs1.toNat).toNat) false)

/-- Compares, mask operations, reductions and conversions (R141, R143, R146, R147). -/
def Obligations.VectorMasksReductionsAndConversions : Prop :=
  ∀ (s : State) (c : Fin 64) (f : S2V), s.Inv → s.issues c 2 = true → s.undamaged → (s.hart c).vq = [] →
    (s.hart c).vloads = [] →
    let h := s.hart c
    let w := ewOf h.vl
    let n := w / 8
    let a := fun i => s.vElem c f.vs1.toNat n i
    let b := fun i => s.vElem c f.vs2.toNat n i
    let act := s.actives c h.vl f.msk
    (f.fn.toNat < 8 → f.vd.toNat < 8 → lenOf h.vl ≤ 8192 → (fpOk h.vl || decide (4 ≤ f.fn.toNat)) = true → grpOk h.vl w f.vs1.toNat = true →
      grpOk h.vl w f.vs2.toNat = true →
      ∃ t, exec (.vectorCompare (.core c) f) s = .next t ∧ Only [.mem, .xp, .harts] s t ∧
        OneHart s t c (seqPc c 2 { h with stamps := h.stamps + 1 }) ∧
        (∀ m i, m < 8 → i < 8192 → t.mBit c m i =
          if m = f.vd.toNat ∧ i ∈ act then vCmp w f.fn.toNat (a i) (b i) else s.mBit c m i) ∧
        ∀ x, ¬(mAddr c f.vd.toNat 0 ≤ x ∧ x < mAddr c f.vd.toNat 1024) → t.rdByte x = s.rdByte x) ∧
    (f.fn.toNat < 7 → f.msk = false → f.vs1.toNat < 8 → f.vs2.toNat < 8 → f.vd.toNat < 8 →
      ∃ t, exec (.vectorMaskOp (.core c) f) s = .next t ∧ Only [.mem, .xp, .harts] s t ∧
        OneHart s t c (seqPc c 2 { h with stamps := h.stamps + 1 }) ∧
        Stored s t [(mAddr c f.vd.toNat 0, (range 0 1024).map fun j =>
          vMask f.fn.toNat (s.rdByte (mAddr c f.vs1.toNat j)) (s.rdByte (mAddr c f.vs2.toNat j)))]) ∧
    (f.fn.toNat < 6 → f.vs2 = 0 → (fpOk h.vl || decide (3 ≤ f.fn.toNat)) = true → grp2 f h.vl = true →
      let r := reduce w f.fn.toNat (lenOf h.vl) a (fun i => act.contains i)
      ∃ t, exec (.vectorReduction (.core c) f) s = .next t ∧ Only [.mem, .xp, .harts] s t ∧
        Stored s t [(vAddr c f.vd.toNat 0, toBytes n r)] ∧
        OneHart s t c (seqPc c 2 { h with
          vl := if f.fn.toNat < 3 then h.vl ||| flagsOf (fpFmt w) r false else h.vl
          stamps := h.stamps + 1 })) ∧
    (let src := (cvtFmts f.fn.toNat).1
     let dst := (cvtFmts f.fn.toNat).2.1
     let e := signedOf 8 (s.reg c f.vs2.toNat).toNat
     f.fn.toNat < 12 → grpOk h.vl src.width f.vs1.toNat = true → grpOk h.vl dst.width f.vd.toNat = true →
      let out := fun k => cvtElem f.fn.toNat e (s.vElem c f.vs1.toNat (src.width / 8) k)
      ∃ t, exec (.vcvt (.core c) f) s = .next t ∧ Only [.mem, .xp, .io, .harts, .job] s t ∧
        (t.hart c).pc = (seqPc c 2 h).pc ∧
        t.dev.job = { s.dev.job with gnfSince := s.dev.job.gnfSince || act.any fun k => (out k).2.2 } ∧
        Stored s t (act.map fun k => (vAddr c f.vd.toNat (k * (dst.width / 8)), toBytes (dst.width / 8) (out k).1)))

/-- VSETL and the moves between scalar and vector registers (R139, R148). -/
def Obligations.VectorScalarMoves : Prop :=
  ∀ (s : State) (c : Fin 64), s.Inv → s.issues c 2 = true → s.undamaged → (s.hart c).vq = [] → (s.hart c).vloads = [] →
    let h := s.hart c
    let w := ewOf h.vl
    (∀ f : S2I, f.imm.toNat < 16 →
      let cfg := f.imm.toNat % 4 * 2 ^ 14 + f.imm.toNat / 4 * 2 ^ 16
      let len := min (s.reg c f.rs1.toNat).toNat (vlMax cfg)
      ∃ t, exec (.vsetl (.core c) f) s = .next t ∧ Only [.regs, .harts] s t ∧
        OneReg s t c f.rd.toNat (BitVec.ofNat 64 len) ∧
        OneHart s t c (seqPc c 2 { h with vl := BitVec.ofNat 32 (bits h.vl.toNat 23 21 * 2 ^ 21 + cfg + len) })) ∧
    (∀ f : S2V, f.msk = false →
      let ix := (s.reg c f.vs2.toNat).toNat
      (f.fn = 2 → grpOk h.vl w f.vs1.toNat = true → ix < lenOf h.vl →
        ∃ t, exec (.vmvx (.core c) f) s = .next t ∧ Wrote s t c 2 f.vd.toNat
          (BitVec.ofInt 64 (signedOf w (s.vElem c f.vs1.toNat (w / 8) ix)))) ∧
      (f.fn = 3 → grpOk h.vl w f.vd.toNat = true → ix < lenOf h.vl →
        ∃ t, exec (.vins (.core c) f) s = .next t ∧ Only [.mem, .xp, .harts] s t ∧
          OneHart s t c (seqPc c 2 { h with stamps := h.stamps + 1 }) ∧
          Stored s t [(vAddr c f.vd.toNat (ix * (w / 8)), toBytes (w / 8) (s.reg c f.vs1.toNat).toNat)]) ∧
      (f.fn = 4 → f.vs1.toNat < 8 →
        ∃ t, exec (.vmpop (.core c) f) s = .next t ∧ Wrote s t c 2 f.vd.toNat
          (BitVec.ofNat 64 ((range 0 (lenOf h.vl)).filter fun i => s.mBit c f.vs1.toNat i).length)))

/-- TBROW and TBCOL (R157): every element of the rows that the instruction names takes its operation against the vector
register, in place in the tile or into a register group. -/
def Obligations.TileBroadcasts : Prop :=
  ∀ (s : State) (c : Fin 64) (f : S4U) (g : Tag), s.Inv → s.issues c 4 = true → s.undamaged → (s.hart c).vq = [] →
    (s.hart c).vloads = [] → f.sub = 0 → s.waitOver c f.wte f.wtok → tbLegal f = true → s.tag c (uf f 37 35) = some g →
    let h := s.hart c
    let op := uf f 24 23
    let n := tbSize g.fmt
    let cols := rbOf f / n
    let dt : Bool := uf f 22 22 = 1
    g.fmt ≠ 0 → uf f 21 15 + rowsOf f ≤ g.rows → rbOf f ≤ g.rb → g.rows ≤ 128 → (op ≠ 0 → g.fmt = 0xB ∨ g.fmt = 0xC) →
    8 * n = ewOf h.vl → (op ≠ 0 → grpOk h.vl (ewOf h.vl) (uf f 29 25) = true) →
    (dt = false → grpOk h.vl (ewOf h.vl) (uf f 34 30) = true ∧ rowsOf f * rbOf f ≤ 1024 * gOf h.vl) →
    s.tilesFree c [uf f 37 35] (if dt then [uf f 37 35] else []) (s.nextStamp c) = true →
    let val := fun (col : Bool) i j =>
      let x := s.rdNat (tileAddr c (uf f 37 35) (uf f 21 15 + i) (j * n)) n
      let b := s.vElem c (uf f 29 25) n (if col then uf f 21 15 + i else j)
      if op = 0 then x
      else (roundTo (fpPar (8 * n)) (vFloat (op - 1) (decodeFmt (fpFmt (8 * n)) x) (decodeFmt (fpFmt (8 * n)) b))).1
    let puts := fun (t : State) (col : Bool) => Only [.toks, .harts, .mem, .xp] s t ∧ TookToken s t c f.wte f.wtok ∧
      (t.hart c).pc = (seqPc c 4 h).pc ∧
      Stored s t ((range 0 (rowsOf f)).flatMap fun i => (range 0 cols).map fun j =>
        (if dt then tileAddr c (uf f 37 35) (uf f 21 15 + i) (j * n) else vAddr c (uf f 34 30) ((i * cols + j) * n),
         toBytes n (val col i j)))
    (∃ t, exec (.tbrow (.core c) f) s = .next t ∧ puts t false) ∧ ∃ t, exec (.tbcol (.core c) f) s = .next t ∧ puts t true

/-- The vector loads and stores on the core's own stage memory (R150, R151, R154): every active element moves between its
address and its place in the register group. -/
def Obligations.VectorLoadsAndStores : Prop :=
  ∀ (s : State) (c : Fin 64) (f : S4V) (pa : Nat → Nat), s.Inv → s.issues c 4 = true → s.undamaged → (s.hart c).bare = true →
    (s.hart c).vq = [] → (s.hart c).vloads = [] → (s.hart c).vresume = 0 → f.sub = 0 → f.rsv = 0 →
    s.waitOver c f.wte f.wtok → grpOk (s.hart c).vl (ewOf (s.hart c).vl) f.vr.toNat = true →
    let h := s.hart c
    let n := ewOf h.vl / 8
    let act := s.actives c h.vl f.msk
    let moves := fun (i : Instr) (form : VForm) (wr : Bool) =>
      (s.creg c 1).authOk otData (if wr then pW else pR) = true →
      (∀ k ∈ act, let a := s.vElemAddr c f form n k
        a % n = 0 ∧ (s.creg c 1).within a n = true ∧ s.lands c a n (!wr) wr (pa k) ∧ region (pa k) = .stage c ∧
          s.tileWaits c a n = false ∧ (wr = true → s.durable a n = false)) →
      (wr = true → act.Pairwise fun j k => pa j + n ≤ pa k ∨ pa k + n ≤ pa j) →
      ∃ t, exec i s = .next t ∧ Done4 [.mem, .xp] s t c f.wte f.wtok { h with stamps := h.stamps + 1 } ∧
        Stored s t (act.map fun k => if wr then (pa k, s.rd (vAddr c f.vr.toNat (k * n)) n)
          else (vAddr c f.vr.toNat (k * n), s.rd (pa k) n))
    (f.iw = false → f.rs2 = 0 → moves (.vld (.core c) f) .unit false ∧ moves (.vldff (.core c) f) .unit false ∧
      moves (.vst (.core c) f) .unit true) ∧
    (f.iw = false → moves (.vlds (.core c) f) .stride false) ∧
    (f.rs2.toNat * 1024 + lenOf h.vl * idxBytes f ≤ 32 * 1024 →
      moves (.vgth (.core c) f) .index false ∧ moves (.vgthff (.core c) f) .index false ∧
      moves (.vsct (.core c) f) .index true)

/-- VMLD and VMST move a mask register (R150), VECTOR_DATA_ARRIVAL writes the elements of a load whose data was on its way
(R159), and PREFETCH_FILL installs a requested line (R188), each once its banks have admitted it (R174). -/
def Obligations.MaskMovesAndVectorArrivals : Prop :=
  ∀ (s : State) (c : Fin 64), s.Inv → s.undamaged → (s.hart c).mbuf = [] →
    let h := s.hart c
    (∀ (f : S4V) (pa : Nat), s.issues c 4 = true → h.bare = true → h.vq = [] → h.vloads = [] → h.vresume = 0 →
      vmaskLegal (.core c) f = true → s.waitOver c f.wte f.wtok →
      let b := (s.reg c f.rs1.toNat).toNat
      b % 16 = 0 → (s.creg c 1).within b 1024 = true → region pa = .stage c → region (pa + 1023) = .stage c →
      s.tileWaits c b 1024 = false →
      let done := { h with stamps := h.stamps + 1 }
      ((s.creg c 1).authOk otData pR = true → s.lands c b 1024 true false pa →
        ∃ t, exec (.vmld (.core c) f) s = .next t ∧ Done4 [.mem, .xp] s t c f.wte f.wtok done ∧
          Stored s t [(mAddr c f.vr.toNat 0, s.rd pa 1024)]) ∧
      ((s.creg c 1).authOk otData pW = true → s.lands c b 1024 false true pa → s.durable b 1024 = false →
        ∃ t, exec (.vmst (.core c) f) s = .next t ∧ Done4 [.mem, .xp] s t c f.wte f.wtok done ∧
          Stored s t [(pa, s.rd (mAddr c f.vr.toNat 0) 1024)])) ∧
    (s.dev.pwr.on = true → ∀ (q : QOp) (rest : List QOp) (r n ff lo : Nat) (is : List Nat), h.vloads = q :: rest →
      q.aux = [(r : Int), (n : Int), (ff : Int), (lo : Int)] ++ is.map (fun i => (i : Int)) →
      q.vals.length = is.length → q.bad = [] → is.Nodup → [1, 2, 4, 8].contains n = true → r < 40 → (∀ i ∈ is, i < 8192) →
      s.readHeld c q.stamp = false → h.tq = [] → h.vq = [] →
      ∃ t, exec (.vectorDataArrival c .clean) s = .next t ∧ Only [.mem, .xp, .banks, .harts] s t ∧
        OneHart s t c { h with vloads := rest } ∧
        Stored s t ((is.zip q.vals).map fun x => (vAddr c r (x.1 * n), toBytes n x.2.toNat))) ∧
    (s.dev.pwr.on = true → ∀ va n rest pa i, h.deadFills = [] → h.fills = (va, n) :: rest → s.readHeld c n = false →
      h.dcctl = none → s.tr c va true false = .ok pa → cachedTier pa = true → s.cacheHit c pa = none → s.poisonIn (pa - pa % 64) 64 = none →
      s.victim c (pa - pa % 64) = some i →
      ∃ t, exec (.prefetchFill c .clean) s = .next t ∧ Only [.mem, .xp, .banks, .harts] s t ∧ (t.hart c).fills = rest ∧
        t.cacheHit c pa = some i ∧ t.rd (cacheAddr c i) 64 = s.rd (pa - pa % 64) 64)

/-! ### The update recurrence -/

/-- UPD.MOM, UPD.WGT and UPD.ROW (R245, R248): with their checks passed they enter the vector queue with the operand
record, the scalars and LEN. -/
def Obligations.UpdInstructionsEnterTheQueue : Prop :=
  ∀ (s : State) (c : Fin 64) (f : S4U) (pa : Nat), s.Inv → s.issues c 4 = true → s.undamaged → (s.hart c).bare = true →
    (s.hart c).vloads = [] → f.sub = 0 → f.rbM1.toNat % 2 = 0 → uf f 27 14 = 0 → s.waitOver c f.wte f.wtok →
    ((s.hart c).vq.filter isUpd).length < 8 → ewOf (s.hart c).vl = 32 →
    let h := s.hart c
    let p := (s.reg c (updRs1 f)).toNat
    let bases := (range 0 8).map fun k => s.rdNat (pa + 8 * k) 8
    let a := fun kind =>
      ({ kind := kind, bases := bases, r2 := (s.reg c (updRs2 f)).toNat, r3 := (s.reg c (uf f 37 33)).toNat,
         r4 := (s.reg c (uf f 32 28)).toNat, len := lenOf h.vl } : UArgs)
    let enters := fun (i : Instr) (kind : UKind) => s.ud (a kind).d 0 0 = 1 → s.updErr c (a kind) = none →
      (∀ x ∈ s.updSpans (a kind), s.tileWaits c x.1 x.2.1 = false) →
      ∃ t, exec i s = .next t ∧ Issued4 s t c f.wte f.wtok
        { h with
          vq := h.vq ++
            [{ instr := i, vals := (bases ++ [(a kind).r2, (a kind).r3, (a kind).r4]).map (BitVec.ofNat 64), vl := h.vl,
               pc := h.pc, tile := none, aux := [], stamp := h.stamps + 1, spans := s.updSpans (a kind) }]
          stamps := h.stamps + 1 }
    p % 64 = 0 → s.memWaits c p 64 false = false → s.ownStage c p 64 false = none → s.lands c p 64 true false pa →
    enters (.updMom (.core c) f) .mom ∧ enters (.updWgt (.core c) f) .wgt ∧
      ((a .row).rowLen ≠ 0 → (a .row).c0 + (a .row).len ≤ (a .row).rowLen → s.ud (a .row).d 5 5 = 0 →
        enters (.updRow (.core c) f) .row)

/-- UPD_START (R252): in an open window the head of the queue runs. With outcome APPLY every element's operands take what
upd_mom and upd_wgt give (R249, R250); with SKIP nothing is written. -/
def Obligations.UpdRunsInTheWindow : Prop :=
  ∀ (s : State) (c : Fin 64) (q : QOp) (pa : Nat → Nat → Nat), s.Inv → s.dev.pwr.on = true → s.dev.stop.active = false →
    s.window = true → s.undamaged → (s.hart c).bare = true → (s.hart c).vq = [q] → isUpd q = true →
    (s.hart c).vloads = [] → (s.hart c).tq = [] → (updArgs q).kind ≠ .row →
    let h := s.hart c
    let a := updArgs q
    let elems := (range 0 a.len).flatMap fun i => (s.updOps a).map fun k => (k, i)
    (∀ x ∈ elems, s.updPlace c a x.1 x.2 = .ok (pa x.1 x.2) ∧ region (pa x.1 x.2) = .stage c ∧
      region (pa x.1 x.2 + s.updSize a x.1 - 1) = .stage c ∧ s.tlbAfter 64 h.tlb (s.updAddr a x.1 x.2) = h.tlb) →
    elems.Pairwise (fun x y => pa x.1 x.2 + s.updSize a x.1 ≤ pa y.1 y.2 ∨ pa y.1 y.2 + s.updSize a y.1 ≤ pa x.1 x.2) →
    (s.outcome = 1 →
      (∀ i, i < a.len → ∀ o ∈ (s.updOut c a (s.scalarFile a.d) i).1, s.updBad a o.1 o.2 = false) →
      ∃ t, exec (.updStart c) s = .next t ∧ Only [.mem, .xp, .io, .harts] s t ∧ OneHart s t c { h with vq := [] } ∧
        Stored s t ((range 0 a.len).flatMap fun i => (s.updOut c a (s.scalarFile a.d) i).1.map fun o =>
          (pa o.1 i, toBytes (s.updSize a o.1) o.2))) ∧
    (s.outcome ≠ 1 →
      ∃ t, exec (.updStart c) s = .next t ∧ Only [.harts] s t ∧ OneHart s t c { h with vq := [] })

/-- STEP_SCALARS_READY (R243, R244, R257): the step scalars of every valid descriptor, for the step number and loss scale
with which the evaluation began, stand in the scalar file and READY is set; SCALT reads as STEPCNT + 1. -/
def Obligations.StepScalarsAreEvaluated : Prop :=
  ∀ (s : State) (n : Nat) (lse : Int), s.Inv → s.dev.pwr.on = true → s.undamaged → s.dev.job.evaluating = some (n, lse) →
    ∃ t, exec .stepScalarsReady s = .next t ∧ Only [.mem, .xp, .io, .job] s t ∧ t.fld (ioa 0xD0 0x200) 31 31 = 1 ∧
      t.dev.job = { s.dev.job with evaluating := none } ∧ t.ioRead (ioa 0xD0 0x204) = min s.stepT 0xFFFFFFFF ∧
      (∀ b, b ≠ ioa 0xD0 0x200 → t.ioVal b = s.ioVal b) ∧
      Stored s t (s.validDescs.map fun d => (pm (0x301000 + 24 * d), (s.stepScalars d n lse).flatMap (toBytes 4)))

/-! ### The Streamer -/

/-- SQ (R193, R194): with its checks passed the transfer joins the queue with its descriptor, its addresses and its
capabilities, and a named destination tile takes its tag (R204). -/
def Obligations.SqQueuesATransfer : Prop :=
  ∀ (s : State) (c : Fin 64) (f : S4U) (pa : Nat), s.Inv → s.issues c 4 = true → s.undamaged → (s.hart c).bare = true →
    f.sub = 0 → f.rbM1.toNat % 2 = 0 → uf f 24 14 = 0 → s.waitOver c f.wte f.wtok →
    ((s.hart c).xq.filter fun x => !x.active).length < 32 →
    let h := s.hart c
    let p := (s.reg c (updRs1 f)).toNat
    let desc := (range 0 8).map fun k => BitVec.ofNat 64 (s.rdNat (pa + 8 * k) 8)
    let x0 : XFer :=
      { desc := desc, src := desc.getD 1 0 + s.reg c (updRs2 f), dst := desc.getD 2 0 + s.reg c (uf f 37 33),
        cs := s.creg c (uf f 32 29), cd := s.creg c (uf f 28 25), off := pa - stageBase c, srcTile := none, dstTile := none,
        active := false, run := 0, pos := 0, bytes := 0, held := [], stamp := h.stamps + 1 }
    let x : XFer := { x0 with srcTile := if x0.sk = 1 then some x0.tile else none,
                              dstTile := if x0.dk = 1 then some x0.tile else none }
    p % 64 = 0 → s.memWaits c p 64 false = false → s.ownStage c p 64 false = none → s.lands c p 64 true false pa →
    x.valid = true →
    (x.sk = 1 → updRs2 f = 0) → (x.dk = 1 → uf f 37 33 = 0) → x.shapeOk (s.tag c x.tile) = true → x.capErr c = none →
    ∃ t, exec (.sq (.core c) f) s = .next t ∧ Issued4 s t c f.wte f.wtok
      { h with
        xq := h.xq ++ [x]
        stamps := h.stamps + 1
        tags := if x.dk = 1 then Tab.put (fun _ => none) h.tags x.tile (some { rows := x.rows, rb := x.rb, fmt := x.dfmt })
                else h.tags }

/-- TRANSFER_START, STREAMER_REQUEST and TRANSFER_COMPLETE (R187, R205, R207, R208): the first queued transfer becomes
active once its conditions hold; a request of a COPY reads its bytes, which the transfer holds for its destination,
split at the units of 512 bytes of stage memory, and the walk goes on; and a transfer whose walk has ended writes what
it holds, counts its bytes and adds to its token. -/
def Obligations.StreamerTransfersRun : Prop :=
  ∀ (s : State) (c : Fin 64), s.Inv → s.dev.pwr.on = true →
    let h := s.hart c
    (∀ before x rest, s.dev.stop.active = false → h.xq = before ++ x :: rest → (∀ y ∈ before, y.active = true) →
      x.active = false → before.length < 8 → s.storesBefore c x.stamp = false →
      s.tilesFree c x.srcTile.toList x.dstTile.toList x.stamp = true → (x.f 0 39 39 = 1 → before = []) →
      (x.f 0 40 40 = 1 → ∀ q ∈ h.aq ++ h.arun, readsStage q = true → x.stamp ≤ q.stamp) →
      let started := { h with xq := before ++ ({ x with active := true } : XFer) :: rest }
      (x.dstTile = none → ∃ t, exec (.transferStart c) s = .next t ∧ Only [.harts] s t ∧ OneHart s t c started) ∧
      (∀ i, x.dstTile = some i → i < 8 → ∃ t, exec (.transferStart c) s = .next t ∧ Only [.mem, .xp, .harts] s t ∧
        OneHart s t c started ∧
        Stored s t ((range 0 x.rows).map fun r => (tileAddr c i r 0, List.replicate x.rb 0)))) ∧
    (∀ k x pa pd, s.dev.stop.active = false → h.xq[k]? = some x → x.active = true → x.run < x.runs → x.mode = 0 → x.sk = 0 →
      x.dk = 0 → x.buf = [] → x.seen = [] → x.pos < x.n 0 → s.undamaged →
      let a := addrPlus (s.srcRun c x x.run) x.pos
      let d := addrPlus (x.dstRun x.run) x.pos
      let m := min (x.n 0 - x.pos) (512 - a % 512)
      region pa = .stage c → region (pa + m - 1) = .stage c → s.strmRange c a m true false = .ok [(a, pa, m)] →
      s.tlbAfter 128 h.strmTlb a = h.strmTlb → pagePieces (m / 4096 + 2) d m = [(d, m)] → region pd = .stage c →
      s.translate h.strmTlb d false true = .ok pd →
      (∀ e ∈ cuts 512 m d m, s.strmRange c e.1 e.2 false true = .ok [(e.1, pd + (e.1 - d), e.2)] ∧
        s.tlbAfter 128 h.strmTlb e.1 = h.strmTlb ∧ region (pd + (e.1 - d)) = .stage c ∧
        region (pd + (e.1 - d) + e.2 - 1) = .stage c) →
      ∃ t, exec (.streamerRequest c k .clean) s = .next t ∧ Only [.io, .harts] s t ∧ (∀ b, t.ioVal b = s.ioVal b) ∧
        OneHart s t c { h with xq := h.xq.set k ({ x with
                   held := x.held ++ (cuts 512 m d m).map fun e => (e.1, pd + (e.1 - d), s.rd (pa + (e.1 - d)) e.2)
                   pos := if x.n 0 ≤ x.pos + m then 0 else x.pos + m, run := if x.n 0 ≤ x.pos + m then x.run + 1 else x.run,
                   bytes := x.bytes + m, asked := false } : XFer) }) ∧
    (∀ k x, h.xq[k]? = some x → x.active = true → x.runs ≤ x.run → s.bankWaits (BReq.ofXfer c x.stamp) = false →
      h.cache = [] → h.tq = [] → h.vq = [] →
      (∀ e ∈ x.held, s.plain e.2.1 e.2.2.length = true ∧ s.durable e.1 e.2.2.length = false) →
      (x.held.Pairwise fun e g => e.2.1 + e.2.2.length ≤ g.2.1 ∨ g.2.1 + g.2.2.length ≤ e.2.1) →
      ∃ t, exec (.transferComplete c k) s = .next t ∧ OneHart s t c { h with xq := h.xq.eraseIdx k } ∧
        Stored s t (x.held.map Prod.snd) ∧
        (t.pair (ioa (strmPage c) 0x120) = (s.pair (ioa (strmPage c) 0x120) + x.bytes) % 2 ^ 64) ∧
        (x.f 0 38 38 = 0 → Only [.mem, .xp, .banks, .io, .harts] s t) ∧
        (x.f 0 38 38 = 1 → s.tok (x.f 0 37 32) (x.f 0 31 26) < 15 → Only [.mem, .xp, .banks, .io, .toks, .harts] s t ∧
          OneTok s t (x.f 0 37 32) (x.f 0 31 26) (s.tok (x.f 0 37 32) (x.f 0 31 26) + 1)))

/-! ### The step, the invariant and reset -/

/-- A step runs the command at the front of the queue on the state with the queue's rest; with no command waiting it lets
one ac pass and changes nothing but the clock and the beat count (the model's choice, log entry 4). -/
def Obligations.StepRunsTheFrontCommand : Prop :=
  ∀ s : State,
    (∀ (c : Instr) (cs : List Instr), s.pending = c :: cs → Machine.step s = exec c { s with pending := cs }) ∧
    (s.pending = [] → ∃ t, Machine.step s = .next t ∧ Only [.beat] s t ∧ t.dev.beat.time = s.dev.beat.time + 5 ∧
      (s.dev.beat.sub + 5 < beatLen → t.dev.beat.count = s.dev.beat.count ∧ t.dev.beat.sub = s.dev.beat.sub + 5))

/-- Every step from a state with the invariant answers a next state, which has it too, and the queue is the rest of what
it was: the sparse tables stay canonical, s0, c0 and Store entry 0 stay empty (R50, R372, R373) and no token exceeds 15
(R66). -/
def Obligations.EveryStepKeepsTheInvariant : Prop :=
  ∀ s : State, s.Inv → ∃ t, Machine.step s = .next t ∧ t.Inv ∧ t.pending = s.pending.tail

/-- What reset leaves (R29, R66, R104, R135, R355, R401, R409, R451), and that it has the invariant. -/
def Obligations.ResetLeavesTheBlockIdle : Prop :=
  let s := State.reset
  s.Inv ∧ s.pending = [] ∧ s.devState = 1 ∧ s.job = false ∧ s.loaded = false ∧ s.fld (ioa 0xA 0x100) 31 31 = 0 ∧
    (∀ a, s.ioVal a = ioReset a) ∧
    (∀ u r, s.creg u r = 0 ∧ s.store u r = 0) ∧
    (∀ u t, s.tok u t = 0) ∧
    (∀ c i, s.tag c i = none ∧ (s.hart c).tprog = 0 ∧ (s.hart c).run = false) ∧
    (∀ l, (s.link l).st = 0 ∧ (s.link l).txq = [] ∧ (s.link l).rxq = []) ∧
    (∀ p, (s.part p).key = none ∧ (s.part p).active = none ∧ s.pair (ioa (hpPage (p % 4)) 0x110) = 0) ∧
    s.dev.recd.offers = [] ∧ s.dev.icu.pend = 0 ∧ s.fld (ioa 0x10 0x100) 31 29 = 0

/-- A device without power ignores every command but those of its input, its straps and the wires that it passes on
(R398). -/
def Obligations.UnpoweredDeviceIgnoresCommands : Prop :=
  ∀ (s : State) (c : Instr), s.dev.pwr.on = false →
    (match c with
     | .inputRise | .inputLoss _ | .pwrOk _ | .beatChainInput _ | .mchFrame _ => False
     | _ => True) →
    exec c s = .next s

/-- The report of an error by a block (R427-R432, R436): its severity is the floor, raised as ERR_SEV_MAP says; ERR_STAT
takes the severity and the code; the collector's slot of that severity takes the record when it is EMPTY, and counts an
overflow otherwise; the recorder is offered the record; a J error while a job runs makes STOP due, and an F error makes
the device FATAL. -/
def Obligations.ErrorsAreReported : Prop :=
  ∀ (s : State) (page info addr : Nat) (e : ErrCode), page < 0x200 → info < 2 ^ 32 → addr < 2 ^ 64 → s.claimed = none →
    let v := effSev (e.floor s.job) (s.ioVal (ioa page 0x18)).toNat
    let t := (report page e info addr).run s
    let b := ioa 0xE (0x110 + 0x20 * v)
    Only [.io, .parts, .stop, .recd, .icu] s t ∧ v < 4 ∧
    t.fld (ioa page 0x14) 15 0 = e.code ∧ t.fld (ioa page 0x14) (28 + v) (28 + v) = 1 ∧
    (s.slotSt v = 0 → t.slotSt v = 1 ∧ t.ioVal b = BitVec.ofNat 32 (page * 2 ^ 16 + e.code) ∧
      (t.ioVal (b + 4)).toNat = s.beat.toNat % 2 ^ 32 ∧ t.fld (b + 8) 15 0 = s.beat.toNat / 2 ^ 32 ∧
      (t.ioVal (b + 12)).toNat = info ∧ t.pair (b + 16) = addr) ∧
    (s.slotSt v ≠ 0 → t.slotSt v = s.slotSt v ∧ t.ioVal b = s.ioVal b ∧
      t.fld (b + 8) 31 16 = min (s.fld (b + 8) 31 16 + 1) 0xFFFF) ∧
    (∀ w, w < 4 → w ≠ v → t.slotSt w = s.slotSt w) ∧
    t.fld (ioa 0xE (0x190 + 4 * v)) 31 0 = min (s.fld (ioa 0xE (0x190 + 4 * v)) 31 0 + 1) (2 ^ 32 - 1) ∧
    t.dev.recd.offers = s.dev.recd.offers ++
      [{ page := page, code := e.code, sev := v,
         payload := toBytes 2 page ++ toBytes 1 v ++ toBytes 1 0 ++ toBytes 4 info ++ toBytes 8 addr }] ∧
    t.dev.stop.active = s.dev.stop.active ∧
    t.dev.stop.due = (if 2 ≤ v ∧ s.job ∧ s.dev.stop.due = none ∧ s.dev.stop.active = false then some e.code
                      else s.dev.stop.due) ∧
    t.devState = (if v = 3 then 6 else s.devState)

/-! ### Link sequencers -/

/-- LARM joins its descriptor to the receive or the transmit queue (R288, R289, R312), LWAITB goes on or waits (R284,
R454), LWAITB_COMPLETE ends that wait 1 ac after its beat edge, BEPUT queues its packet at the link that R296 and R297
give, and a token wait of 1,024 bt stops the sequencer with SEQ_FAULT (R285). -/
def Obligations.SequencerInstructions : Prop :=
  ∀ (s : State) (l : Fin 48) (f : S4Q), s.Inv → f.rsv = 0 → f.sub = 0 →
    let u := 128 + l.val
    let k := s.link l
    let h := s.hart u
    let v := s.reg u f.rs1.toNat
    let a := v.toNat
    (s.issues u 4 = true → s.undamaged →
      (∀ d : SDesc, a % 16 = 0 → a + 16 ≤ 0x10000 → d.lo = BitVec.ofNat 64 (s.rdNat (seqMem l a) 8) →
        d.hi = BitVec.ofNat 64 (s.rdNat (seqMem l (a + 8)) 8) → d.valid s.nb = true → k.pers = 0 → s.placed d = true →
        (d.rx = true → (∀ x, k.lastRx = some x → x < d.key) → k.rxq.length < 16 →
          ∃ t, exec (.larm (.seq l) f) s = .next t ∧ Only [.links, .harts] s t ∧ OneHart s t u (seqPc u 4 h) ∧
            OneLink s t l { k with lastRx := some d.key, rxq := k.rxq ++ [d] }) ∧
        (d.rx = false → (∀ x, k.lastTx = some x → x < d.key) → k.txq.length < 16 →
          352 ≤ s.until d.beat (d.slot * slotLen) →
          ∃ t, exec (.larm (.seq l) f) s = .next t ∧ Only [.links, .harts] s t ∧ OneHart s t u (seqPc u 4 h) ∧
            OneLink s t l { k with lastTx := some d.key, txq := k.txq ++ [d] })) ∧
      (∀ d j pa, a % 32 = 0 → a + 32 ≤ 0x10000 →
        let bs := s.rd (seqMem l a) 32
        let w2 := bytesAt bs 16 8
        let n := bits w2 12 0
        let p : BePacket :=
          { daddr := BitVec.ofNat 64 (bytesAt bs 0 8), src := BitVec.ofNat 20 s.coordWord,
            dest := BitVec.ofNat 20 (bits w2 43 24), seqNo := k.beSeq, inject := s.beat, data := s.rd pa n }
        let plus := s.bePlus d p.dest.toNat
        let hop : BeHop := { vc := s.beVc d plus p.src.toNat, pkt := p }
        let k1 : Link :=
          { k with
            beSeq := k.beSeq + 1
            beOut := k.beOut ++
              [({ seqNo := k.beSeq, dest := p.dest, ten := bitAt w2 19, tok := bits w2 23 20 } : BeReq)] }
        beValid bs s = true → k.beOut.length < 64 →
        s.figRange (bytesAt bs 8 8) n true false = .ok [(bytesAt bs 8 8, pa, n)] → s.poisonIn pa n = none →
        s.beDim p.dest.toNat = some d → s.beLink d plus p.src.toNat p.dest.toNat = some j →
        ∃ t, exec (.beput (.seq l) f) s = .next t ∧ Only [.links, .harts, .banks] s t ∧ OneHart s t u (seqPc u 4 h) ∧
          (j = l.val → OneLink s t l { k1 with hops := k.hops ++ [hop] }) ∧
          (j ≠ l.val → t.link l = k1 ∧ t.link j = { s.link j with hops := (s.link j).hops ++ [hop] } ∧
            ∀ m, m ≠ l.val → m ≠ j → t.link m = s.link m))) ∧
    (s.issues u 4 = true →
      (bits a 47 0 ≤ s.jobBeat.toNat → ∃ t, exec (.lwaitb (.seq l) f) s = .next t ∧ Only [.harts] s t ∧
        OneHart s t u (seqPc u 4 h)) ∧
      (s.jobBeat.toNat < bits a 47 0 → ∃ t, exec (.lwaitb (.seq l) f) s = .next t ∧ Only [.links] s t ∧
        OneLink s t l { k with lwait := some (bits a 47 0) })) ∧
    (∀ b, s.dev.pwr.on = true → h.run = true → h.halted = false → h.quiet = true → k.lwait = some b →
      s.reach (BitVec.ofNat 48 b) = true → b ≠ 0xFFFFFFFFFFFF →
      ∃ t, exec (.lwaitbComplete l) s = .next t ∧ Only [.beat, .links, .harts] s t ∧ OneHart s t u (seqPc u 4 h) ∧
        OneLink s t l { k with lwait := none } ∧
        t.dev.beat.time = s.dev.beat.time +
          (if s.jobBeat.toNat ≤ b then (b - s.jobBeat.toNat) * beatLen + 5 - s.dev.beat.sub else 0)) ∧
    (∀ w, s.dev.pwr.on = true → h.run = true → h.halted = false → h.wait = some w → s.tok u w.tok < w.need →
      ∃ t, exec (.seqWaittokTimeout l) s = .next t ∧ Only [.beat, .io, .parts, .harts, .stop, .recd, .icu] s t ∧
        OneHart s t u { h with run := false, wait := none } ∧ Reported s t (linkPage l) .seqFault ∧
        w.since + 1024 * beatLen ≤ t.dev.beat.time)

/-! ### The interrupt controller and the watchdogs -/

/-- Source `n` can be delivered to Caller core `c` (R389, R390). -/
def deliverable (s : State) (n c : Nat) : Prop :=
  n < 256 ∧ c < 4 ∧ s.dev.icu.pend.getLsbD n = true ∧ bitAt (s.src n) 8 = true ∧ s.inService n = false ∧
    s.chosen n = false ∧ s.eligible n (bits (s.src n) 3 0) c = true

/-- ICU_ARBITRATION (R390, R393) gives the deliverable source of the highest priority, then of the lowest number, to a
core that is eligible for it, and does nothing while GDIS is 1. INTERRUPT_ENTRY (R382, R391) pushes the frame and stacks
the source, with the core at its interrupt vector. -/
def Obligations.InterruptsAreDelivered : Prop :=
  ∀ s : State, s.Inv → s.dev.pwr.on = true →
    (s.fld (ioa 0xD 8) 0 0 = 1 → exec .icuArbitration s = .next s) ∧
    (∀ n0 c0, s.fld (ioa 0xD 8) 0 0 = 0 → deliverable s n0 c0 →
      (∀ m, 2 ≤ m → m < 256 → s.dev.icu.pend.getLsbD m = true → bits (s.src m) 13 10 ≠ 0) →
      ∃ t n c, exec .icuArbitration s = .next t ∧ Only [.harts] s t ∧ deliverable s n c ∧
        (t.hart (64 + c)).taken = some n ∧
        ∀ m d, deliverable s m d → bits (s.src m) 3 0 < bits (s.src n) 3 0 ∨
          (bits (s.src m) 3 0 = bits (s.src n) 3 0 ∧ n ≤ m)) ∧
    (∀ (n : Fin 4) k pa,
      let u := 64 + n.val
      let h := s.hart u
      let prio := bits (s.src k) 3 0
      h.taken = some k → k < 256 → h.run = true → h.halted = false → h.fatal = false → h.quiet = true →
      canEnter s u pa →
      ∃ t, exec (.interruptEntry n) s = .next t ∧ Only [.mem, .xp, .caps, .harts, .icu] s t ∧
        Stored s t [(pa, s.frame u 1 0 k prio 0 0)] ∧
        OneHart s t u
          { h with
            esp := BitVec.ofNat 32 (h.esp.toNat - 64)
            capdepth := h.capdepth + 1
            lbase := h.ld
            wait := none
            pc := BitVec.ofNat 18 (((s.store u 15).base + 8) % pmSize u)
            taken := none
            insvc := (k, prio) :: h.insvc } ∧
        (∀ i, 1 ≤ i → i < 16 → t.creg u i = s.store u i ∧ t.store u (192 + 16 * h.capdepth + i) = s.creg u i) ∧
        (bitAt (s.src k) 9 = true ∨ s.dev.icu.level.getLsbD k = false → t.dev.icu.pend.getLsbD k = false))

/-- The agent `g` may write the register at `a` (R342-R344, R346): it is there, and the page is open to it. -/
def writable (s : State) (g : Agent) (a : Nat) : Prop :=
  s.dev.pwr.on = true ∧ s.live g = true ∧ a % 4 = 0 ∧ isDbgCmd a = false ∧
    match g with
    | .host p => s.mayWrite p (a / 0x1000) = true ∧ s.fld (ioa (a / 0x1000) 0x44) 0 0 = 0
    | _ => True

/-- EOI pops the top of the Caller core's stack, or is reported as ICU_ORDER (R392); SWSET sets PEND of a software source
(R388); a filtered pin drives its source (R388, R395); the watchdog of a Caller core stops it (R434). -/
def Obligations.InterruptRegistersAndWatchdogs : Prop :=
  ∀ s : State, s.Inv →
    (∀ (n : Fin 4) (v : Reg32), writable s (.caller n) (ioa 0xD 0x130) →
      let u := 64 + n.val
      let k := bits v.toNat 7 0
      (∀ p rest, (s.hart u).insvc = (k, p) :: rest →
        ∃ t, exec (.eoi (.caller n) v) s = .next t ∧ Only [.harts] s t ∧ OneHart s t u { s.hart u with insvc := rest }) ∧
      ((∀ p rest, (s.hart u).insvc ≠ (k, p) :: rest) →
        ∃ t, exec (.eoi (.caller n) v) s = .next t ∧ Only [.io, .parts, .stop, .recd, .icu] s t ∧
          Reported s t 0xD .icuOrder ∧ t.fld (ioa 0xD 0x158) 9 8 = n.val ∧ t.fld (ioa 0xD 0x158) 7 0 = k ∧
          t.fld (ioa 0xD 0x158) 31 16 = min (s.fld (ioa 0xD 0x158) 31 16 + 1) 0xFFFF)) ∧
    (∀ (g : Agent) (v : Reg32), writable s g (ioa 0xD 0x154) →
      let k := bits v.toNat 7 0
      (0xA0 ≤ k → k ≤ 0xDF → bits (s.src k) 13 10 ≠ 0 →
        ∃ t, exec (.swset g v) s = .next t ∧ Only [.io, .parts, .icu] s t ∧
          t.dev.icu.pend = s.dev.icu.pend ||| BitVec.ofNat 256 (2 ^ k) ∧ t.dev.icu.level = s.dev.icu.level) ∧
      (k < 0xA0 ∨ 0xDF < k → exec (.swset g v) s = .next s)) ∧
    (∀ b : Bool, s.dev.pwr.on = true →
      (∃ t, exec (.glitchFilterChange .perst b) s = .next t ∧ Only [.io, .parts, .icu] s t ∧ t.dev.icu.perst = b ∧
        t.dev.icu.level.getLsbD 0xC = !b) ∧
      (∃ t, exec (.glitchFilterChange .therm b) s = .next t ∧ Only [.io, .parts, .icu] s t ∧ t.dev.icu.therm = b ∧
        t.dev.icu.level.getLsbD 0xD = !b) ∧
      ∃ t, exec (.glitchFilterChange .alert b) s = .next t ∧ Only [.io, .parts, .icu] s t ∧ t.dev.icu.alert = b ∧
        t.dev.icu.level.getLsbD 0xE = (!b && !s.drivesAlert)) ∧
    (∀ (n : Fin 4), writable s (.caller n) (ioa (callerPage n) 0x104) → ∀ v : Reg32,
      ∃ t, exec (.wdkick (.caller n) n v) s = .next t ∧ Only [.harts] s t ∧
        OneHart s t (64 + n) { s.hart (64 + n) with wdStart := s.dev.beat.time }) ∧
    (∀ n : Fin 4, s.dev.pwr.on = true → (s.hart (64 + n)).run = true → (s.hart (64 + n)).fatal = false →
      s.fld (ioa (callerPage n) 0x100) 15 0 ≠ 0 → (∃ v, v < 4 ∧ v ≠ n.val ∧ (s.hart (64 + v)).fatal = false) →
      ∃ t, exec (.callerWdog n) s = .next t ∧ Only [.beat, .io, .parts, .harts, .stop, .recd, .icu] s t ∧
        OneHart s t (64 + n) { s.hart (64 + n) with fatal := true, wait := none, insvc := [], taken := none } ∧
        Reported s t (callerPage n) .callerWdog ∧
        (s.hart (64 + n)).wdStart + s.fld (ioa (callerPage n) 0x100) 15 0 * 5500 ≤ t.dev.beat.time)

/-! ### The job and its steps -/

/-- JOB_START_BEAT: the job begins at its start beat, with every unit at its entry (R14, R76, R104, R286, R361, R375).
STEP_START: the registers of the step return to their reset values (R333). BOW_SEAL: the accumulator is formed from the
local exponents, and GNF is cleared (R309). BOW_SETTLE: the outcome follows R313, and the agreed exponents and BOWRES are
published (R314). -/
def Obligations.JobsStartAndTheBowAgrees : Prop :=
  ∀ s : State, s.Inv → s.dev.pwr.on = true → s.job = true →
    (∀ b, s.dev.job.pending = some b → (∀ x ∈ s.shadow, s.jobPage (x.1 / 0x1000) = false) →
      ∃ t, exec .jobStartBeat s = .next t ∧ t.dev.job.pending = none ∧ t.dev.job.start = b ∧ t.dev.job.stepNo = 0 ∧
        (s.dev.beat.sub < beatLen → t.beat = b) ∧
        t.dev.job.edge = 0 ∧ t.dev.job.bow = none ∧ t.hoff = 0 ∧ t.ioVal aStepStat = 0x01000000 ∧
        t.pair (upd 0x114) = 0 ∧ (s.devState ≠ 6 → t.devState = 3) ∧ (s.devState = 6 → t.devState = 6) ∧
        (∀ c, c < 64 → (s.hart c).fatal = false →
          (t.hart c).run = true ∧ (t.hart c).pc = BitVec.ofNat 18 (s.fld (ioa (corePage c) 0x100) 16 0) ∧
          (t.hart c).ld = 0 ∧ (t.hart c).capdepth = 0 ∧ (t.hart c).esp = BitVec.ofNat 32 (s.store c 14).len ∧
          (∀ i, t.reg c i = 0) ∧ (∀ i, i < 64 → t.tok c i = 0) ∧ (∀ i, t.tag c i = none) ∧
          ∀ i, 1 ≤ i → i < 16 → t.creg c i = s.store c (16 + i)) ∧
        ∀ l, l < 48 → (t.hart (128 + l)).run = true ∧
          (t.hart (128 + l)).pc = BitVec.ofNat 18 (s.fld (ioa (linkPage l) 0x114) 12 0) ∧
          (∀ i, t.reg (128 + l) i = 0) ∧ (t.link l).txq = [] ∧ (t.link l).rxq = [] ∧ (t.link l).st = (s.link l).st) ∧
    (s.edgeDue 4 (s.fld (upd 0x130) 23 0) = true →
      ∃ t, exec .stepStart s = .next t ∧ Only [.beat, .io, .bridges, .job] s t ∧
        t.dev.job = { s.dev.job with stepNo := s.dev.job.stepNo + 1, edge := 0 } ∧ t.ioVal aBowres = 0 ∧
        t.ioVal (red 0x12C) = 0 ∧ t.ioVal (red 0x130) = 0 ∧ t.ioVal (red 0x134) = 0xFFFFFFFF ∧ t.outcome = 0 ∧
        t.phase = s.phase ∧ ∀ n, n < 8 → t.fld (brReg n 0x34) 31 28 = 0 ∧ t.ioVal (brReg n 0x38) = 0) ∧
    (∀ ps, s.edgeDue 0 (s.fld (red 0x100) 23 0) = true → s.undamaged →
      s.figRange (s.redAddr 0x10C) s.nb true false = .ok ps → allStage ps = true →
      (∀ x ∈ ps, s.poisonIn x.2.1 x.2.2 = none) →
      let es := (ps.flatMap fun x => s.rd x.2.1 x.2.2).map fun b => signedOf 8 b.toNat
      ∃ t, exec .bowSeal s = .next t ∧ Only [.beat, .io, .job] s t ∧
        t.dev.job = { s.dev.job with edge := 1, bow := some (s.sealed s.anyGnf es), agreed := [],
                                     gnfSince := false } ∧
        (∀ c, c < 64 → t.fld (arrReg c 0x210) 0 0 = 0) ∧
        ((∀ n, n < 8 → s.brOn n = false) → t.dev.job.bow = some
          { stepmin := (s.ioVal (upd 0x100)).toNat, stepmax := (s.ioVal (upd 0x100)).toNat, nf := s.anyGnf, fpdis := false,
            genmask := 1, nfsrc := (if s.anyGnf then s.coordWord else 0xFFFFFFFF), nb := s.nb, exps := es })) ∧
    (∀ a pa, s.edgeDue 1 (s.fld (red 0x104) 23 0) = true → s.dev.job.bow = some a → a.genmask < 8 → a.exps.length = a.nb →
      s.undamaged → s.figRange (s.redAddr 0x114) a.nb false true = .ok [(s.redAddr 0x114, pa, a.nb)] →
      allStage [(s.redAddr 0x114, pa, a.nb)] = true → 1 ≤ a.nb →
      let o := s.bowOutcome a
      let tk := s.fld (red 0x11C) 5 0
      let mask := s.redAddr 0x120
      (∀ c, bitAt mask c = true → s.tok c tk < 15) →
      ∃ t, exec .bowSettle s = .next t ∧ t.dev.job = { s.dev.job with edge := 2, agreed := a.exps } ∧
        t.fld aBowres 31 30 = o.1 ∧
        t.fld aBowres 29 26 = o.2 ∧ t.fld aBowres 25 25 = 1 ∧
        Stored s t [(pa, a.exps.map fun e => BitVec.ofNat 8 (unsignedOf 8 e))] ∧
        (∀ c, c < 64 → t.tok c tk = s.tok c tk + if bitAt mask c then 1 else 0) ∧
        (o.1 = 1 ↔ s.fld (red 0x108) 28 19 ≤ s.fld aBowres 19 10 ∧ a.fpdis = false ∧ a.stepmin = a.stepmax ∧
          a.genmask = s.fld (red 0x108) 18 16 ∧ a.nf = false) ∧
        (o.1 ≠ 3 → Only [.mem, .xp, .beat, .io, .toks, .bridges, .job, .recd] s t ∧
          ∀ n, n < 8 → s.brOn n = true → (t.bridge n).converting = true) ∧
        (o.1 = 3 → t.outcome = 3 ∧ t.fld (ioa 0xC8 0x14) 15 0 = (bowError o.2).code ∧
          (s.dev.stop.due = none → t.dev.stop.due = some (bowError o.2).code)))

/-- OUTCOME_BEAT opens the window of R216 under the outcome (R217), with the step scalar file complete (R244),
COMMIT_BEAT counts the step or stops the job when a core has not arrived (R221), and STOP ends the work of every unit
and reaches the hosts as R432 says (R231, R232, R283). -/
def Obligations.StepsCommitAndStop : Prop :=
  ∀ s : State, s.Inv → s.dev.pwr.on = true →
    (let o := s.fld aBowres 31 30
     s.edgeDue 2 (s.fld (upd 0x134) 23 0) = true → o ≠ 3 →
      (s.dev.job.evaluating = none ∨ s.undamaged) →
      ∃ t, exec .outcomeBeat s = .next t ∧ t.dev.job.edge = 3 ∧ t.outcome = o ∧
        (s.dev.job.evaluating ≠ none → t.dev.job.evaluating = none ∧ t.fld (upd 0x200) 31 31 = 1) ∧
        (s.dev.job.evaluating = none → t.mem = s.mem ∧ t.xp = s.xp) ∧
        (o = 1 → s.dev.job.gnfSince = true → Reported s t 0xC8 .gnfLate ∧ t.phase = s.phase) ∧
        (o ≠ 0 → ¬(o = 1 ∧ s.dev.job.gnfSince = true) → Only [.mem, .xp, .beat, .io, .job] s t ∧ t.phase = 2) ∧
        (s.dev.job.ckWait = true → t.fld (upd 0x120) 31 31 = 1 ∧ t.dev.job.ckWait = false)) ∧
    (s.edgeDue 3 (s.fld (upd 0x138) 23 0) = true → s.window = true →
      (∀ n, n < 8 → s.brOn n = true → s.retDone n = true) →
      (s.pair (upd 0x114) ≠ 2 ^ 64 - 1 → ∃ t, exec .commitBeat s = .next t ∧ Reported s t 0xD0 .stepOverrun ∧
        t.dev.job.edge = 4 ∧ t.ioVal (upd 0x100) = s.ioVal (upd 0x100) ∧ t.ioVal (upd 0x104) = s.ioVal (upd 0x104)) ∧
      (∀ apply : Bool, s.pair (upd 0x114) = 2 ^ 64 - 1 → s.outcome = (if apply then 1 else 2) →
        let cnt := if apply then upd 0x100 else upd 0x104
        let other := if apply then upd 0x104 else upd 0x100
        s.ioVal cnt ≠ 0xFFFFFFFF → (apply = false → s.fld (upd 0x13C) 31 24 = 0) →
        (∀ c, c < 64 → (s.hart c).mbuf = []) →
        ∃ t, exec .commitBeat s = .next t ∧ t.dev.job.edge = 4 ∧ t.ioVal cnt = s.ioVal cnt + 1 ∧
          t.ioVal other = s.ioVal other ∧ t.pair (upd 0x114) = 0 ∧
          t.fld aStepStat 23 0 = (s.fld aStepStat 23 0 + 1) % 2 ^ 24 ∧
          t.ioVal (upd 0x108) = BitVec.ofNat 32 (s.nextLscale apply) ∧
          (let jobEnd := (s.ioVal (upd 0x148)).toNat
           let sum := (s.ioVal (upd 0x100)).toNat + (s.ioVal (upd 0x104)).toNat + 1
           (jobEnd = 0 ∨ jobEnd ≠ sum → t.job = s.job ∧ t.phase = 1 ∧ ∀ u, (t.hart u).run = (s.hart u).run) ∧
           (jobEnd ≠ 0 → jobEnd = sum → s.dev.stop.due = none → t.job = false ∧ t.phase = 0 ∧ (s.devState ≠ 6 → t.devState = 2) ∧
            ∀ c, c < 64 → (t.hart c).run = false)))) ∧
    (s.job = true → (∀ c, c < 64 → (s.hart c).mbuf = [] ∧ (s.hart c).arun = [] ∧ (s.hart c).tq = [] ∧
        ∀ x ∈ (s.hart c).xq, x.held = [] ∧ x.dstTile = none) → (∀ n, n < 8 → s.brOn n = false) →
      let stopped (t : State) : Prop :=
        t.job = false ∧ t.dev.stop.due = none ∧ t.dev.stop.active = true ∧ t.dev.stop.since = s.dev.beat.time ∧
        t.phase = 3 ∧ t.fld aStepStat 31 31 = (if s.window = true ∧ s.outcome = 1 then 1 else 0) ∧
        (s.devState ≠ 6 → t.devState = 5) ∧ t.mem = s.mem ∧ t.regs = s.regs ∧ t.toks = s.toks ∧ t.caps = s.caps ∧
        (∀ c, c < 64 → (t.hart c).run = false ∧ (t.hart c).xq = [] ∧ (t.hart c).aq = [] ∧ (t.hart c).vq = []) ∧
        ∀ l, l < 48 → (t.hart (128 + l)).run = false ∧ (t.link l).txq = [] ∧ (t.link l).rxq = [] ∧
          (t.link l).hops = [] ∧ (t.link l).beOut = []
      (∀ code, s.dev.stop.due = some code → ∃ t, exec .stop s = .next t ∧ stopped t ∧
        (∃ l, t.dev.recd.offers = s.dev.recd.offers ++ l ++
          [({ page := 0, code := 0x83, sev := 0, payload := toBytes 8 code } : Offer)]) ∧
        (fatalCode code = false → s.dev.stop.forced = false → t.dev.stop.forceAt = some (s.dev.beat.time + 44000)) ∧
        (fatalCode code = false → s.dev.stop.forced = true → ∀ p ∈ s.jobParts, t.fld (ioa (hpPage p) 0x120) 1 1 = 1)) ∧
      ∀ l : Fin 48, (s.link l).pers = 0 → 2 ≤ (s.link l).st → (s.link l).st ≤ 5 →
        ∃ t, exec (.stopReceived l) s = .next t ∧ stopped t ∧ ∀ p ∈ s.jobParts, t.fld (ioa (hpPage p) 0x120) 1 1 = 1) ∧
    (∀ n, s.dev.stop.forceAt = some n →
      ∃ t, exec .jobIrqDeadline s = .next t ∧ Only [.beat, .io, .parts, .stop] s t ∧ n ≤ t.dev.beat.time ∧
        t.dev.stop.forceAt = none ∧ ∀ p, p < 4 → s.dev.stop.parts.getLsbD p = true → t.fld (ioa (hpPage p) 0x120) 1 1 = 1)

/-! ### The beat discipline -/

/-- BEAT_EVALUATION corrects rate and step and moves LOCK (R270, R271); SLOT0_HEADER_RECEIVED records what the partner
advertises and the measurement, chooses a parent and steps the count (R268, R269); HOLDOVER_START and HOLDOVER_TIMEOUT
follow the loss of the parent (R268, R271); REF_LOST and REF_RETURN concern the Ridge (R265); BEAT_CHAIN_INPUT adopts the
chain's count or passes it on (R267, R300, R301); CNT_LO_READ latches the upper half of the count (R304). -/
def Obligations.TheBeatIsDisciplined : Prop :=
  ∀ s : State, s.Inv →
    (∀ n : BitVec 48, s.passing = true → ∃ t, exec (.beatChainInput n) s = .next t ∧ Only [.out] s t ∧
      t.dev.lastOut = toBytes 6 n.toNat) ∧
    (s.dev.pwr.on = true →
    (∀ l, s.ridge = false → s.parent = some l → (s.link l).thetas.length = 16 →
      let theta := trimmed (s.link l).thetas
      let b := s.dev.beat
      (theta.natAbs ≤ 1000 → ∃ t, exec .beatEvaluation s = .next t ∧ Only [.io, .beat, .links] s t ∧
        OneLink s t l { s.link l with thetas := [] } ∧
        t.dev.beat = { b with
          rate := b.rate - theta / 4, step := -theta
          good := if theta.natAbs ≤ 40 then b.good + 1 else 0
          bad := 0, fresh := false } ∧
        t.ioVal (ioa 0xC 0x110) = BitVec.ofInt 32 theta ∧
        t.fld aBstat 31 31 = (if theta.natAbs ≤ 40 ∧ 3 ≤ b.good ∧ s.hops ≤ 200 then 1 else s.fld aBstat 31 31)) ∧
      (1000 < theta.natAbs → b.fresh = true ∨ 1 ≤ b.bad → s.fld aBstat 31 31 = 1 →
        ∃ t, exec .beatEvaluation s = .next t ∧ Reported s t 0xC .beatUnlock ∧ t.fld aBstat 31 31 = 0 ∧
          t.dev.beat.rate = b.rate - theta / 4 ∧ t.dev.beat.step = -theta ∧ t.dev.beat.good = 0 ∧ t.dev.beat.bad = 0)) ∧
    (∀ (l : Fin 48) (h : Slot0Hdr), (s.link l).timed = true →
      let k := s.link l
      let k1 : Link :=
        { k with
          seen := true, plock := h.lock, phops := h.hops.toNat, arr := h.t2
          delays := (delayOf h :: k.delays).take 16, thetas := (thetaOf h :: k.thetas).take 16 }
      let delay := meanInt k1.delays
      (s.ridge = true ∨ (∃ m, s.parent = some m ∧ (m ≠ l.val ∨ h.lock = false)) →
        ∃ t, exec (.slot0HeaderReceived l h) s = .next t ∧ Only [.io, .links] s t ∧ OneLink s t l k1 ∧
          Holds s t [(ioa (linkPage l) 0x108, BitVec.ofInt 32 delay)]) ∧
      (s.ridge = false → s.parent = some l.val → h.lock = true →
        (s.dev.beat.stepNext = false → h.beat = s.nearBeat h delay →
          ∃ t, exec (.slot0HeaderReceived l h) s = .next t ∧ Only [.io, .links] s t ∧ OneLink s t l k1 ∧
            t.fld aBstat 13 6 = min k1.sum 0xFF ∧ t.parent = some l.val) ∧
        (s.dev.beat.stepNext = true →
          let ps : Int := (h.tstamp - BitVec.ofNat 64 (h.beat.toNat * 1024000)).toInt + delay
          ∃ t, exec (.slot0HeaderReceived l h) s = .next t ∧ Only [.io, .beat, .links] s t ∧
            OneLink s t l { k1 with thetas := [] } ∧ t.beat = h.beat + BitVec.ofInt 48 (ps / 1024000) ∧
            t.dev.beat.sub = (ps % 1024000).toNat * 11 / 2000 ∧ t.dev.beat.stepNext = false ∧
            t.dev.beat.time = s.dev.beat.time)) ∧
      (s.ridge = false → s.parent = none → k1.candidate = true → (∀ m, m < 48 → m ≠ l.val → (s.link m).candidate = false) →
        ∃ t, exec (.slot0HeaderReceived l h) s = .next t ∧ Only [.io, .beat, .links] s t ∧ t.parent = some l.val ∧
          t.fld aBstat 13 6 = min k1.sum 0xFF ∧ t.fld aBstat 29 28 = 0 ∧ t.dev.beat.hold = none)) ∧
    (∀ l, s.ridge = false → s.parent = some l → (s.link l).holds = false →
      (∀ m, m < 48 → (s.link m).candidate = false) →
      ∃ t, exec .holdoverStart s = .next t ∧ Only [.io, .beat] s t ∧ t.parent = none ∧ t.fld aBstat 29 29 = 1 ∧
        t.dev.beat = { s.dev.beat with hold := some s.beat, stepNext := false }) ∧
    (∀ h, s.ridge = false → s.dev.beat.hold = some h →
      ∃ t, exec .holdoverTimeout s = .next t ∧ t.fld aBstat 29 29 = 0 ∧ t.fld aBstat 13 6 = 0xFF ∧ t.dev.beat.hold = none ∧
        t.fld aBstat 31 31 = 0 ∧ (s.fld aBstat 31 31 = 1 → Reported s t 0xC .beatUnlock) ∧
        (s.fld aBstat 31 31 = 0 → Only [.io, .beat] s t)) ∧
    (s.ridge = true → s.fld aBeatCfg 1 1 = 0 →
      (s.dev.beat.refLost = false → ∃ t, exec .refLost s = .next t ∧ Reported s t 0xC .refLost ∧
        t.dev.beat = { s.dev.beat with refLost := true } ∧ t.fld aBstat 30 30 = 1) ∧
      ∃ t, exec .refReturn s = .next t ∧ Only [.beat] s t ∧ t.dev.beat = { s.dev.beat with refLost := false }) ∧
    (∀ n : BitVec 48, s.passing = false → s.ridge = false → s.parent = none → s.dev.beat.hold = none →
      ∃ t, exec (.beatChainInput n) s = .next t ∧ Only [.io, .beat] s t ∧
        t.dev.beat = { s.dev.beat with count := n, sub := 0, frac := 0 } ∧ t.fld aBstat 28 28 = 1 ∧
        t.fld aBstat 31 31 = s.fld aBstat 31 31) ∧
    (∀ g : Agent, s.live g = true →
      ∃ t, exec (.cntLoRead g) s = .next t ∧ Only [.beat, .out] s t ∧ t.dev.readData = toBytes 4 (s.beat.toNat % 2 ^ 32) ∧
        t.dev.readPoison = false ∧ t.dev.beat = { s.dev.beat with latch := BitVec.ofNat 16 (s.beat.toNat / 2 ^ 32) }))

/-! ### Links -/

/-- LANE_LOCK, TRAIN_FAIL and LANE_LOCK_LOSS move a link through its states (R275, R279), ID_RECORD_RECEIVED judges the
neighbour (R276, R277), FLIT_ERROR counts and reports (R293), and best-effort packets go on, are written at their
destination and are acknowledged by their sequence number (R295-R298). -/
def Obligations.LinksTrainAndCarryPackets : Prop :=
  ∀ (s : State) (l : Fin 48), s.Inv → s.dev.pwr.on = true →
    let k := s.link l
    (k.st = 1 → ∃ t, exec (.laneLock l) s = .next t ∧ Only [.links] s t ∧ OneLink s t l { k with st := 2, lanes := 0xF }) ∧
    (k.st = 1 → ∃ t, exec (.trainFail l) s = .next t ∧ OneLink s t l { k with st := 7 } ∧
      Reported s t (linkPage l) .trainFail ∧ k.trainAt + 100 * msLen ≤ t.dev.beat.time) ∧
    (2 ≤ k.st → k.st ≤ 6 → ∃ t, exec (.laneLockLoss l) s = .next t ∧
      OneLink s t l
        { k with
          st := 1, lanes := 0, seen := false, plock := false, thetas := [], idrec := none, trainAt := s.dev.beat.time,
          nbyp := 0, plink := 0 } ∧
      (k.st = 3 → s.inLinkset l = true → Reported s t (linkPage l) .linkDown) ∧
      (¬(k.st = 3 ∧ s.inLinkset l = true) → Only [.links] s t)) ∧
    (∀ r : IdRecord, 2 ≤ k.st → k.st ≤ 6 → k.pers = 0 →
      let d := linkDim l
      let mine := idSysid r = s.fld aBeatCfg 31 16 ∧ idTsize r = s.fld aTsize 19 0 ∧ idLink r = wantLink l ∧
        (∀ e, e < 3 → e ≠ d → dimBits e (idCoord r) = s.coord e) ∧
        distance (linkPlus l) (s.coord d) (dimBits d (idCoord r)) (s.size d) = 1 % s.size d
      (idBad r = false → mine → (s.loaded = idFig r) → (s.loaded = true → r.fp.toNat = s.fingerprint) →
        ∃ t, exec (.idRecordReceived l r) s = .next t ∧ Only [.io, .links] s t ∧
          OneLink s t l { k with idrec := some r, nbyp := 0, plink := idLink r, st := 3 } ∧
          Holds s t [(ioa (linkPage l) 0x104, BitVec.ofNat 32 (idCoord r))]) ∧
      (idBad r = true ∨ idSysid r ≠ s.fld aBeatCfg 31 16 ∨ idTsize r ≠ s.fld aTsize 19 0 ∨ idLink r ≠ wantLink l →
        k.st ≠ 3 → k.st ≠ 6 → ∃ t, exec (.idRecordReceived l r) s = .next t ∧
          OneLink s t l { k with idrec := some r, nbyp := 0, plink := idLink r, st := 6 } ∧
          Reported s t (linkPage l) .nbrMismatch)) ∧
    (∀ r : IdRecord, 2 ≤ k.st → k.st ≤ 6 → k.pers ≠ 0 → r.gen = persGen k.pers →
      ∃ t, exec (.idRecordReceived l r) s = .next t ∧ Only [.links] s t ∧ OneLink s t l { k with st := 3 }) ∧
    (∀ touches : Bool, 2 ≤ k.st → k.st ≤ 6 →
      ∃ t, exec (.flitError l touches .corrected) s = .next t ∧ Only [.io] s t ∧
        Holds s t [(ioa (linkPage l) 0x10C,
          BitVec.ofNat 32 (min ((s.ioVal (ioa (linkPage l) 0x10C)).toNat + 1) (2 ^ 32 - 1)))]) ∧
    (∀ (touches : Bool) (e : FlitErr), e ≠ .corrected → 2 ≤ k.st → k.st ≤ 6 → k.pers = 0 →
      ∃ t, exec (.flitError l touches e) s = .next t ∧
        OneLink s t l (if touches then { k with cur := none } else k) ∧
        Reported s t (linkPage l) (if touches then .linkUe else .linkReplay) ∧
        t.fld (ioa (linkPage l) 0x110) 31 0 =
          (if e = .codeword then min (s.fld (ioa (linkPage l) 0x110) 31 0 + 1) (2 ^ 32 - 1) else s.fld (ioa (linkPage l) 0x110) 31 0)) ∧
    (∀ (vc : Bool) (h : BeHop), k.pers = 0 → k.st = 3 → beFirst vc k.hops = some h →
      ∃ t, exec (.bePacketForward l vc) s = .next t ∧ Only [.links, .out] s t ∧
        OneLink s t l { k with hops := k.hops.erase h } ∧ t.dev.lastOut = beFlits s.dev.stop.active vc h.pkt ∧
        h ∈ k.hops ∧ h.vc = vc ∧ ∀ x ∈ k.hops, x.vc = vc → beBefore x.pkt h.pkt = false) ∧
    (∀ p : BePacket, k.st = 3 → k.pers = 0 → s.dev.stop.active = false →
      (∀ pa, p.dest.toNat = s.coordWord → s.undamaged → 1 ≤ p.data.length →
        s.figRange p.daddr.toNat p.data.length false true = .ok [(p.daddr.toNat, pa, p.data.length)] →
        allStage [(p.daddr.toNat, pa, p.data.length)] = true → s.durable p.daddr.toNat p.data.length = false →
        ∃ t, exec (.bePacketDelivery l p) s = .next t ∧ Only [.mem, .xp, .out] s t ∧ Stored s t [(pa, p.data)] ∧
          t.dev.lastOut = toBytes 8 p.seqNo) ∧
      (∀ d j, p.dest.toNat ≠ s.coordWord → s.beDim p.dest.toNat = some d →
        let plus := s.bePlus d p.dest.toNat
        s.beLink d plus p.src.toNat p.dest.toNat = some j →
        ∃ t, exec (.bePacketDelivery l p) s = .next t ∧ Only [.links] s t ∧
          OneLink s t j { s.link j with hops := (s.link j).hops ++ [({ vc := s.beVc d plus p.src.toNat, pkt := p } : BeHop)] })) ∧
    (∀ r no, (k.beOut.find? fun x => x.seqNo = no) = some r → s.tok (128 + l) r.tok < 15 →
      ∃ t, exec (.beAcknowledgement ⟨l, no⟩) s = .next t ∧ Only [.toks, .links] s t ∧
        OneLink s t l { k with beOut := k.beOut.erase r } ∧
        (r.ten = false → t.toks = s.toks) ∧
        (r.ten = true → r.tok < 64 → OneTok s t (128 + l) r.tok (s.tok (128 + l) r.tok + 1)))

/-- SLOT_START starts the link's next slot (R264): it sends the slot's header, and the image of an armed transmit of
that slot that is ready, which then is OPEN and empty; a transmit that is not ready, or whose slot has passed, is missed
(R280, R290, R294). SLOT_HEADER_RECEIVED matches a header against the receive queue, and SLOT_RECEIVE_COMPLETE,
BOW_RECEIVE and REEL_RECEIVE complete the receive (R291, R311, R321); RECEIVE_SLOT_PASSES reports an empty slot
(R291). -/
def Obligations.SlotsAreSentAndReceived : Prop :=
  ∀ (s : State) (l : Fin 48), s.Inv → s.dev.pwr.on = true →
    let k := s.link l
    let n := s.nextSlot l
    let started := { k with lastSlot := some n }
    (k.pers = 0 → 2 ≤ k.st → k.st ≤ 5 → s.devState ≠ 6 →
      (s.dev.dbg.frozen = true ∨ ∀ d rest, k.txq = d :: rest → n < d.at s) →
      ∃ t, exec (.slotStart l) s = .next t ∧ Only [.beat, .links, .out] s t ∧ OneLink s t l started ∧
        t.dev.beat.time = s.dev.beat.time + ((n - s.beat.toNat * 8) * slotLen - s.dev.beat.sub) ∧
        t.dev.lastOut.length = 32 ∧ bytesAt t.dev.lastOut 0 2 = 0x5A3C ∧
        bytesAt t.dev.lastOut 2 6 = n / 8 % 2 ^ 48 ∧ bytesAt t.dev.lastOut 8 1 % 8 = n % 8 ∧
        bytesAt t.dev.lastOut 9 2 = 0 ∧ bytesAt t.dev.lastOut 11 1 = s.hops) ∧
    (∀ d rest, k.txq = d :: rest → s.dev.dbg.frozen = false → k.quiet = false →
      (d.at s = n → d.kind = 0 → k.st = 3 → (k.txi d.img).sending = false → (k.txi d.img).fill = d.nflit * 256 →
        d.nflit ≤ 48 → s.undamaged → s.tok d.tcore d.tok < 15 →
        ∃ t, exec (.slotStart l) s = .next t ∧ Only [.beat, .toks, .links, .out] s t ∧ (t.link l).txq = rest ∧
          ((t.link l).txi d.img).sending = false ∧ ((t.link l).txi d.img).fill = 0 ∧ (t.link l).sentData = true ∧
          (∀ m, m ≠ l.val → t.link m = s.link m) ∧ bytesAt t.dev.lastOut 2 6 = (d.beat + s.hoff).toNat ∧
          t.dev.lastOut.drop 32 = (flitsOf (s.rd (txAddr l (d.img * 0x3000)) (d.nflit * 256))).flatMap
            (flit 1 s.dev.stop.active false) ∧
          (d.ten = false → t.toks = s.toks) ∧
          (d.ten = true → OneTok s t d.tcore d.tok (s.tok d.tcore d.tok + 1))) ∧
      (d.at s < n ∨ (d.at s = n ∧ d.kind = 0 ∧ (k.st ≠ 3 ∨ (k.txi d.img).fill ≠ d.nflit * 256)) →
        ∃ t, exec (.slotStart l) s = .next t ∧ OneLink s t l { started with txq := rest, quiet := true } ∧
          Reported s t (linkPage l) .slotMiss)) ∧
    (∀ h : SlotHdr, k.pers = 0 → k.st = 3 → s.devState ≠ 6 →
      let key := (h.beat - s.hoff).toNat * 8 + h.slot.toNat
      (∀ d rest, k.rxq = d :: rest → d.key = key → h.nflit.toNat = d.nflit → d.kind = 0 →
        ∃ t, exec (.slotHeaderReceived l h) s = .next t ∧ Only [.mem, .xp, .links] s t ∧
          OneLink s t l
            { k with rxq := rest, cur := some d
                     rx := Tab.insert d.img { st := 1, nflit := d.nflit, kind := 0 } k.rx } ∧
          (∀ x, x < 0x3000 → t.rdByte (rxAddr l (d.img * 0x3000) + x) = 0)) ∧
      (k.rxq = [] → ∃ t, exec (.slotHeaderReceived l h) s = .next t ∧ Reported s t (linkPage l) .slotUnexpected ∧
        t.link l = k)) ∧
    (∀ (d : SDesc) (payload : List Byte), k.cur = some d → payload.length = d.nflit * 256 → s.tok d.tcore d.tok < 15 →
      let counted (t : State) : Prop :=
        (d.ten = false → t.toks = s.toks) ∧ (d.ten = true → OneTok s t d.tcore d.tok (s.tok d.tcore d.tok + 1))
      let img := k.rxi d.img
      (d.kind = 0 → d.img < 8 → d.nflit ≤ 48 →
        ∃ t, exec (.slotReceiveComplete l payload) s = .next t ∧ Only [.mem, .xp, .toks, .links] s t ∧ counted t ∧
          Stored s t [(rxAddr l (d.img * 0x3000), payload)] ∧
          OneLink s t l { k with cur := none
                                 rx := Tab.insert d.img { img with st := 2, len := d.nflit * 256, x64 := false } k.rx }) ∧
      (∀ a, d.kind = 1 → s.dev.job.bow = some a → bowBad a.nb payload = false →
        ∃ t, exec (.bowReceive l payload) s = .next t ∧ Only [.io, .toks, .links, .job] s t ∧ counted t ∧
          OneLink s t l { k with cur := none } ∧ t.fld aBowres 19 10 = min (s.fld aBowres 19 10 + 1) 1023 ∧
          t.dev.job.bow = some
            { a with
              fpdis := a.fpdis || bitAt (bytesAt payload 16 1) 1 || bytesAt payload 0 8 ≠ s.fingerprint
              stepmin := min a.stepmin (bytesAt payload 8 4)
              stepmax := max a.stepmax (bytesAt payload 12 4)
              nf := a.nf || bitAt (bytesAt payload 16 1) 0
              nfsrc := min a.nfsrc (bytesAt payload 20 4)
              genmask := Nat.lor a.genmask (bytesAt payload 17 1)
              exps := a.exps.zipWith (fun e b => max e (signedOf 8 b.toNat)) ((payload.drop 64).take a.nb) }) ∧
      (d.kind = 2 ∨ d.kind = 3 → d.par 29 29 = 0 → d.par 24 24 = 0 → d.img < 8 → d.nflit ≤ 48 →
        ∃ t, exec (.reelReceive l payload) s = .next t ∧ Only [.mem, .xp, .toks, .links] s t ∧ counted t ∧
          Stored s t [(rxAddr l (d.img * 0x3000), packW40 ((range 0 (d.nflit * 48)).map (imgElem payload 2)))] ∧
          OneLink s t l { k with cur := none
                                 rx := Tab.insert d.img { img with st := 2, len := d.nflit * 256, x64 := false } k.rx }) ∧
      (d.kind = 2 ∨ d.kind = 3 → d.par 29 29 = 1 → d.par 28 28 = 0 → d.par 24 24 = 0 → d.img < 8 → d.nflit ≤ 48 →
        s.undamaged →
        let loc := s.rd (txAddr l (d.par 27 25 * 0x3000)) (d.nflit * 96)
        ∃ t, exec (.reelReceive l payload) s = .next t ∧ Only [.mem, .xp, .toks, .links] s t ∧ counted t ∧
          ((t.link l).txi (d.par 27 25)).fill = 0 ∧
          Stored s t [(rxAddr l (d.img * 0x3000), packW40 ((range 0 (d.nflit * 48)).map fun j =>
            signedOf 40 (unsignedOf 40 (imgElem payload 2 j + imgElem loc 0 j))))])) ∧
    (∀ d rest, k.rxq = d :: rest → s.reach d.beat = true →
      ∃ t, exec (.receiveSlotPasses l) s = .next t ∧ OneLink s t l { k with rxq := rest } ∧
        Reported s t (linkPage l) .slotEmpty)

/-! ### Bridges -/

/-- The window of a bridge (R324-R326): it opens once in a step with 64 credits, a DATA frame lands and is credited, the
window's end begins the scan or reports, and the scan leaves the pod's exponents, step number and NF. The conversion
writes GG16 at the agreed exponents (R327), and the return sends its area as credits allow (R328). NAK repeats a sent
frame (which one a NAK that names none repeats is the model's choice, log entry 29), a CRC failure is answered with NAK,
and both are reported (R323); STOP is sent, repeated in later beats and acknowledged (R329). -/
def Obligations.BridgesExchangeFrames : Prop :=
  ∀ (s : State) (n : Fin 8), s.Inv → s.dev.pwr.on = true →
    let b := s.bridge n
    let gen := s.brGen n
    let sent (t : State) (x : Bridge) (f : List Byte) : Prop := t.dev.lastOut = f ∧ OneBridge s t n { x with sent := f :: x.sent }
    (s.brLive n = true → s.edgeDue 0 (s.fld (brReg n 4) 23 0) = true → b.closed = true → b.ended = false →
      ∃ t, exec (.bridgeWindowOpen n) s = .next t ∧ Only [.beat, .bridges, .out] s t ∧
        sent t { b with closed := false, credit := 64 } (frameBytes 3 gen 0 0 64 0 [])) ∧
    (∀ (fr : BridgeFrame) (pa : Nat), s.brLive n = true → fr.typ = 1 → fr.gen.toNat = (s.link (s.brLink n)).pers →
      s.dev.stop.active = false →
      let va := s.redAddr (0x210 + 0x40 * n) + fr.offset.toNat
      let m := fr.payload.length
      let st := fr.step.toNat
      let x : Bridge :=
        { b with
          got := b.got ++ [(fr.offset.toNat, m)]
          scales := b.scales ++ [(fr.offset.toNat, m, fr.scale)]
          steps := some (match b.steps with
            | none => (st, st, st)
            | some (first, lo, hi) => (first, min lo st, max hi st)) }
      (s.frameRefused n fr = false → 1 ≤ m → s.undamaged → s.figRange va m false true = .ok [(va, pa, m)] →
        allStage [(va, pa, m)] = true → s.durable va m = false →
        ∃ t, exec (.bridgeDataFrame n fr) s = .next t ∧ Only [.mem, .xp, .io, .bridges, .out] s t ∧
          Stored s t [(pa, fr.payload)] ∧ sent t x (frameBytes 3 gen 0 0 1 0 []) ∧
          (x.have = 2 * s.brCount n → t.fld (brReg n 0x34) 31 31 = 1)) ∧
      (s.frameRefused n fr = true → ∃ t, exec (.bridgeDataFrame n fr) s = .next t ∧ Reported s t 0xC8 .bridgeFormat ∧
        t.mem = s.mem ∧ OneBridge s t n b)) ∧
    (∀ fr : BridgeFrame, s.brUp n = true → fr.gen.toNat = (s.link (s.brLink n)).pers →
      (fr.typ = 3 → s.job = true → b.ret = none → ∃ t, exec (.bridgeCreditFrame n fr) s = .next t ∧ Only [.bridges] s t ∧
        OneBridge s t n { b with grant := b.grant + fr.credits.toNat }) ∧
      (fr.typ = 4 → ∃ t, exec (.bridgeNakFrame n fr) s = .next t ∧ Reported s t 0xC8 .bridgeRetry ∧ OneBridge s t n b ∧
        (∀ f rest, b.sent = f :: rest → t.dev.lastOut ∈ b.sent ∧
          ((f.drop 4).take 12 = toBytes 4 fr.step.toNat ++ toBytes 8 fr.offset.toNat → t.dev.lastOut = f))) ∧
      (fr.typ = 2 → s.job = true → ∃ t, exec (.bridgeStopFrame n fr) s = .next t ∧
        sent t b (frameBytes 5 gen 0 0 0 0 []) ∧ t.fld (brReg n 0x34) 27 27 = 1 ∧ Reported s t 0xC8 .bridgeStop) ∧
      (fr.typ = 5 → ∃ t, exec (.bridgeStopAckFrame n fr) s = .next t ∧ Only [.bridges] s t ∧
        OneBridge s t n { b with stopping := false })) ∧
    (s.brUp n = true → ∃ t, exec (.bridgeFrameCrcFail n) s = .next t ∧
      t.dev.lastOut = frameBytes 4 gen 0 0 0 0 [] ∧ Reported s t 0xC8 .bridgeRetry ∧ OneBridge s t n b) ∧
    (s.brOn n = true → b.stopping = true → ∃ t, exec (.bridgeStopRepeat n) s = .next t ∧ Only [.beat, .bridges, .out] s t ∧
      sent t { b with stopBeat := t.beat } (frameBytes 2 gen 0 0 0 0 []) ∧
      (s.beat = b.stopBeat → s.dev.beat.sub < beatLen → t.beat = b.stopBeat + 1)) ∧
    (s.brOn n = true → s.edgeDue 0 (s.fld (brReg n 8) 23 0) = true → b.ended = false →
      let ended := { b with ended := true, closed := true, credit := 0 }
      (b.have = 2 * s.brCount n → ∃ t, exec (.bridgeWindowEnd n) s = .next t ∧ Only [.beat, .bridges] s t ∧
        OneBridge s t n { ended with scanning := true }) ∧
      (b.have ≠ 2 * s.brCount n → ∃ t, exec (.bridgeWindowEnd n) s = .next t ∧ Reported s t 0xC8 .bridgeWindow ∧
        OneBridge s t n { ended with scanning := false })) ∧
    (∀ pi po, s.undamaged → s.dev.stop.active = false →
      let vi := s.redAddr (0x210 + 0x40 * n)
      let vo := s.redAddr (0x218 + 0x40 * n)
      let m := 2 * s.brCount n
      let vs := s.brValues n (s.rd pi m)
      1 ≤ m → s.figRange vi m true false = .ok [(vi, pi, m)] → allStage [(vi, pi, m)] = true →
      (b.scanning = true → ∃ t, exec (.bridgeScanDone n) s = .next t ∧ Only [.io, .bridges] s t ∧
        OneBridge s t n { b with scanning := false, exps := s.podExps n vs } ∧ t.fld (brReg n 0x34) 29 29 = 1 ∧
        (∀ x, b.steps = some x → x.1 < 2 ^ 32 → (t.ioVal (brReg n 0x38)).toNat = x.1) ∧
        t.fld (brReg n 0x34) 30 30 = if vs.all Num.isFin then 0 else 1) ∧
      (b.converting = true →
        let qs := vs.zipIdx.map fun x => gg16 x.1 (s.dev.job.agreed.getD (s.brBucket n x.2) (-128))
        let tc := s.fld (brReg n 0x20) 13 8
        let tk := s.fld (brReg n 0x20) 5 0
        s.figRange vo m false true = .ok [(vo, po, m)] → allStage [(vo, po, m)] = true → s.durable vo m = false →
        s.tok tc tk < 15 →
        ∃ t, exec (.bridgeConversion n) s = .next t ∧ Only [.mem, .xp, .io, .toks, .bridges] s t ∧
          OneBridge s t n { b with converting := false } ∧
          Stored s t [(po, qs.flatMap fun q => toBytes 2 q.1)] ∧ t.fld (brReg n 0x34) 28 28 = 1 ∧
          t.fld (brReg n 0x3C) 31 0 =
            min (s.fld (brReg n 0x3C) 31 0 + (qs.filter fun q => q.2.1).length) (2 ^ 32 - 1) ∧
          (s.fld (brReg n 0x20) 31 31 = 0 → t.toks = s.toks) ∧
          (s.fld (brReg n 0x20) 31 31 = 1 → OneTok s t tc tk (s.tok tc tk + 1)))) ∧
    (s.brLive n = true → s.dev.stop.active = false → b.ret = none → s.fld aBowres 31 30 ≠ 3 →
      s.reach (s.stepBeat (s.fld (brReg n 0x24) 23 0)) = true →
      (b.grant = 0 → ∃ t, exec (.bridgeReturnStart n) s = .next t ∧ Only [.beat, .bridges] s t ∧
        OneBridge s t n { b with ret := some 0 }) ∧
      (∀ pa, b.grant ≠ 0 → gen ≠ 2 → s.undamaged →
        let va := s.redAddr (0x22C + 0x40 * n)
        let m := (s.ioVal (brReg n 0x28)).toNat
        1 ≤ m → m ≤ 4096 → s.figRange va m true false = .ok [(va, pa, m)] → allStage [(va, pa, m)] = true →
        ∃ t, exec (.bridgeReturnStart n) s = .next t ∧ Only [.beat, .bridges, .out] s t ∧
          sent t { b with ret := some m, grant := b.grant - 1 }
            (frameBytes 1 gen (s.ioVal (ioa 0xD0 0x100)).toNat 0 0 (s.fld aBowres 31 30) (s.rd pa m))))

/-! ### Memory banks and the hosts' accesses to memory -/

/-- Every byte of the range has the check bits of an ordinary write and lies in no disabled bank. -/
def ordinary (s : State) (a n : Nat) : Prop :=
  ∀ x, a ≤ x → x < a + n → Tab.get (fun _ => 0) s.xp (x / 8) = 0 ∧ s.disabled x = false

/-- A freed entry of a bank goes to the presented request that has waited longest, and an admitted store becomes visible
(R174, R187); a turn serves a promoted request, else an open-row hit, else the oldest, with the reads that merge with it
(R172, R173). A scrub, while it is enabled, finds and logs what the symbol code finds (R177, R178, R180, R181, R190). A
host reads and writes the ranges of its partition and the BOOT window (R339, R404) and reads BAR0 and BAR2 (R343, R350),
and the reset of its lanes changes its CXL functions alone (R336, R341). -/
def Obligations.BanksAndHostMemory : Prop :=
  ∀ s : State, s.Inv → s.dev.pwr.on = true →
    (∀ b : BankId,
      let n := bankNum b
      let k := s.bank n
      (∀ r, nextAdmitted k.waiting = some r → k.queue.length < bankCap n →
        ∃ t, exec (.bankAdmission b) s = .next t ∧ r ∈ k.waiting ∧ r.since.isSome = true ∧
          (∀ q ∈ k.waiting, q.sooner r = false) ∧
          (r.write = false → Only [.io, .banks, .harts] s t ∧
            OneBank s t n { k with queue := k.queue ++ [{ r with data := [], guard := none }], waiting := k.waiting.erase r }) ∧
          (∀ a bs, r.write = true → r.data = (bs.zipIdx.map fun x => (a + x.2, x.1)) → a % grain a = 0 →
            bs.length = grain a → (bankOf a).isSome = true → s.disabled a = false → s.refuses r.guardOf = false →
            r.poison = false → (∀ u, pageUnit r.page = some u → (s.hart u).cache = []) → Stored s t [(a, bs)])) ∧
      (bankCap n ≤ k.queue.length → exec (.bankAdmission b) s = .next s) ∧
      (k.queue ≠ [] → ∃ t i r, exec (.bankTurn b .clean) s = .next t ∧ Only [.banks] s t ∧ k.queue[i]? = some r ∧
        OneBank s t n (({ k with queue := turnLeaves (k.queue.zip (turnServes r i [] k.queue)),
                                 openRow := some r.row } : Bank).present s.dev.beat.time) ∧
        ((∃ q ∈ k.queue, q.promoted = true) → r.promoted = true) ∧
        (∀ j q, j < i → k.queue[j]? = some q → r.promoted = true → q.promoted = false) ∧
        ((∀ q ∈ k.queue, q.promoted = false) →
          ((∃ q ∈ k.queue, some q.row = k.openRow) → some r.row = k.openRow) ∧
          ((∀ q ∈ k.queue, some q.row ≠ k.openRow) → i = 0)))) ∧
    (∀ (addr : BitVec 44) n row page ch bk,
      let a := addr.toNat - addr.toNat % grain addr.toNat
      bankOf a = some (n, row, page, ch, bk) → (s.bank n).queue = [] → s.disabled a = false →
      exec (.scrub addr .clean) s = .next s ∧
      (s.fld (ioa page 0x100) 7 0 = 0 → ∀ e, exec (.scrub addr e) s = .next s) ∧
      (s.fld (ioa page 0x100) 7 0 ≠ 0 → ∀ sym : Fin 36,
        (∃ t, exec (.scrub addr (.corrected sym)) s = .next t ∧ Reported s t page .memCe ∧ t.mem = s.mem ∧ t.xp = s.xp ∧
          t.fld (ioa page 0x110) 31 0 = min (s.fld (ioa page 0x110) 31 0 + 1) (2 ^ 32 - 1) ∧
          (s.fld (ioa page 0x104) 31 31 = 0 → t.fld (ioa page 0x104) 31 30 = 2 ∧ t.fld (ioa page 0x104) 5 0 = sym.val ∧
            t.pair (ioa page 0x108) = a)) ∧
        ∃ t, exec (.scrub addr .uncorrectable) s = .next t ∧ Reported s t page .memUe ∧ t.mem = s.mem ∧
          t.fld (ioa page 0x114) 31 0 = min (s.fld (ioa page 0x114) 31 0 + 1) (2 ^ 32 - 1) ∧
          ∀ x, a ≤ x → x < a + grain a → t.poisoned x = true)) ∧
    (∀ (p : Fin 4) (dpa : Nat), s.present p = true → (s.part p).cxlUp = true →
      (∀ n,
        (∀ a, s.hdmAt p dpa n = some a → ordinary s a n → (s.bankWaits fun q => q.page = hpPage p) = false →
          ∃ t, exec (.cxlMemAccess p dpa (.read n)) s = .next t ∧ Only [.banks, .out] s t ∧
            t.dev.readData = s.rd a n ∧ t.dev.readPoison = false) ∧
        (s.hdmAt p dpa n = none → ∃ t, exec (.cxlMemAccess p dpa (.read n)) s = .next t ∧ Only [.out] s t ∧
          t.dev.readPoison = true) ∧
        (p.val = 0 → s.bootOpen = true → dpa + n ≤ bootSize → ordinary s (bootBase + dpa) n →
          ∃ t, exec (.cxlMemAccess p dpa (.bootRead n)) s = .next t ∧ Only [.out] s t ∧
            t.dev.readData = s.rd (bootBase + dpa) n) ∧
        (p.val ≠ 0 ∨ s.bootOpen = false → ∃ t, exec (.cxlMemAccess p dpa (.bootRead n)) s = .next t ∧ Only [.out] s t ∧
          t.dev.readData = List.replicate n 0) ∧
        (barAligned dpa n = false → ∃ t, exec (.cxlMemAccess p dpa (.bar0Read n)) s = .next t ∧ Only [.out] s t ∧
          t.dev.readData = [])) ∧
      (∀ r, fieldReg dpa r → ∃ t, exec (.cxlMemAccess p dpa (.bar0Read 4)) s = .next t ∧ Only [.out] s t ∧
        t.dev.readData = toBytes 4 (s.ioRead dpa)) ∧
      (∃ t, exec (.cxlMemAccess p 4 (.bar2Read 4)) s = .next t ∧ Only [.out] s t ∧
        t.dev.readData = toBytes 4 (s.mbstat p)) ∧
      ∀ bs : List Byte,
        (∀ a, s.hdmAt p dpa bs.length = some a → ordinary s a bs.length →
          (∀ x i, a ≤ x → x < a + bs.length → (bankOf x).map Prod.fst = some i → (s.bank i).waiting = [] ∧
            (s.bank i).queue.length + (pieces bs.length a bs.length).length ≤ 24) →
          ∃ t, exec (.cxlMemAccess p dpa (.write bs)) s = .next t ∧ Only [.mem, .xp, .banks] s t ∧ Stored s t [(a, bs)]) ∧
        (s.hdmAt p dpa bs.length = none → ∃ t, exec (.cxlMemAccess p dpa (.write bs)) s = .next t ∧
          Reported s t (hpPage p) .hostMemRange ∧ t.mem = s.mem) ∧
        (p.val = 0 → s.bootOpen = true → dpa + bs.length ≤ bootSize → ordinary s (bootBase + dpa) bs.length →
          ∃ t, exec (.cxlMemAccess p dpa (.bootWrite bs)) s = .next t ∧ Only [.mem, .xp] s t ∧
            Stored s t [(bootBase + dpa, bs)]) ∧
        (p.val ≠ 0 ∨ s.bootOpen = false → exec (.cxlMemAccess p dpa (.bootWrite bs)) s = .next s)) ∧
    ∀ p : Fin 4, s.present p = true →
      (∃ t, exec (.cxlLinkReset p) s = .next t ∧ Only [.mem, .xp, .parts] s t ∧
        OnePart s t p { s.part p with cxlUp := false } ∧
        ∀ x, x < 0x80 → t.rdByte (sram 0x10 p (0xF000 + x)) = 0) ∧
      ∃ t, exec (.cxlLinkUp p) s = .next t ∧ Only [.parts] s t ∧ (t.part p).cxlUp = true ∧
        (t.part p).msix = (s.part p).msix ++
          (bitsSet 8 (s.part p).pba.toNat).filter (fun v => !s.masked p v) ∧
        (∀ v, v < 8 → (t.part p).pba.getLsbD v = ((s.part p).pba.getLsbD v && s.masked p v)) ∧
        ∀ q, q ≠ p.val → t.part q = s.part q

/-! ### Registers and mailboxes -/

/-- A register takes a written value by its fields' classes: at once, or, where its block runs, its H fields at the next
COMMIT or job start (R3, R4, R344); a write that a host may not make is HOST_WPROT, and one to no page IO_UNMAPPED (R342,
R344). COMMIT applies the page's shadows (R4). -/
def Obligations.RegistersAreWrittenByClass : Prop :=
  ∀ (s : State) (g : Agent) (v : Reg32), s.Inv →
    (∀ (off : BitVec 24) (r : RegRow), fieldReg off.toNat r → writable s g off.toNat →
      let a := off.toNat
      let mh := r.mask .h
      let ml := r.mask .l
      (s.running (a / 0x1000) = false → ∃ t, exec (.registerWrite g off v) s = .next t ∧ Only [.io, .shadow] s t ∧
        Holds s t [(a, (s.ioVal a &&& ~~~(ml ||| mh)) ||| (v &&& (ml ||| mh)))] ∧
        (mh ≠ 0 → Tab.get (fun _ => 0) t.shadow a = 0) ∧
        ∀ b, b ≠ a → Tab.get (fun _ => 0) t.shadow b = Tab.get (fun _ => 0) s.shadow b) ∧
      (s.running (a / 0x1000) = true → ∃ t, exec (.registerWrite g off v) s = .next t ∧ Only [.io, .shadow] s t ∧
        Holds s t [(a, (s.ioVal a &&& ~~~ml) ||| (v &&& ml))] ∧
        (mh ≠ 0 → Tab.get (fun _ => 0) t.shadow a = (mh.setWidth 64 <<< 32) ||| ((v &&& mh).setWidth 64)) ∧
        ∀ b, b ≠ a → Tab.get (fun _ => 0) t.shadow b = Tab.get (fun _ => 0) s.shadow b)) ∧
    (∀ (off : BitVec 24) (p : Fin 4), g = .host p → s.barUp p = true → off.toNat % 4 = 0 →
      (pageKind (off.toNat / 0x1000)).isSome = true → s.mayWrite p (off.toNat / 0x1000) = false →
      ∃ t, exec (.registerWrite g off v) s = .next t ∧ Reported s t (off.toNat / 0x1000) .hostWprot ∧
        t.shadow = s.shadow ∧ t.mem = s.mem) ∧
    (∀ off : BitVec 24, s.dev.pwr.on = true → s.live g = true → off.toNat % 4 = 0 → pageKind (off.toNat / 0x1000) = none →
      ∃ t, exec (.registerWrite g off v) s = .next t ∧ Reported s t (agentPage g) .ioUnmapped ∧ t.shadow = s.shadow ∧
        t.mem = s.mem) ∧
    ∀ page : BitVec 12, (pageKind page.toNat).isSome = true → writable s g (ioa page.toNat 0x10) → page.toNat ≠ 0xC →
      (v.getLsbD 0 = true → s.running page.toNat = false →
        ∃ t, exec (.commit g page v) s = .next t ∧ Only [.io, .shadow] s t ∧
          (∀ x ∈ s.shadow, x.1 / 0x1000 = page.toNat →
            let m : Reg32 := (x.2 >>> 32).setWidth 32
            t.ioVal x.1 = (s.ioVal x.1 &&& ~~~m) ||| (x.2.setWidth 32 &&& m)) ∧
          (∀ x ∈ t.shadow, x.1 / 0x1000 ≠ page.toNat) ∧
          ∀ a, Tab.get (fun _ => 0) s.shadow a = 0 ∨ a / 0x1000 ≠ page.toNat → t.ioVal a = s.ioVal a) ∧
      (v.getLsbD 0 = false ∨ s.running page.toNat = true → exec (.commit g page v) s = .next s)

/-- DOORBELL, MBACK and writes to BAR2 follow the states of a slot (R350, R351); the checker's test mode acts
as R426 says; PMDATA reads the parameter memory and moves on (R262). -/
def Obligations.MailboxSlotsAndTestMode : Prop :=
  ∀ s : State, s.Inv →
    (∀ p : Fin 4, s.barUp p = true →
      (∀ v : Reg32,
        let sl := v.toNat % 4
        (s.mbSlot p sl = 0 → ∃ t, exec (.doorbell p v) s = .next t ∧ Only [.io, .parts, .icu] s t ∧ t.mbSlot p sl = 1 ∧
          (t.part p).order = (s.part p).order ++ [sl] ∧ (∀ k, k ≠ sl → t.mbSlot p k = s.mbSlot p k) ∧
          (bits (s.src (2 + p)) 13 10 ≠ 0 → t.dev.icu.pend.getLsbD (2 + p) = true)) ∧
        (s.mbSlot p sl ≠ 0 → ∃ t, exec (.doorbell p v) s = .next t ∧ Reported s t (hpPage p) .mbProtocol ∧
          (∀ k, t.mbSlot p k = s.mbSlot p k) ∧ (t.part p).order = (s.part p).order)) ∧
      (∀ v : Reg32, (∀ sl, sl < 4 → bitAt v.toNat sl = true → s.mbSlot p sl = 3) →
        Tab.wf (fun _ => 0) (s.part p).slots = true →
        ∃ t, exec (.mback p v) s = .next t ∧ Only [.parts] s t ∧
          ∀ sl, sl < 4 → t.mbSlot p sl = if bitAt v.toNat sl then 0 else s.mbSlot p sl) ∧
      (∀ (off : BitVec 19) (data : List Byte),
        let o := off.toNat
        let sl := o / 0x1000 - 1
        0x1000 ≤ o → o < 0x5000 → (data.length = 1 ∨ data.length = 2 ∨ data.length = 4 ∨ data.length = 8) →
        o % data.length = 0 → o % 0x1000 < 0xC00 →
        (s.mbSlot p sl = 0 → ordinary s (slotAddr p sl + o % 0x1000) data.length →
          ∃ t, exec (.mailboxSlotWrite p off data) s = .next t ∧ Only [.mem, .xp] s t ∧
            Stored s t [(slotAddr p sl + o % 0x1000, data)]) ∧
        (s.mbSlot p sl ≠ 0 → ∃ t, exec (.mailboxSlotWrite p off data) s = .next t ∧
          Reported s t (hpPage p) .mbProtocol ∧ t.mem = s.mem))) ∧
    (∀ g : Agent, s.dev.pwr.on = true → s.live g = true →
      let w := s.fld (upd 0x220) 21 2
      w * 4 < 0x319000 → s.undamaged →
        ∃ t, exec (.pmdata g) s = .next t ∧ Only [.io, .out] s t ∧
          t.dev.readData = toBytes 4 (s.rdNat (pm (w * 4)) 4) ∧ t.fld (upd 0x220) 21 2 = (w + 1) % 2 ^ 20) ∧
    ∀ (g : Agent) (v : Reg32), writable s g (ioa 0xE 0x1C0) →
      let m := bits v.toNat 29 24
      let u := bits v.toNat 23 18
      let b := bits v.toNat 17 0
      let k := xpAddr m u b / 8
      (s.job = false → b < xpBlocks m u →
        (∃ t, exec (.xptestWrite g v) s = .next t ∧ Only [.mem, .xp, .caps] s t ∧
          (m ≠ 0xA → t.blkData k = s.pair (ioa 0xE 0x1C4)) ∧ (t.chk k).vs = s.fld (ioa 0xE 0x1CC) 17 16 ∧
          (t.chk k).col = s.fld (ioa 0xE 0x1CC) 15 8 ∧ (t.chk k).row = s.fld (ioa 0xE 0x1CC) 7 0) ∧
        ∃ t, exec (.xptestRead g v) s = .next t ∧ Only [.io] s t ∧ t.pair (ioa 0xE 0x1C4) = s.blkData k ∧
          t.fld (ioa 0xE 0x1CC) 26 24 = s.blkClass k ∧ t.fld (ioa 0xE 0x1CC) 17 16 = (s.chk k).vs ∧
          t.fld (ioa 0xE 0x1CC) 15 8 = (s.chk k).col ∧ t.fld (ioa 0xE 0x1CC) 7 0 = (s.chk k).row) ∧
      (s.job = true ∨ xpBlocks m u ≤ b →
        ∃ t, exec (.xptestWrite g v) s = .next t ∧ Reported s t 0xE .hostWprot ∧ t.mem = s.mem ∧ t.xp = s.xp)

/-! ### Commands of the hosts -/

/-- The command in slot `sl` is next at partition `p`, has opcode `op` and passes orders 1 to 8 of R356 as far as they
do not depend on its arguments; its response area and journal entry have ordinary check bits. -/
def offered (s : State) (p sl op : Nat) : Prop :=
  let j := (s.ioVal (ioa (hpPage p) 0x118)).toNat
  s.dev.pwr.on = true ∧ sl < 4 ∧ s.nextCmd p = some sl ∧ s.opcode p sl = op ∧ s.headerOk p sl = true ∧
    (∃ r, cmdRow op = some r ∧ s.gateA p sl r = none ∧ s.gateB p sl r = none) ∧
    ordinary s (slotAddr p sl + 0xC00) 0x400 ∧ ordinary s (journalAddr p j) 64

/-- The response to a command: the slot is DONE, its response area and the journal hold the result, and HP.IRQ.MB is set
(R350, R351, R365, R366). -/
def answered (t : State) (p sl jseq result reason : Nat) : Prop :=
  t.mbSlot p sl = 3 ∧ (t.part p).active = none ∧ t.fld (ioa (hpPage p) 0x120) 0 0 = 1 ∧
    t.rdNat (slotAddr p sl + 0xC00) 2 = result ∧ t.rdNat (slotAddr p sl + 0xC02) 2 = reason ∧
    t.rdNat (slotAddr p sl + 0xC04) 4 = jseq % 2 ^ 32 ∧ t.rdNat (journalAddr p jseq + 14) 1 = result

/-- The next command has left the queue with its journal number, and a critical one has set CTR (R355, R366). -/
def dequeued (s t : State) (p sl op : Nat) : Prop :=
  (t.part p).order = (s.part p).order.drop 1 ∧
    t.ioVal (ioa (hpPage p) 0x118) = s.ioVal (ioa (hpPage p) 0x118) + 1 ∧
    ∀ r, cmdRow op = some r → t.ctr p = if r.crit then s.reqNat p sl 8 8 else s.ctr p

/-- A command ended at once with this result and reason. -/
def ended (s t : State) (p sl op result reason : Nat) : Prop :=
  answered t p sl (s.ioVal (ioa (hpPage p) 0x118)).toNat result reason ∧ dequeued s t p sl op

/-- A command is ACTIVE with result ACCEPTED (R351). -/
def accepted (s t : State) (p sl op : Nat) : Prop :=
  t.mbSlot p sl = 2 ∧ t.rdNat (slotAddr p sl + 0xC00) 2 = rAccepted ∧
    (t.part p).active = some { slot := sl, opcode := op, jseq := (s.ioVal (ioa (hpPage p) 0x118)).toNat, abeat := s.beat }

/-- The commands of R357 take effect and end with their result, where their checks pass, and are turned away with the
reason of the check that fails: NOP and STATUS (R357), ATTEST (R413), JOB_LOAD (R358), JOB_START (R361), JOB_ABORT
(R362), RESET_PARTITION (R363), PARTITION_ASSIGN (R338), SET_COORDINATE (R278), LINK_ENABLE and LINK_PERSONALITY (R274,
R275, R363), KEY_INSTALL (R415), DEBUG_UNLOCK (R451), FUSE_PROGRAM (R416), FREEZE and THAW (R442). The checks of
signatures are the functions of Config that log entry 14 names. -/
def Obligations.HostCommandsAreExecuted : Prop :=
  ∀ (s : State) (p : Fin 4) (sl : Nat), s.Inv →
    let arg := s.arg p sl
    let cmd : Cmd := { p := p, sl := sl, jseq := (s.ioVal (ioa (hpPage p) 0x118)).toNat, abeat := s.beat.toNat }
    (offered s p sl 0x0001 → ∃ t, exec (.mailboxNop p) s = .next t ∧ Only [.mem, .xp, .io, .parts] s t ∧
      ended s t p sl 0x0001 rOk 0) ∧
    (offered s p sl 0x0002 → ∃ t, exec (.status p) s = .next t ∧ Only [.mem, .xp, .io, .parts] s t ∧
      ended s t p sl 0x0002 rOk 0 ∧ t.rd (slotAddr p sl + 0xC20) 20 = toBytes 4 (s.ioVal aState).toNat ++
        toBytes 4 (s.ioVal aFig).toNat ++ toBytes 4 s.bstat.toNat ++ toBytes 8 (s.ctr p)) ∧
    (s.dev.pwr.on = true → s.nextCmd p = some sl → cmdRow (s.opcode p sl) = none → sl < 4 →
      ordinary s (slotAddr p sl + 0xC00) 0x400 → ordinary s (journalAddr p cmd.jseq) 64 →
      ∃ t, exec (.badOpcode p) s = .next t ∧ Only [.mem, .xp, .io, .parts] s t ∧
        ended s t p sl (s.opcode p sl) rRejected 1) ∧
    (offered s p sl 0x0010 → arg 32 8 % 64 = 0 → arg 40 8 = 0 → arg 32 8 + reportLen ≤ s.hwBytes p →
      ∃ t, exec (.attest p) s = .next t ∧ Only [.mem, .xp, .io, .parts] s t ∧ accepted s t p sl 0x0010) ∧
    (offered s p sl 0x0101 → arg 0 8 % 4096 = 0 → 1 ≤ arg 8 8 → arg 8 8 ≤ 2 ^ 30 →
      (s.job = true → ∃ t, exec (.jobLoad p) s = .next t ∧ ended s t p sl 0x0101 rRejected 0x10 ∧ t.dev.job = s.dev.job) ∧
      (s.job = false → s.loaded = false → s.fld aFig 30 30 = 0 →
        ∃ t, exec (.jobLoad p) s = .next t ∧ Only [.mem, .xp, .io, .parts, .job] s t ∧ accepted s t p sl 0x0101 ∧
          t.fld aFig 30 30 = 1 ∧ t.owner = p ∧ t.dev.job.fetching = some (arg 0 8, arg 8 8) ∧
          t.dev.job.wantDigest = s.req p sl 0x50 32)) ∧
    (offered s p sl 0x0102 → arg 6 2 = 0 →
      (s.startRefused cmd (arg 0 6) = none → ∃ t, exec (.jobStart p) s = .next t ∧
        Only [.mem, .xp, .io, .parts, .job, .stop] s t ∧ ended s t p sl 0x0102 rOk 0 ∧ t.job = true ∧
        t.dev.job.pending = some (BitVec.ofNat 48 (arg 0 6)) ∧ t.dev.stop.active = false ∧ t.dev.stop.due = none) ∧
      ∀ w, s.startRefused cmd (arg 0 6) = some w → ∃ t, exec (.jobStart p) s = .next t ∧
        Only [.mem, .xp, .io, .parts] s t ∧ ended s t p sl 0x0102 rRejected w ∧ t.job = s.job) ∧
    (offered s p sl 0x0103 → s.loaded = true → s.owner = p → s.fld aFig 30 30 = 0 → s.job = false →
      (∀ l, l < 48 → (s.link l).idrec = none) →
      ∃ t, exec (.jobAbort p) s = .next t ∧ Only [.mem, .xp, .io, .parts, .bridges, .stop] s t ∧
        ended s t p sl 0x0103 rOk 0 ∧
        t.loaded = false ∧ t.fingerprint = 0 ∧ t.dev.stop.active = false ∧
        (s.devState ≠ 1 → s.devState ≠ 6 → t.devState = 2) ∧ (∀ n, (t.bridge n).stopping = true → 8 ≤ n) ∧
        (∀ x, x < 0x301000 → t.rdByte (pm x) = 0) ∧ ∀ x, 0x301000 ≤ x → x < 0x319000 → t.rdByte (pm x) = s.rdByte (pm x)) ∧
    (∀ q, offered s p sl 0x0110 → arg 0 1 = q → arg 1 7 = 0 → q < 4 → s.present q = true → q ≠ p.val →
      ¬(s.job = true ∧ s.owner = q) → ¬(s.loaded = true ∧ s.owner = q) → (s.part q).order.length ≤ 4 →
      ∃ t, exec (.resetPartition p) s = .next t ∧ ended s t p sl 0x0110 rOk 0 ∧
        (∀ o ∈ [0x104, 0x108, 0x10C, 0x120, 0x124], t.ioVal (ioa (hpPage q) o) = 0) ∧ (t.part q).order = [] ∧
        ∀ k ∈ (s.part q).order, t.mbSlot q k = 3) ∧
    (offered s p sl 0x0111 →
      let a := s.req p sl 0x40 96
      layoutZero a = true → s.layoutOk a = true → s.job = false →
      ∃ t, exec (.partitionAssign p) s = .next t ∧ Only [.mem, .xp, .io, .parts] s t ∧ ended s t p sl 0x0111 rOk 0 ∧
        ∀ q, q < 4 → t.fld (ioa (hpPage q) 0x100) 3 0 = layoutRights a q ∧
          ∀ i, i < 4 → t.fld (ioa (hpPage q) (0x130 + 8 * i)) 13 0 = layoutBase a q i ∧
            t.fld (ioa (hpPage q) (0x134 + 8 * i)) 13 0 = layoutSize a q i) ∧
    (offered s p sl 0x0120 → arg 0 4 < 2 ^ 20 → arg 7 1 = 0 →
      (s.loaded = true → ∃ t, exec (.setCoordinate p) s = .next t ∧ ended s t p sl 0x0120 rRejected 0x20 ∧
        t.ioVal aCoord = s.ioVal aCoord) ∧
      (s.loaded = false → bits (arg 0 4) 19 13 < arg 4 1 → bits (arg 0 4) 12 6 < arg 5 1 → bits (arg 0 4) 5 0 < arg 6 1 →
        arg 4 1 ≤ 128 → arg 5 1 ≤ 128 → arg 6 1 ≤ 64 → (∀ l, l < 48 → (s.link l).idrec = none) →
        ∃ t, exec (.setCoordinate p) s = .next t ∧ Only [.mem, .xp, .io, .parts] s t ∧ ended s t p sl 0x0120 rOk 0 ∧
          t.coordWord = arg 0 4 ∧ t.size 0 = arg 4 1 ∧ t.size 1 = arg 5 1 ∧ t.size 2 = arg 6 1)) ∧
    (offered s p sl 0x0121 →
      let set := arg 0 8
      let clr := arg 8 8
      set < 2 ^ 48 → clr < 2 ^ 48 → Nat.land set clr = 0 →
      (∀ l, l < 48 → (bitAt set l = true ∨ bitAt clr l = true) → s.inLinkset l = false) →
      (∀ l, l < 48 → bitAt set l = true → s.size (linkDim l) ≠ 1) →
      ∃ t, exec (.linkEnable p) s = .next t ∧ Only [.mem, .xp, .io, .parts, .links] s t ∧ ended s t p sl 0x0121 rOk 0 ∧
        ∀ l, l < 48 → (bitAt set l = true → (t.link l).st = 1) ∧ (bitAt clr l = true → (t.link l).st = 0) ∧
          (bitAt set l = false → bitAt clr l = false → t.link l = s.link l)) ∧
    (offered s p sl 0x0122 → arg 0 1 < 48 → arg 1 1 < 3 → arg 2 6 = 0 →
      ((s.link (arg 0 1)).st ≠ 0 → ∃ t, exec (.linkPersonality p) s = .next t ∧
        ended s t p sl 0x0122 rRejected 0x24 ∧ t.dev.links = s.dev.links) ∧
      ((s.link (arg 0 1)).st = 0 → ((range 0 48).filter fun k => k ≠ arg 0 1 && (s.link k).pers ≠ 0).length < 8 →
        ∃ t, exec (.linkPersonality p) s = .next t ∧ Only [.mem, .xp, .io, .parts, .links] s t ∧
          ended s t p sl 0x0122 rOk 0 ∧ OneLink s t (arg 0 1) { s.link (arg 0 1) with pers := arg 1 1 })) ∧
    (∀ r, s.dev.pwr.on = true → s.nextCmd p = some sl → sl < 4 → s.opcode p sl = 0x0130 → cmdRow 0x0130 = some r →
      s.gateA p sl r = none → ordinary s (slotAddr p sl + 0xC00) 0x400 → ordinary s (journalAddr p cmd.jseq) 64 →
      ∃ t, exec (.keyInstall p) s = .next t ∧ Only [.mem, .xp, .io, .parts] s t ∧ accepted s t p sl 0x0130) ∧
    (offered s p sl 0x0131 → arg 0 1 < 8 → arg 1 7 = 0 → bitAt s.options 16 = false →
      ∃ t, exec (.debugUnlock p) s = .next t ∧ Only [.mem, .xp, .io, .parts, .recd] s t ∧ ended s t p sl 0x0131 rOk 0 ∧
        t.fld (ioa 0x10 0x100) 31 29 = arg 0 1 ∧ ∃ o, o.page = 0x10 ∧ o.code = 0x85 ∧
          t.dev.recd.offers = s.dev.recd.offers ++ [o]) ∧
    (offered s p sl 0x0132 → arg 2 6 = 0 → arg 56 8 = 0 → arg 48 8 % 64 = 0 →
      (arg 0 1 = 1 ∨ arg 0 1 = 2 ∨ arg 1 1 = 0) → (arg 0 1 = 3 ∨ arg 0 1 = 4 ∨ arg 8 8 = 0) →
      (arg 0 1 = 1 ∨ arg 16 32 = 0) →
      (s.fuseRefused p sl = none → ∃ t, exec (.fuseProgram p) s = .next t ∧ Only [.mem, .xp, .io, .parts] s t ∧
        accepted s t p sl 0x0132) ∧
      ∀ w, s.fuseRefused p sl = some w → ∃ t, exec (.fuseProgram p) s = .next t ∧ Only [.mem, .xp, .io, .parts] s t ∧
        ended s t p sl 0x0132 rRejected w) ∧
    (offered s p sl 0x0140 → ∃ t, exec (.freeze p) s = .next t ∧ Only [.mem, .xp, .io, .parts] s t ∧
      ended s t p sl 0x0140 rOk 0 ∧ t.recFrozen = true) ∧
    (offered s p sl 0x0141 → s.recFrozen = true → s.dev.recd.heldEnd = 0 → s.undamaged →
      ∃ t, exec (.thaw p) s = .next t ∧ ended s t p sl 0x0141 rOk 0 ∧ t.recFrozen = false ∧
        t.ioVal (ioa 0xF 0x108) = s.ioVal (ioa 0xF 0x108) + 1) ∧
    (∀ a : Active, s.dev.pwr.on = true → (s.part p).active = some a → a.slot < 4 →
      ordinary s (slotAddr p a.slot + 0xC00) 0x400 → ordinary s (journalAddr p a.jseq) 64 →
      (a.opcode = 0x0010 →
        let dest := s.arg p a.slot 32 8
        (s.hostOk p dest reportLen = true → ordinary s (hostWin p dest) reportLen →
          ∃ t, exec (.attestDone p) s = .next t ∧ Only [.mem, .xp, .io, .parts] s t ∧ answered t p a.slot a.jseq rOk 0 ∧
            t.rd (hostWin p dest) 8 = ascii "QZATTEST" ∧ t.rd (hostWin p dest + 16) 8 = s.uidBytes) ∧
        (s.hostOk p dest reportLen = false → ∃ t, exec (.attestDone p) s = .next t ∧
          Only [.mem, .xp, .io, .parts] s t ∧ answered t p a.slot a.jseq rFailed 0x32)) ∧
      (∀ va n ps, a.opcode = 0x0101 → s.dev.job.fetching = some (va, n) → s.figRange va n true false = .ok ps →
        s.undamaged → (∀ x ∈ ps, s.poisonIn x.2.1 x.2.2 = none) →
        let b := ps.flatMap fun x => s.rd x.2.1 x.2.2
        let ss := figServing b s.dev.job.coord
        (shake256 b 32 ≠ s.dev.job.wantDigest → ∃ t, exec (.figureFetchDone p) s = .next t ∧
          Only [.mem, .xp, .io, .parts, .job] s t ∧ answered t p a.slot a.jseq rFailed 0x19 ∧ t.fld aFig 30 30 = 0 ∧
          t.loaded = s.loaded ∧ t.dev.job.fetching = none) ∧
        (shake256 b 32 = s.dev.job.wantDigest → figOk b (s.fld aTsize 19 0) s.dev.job.coord = true → updOk ss = true →
          (preloads ss).all s.preloadOk = true →
          ∃ t, exec (.figureFetchDone p) s = .next t ∧ t.mbSlot p a.slot = 3 ∧ (t.part p).active = none ∧
            t.fld aFig 30 30 = 0 ∧ t.loaded = true ∧ t.fingerprint = ofBytes ((shake256 b 32).take 8) ∧
            t.dev.job.linkset = BitVec.ofNat 48 (bytesAt b 32 8) ∧ t.dev.job.fetching = none)) ∧
      (a.opcode = 0x0130 →
        let addr := s.arg p a.slot 0 8
        let b := s.rd (hostWin p addr) blobLen
        (s.hostOk p addr blobLen = false → ∃ t, exec (.keyInstallDone p) s = .next t ∧
          Only [.mem, .xp, .io, .parts] s t ∧ answered t p a.slot a.jseq rRejected 0x32 ∧
          (t.part p).key = (s.part p).key) ∧
        (s.hostOk p addr blobLen = true → s.blobRefused p a.slot b = none → s.ctr p < s.reqNat p a.slot 8 8 →
          s.headerOk p a.slot = true → addr % 64 = 0 → s.arg p a.slot 40 8 = 0 →
          ∃ t, exec (.keyInstallDone p) s = .next t ∧ Only [.mem, .xp, .io, .parts] s t ∧
            answered t p a.slot a.jseq rOk 0 ∧ (t.part p).key = some (s.blobKey p b) ∧
            t.fld (ioa (hpPage p) 0x11C) 0 0 = 1 ∧ t.ctr p = s.reqNat p a.slot 8 8)) ∧
      (a.opcode = 0x0132 →
        (∃ t, exec (.fuseProgramDone p true) s = .next t ∧ Only [.mem, .xp, .io, .parts, .fuses] s t ∧
          answered t p a.slot a.jseq rOk 0 ∧ t.dev.fuses = s.dev.fuses.program (s.arg p a.slot 0 1) (s.arg p a.slot 1 1)
            (s.arg p a.slot 8 8) (s.req p a.slot 0x50 32) ∧
          (s.arg p a.slot 0 1 = 3 → t.dev.fuses.svn = s.arg p a.slot 8 8)) ∧
        ∃ t, exec (.fuseProgramDone p false) s = .next t ∧ Only [.mem, .xp, .io, .parts, .fuses, .free] s t ∧
          answered t p a.slot a.jseq rFailed 0x37 ∧ t.dev.fuses.svn = s.dev.fuses.svn))

/-! ### Power, reset and boot -/

/-- Every register, scalar register, token, capability and per-unit or per-link state is at its reset value (R401). -/
def resetAll (t : State) : Prop :=
  (∀ a, t.ioVal a = ioReset a) ∧ t.shadow = [] ∧ t.caps = [] ∧ (∀ u r, u < 176 → t.reg u r = 0) ∧
    (∀ u i, u < 176 → i < 64 → t.tok u i = 0) ∧ (∀ l, t.link l = {}) ∧ (∀ p, t.part p = {}) ∧ (∀ b, t.bank b = {}) ∧
    (∀ u, t.hart u = {}) ∧ t.dev.job = {} ∧ t.dev.stop = {} ∧ t.dev.recd = {}

/-- The rails are down and nothing of the device but its fuses stays (R398-R400); `lock` says that the input must first
fall below 40 V. -/
def unpowered (s t : State) (lock : Bool) : Prop :=
  resetAll t ∧ t.dev.pwr.on = false ∧ t.dev.pwr.rising = false ∧ t.dev.pwr.lockout = lock ∧ t.dev.fuses = s.dev.fuses ∧
    ∀ x, x < 0x40000000000 → t.rdByte x = 0

/-- The input's thresholds start the rails, report, or remove every rail (R399, R400); PWR_OK, a write of DEVRST's key
and the end of a STOP that it waits for reset the device (R401); fuse load gives UID, NONCE, M0 and PHASE WAIT, or
FUSE_LOAD (R402-R404, R407); a PWR sample sets TJ, IIN and TWARN and trips (R411); BOOT.GO, BUNDLE_VERIFY and the end of
DRAM training act as R405, R407 and R408 say, up to the Caller cores' start. -/
def Obligations.PowerAndBoot : Prop :=
  ∀ s : State, s.Inv →
    (s.dev.pwr.on = false → s.dev.pwr.lockout = false →
      ∃ t, exec .inputRise s = .next t ∧ Only [.pwr] s t ∧ t.dev.pwr = { s.dev.pwr with rising := true }) ∧
    (s.dev.pwr.on = true ∨ s.dev.pwr.lockout = true → exec .inputRise s = .next s) ∧
    (∀ mv : BitVec 16,
      let v := mv.toNat
      (s.dev.pwr.on = true → (40000 ≤ v ∧ v < 46000 ∨ 56000 < v ∧ v ≤ 58000) →
        ∃ t, exec (.inputRange mv) s = .next t ∧ Reported s t 0xB .inputRange ∧ (t.ioVal (pwr 0x104)).toNat = v ∧
          t.fld (pwr 0x114) 29 29 = 1) ∧
      (46000 ≤ v → v ≤ 56000 → exec (.inputRange mv) s = .next s) ∧
      (v < 40000 ∨ 58000 < v →
        (s.dev.pwr.on = true → ∃ t, exec (.inputLoss mv) s = .next t ∧ unpowered s t (!decide (v < 40000))) ∧
        (s.dev.pwr.on = false → ∃ t, exec (.inputLoss mv) s = .next t ∧ Only [.pwr] s t ∧
          t.dev.pwr = { s.dev.pwr with rising := false, lockout := s.dev.pwr.lockout && !decide (v < 40000) })) ∧
      (40000 ≤ v → v ≤ 58000 → exec (.inputLoss mv) s = .next s)) ∧
    (s.dev.pwr.on = true → ∃ t, exec .railFault s = .next t ∧ unpowered s t true) ∧
    (∀ strap : BitVec 2,
      (s.dev.pwr.rising = true → s.dev.pwr.on = false →
        ∃ t, exec (.pwrOk strap) s = .next t ∧ resetAll t ∧ t.devState = 1 ∧ t.dev.fuses = s.dev.fuses ∧
          t.dev.pwr = { on := true, lockout := s.dev.pwr.lockout, strap := strap, boots := s.dev.pwr.boots + 1 } ∧
          ∀ x, 0x40000000000 ≤ x → x < 2 ^ 48 → t.rdByte x = s.rdByte x) ∧
      (s.dev.pwr.rising = false ∨ s.dev.pwr.on = true → exec (.pwrOk strap) s = .next s)) ∧
    (∀ (g : Agent) (v : Reg32), writable s g (pwr 0x118) →
      (v = 0x52530001 → s.job = false → ∃ t, exec (.devrst g v) s = .next t ∧ resetAll t ∧ t.devState = 1 ∧
        t.dev.pwr.on = true ∧ t.dev.pwr.strap = s.dev.pwr.strap ∧ t.dev.fuses = s.dev.fuses) ∧
      (v = 0x52530001 → s.job = true → ∃ t, exec (.devrst g v) s = .next t ∧ Reported s t 0xB .devReset ∧
        t.dev.stop.resetAfter = true) ∧
      (v ≠ 0x52530001 → exec (.devrst g v) s = .next s)) ∧
    (s.dev.pwr.on = true → s.dev.stop.resetAfter = true → s.job = false →
      ∃ t, exec .deviceResetAfterStop s = .next t ∧ resetAll t ∧ t.devState = 1 ∧ t.dev.fuses = s.dev.fuses ∧
        s.dev.stop.since + 55000 ≤ t.dev.beat.time) ∧
    (s.dev.pwr.on = true → s.fld (ioa 0xA 0x100) 31 31 = 0 →
      (s.dev.fuses.damaged = true → ∃ t, exec .fuseLoad s = .next t ∧ Reported s t 0xA .fuseLoad ∧
        t.fld (ioa 0xA 0x100) 30 30 = 1 ∧ t.devState = 6 ∧ t.pair 0x110 = s.pair 0x110 ∧ t.bootPhase = s.bootPhase) ∧
      (s.dev.fuses.damaged = false → ∃ t, exec .fuseLoad s = .next t ∧ Only [.io] s t ∧
        t.fld (ioa 0xA 0x100) 31 30 = 2 ∧ t.pair 0x110 = s.dev.fuses.uid.toNat ∧
        t.pair 0x118 = (Config.nonce s.dev.pwr.boots).toNat ∧ t.bootPhase = 1 ∧ t.fld (ioa 9 0x100) 31 31 = 1 ∧
        t.measure 0 = shake256 (s.measure 0 ++ Config.romDigest) 64)) ∧
    (∀ (tj : BitVec 12) (iin : BitVec 16), s.dev.pwr.on = true →
      let q := tj.toNat
      let above := 4 * min (s.fld (pwr 0x110) 31 24) 110 < q
      let oc := 500 * min (s.fld (pwr 0x110) 15 8) 0x58 < iin.toNat
      (q ≤ 472 → ∃ t, exec (.pwrSample tj iin) s = .next t ∧ t.ioVal (pwr 0x10C) = BitVec.ofNat 32 q ∧
        t.ioVal (pwr 0x108) = BitVec.ofNat 32 iin.toNat ∧ t.dev.pwr = { s.dev.pwr with hot := if above then 1 else 0 } ∧
        t.fld (pwr 0x100) 30 30 = (if 4 * s.fld (pwr 0x110) 23 16 < q then 1 else 0) ∧
        (¬oc → ¬(above ∧ 1 ≤ s.dev.pwr.hot) → Only [.io, .parts, .icu, .pwr] s t ∧
          t.ioVal (pwr 0x114) = s.ioVal (pwr 0x114)) ∧
        (¬oc → above → 1 ≤ s.dev.pwr.hot → Reported s t 0xB .tjTrip ∧ t.fld (pwr 0x114) 31 31 = 1) ∧
        (oc → ¬(above ∧ 1 ≤ s.dev.pwr.hot) → Reported s t 0xB .overcurrent ∧ t.fld (pwr 0x114) 30 30 = 1)) ∧
      (472 < q → ∃ t, exec (.pwrSample tj iin) s = .next t ∧ unpowered s t true)) ∧
    (∀ (g : Agent) (v : Reg32), writable s g (ioa 8 0x104) →
      (s.bootOpen = true → 1 ≤ v.toNat → v.toNat ≤ bootSize →
        ∃ t, exec (.bootGo g v) s = .next t ∧ Only [.io, .pwr] s t ∧ t.bootPhase = 2 ∧
          t.dev.pwr = { s.dev.pwr with bootLen := v.toNat } ∧
          ∀ i, 2 ≤ i → i < 8 → t.measure i = List.replicate 64 0) ∧
      (s.bootOpen = false ∨ v.toNat = 0 ∨ bootSize < v.toNat →
        ∃ t, exec (.bootGo g v) s = .next t ∧ Reported s t 8 .bootProtocol ∧ t.bootPhase = s.bootPhase)) ∧
    (s.dev.pwr.on = true → s.bootPhase = 2 →
      let b := s.bundle
      let pk := (b.drop 32).take 64
      let n := b.length - bootSigLen
      let ok1 := bundleFormatOk b = true
      let ok2 := ok1 ∧ shake256 pk 32 = fit 32 s.dev.fuses.vhash
      let ok3 := ok2 ∧ Config.slhVerify256s pk (ascii "QZG1-BUNDLE") (b.take n) (b.drop n) = true
      let ok4 := ok3 ∧ s.dev.fuses.svn ≤ bytesAt b 16 8
      let ok5 := ok4 ∧ bundleSecsOk (bootSecs b) = true
      ∃ t, exec .bundleVerify s = .next t ∧ Only [.io] s t ∧
        (¬ok5 → t.bootPhase = 6 ∧ ∀ i, t.measure i = s.measure i) ∧
        (¬ok1 → t.fld (ioa 8 0x100) 27 24 = 1) ∧ (ok1 → ¬ok2 → t.fld (ioa 8 0x100) 27 24 = 2) ∧
        (ok2 → ¬ok3 → t.fld (ioa 8 0x100) 27 24 = 3) ∧ (ok3 → ¬ok4 → t.fld (ioa 8 0x100) 27 24 = 4) ∧
        (ok4 → ¬ok5 → t.fld (ioa 8 0x100) 27 24 = 5) ∧
        (ok5 → t.bootPhase = 3 ∧ t.measure 2 = shake256 (s.measure 2 ++ b.take (256 + 16 * bytesAt b 24 4)) 64)) ∧
    (s.dev.pwr.on = true → s.bootPhase = 3 →
      (∀ (k : Fin 16) f, ∃ t, exec (.dramTrainingDone (some k) f) s = .next t ∧ Only [.io] s t ∧ t.bootPhase = 6 ∧
        t.fld (ioa 8 0x100) 27 24 = 6 ∧ t.fld (ioa 8 0x100) 23 16 = k.val) ∧
      (∀ k : Fin 16, ∃ t, exec (.dramTrainingDone none (some k)) s = .next t ∧ Only [.io] s t ∧ t.bootPhase = 6 ∧
        t.fld (ioa 8 0x100) 27 24 = 7 ∧ t.fld (ioa 8 0x100) 23 16 = k.val) ∧
      (bootRecords (bootSecs s.bundle) = [] → bootSec (bootSecs s.bundle) 8 0 = [] →
        ∃ t, exec (.dramTrainingDone none none) s = .next t ∧ Only [.mem, .xp, .io, .shadow, .caps, .harts] s t ∧
          t.bootPhase = 5 ∧ t.fld (ioa (hpPage 0) 0x100) 3 0 = 0xF ∧ (s.devState ≠ 6 → t.devState = 2) ∧
          ∀ n, n < 4 → (t.hart (64 + n)).run = true ∧
            (t.hart (64 + n)).pc.toNat = bytesAt (bootSec (bootSecs s.bundle) 5 n) 0 4 % pmSize (64 + n)))

/-! ### The recorders -/

/-- Outside the `n` bytes at `a`, every byte of memory reads as before. -/
def wroteRecord (s t : State) (a n : Nat) : Prop := ∀ x, (x < a ∨ a + n ≤ x) → t.rdByte x = s.rdByte x

/-- A record that its bucket admits is written with header, CRC and SEQ to the on-die ring, or to the holding buffer
while frozen, and one without a token is counted (R438-R440, R442); SPILL copies the oldest unspilled record (R441); a
measure edge refills the buckets (R440). Posts offer their payload or are REC_BADCODE (R439), RDDATA, SPRDDATA and
SNPDATA return their words and move on (R437, R443), and a trigger gives one snapshot record (R436, R437). What SPRDDATA
returns behind the spill ring is a free value (log entry 3). -/
def Obligations.RecordsAreKept : Prop :=
  ∀ s : State, s.Inv →
    (∀ (o : Offer) os, s.dev.pwr.on = true → s.dev.recd.offers = o :: os → o.poster = none →
      let n := o.code % 256
      let burst := s.fld (ioa 0xF (0x400 + 4 * n)) 15 8
      let spent := Tab.get (fun _ => 0) s.dev.recd.spent n
      let pay := o.payload ++ List.replicate ((8 - o.payload.length % 8) % 8) 0
      let len := 16 + pay.length
      let admitted := burst = 0 ∨ spent < burst ∨ (1 ≤ o.code ∧ o.code ≤ 0x7F ∧ 2 ≤ o.sev)
      let written (t : State) (a : Nat) : Prop :=
        Only [.mem, .xp, .io, .recd] s t ∧ t.dev.recd.offers = os ∧
          t.ioVal (ioa 0xF 0x108) = s.ioVal (ioa 0xF 0x108) + 1 ∧
          t.rd a 12 = toBytes 2 o.code ++ toBytes 2 len ++ toBytes 6 s.beat.toNat ++
            toBytes 2 (s.ioVal (ioa 0xF 0x108)).toNat ∧
          t.rdNat (a + 12) 4 = (crc32c (t.rd a 12 ++ [0, 0, 0, 0] ++ pay)).toNat ∧ t.rd (a + 16) pay.length = pay ∧
          wroteRecord s t a len
      (admitted → len ≤ 1024 → Tab.get (fun _ => 0) s.dev.recd.supp n = 0 →
        (let off := s.fld (ioa 0xF 0x10C) 19 0
         s.recFrozen = false → off % 8 = 0 → off + len ≤ ringSize → s.dev.recd.unspilled = [] →
          ∃ t, exec .recordAdmission s = .next t ∧ written t (ringBase + off) ∧
            t.fld (ioa 0xF 0x10C) 19 0 = (off + len) % ringSize ∧
            t.dev.recd.unspilled = if s.fld (ioa 0xF 0x100) 0 0 = 1 then [(off, len)] else []) ∧
        (let e := s.dev.recd.heldEnd
         s.recFrozen = true → e % 8 = 0 →
          (e + len ≤ 16384 → ∃ t, exec .recordAdmission s = .next t ∧ written t (holdBase + e) ∧
            t.dev.recd.heldEnd = e + len ∧ t.fld (ioa 0xF 0x124) 14 0 = e + len ∧
            t.ioVal (ioa 0xF 0x10C) = s.ioVal (ioa 0xF 0x10C)) ∧
          (16384 < e + len → ∃ t, exec .recordAdmission s = .next t ∧ Only [.io, .parts, .recd] s t ∧
            t.dev.recd.heldEnd = e ∧ t.fld (ioa 0xF 0x104) 30 30 = 1 ∧
            t.fld (ioa 0xF 0x124) 31 16 = min (s.fld (ioa 0xF 0x124) 31 16 + 1) (2 ^ 16 - 1)))) ∧
      (¬admitted → ∃ t, exec .recordAdmission s = .next t ∧ Only [.recd] s t ∧ t.dev.recd.offers = os ∧
        Tab.get (fun _ => 0) t.dev.recd.supp n = min (Tab.get (fun _ => 0) s.dev.recd.supp n + 1) 0xFFFFFFFF ∧
        ∀ m, m ≠ n → Tab.get (fun _ => 0) t.dev.recd.supp m = Tab.get (fun _ => 0) s.dev.recd.supp m)) ∧
    (∀ off n rest, s.dev.pwr.on = true → s.dev.recd.unspilled = (off, n) :: rest →
      let sp := s.fld (ioa 0xF 0x110) 23 0
      (s.fld (ioa 0xF 0x100) 0 0 = 0 → exec .spill s = .next s) ∧
      (s.fld (ioa 0xF 0x100) 0 0 = 1 → sp + n ≤ spillSize → s.undamaged → ordinary s (spillBase + sp) n →
        ∃ t, exec .spill s = .next t ∧ Only [.mem, .xp, .io, .recd] s t ∧
          Stored s t [(spillBase + sp, s.rd (ringBase + off) n)] ∧ t.dev.recd.unspilled = rest ∧
          t.fld (ioa 0xF 0x110) 23 0 = (sp + n) % spillSize)) ∧
    (s.dev.pwr.on = true → s.dev.beat.sub < beatLen → Tab.wf (fun _ => 0) s.dev.recd.spent = true →
      ∃ t, exec .rateLimitRefill s = .next t ∧ Only [.beat, .recd] s t ∧
        t.beat = BitVec.ofNat 48 ((s.beat.toNat / 1024 + 1) * 1024) ∧
        ∀ n, Tab.get (fun _ => 0) t.dev.recd.spent n =
          Tab.get (fun _ => 0) s.dev.recd.spent n - s.fld (ioa 0xF (0x400 + 4 * n)) 7 0) ∧
    (∀ (g : Agent) (c : Fin 64) (v : Reg32), writable s g (ioa (corePage c) 0x154) →
      let code := bits v.toNat 30 16
      let len := bits v.toNat 10 0
      let off := s.fld (ioa (corePage c) 0x150) 20 3 * 8
      let bad := code < 0xF0 ∨ 0xFF < code ∨ len % 8 ≠ 0 ∨ 1008 < len ∨ 0x200000 < off + len
      ((s.hart c).posting = true → exec (.recpost g c v) s = .next s) ∧
      ((s.hart c).posting = false → bad → ∃ t, exec (.recpost g c v) s = .next t ∧
        Reported s t (corePage c) .recBadcode ∧ t.mem = s.mem) ∧
      ((s.hart c).posting = false → ¬bad → s.undamaged → ∃ t, exec (.recpost g c v) s = .next t ∧
        Only [.harts, .recd] s t ∧ OneHart s t c { s.hart c with posting := true } ∧
        t.dev.recd = { s.dev.recd with offers := s.dev.recd.offers ++
          [({ page := corePage c, code := code, sev := 0, payload := s.rd (stageBase c + off) len,
              poster := some c.val } : Offer)] })) ∧
    (∀ (n : Fin 4) (v : Reg32), writable s (.caller n) (ioa 0xF 0x134) →
      let code := bits v.toNat 30 16
      let len := bits v.toNat 10 0
      let off := s.fld (ioa 0xF 0x130) 20 3 * 8
      let bad := code < 0xC0 ∨ 0xEF < code ∨ len % 8 ≠ 0 ∨ 1008 < len ∨ 0x100000 < off + len
      (s.dev.recd.postBusy = true → exec (.post (.caller n) v) s = .next s) ∧
      (s.dev.recd.postBusy = false → bad → ∃ t, exec (.post (.caller n) v) s = .next t ∧ Reported s t 0xF .recBadcode ∧
        t.mem = s.mem) ∧
      (s.dev.recd.postBusy = false → ¬bad → s.undamaged → ∃ t, exec (.post (.caller n) v) s = .next t ∧ Only [.recd] s t ∧
        t.dev.recd = { s.dev.recd with postBusy := true, offers := s.dev.recd.offers ++
          [({ page := 0xF, code := code, sev := 0, payload := s.rd (callerBase n + off) len,
              poster := some 64 } : Offer)] })) ∧
    (∀ (p : Fin 4) (v : Reg32), writable s (.host p) (ioa 0xF 0x134) → exec (.post (.host p) v) s = .next s) ∧
    (∀ g : Agent, s.dev.pwr.on = true → s.live g = true →
      (let w := s.fld (ioa 0xF 0x114) 19 2
       s.undamaged → ∃ t, exec (.rddata g) s = .next t ∧ Only [.io, .out] s t ∧
        t.dev.readData = toBytes 4 (s.rdNat (ringBase + w * 4) 4) ∧ t.fld (ioa 0xF 0x114) 19 2 = (w + 1) % 2 ^ 18) ∧
      (let w := s.fld (ioa 0xF 0x11C) 23 2
       (w * 4 < spillSize → s.disabled (spillBase + w * 4) = false →
        ∃ t, exec (.sprddata g) s = .next t ∧ Only [.io, .out] s t ∧
          t.dev.readData = toBytes 4 (s.rdNat (spillBase + w * 4) 4) ∧ t.fld (ioa 0xF 0x11C) 23 2 = (w + 1) % 2 ^ 22) ∧
       (spillSize ≤ w * 4 → ∃ t, exec (.sprddata g) s = .next t ∧ Only [.io, .out, .free] s t ∧
        t.dev.readData = toBytes 4 s.freeVal.toNat ∧ t.fld (ioa 0xF 0x11C) 23 2 = (w + 1) % 2 ^ 22)) ∧
      (s.undamaged → ∃ t, exec (.snpdata g) s = .next t ∧ Only [.recd, .out] s t ∧
        t.dev.readData = toBytes 4 (s.rdNat (snapBase + s.fld (ioa 0xF 0x128) 13 5 * 2048 +
          s.fld (ioa 0xF 0x128) 4 0 * 64 + s.dev.recd.snpWord % 16 * 4) 4) ∧
        t.dev.recd = { s.dev.recd with snpWord := (s.dev.recd.snpWord + 1) % 16 })) ∧
    (∀ (g : Agent) (page : BitVec 12) (v : Reg32), (pageKind page.toNat).isSome = true →
      writable s g (ioa page.toNat 0x40) →
      ∃ t, exec (.snapTrigFire g page v) s = .next t ∧ Only [.io, .recd] s t ∧
        t.dev.recd = { s.dev.recd with trigs := s.dev.recd.trigs ++ [(page.toNat, 1, 0)] }) ∧
    ∀ (page : BitVec 12) (c e : Nat), s.dev.pwr.on = true → (pageKind page.toNat).isSome = true →
      s.dev.recd.trigs = [(page.toNat, c, e)] → 1 ≤ c → c ≤ 7 →
      let p := page.toNat
      let k := Tab.get (fun _ => 0) s.dev.recd.snapSeq p
      let a := snapBase + p * 2048 + k % 32 * 64
      let on (i : Nat) : Bool := s.fld (ioa p (0x20 + 4 * i)) 31 31 = 1
      ∃ t, exec (.snapshot page) s = .next t ∧ Only [.mem, .xp, .recd] s t ∧ t.dev.recd.trigs = [] ∧
        wroteRecord s t a 64 ∧
        (∀ i, i < 8 → t.rd (a + 4 * i) 4 =
          toBytes 4 (if on i then s.ioRead (ioa p (s.fld (ioa p (0x20 + 4 * i)) 11 2 * 4)) else 0)) ∧
        t.rd (a + 32) 6 = toBytes 6 s.beat.toNat ∧ t.rd (a + 38) 1 = toBytes 1 c ∧
        (∀ i, i < 8 → bitAt (t.rdNat (a + 39) 1) i = on i) ∧
        t.rd (a + 40) 2 = toBytes 2 (if 2 ≤ c ∧ c ≤ 5 then e else 0) ∧ t.rd (a + 44) 4 = toBytes 4 k ∧
        t.rdNat (a + 60) 4 = (crc32c (t.rd a 60)).toNat

/-! ### The debug layer -/

/-- The response that the port holds: STATUS in bits 63:0 and DATA above (R446). -/
def dbgAnswer (t : State) (p : DbgPort) : Nat :=
  match p with
  | .tap => t.dev.dbg.tapRsp.toNat
  | _ => ofBytes (t.regBytes (ioa 0x10 0x120) 4)

/-- The command ended with this STATUS, and beside `ps` only its response changes. -/
def responded (s t : State) (p : DbgPort) (st : Nat) (ps : List Piece) : Prop :=
  Only (.io :: .dbg :: .free :: ps) s t ∧ dbgAnswer t p % 2 ^ 64 = st

/-- The command ended OK with this DATA. -/
def returned (s t : State) (p : DbgPort) (v : Nat) (ps : List Piece) : Prop :=
  responded s t p 0 ps ∧ dbgAnswer t p / 2 ^ 64 = v % 2 ^ 64

/-- DBG.STAT.TAINT after a write: set while a job runs (R452). -/
def tainted (s t : State) : Prop :=
  t.fld (ioa 0x10 0x100) 28 28 = if s.job then 1 else s.fld (ioa 0x10 0x100) 28 28

/-- The commands of the debug layer beside NOP (R447). -/
def dbgCommands (p : DbgPort) (w : DbgWord) : List Instr :=
  [.halt p w, .resume p w, .step p w, .rdreg p w, .wrreg p w, .rdp p w, .wrp p w, .rdd p w, .wrd p w, .rdio p w,
   .wrio p w, .setbp p w, .setwp p w, .syshalt p w, .sysresume p w, .rdstate p w]

/-- At an unlocked port every command has the effect and the STATUS of R447: on units that the rules of R448 and R449
permit (a core that has halted core-fatal keeps its registers for the port, R384), on program memory, memory and
registers, on breakpoints and watchpoints, on the unit state words of R450, and on the system halt of R453 and R454.
Writes taint a running job (R452). DATA of a command that returns none is a free value (log entry 3). -/
def Obligations.DebugCommandsAct : Prop :=
  ∀ (s : State) (p : DbgPort) (w : DbgWord), s.Inv → s.dev.pwr.on = true → s.portLive p = true → s.unlocked p = true →
    let u := w.unit.toNat
    let a := w.addr.toNat
    let v := w.data.toNat
    let h := s.hart u
    let unit := isUnit u = true
    (¬unit → ∀ c ∈ [Instr.halt p w, .resume p w, .step p w, .rdreg p w, .wrreg p w, .rdp p w, .wrp p w],
      ∃ t, exec c s = .next t ∧ responded s t p 3 []) ∧
    (unit →
      (h.run = false ∨ h.halted = true ∨ h.fatal = true → ∃ t, exec (.halt p w) s = .next t ∧ responded s t p 5 []) ∧
      (h.run = true → h.halted = false → h.fatal = false → ∃ t, exec (.halt p w) s = .next t ∧ responded s t p 0 [.harts] ∧
        OneHart s t u
          (if 64 ≤ u ∨ h.shadows = [] then
            { h with halted := true, reason := h.haltReq.getD 1, haltReq := none, stepping := none,
                     haltAt := s.dev.beat.time }
           else { h with haltReq := some (h.haltReq.getD 1) })) ∧
      (h.halted = false ∨ h.fatal = true → ∀ c ∈ [Instr.resume p w, .step p w],
        ∃ t, exec c s = .next t ∧ responded s t p 5 []) ∧
      (h.halted = false → h.fatal = false → ∀ c ∈ [Instr.rdreg p w, .wrreg p w],
        ∃ t, exec c s = .next t ∧ responded s t p 5 []) ∧
      (h.halted = true → h.fatal = false →
        let gone : Option Wait := h.wait.map fun x => { x with since := x.since + (s.dev.beat.time - h.haltAt) }
        (∃ t, exec (.resume p w) s = .next t ∧ responded s t p 0 [.harts] ∧
          OneHart s t u { h with halted := false, stepping := some 0, wait := gone }) ∧
        (∃ t, exec (.step p w) s = .next t ∧ responded s t p 0 [.harts] ∧
          OneHart s t u { h with halted := false, stepping := some 1, wait := gone })) ∧
      (h.halted = true ∨ h.fatal = true →
        (∃ t, exec (.rdreg p w) s = .next t ∧
          (a < 0x20 → returned s t p (s.reg u a).toNat []) ∧ (a = 0x20 → returned s t p h.pc.toNat []) ∧
          (a = 0x200 → returned s t p h.reason.toNat []) ∧
          (0x100 ≤ a → a < 0x140 → ∀ x, s.readSr u (a - 0x100) = some x → returned s t p x []) ∧
          (0x20 < a → a ≠ 0x200 → (a < 0x100 ∨ 0x140 ≤ a ∨ s.readSr u (a - 0x100) = none) → responded s t p 3 [])) ∧
        (∃ t, exec (.wrreg p w) s = .next t ∧
          (1 ≤ a → a < 0x20 → responded s t p 0 [.regs] ∧ tainted s t ∧ OneReg s t u a w.data) ∧
          (a = 0x20 → responded s t p 0 [.harts] ∧ tainted s t ∧
            OneHart s t u { h with pc := BitVec.ofNat 18 (v % pmSize u) }) ∧
          (0x100 ≤ a → a < 0x140 → srWritable u (a - 0x100) = true → srValueOk (a - 0x100) v = true →
            responded s t p 0 [.harts] ∧ tainted s t ∧ OneHart s t u (h.writeSr u (a - 0x100) v)) ∧
          (a = 0 ∨ a = 0x200 → responded s t p 3 []))) ∧
      (s.undamaged →
        (∃ t, exec (.rdp p w) s = .next t ∧ returned s t p (s.pldWord u a) []) ∧
        ∃ t, exec (.wrp p w) s = .next t ∧ responded s t p 0 [.mem, .xp] ∧ tainted s t ∧
          t.pldWord u a = v % 2 ^ 56 ∧ ∀ x, x < 2 ^ 48 → t.rdByte x = s.rdByte x)) ∧
    (a % 8 ≠ 0 → ∀ c ∈ [Instr.rdd p w, .wrd p w], ∃ t, exec c s = .next t ∧ responded s t p 3 []) ∧
    (a % 8 = 0 → s.exists true a = false → ∀ c ∈ [Instr.rdd p w, .wrd p w],
      ∃ t, exec c s = .next t ∧ responded s t p 4 []) ∧
    (a % 8 = 0 → s.exists true a = true →
      (s.poisonIn a 8 = none → s.undamaged → ∃ t, exec (.rdd p w) s = .next t ∧ returned s t p (s.rdNat a 8) [.banks]) ∧
      (ordinary s a 8 → ∃ t, exec (.wrd p w) s = .next t ∧ responded s t p 0 [.mem, .xp, .banks] ∧ tainted s t ∧
        Stored s t [(a, toBytes 8 v)])) ∧
    (a % 4 ≠ 0 ∨ 2 ^ 24 ≤ a → ∀ c ∈ [Instr.rdio p w, .wrio p w], ∃ t, exec c s = .next t ∧ responded s t p 3 []) ∧
    (a % 4 = 0 → a < 2 ^ 24 →
      ((∀ r ∈ [ioa 0xC 0x114, ioa 0xE 0x108, ioa 0xF 0x118, ioa 0xF 0x120, ioa 0xF 0x12C, upd 0x224], a ≠ r) →
        ∃ t, exec (.rdio p w) s = .next t ∧ returned s t p (s.ioRead a) []) ∧
      (∀ r, fieldReg a r → s.running (a / 0x1000) = false → ∃ t, exec (.wrio p w) s = .next t ∧
        responded s t p 0 [.shadow] ∧ tainted s t ∧
        t.ioVal a = (s.ioVal a &&& ~~~(r.mask .l ||| r.mask .h)) ||| (w.data.setWidth 32 &&& (r.mask .l ||| r.mask .h)))) ∧
    (0x44 ≤ u → ∃ t, exec (.setbp p w) s = .next t ∧ responded s t p 3 []) ∧
    (u < 0x44 → ∃ t, exec (.setbp p w) s = .next t ∧ responded s t p 0 [.harts] ∧
      OneHart s t u { h with bps := Tab.put (fun _ => 0) h.bps (a % 8) (BitVec.ofNat 64 (v % 2 ^ 18 + bits v 63 63 * 2 ^ 63)) }) ∧
    (0x40 ≤ u → ∃ t, exec (.setwp p w) s = .next t ∧ responded s t p 3 []) ∧
    (u < 0x40 → ∃ t, exec (.setwp p w) s = .next t ∧ responded s t p 0 [.harts] ∧
      OneHart s t u { h with wps := Tab.put (fun _ => 0) h.wps (a % 4) w.data }) ∧
    (let e : BitVec 48 := w.data.setWidth 48
     let free := s.jobOn = true ∧ s.dev.dbg.h = none ∧ (∀ n, n < 8 → s.brOn n = false) ∧ 64 ≤ (e - s.jobBeat).toInt
     (u ≠ 0xFF → ∀ c ∈ [Instr.syshalt p w, .sysresume p w], ∃ t, exec c s = .next t ∧ responded s t p 3 []) ∧
     (u = 0xFF →
      (free → ∃ t, exec (.syshalt p w) s = .next t ∧ responded s t p 0 [] ∧ t.dev.dbg.h = some e ∧ t.dev.dbg.r = none ∧
        t.dev.dbg.frozen = s.dev.dbg.frozen) ∧
      (¬free → ∃ t, exec (.syshalt p w) s = .next t ∧ responded s t p 5 [] ∧ t.dev.dbg.h = s.dev.dbg.h) ∧
      (s.dev.dbg.frozen = false ∨ (e - s.beat).toInt < 64 → ∃ t, exec (.sysresume p w) s = .next t ∧
        responded s t p 5 [] ∧ t.dev.dbg.r = s.dev.dbg.r) ∧
      (s.dev.dbg.frozen = true → 64 ≤ (e - s.beat).toInt →
        (s.dev.dbg.r = none ∨ s.dev.dbg.r = some e → ∃ t, exec (.sysresume p w) s = .next t ∧ responded s t p 0 [] ∧
          t.dev.dbg.r = some e) ∧
        ∀ r, s.dev.dbg.r = some r → r ≠ e → ∃ t, exec (.sysresume p w) s = .next t ∧ Reported s t 0x10 .dbgSync ∧
          dbgAnswer t p % 2 ^ 64 = 5 ∧ t.dev.dbg.r = some r))) ∧
    (0x40 ≤ u → ∃ t, exec (.rdstate p w) s = .next t ∧ responded s t p 3 []) ∧
    (u < 0x40 → h.halted = false → h.fatal = false → ∃ t, exec (.rdstate p w) s = .next t ∧ responded s t p 5 []) ∧
    (u < 0x40 → h.halted = true ∨ h.fatal = true → s.undamaged →
      let kind := bits a 47 40
      let i := bits a 39 0
      ∃ t, exec (.rdstate p w) s = .next t ∧
        (kind = 0 → i < 4096 → returned s t p (s.rdNat (vAddr u (i / 128) (i % 128 * 8)) 8) []) ∧
        (kind = 1 → i < 1024 → returned s t p (s.rdNat (mAddr u (i / 128) (i % 128 * 8)) 8) []) ∧
        (kind = 2 → i < 32768 → ∀ g, s.tag u (i / 4096) = some g → i % 4096 * 8 / 256 < g.rows → i % 4096 * 8 % 256 < g.rb →
          s.tilePending u (i / 4096) (i % 4096 * 8 / 256) = false →
          returned s t p (s.rdNat (tileAddr u (i / 4096) (i % 4096 * 8 / 256) (i % 4096 * 8 % 256)) 8) []) ∧
        (kind = 2 → i < 32768 →
          s.tag u (i / 4096) = none ∨ s.tilePending u (i / 4096) (i % 4096 * 8 / 256) = true → returned s t p 0 []) ∧
        (kind = 3 → i < 2 ^ 20 → s.wideMode u (i / 2 ^ 17) = false → i % 4 < 3 →
          returned s t p (unsignedOf 192 (s.accGet u false (i / 2 ^ 16) (i / 2 ^ 9 % 128) (i / 4 % 128)).v / 2 ^ (64 * (i % 4)))
            []) ∧
        (kind = 4 → i < 4608 → returned s t p (s.rdNat (seatAddr u (i / 2304) (i / 18 % 128) (i % 18 * 8)) 8) []) ∧
        (kind = 5 → i < 32 → returned s t p ((s.creg u (i / 2)).toNat / 2 ^ (64 * (i % 2))) []) ∧
        (kind = 6 → i < 512 → returned s t p ((s.store u (i / 2)).toNat / 2 ^ (64 * (i % 2))) []) ∧
        (6 < kind → responded s t p 3 []))

/-- A locked port answers LOCKED to every command but NOP, which returns the port's response (R447, R451). HALT in a slot
header and the beats H and R halt the units of a job and let them go on, or raise DBG_SYNC (R453, R454). The TAP's
instructions (R445), the SMBus target (R463, with the PEC of log entry 16), ALERT_N's response (R464) and the management
chain (R466-R468, R471) answer from the state and change nothing else of the device. -/
def Obligations.LockedPortsHaltsTapAndSideband : Prop :=
  ∀ s : State, s.Inv →
    (∀ (p : DbgPort) (w : DbgWord), s.dev.pwr.on = true →
      (s.portLive p = true → s.unlocked p = false → ∀ c ∈ dbgCommands p w,
        ∃ t, exec c s = .next t ∧ responded s t p 2 []) ∧
      (s.portLive p = false → ∀ c ∈ dbgCommands p w, exec c s = .next s) ∧
      (s.portLive p = true → ∃ t, exec (.dbgNop p w) s = .next t ∧ Only [.out] s t ∧
        t.dev.readData = toBytes 16 (dbgAnswer s p))) ∧
    (∀ (l : Fin 48) (h r : BitVec 48), s.dev.pwr.on = true →
      let d := s.dev.dbg
      let c := Instr.haltReceived l h r
      let sync := ∃ t, exec c s = .next t ∧ Reported s t 0x10 .dbgSync ∧ t.dev.dbg = d
      (s.jobOn = false ∨ (s.link l).st ≠ 3 ∨ (s.link l).pers ≠ 0 → exec c s = .next s) ∧
      (s.jobOn = true → (s.link l).st = 3 → (s.link l).pers = 0 →
        (d.h = none → (r = 0 ∨ 0 < (r - s.beat).toInt) →
          (0 < (h - s.jobBeat).toInt → ∃ t, exec c s = .next t ∧ Only [.dbg] s t ∧
            t.dev.dbg = { d with h := some h, r := if r = 0 then none else some r }) ∧
          ((h - s.jobBeat).toInt ≤ 0 → sync)) ∧
        (∀ g, d.h = some g → g ≠ h → sync) ∧
        (d.h = some h → d.r = none → r ≠ 0 → ∃ t, exec c s = .next t ∧ Only [.dbg] s t ∧
          t.dev.dbg = { d with r := some r }) ∧
        (∀ q, d.h = some h → d.r = some q → r ≠ 0 → r ≠ q → sync) ∧
        (d.h = some h → (r = 0 ∨ d.r = some r) → exec c s = .next s))) ∧
    (∀ h : BitVec 48, s.dev.pwr.on = true → s.dev.dbg.h = some h → s.jobOn = true →
      (s.dev.dbg.frozen = false → ∃ t, exec .syshaltBeat s = .next t ∧ Only [.beat, .harts, .io, .recd, .dbg] s t ∧
        t.dev.dbg = { s.dev.dbg with frozen := true } ∧ t.jobBeat = h ∧ (s.devState ≠ 6 → t.devState = 4) ∧
        (∃ o, o.page = 0x10 ∧ o.code = 0x85 ∧ t.dev.recd.offers = s.dev.recd.offers ++ [o]) ∧
        ∀ u, (u < 64 ∨ 128 ≤ u ∧ u < 176) →
          let x := s.hart u
          x.run = true → x.halted = false → x.fatal = false →
          (128 ≤ u ∨ x.shadows = [] → (t.hart u).halted = true ∧ (t.hart u).reason = x.haltReq.getD 5) ∧
          (u < 64 → x.shadows ≠ [] → t.hart u = { x with haltReq := some (x.haltReq.getD 5) })) ∧
      (s.dev.dbg.frozen = true → exec .syshaltBeat s = .next s ∧
        ∀ r, s.dev.dbg.r = some r → s.dev.beat.sub < beatLen → 0 < (r - s.beat).toInt →
          ∃ t, exec .sysresumeBeat s = .next t ∧ Only [.beat, .harts, .io, .recd, .dbg] s t ∧ t.beat = r ∧ t.jobBeat = h ∧
            t.dev.dbg = { s.dev.dbg with h := none, r := none, frozen := false } ∧ (s.devState ≠ 6 → t.devState = 3) ∧
            (∃ o, o.page = 0x10 ∧ o.code = 0x85 ∧ t.dev.recd.offers = s.dev.recd.offers ++ [o]) ∧
            ∀ u, (u < 64 ∨ 128 ≤ u ∧ u < 176) → (s.hart u).halted = true → (s.hart u).reason = 5 →
              (t.hart u).halted = false ∧ (t.hart u).pc = (s.hart u).pc)) ∧
    (s.dev.pwr.on = true →
      (∃ t, exec .tapReset s = .next t ∧ Only [.dbg] s t ∧ t.dev.dbg = { s.dev.dbg with ir := 1, bscan := 0 }) ∧
      (∃ t, exec .idcode s = .next t ∧ Only [.dbg, .out] s t ∧ t.dev.dbg = { s.dev.dbg with ir := 1 } ∧
        t.dev.readData = toBytes 4 0x10001CE3) ∧
      (∀ pins : BitVec 32,
        (s.devState = 1 → ∃ t, exec (.extest pins) s = .next t ∧ Only [.dbg] s t ∧
          t.dev.dbg = { s.dev.dbg with ir := 0, bscan := pins }) ∧
        (s.devState ≠ 1 → ∃ t, exec (.extest pins) s = .next t ∧ Only [.dbg] s t ∧
          t.dev.dbg = { s.dev.dbg with ir := 0xFF }) ∧
        ∃ t, exec (.samplePreload pins) s = .next t ∧ Only [.dbg, .out] s t ∧
          t.dev.dbg = { s.dev.dbg with ir := 2, bscan := pins } ∧ t.dev.readData = toBytes 4 pins.toNat) ∧
      ∀ ir : BitVec 8,
        (ir ≠ 0 → ir ≠ 1 → ir ≠ 2 → ir ≠ 0x20 → ∃ t, exec (.bypass ir) s = .next t ∧ Only [.dbg] s t ∧
          t.dev.dbg = { s.dev.dbg with ir := 0xFF }) ∧
        (ir = 0 ∨ ir = 1 ∨ ir = 2 ∨ ir = 0x20 → exec (.bypass ir) s = .next s)) ∧
    (s.dev.pwr.on = true →
      (∀ (data : List Byte) (pec : Option Byte),
        let good := ∀ x, pec = some x → x = pecOf ([0xB0, 0x01, BitVec.ofNat 8 data.length] ++ data)
        (s.fuseLoaded = true → data.length = 3 → good → ∃ t, exec (.smbusBlockWrite data pec) s = .next t ∧
          Only [.pwr] s t ∧ t.dev.pwr = { s.dev.pwr with smbPtr := BitVec.ofNat 24 (ofBytes data) }) ∧
        (s.fuseLoaded = false ∨ data.length ≠ 3 ∨ ¬good → exec (.smbusBlockWrite data pec) s = .next s)) ∧
      (s.fuseLoaded = true →
        let a := s.dev.pwr.smbPtr.toNat
        (readable a = true → ∃ t x, exec .smbusBlockRead s = .next t ∧ Only [.pwr, .out] s t ∧
          t.dev.readData = [4] ++ toBytes 4 (s.ioRead a) ++ [x] ∧
          t.dev.pwr = { s.dev.pwr with smbPtr := s.dev.pwr.smbPtr + 4 }) ∧
        (readable a = false → ∃ t x, exec .smbusBlockRead s = .next t ∧ Only [.out] s t ∧ t.dev.readData = [0, x]) ∧
        (s.drivesAlert = true → ∃ t, exec .alertResponse s = .next t ∧ Only [.out] s t ∧ t.dev.readData = [0x58]) ∧
        (s.drivesAlert = false → exec .alertResponse s = .next s)) ∧
      (s.fuseLoaded = false → exec .smbusBlockRead s = .next s ∧ exec .alertResponse s = .next s)) ∧
    ∀ d : List Byte,
      (d.length ≠ 24 ∨ bytesAt d 0 1 ≠ 0xA5 → exec (.mchFrame d) s = .next s) ∧
      (d.length = 24 → bytesAt d 0 1 = 0xA5 →
        (s.dev.pwr.on = false ∨ s.fuseLoaded = false → ∃ t, exec (.mchFrame d) s = .next t ∧ Only [.out] s t ∧
          t.dev.lastOut = d) ∧
        (s.dev.pwr.on = true → s.fuseLoaded = true →
          let op := bytesAt d 1 1
          let a := bytesAt d 4 3
          let mine := bytesAt d 7 1 = 0 ∧
            ((op = 1 ∧ bytesAt d 8 8 = bytesAt d 2 2) ∨ (op = 2 ∧ bytesAt d 8 8 = s.pair 0x110))
          ((crc32c (d.take 20)).toNat ≠ bytesAt d 20 4 ∨ (op ≠ 1 ∧ op ≠ 2) → exec (.mchFrame d) s = .next s) ∧
          ((crc32c (d.take 20)).toNat = bytesAt d 20 4 → op = 1 ∨ op = 2 → ∃ t, exec (.mchFrame d) s = .next t ∧
            Only [.out] s t ∧
            let o := t.dev.lastOut
            o.length = 24 ∧ o.take 2 = d.take 2 ∧ bytesAt o 2 2 = (bytesAt d 2 2 + 1) % 2 ^ 16 ∧ bytesAt o 4 3 = a ∧
              bytesAt o 8 8 = bytesAt d 8 8 ∧ bytesAt o 20 4 = (crc32c (o.take 20)).toNat ∧
              (¬mine → bytesAt o 7 1 = bytesAt d 7 1 ∧ bytesAt o 16 4 = bytesAt d 16 4) ∧
              (mine → readable a = true → bytesAt o 7 1 = 1 ∧ bytesAt o 16 4 = s.ioRead a % 2 ^ 32) ∧
              (mine → readable a = false → bytesAt o 7 1 = 2 ∧ bytesAt o 16 4 = bytesAt d 16 4))))

/-! ### Rules stated whole -/

/-- R63: a LOOP with C ≠ 0 at LD = 4 raises LOOP_NEST (cause 0x0A) and changes no state of its own: a core enters its
handler, and a sequencer, which has none, stops with SEQ_FAULT. A LOOP with C = 0 at LD = 4 raises nothing and skips its
body. -/
def Obligations.LoopNestIsRaisedAtDepthFour : Prop :=
  ∀ (s : State) (u : UnitId) (f : S2L), s.Inv → s.issues u.num 2 = true → f.len ≠ 0 → f.rsv = 0 →
    (s.hart u.num).ld = 4 →
    let c := (s.reg u.num f.rs.toNat).toNat % 2 ^ 32
    (c ≠ 0 → u.num < 128 → (s.hart u.num).lbase ≤ 4 → ∀ pa, canEnter s u.num pa →
      ∃ t, exec (.loop u f) s = .next t ∧ entered s t u.num 0x0A pa ∧ (t.hart u.num).ls = (s.hart u.num).ls ∧
        (t.hart u.num).le = (s.hart u.num).le ∧ (t.hart u.num).lc = (s.hart u.num).lc) ∧
    (c ≠ 0 → 128 ≤ u.num →
      ∃ t, exec (.loop u f) s = .next t ∧ (t.hart u.num).run = false ∧ (t.hart u.num).pc = (s.hart u.num).pc ∧
        (t.hart u.num).ld = 4 ∧ t.fld (ioa (unitPage u.num) 0x14) 15 0 = 0x3A ∧ t.regs = s.regs ∧ t.mem = s.mem) ∧
    (c = 0 → ∃ t, exec (.loop u f) s = .next t ∧ Only [.harts] s t ∧ (t.hart u.num).capdepth = (s.hart u.num).capdepth ∧
      (t.hart u.num).run = true)

/-- R259: a write to PREREPORT while the window is open under APPLY sets PRE_STALE, stores the index and counts, and
offers the record PRE_STALE; a write at any other time is discarded. -/
def Obligations.PrereportRecordsAStaleParameter : Prop :=
  ∀ (s : State) (g : Agent) (v : Reg32), s.Inv → writable s g (upd 0x214) →
    (s.window = true → s.outcome = 1 →
      ∃ t, exec (.prereport g v) s = .next t ∧ Only [.io, .recd] s t ∧ t.fld (upd 0x20C) 31 31 = 1 ∧
        t.fld (upd 0x20C) 11 0 = v.toNat % 4096 ∧ t.fld (upd 0x210) 31 0 = min (s.fld (upd 0x210) 31 0 + 1) (2 ^ 32 - 1) ∧
        t.dev.recd.offers = s.dev.recd.offers ++
          [{ page := 0xD0, code := 0x82, sev := 0,
             payload := toBytes 4 (v.toNat % 4096) ++ toBytes 4 s.stepT }]) ∧
    (¬(s.window = true ∧ s.outcome = 1) → exec (.prereport g v) s = .next s)

/-- R430: CLAIM returns the highest-severity PENDING slot, marks it CLAIMED and sets HSTAT.HSEV, or returns VALID = 0;
DONE empties the named slot if it is CLAIMED, and is ignored otherwise. -/
def Obligations.ClaimAndDoneMoveTheSlots : Prop :=
  ∀ (s : State) (g : Agent), s.Inv → s.dev.pwr.on = true → s.live g = true →
    (∀ n, n < 4 → s.slotSt n = 1 → (∀ m, n < m → m < 4 → s.slotSt m ≠ 1) →
      ∃ t, exec (.claim g) s = .next t ∧ Only [.io, .parts, .icu, .out] s t ∧
        t.dev.readData = toBytes 4 (2 ^ 31 + n) ∧ t.slotSt n = 2 ∧ t.fld (ioa 0xE 0x104) 9 8 = n ∧
        ∀ m, m < 4 → m ≠ n → t.slotSt m = s.slotSt m) ∧
    ((∀ n, n < 4 → s.slotSt n ≠ 1) → ∃ t, exec (.claim g) s = .next t ∧ Only [.out] s t ∧
      t.dev.readData = toBytes 4 0) ∧
    ∀ v : Reg32, writable s g (ioa 0xE 0x10C) →
      let n := v.toNat % 4
      (s.slotSt n = 2 → ∃ t, exec (.done g v) s = .next t ∧ Only [.io, .parts, .icu, .stop] s t ∧ t.slotSt n = 0 ∧
        ∀ m, m < 4 → m ≠ n → t.slotSt m = s.slotSt m) ∧
      (s.slotSt n ≠ 2 → exec (.done g v) s = .next s)
end

