-- ==== Sys2Proof/Laws/Decode.lean ====
section
/-! SUPPORT. What `decodeWord` covers: exactly the opcodes that a table assigns. -/
namespace Sys2Proof

open Machine

theorem piece_toNat (w : BitVec 56) (lo n : Nat) : (piece w lo n).toNat = w.toNat / 2 ^ lo % 2 ^ n := by
  simp [piece, BitVec.extractLsb'_toNat, Nat.shiftRight_eq_div_pow]

theorem decodeCap_isSome (u : UnitId) (op : Nat) (f : S2C) :
    (decodeCap u op f).isSome = decide (0x28 ≤ op ∧ op < 0x2F) := by
  by_cases h : 0x28 ≤ op ∧ op < 0x2F
  · obtain rfl | rfl | rfl | rfl | rfl | rfl | rfl :
        op = 0x28 ∨ op = 0x29 ∨ op = 0x2A ∨ op = 0x2B ∨ op = 0x2C ∨ op = 0x2D ∨ op = 0x2E := by omega
    all_goals unfold decodeCap; split <;> simp_all
  · unfold decodeCap
    split <;> simp_all

theorem decodeVec_isSome (u : UnitId) (op : Nat) (w : BitVec 56) :
    (decodeVec u op w).isSome = decide (0x30 ≤ op ∧ op < 0x3A) := by
  by_cases h : 0x30 ≤ op ∧ op < 0x3A
  · obtain rfl | rfl | rfl | rfl | rfl | rfl | rfl | rfl | rfl | rfl :
        op = 0x30 ∨ op = 0x31 ∨ op = 0x32 ∨ op = 0x33 ∨ op = 0x34 ∨ op = 0x35 ∨ op = 0x36 ∨ op = 0x37 ∨ op = 0x38
          ∨ op = 0x39 := by omega
    all_goals unfold decodeVec; dsimp only; split <;> simp_all
  · unfold decodeVec
    dsimp only
    split <;> simp_all

/-- The opcodes of one, two and four syllables that a table assigns (R47, R48). -/
theorem decodeS1_isSome (u : UnitId) (w : BitVec 56) : (decodeS1 u w).isSome = decide ((piece w 7 5).toNat < 8) := by
  unfold decodeS1
  dsimp only
  have h : (piece w 7 5).toNat < 32 := (piece w 7 5).isLt
  generalize (piece w 7 5).toNat = op at h ⊢
  interval_cases op <;> rfl

theorem decodeS2_isSome (u : UnitId) (w : BitVec 56) :
    (decodeS2 u w).isSome =
      let op := (piece w 6 6).toNat
      decide (op < 8 ∨ 0x10 ≤ op ∧ op < 0x17 ∨ 0x18 ≤ op ∧ op < 0x1E ∨ 0x20 ≤ op ∧ op < 0x2F ∨ 0x30 ≤ op ∧ op < 0x3A) := by
  unfold decodeS2
  dsimp only
  have h : (piece w 6 6).toNat < 64 := (piece w 6 6).isLt
  generalize (piece w 6 6).toNat = op at h ⊢
  interval_cases op <;> simp [decodeCap_isSome, decodeVec_isSome]

theorem decodeS4_isSome (u : UnitId) (w : BitVec 56) :
    (decodeS4 u w).isSome =
      let op := (piece w 4 8).toNat
      ([0x00, 0x02, 0x03, 0x04, 0x50, 0x51, 0xC0, 0xC1, 0xC2, 0xC8, 0xD0, 0xD1, 0xD2].contains op
        || decide (0x40 ≤ op ∧ op ≤ 0x48 ∨ 0x80 ≤ op ∧ op ≤ 0x85 ∨ 0xA0 ≤ op ∧ op ≤ 0xA6)) := by
  unfold decodeS4
  dsimp only
  have h : (piece w 4 8).toNat < 256 := (piece w 4 8).isLt
  generalize (piece w 4 8).toNat = op at h ⊢
  interval_cases op <;> rfl

/-- A word is a command exactly when its opcode is assigned (R46); every other word is UNDEFINED_INSTRUCTION. -/
theorem decodeWord_isSome (u : UnitId) (w : BitVec 56) : (decodeWord u w).isSome = assigned w := by
  have e : ∀ hi lo, bits w.toNat hi lo = w.toNat / 2 ^ lo % 2 ^ (hi - lo + 1) := fun _ _ => rfl
  unfold decodeWord assigned
  simp only [e, piece_toNat]
  split <;> simp_all [decodeS1_isSome, decodeS2_isSome, decodeS4_isSome, Nat.shiftRight_eq_div_pow]

end Sys2Proof
end

