-- ==== Sys2Proof/Laws/Tab.lean ====
section
/-! SUPPORT. The laws of sparse tables: read after write, and every table operation keeps the canonical form. -/
namespace Sys2Proof.Machine

variable {α : Type} {d : Nat → α} {t : Tab α} {j k n : Nat} {v : α} {p : Nat → Bool}

theorem Tab.get_insert (d : Nat → α) (t : Tab α) (k j : Nat) (v : α) :
    Tab.get d (Tab.insert k v t) j = if j = k then v else Tab.get d t j := by
  induction t with
  | nil => simp only [Tab.insert, Tab.get]; split <;> simp
  | cons e t ih =>
    obtain ⟨i, w⟩ := e
    simp only [Tab.insert]
    split
    · simp only [Tab.get]; split <;> [rfl; skip]; split <;> [skip; rfl]
      rw [if_neg (by omega), if_pos (by omega)]
    · split
      · subst k; simp only [Tab.get]; split <;> rfl
      · simp only [Tab.get, ih]; grind

@[simp] theorem Tab.get_insert_same : Tab.get d (Tab.insert k v t) k = v := by simp [Tab.get_insert]

theorem Tab.get_insert_ne (h : j ≠ k) : Tab.get d (Tab.insert k v t) j = Tab.get d t j := by simp [Tab.get_insert, h]

theorem Tab.above_mono (h : Tab.above k t = true) (hj : j ≤ k) : Tab.above j t = true := by
  cases t with
  | nil => rfl
  | cons e t => simp only [Tab.above, decide_eq_true_eq] at *; omega

theorem Tab.get_above (h : Tab.above k t = true) (hj : j ≤ k) : Tab.get d t j = d j := by
  cases t with
  | nil => rfl
  | cons e t =>
    simp only [Tab.above, decide_eq_true_eq] at h
    simp only [Tab.get]; rw [if_neg (by omega), if_pos (by omega)]

theorem Tab.above_insert (h : Tab.above j t = true) (hk : j < k) : Tab.above j (Tab.insert k v t) = true := by
  cases t with
  | nil => simpa [Tab.insert, Tab.above] using hk
  | cons e t =>
    simp only [Tab.insert]; split <;> [skip; split] <;> simp_all [Tab.above]

section wf
variable [DecidableEq α]

theorem Tab.wf_cons {e : Nat × α} : Tab.wf d (e :: t) = true ↔ e.2 ≠ d e.1 ∧ Tab.above e.1 t = true ∧ Tab.wf d t = true := by
  simp [Tab.wf, and_assoc]

theorem Tab.wf_insert (h : Tab.wf d t = true) (hv : v ≠ d k) : Tab.wf d (Tab.insert k v t) = true := by
  induction t with
  | nil => simp [Tab.insert, Tab.wf, Tab.above, hv]
  | cons e t ih =>
    obtain ⟨i, w⟩ := e
    rw [Tab.wf_cons] at h
    simp only [Tab.insert]
    split
    · exact Tab.wf_cons.2 ⟨hv, by simpa [Tab.above] using ‹k < i›, Tab.wf_cons.2 h⟩
    · split
      · subst k; exact Tab.wf_cons.2 ⟨hv, h.2⟩
      · exact Tab.wf_cons.2 ⟨h.1, Tab.above_insert h.2.1 (by omega), ih h.2.2⟩

theorem Tab.above_erase (hw : Tab.wf d t = true) (h : Tab.above j t = true) : Tab.above j (Tab.erase k t) = true := by
  cases t with
  | nil => rfl
  | cons e t =>
    rw [Tab.wf_cons] at hw
    simp only [Tab.above, decide_eq_true_eq] at h
    simp only [Tab.erase]
    split <;> [skip; split]
    · simpa [Tab.above] using h
    · exact Tab.above_mono hw.2.1 (by omega)
    · simpa [Tab.above] using h

theorem Tab.wf_erase (h : Tab.wf d t = true) : Tab.wf d (Tab.erase k t) = true := by
  induction t with
  | nil => rfl
  | cons e t ih =>
    rw [Tab.wf_cons] at h
    simp only [Tab.erase]
    split <;> [exact Tab.wf_cons.2 h; skip]
    split <;> [exact h.2.2; exact Tab.wf_cons.2 ⟨h.1, Tab.above_erase h.2.2 h.2.1, ih h.2.2⟩]

theorem Tab.get_erase (h : Tab.wf d t = true) : Tab.get d (Tab.erase k t) j = if j = k then d k else Tab.get d t j := by
  induction t with
  | nil => simp only [Tab.erase, Tab.get]; split <;> simp_all
  | cons e t ih =>
    obtain ⟨i, w⟩ := e
    rw [Tab.wf_cons] at h
    simp only [Tab.erase]
    split
    · simp only [Tab.get]; grind
    · split
      · subst k
        split
        · subst j; exact Tab.get_above h.2.1 (Nat.le_refl i)
        · rw [Tab.get, if_neg ‹_›]; split
          · exact Tab.get_above h.2.1 (by omega)
          · rfl
      · simp only [Tab.get, ih h.2.2]; grind

/-- A write keeps the canonical form. -/
theorem Tab.wf_put (h : Tab.wf d t = true) : Tab.wf d (Tab.put d t k v) = true := by
  unfold Tab.put; split <;> [exact Tab.wf_erase h; exact Tab.wf_insert h ‹_›]

/-- A read after a write. -/
theorem Tab.get_put (h : Tab.wf d t = true) : Tab.get d (Tab.put d t k v) j = if j = k then v else Tab.get d t j := by
  unfold Tab.put; split
  · rw [Tab.get_erase h]; simp_all
  · exact Tab.get_insert d t k j v

theorem Tab.above_drop (hw : Tab.wf d t = true) (h : Tab.above j t = true) : Tab.above j (Tab.drop p t) = true := by
  induction t with
  | nil => rfl
  | cons e t ih =>
    rw [Tab.wf_cons] at hw
    simp only [Tab.above, decide_eq_true_eq] at h
    simp only [Tab.drop, List.filter_cons]
    split
    · simpa [Tab.above] using h
    · exact ih hw.2.2 (Tab.above_mono hw.2.1 (by omega))

/-- A cleared range keeps the canonical form. -/
theorem Tab.wf_drop (h : Tab.wf d t = true) : Tab.wf d (Tab.drop p t) = true := by
  induction t with
  | nil => rfl
  | cons e t ih =>
    rw [Tab.wf_cons] at h
    simp only [Tab.drop, List.filter_cons]
    split
    · exact Tab.wf_cons.2 ⟨h.1, Tab.above_drop h.2.2 h.2.1, ih h.2.2⟩
    · exact ih h.2.2

/-- A read after a range is cleared. -/
theorem Tab.get_drop (h : Tab.wf d t = true) : Tab.get d (Tab.drop p t) j = if p j then d j else Tab.get d t j := by
  induction t with
  | nil => simp [Tab.drop, Tab.get]
  | cons e t ih =>
    obtain ⟨i, w⟩ := e
    rw [Tab.wf_cons] at h
    simp only [Tab.drop, List.filter_cons] at ih ⊢
    split
    · simp only [Tab.get, ih h.2.2]; grind
    · rw [ih h.2.2]; simp only [Tab.get]; split
      · rfl
      · split
        · subst j; simp_all
        · split
          · exact Tab.get_above h.2.1 (by omega)
          · rfl

/-- A key at which a table never lists an entry after a write elsewhere. -/
theorem Tab.get_put_same (h : Tab.wf d t = true) : Tab.get d (Tab.put d t k v) k = v := by simp [Tab.get_put h]

theorem Tab.get_put_ne (h : Tab.wf d t = true) (hj : j ≠ k) : Tab.get d (Tab.put d t k v) j = Tab.get d t j := by
  simp [Tab.get_put h, hj]

end wf

/-! ### Keys -/

/-- A property of keys that holds of every entry holds after an insertion of a key that has it. -/
theorem Tab.keys_insert {P : Nat → Prop} (h : ∀ e ∈ t, P e.1) (hk : P k) : ∀ e ∈ Tab.insert k v t, P e.1 := by
  induction t with
  | nil => simpa [Tab.insert] using hk
  | cons e t ih =>
    have ih := ih fun e he => h e (List.mem_cons_of_mem _ he)
    simp only [Tab.insert]
    split <;> [skip; split] <;> simp only [List.mem_cons, forall_eq_or_imp] at h ⊢ <;> tauto

theorem Tab.mem_of_mem_erase {e : Nat × α} (h : e ∈ Tab.erase k t) : e ∈ t := by
  induction t with
  | nil => exact h
  | cons f t ih =>
    simp only [Tab.erase] at h
    split at h <;> [exact h; split at h]
    · exact List.mem_cons_of_mem _ h
    · rcases List.mem_cons.1 h with rfl | h
      · exact List.mem_cons_self
      · exact List.mem_cons_of_mem _ (ih h)

theorem Tab.keys_put [DecidableEq α] {P : Nat → Prop} (h : ∀ e ∈ t, P e.1) (hk : P k) :
    ∀ e ∈ Tab.put d t k v, P e.1 := by
  unfold Tab.put; split <;> [exact fun e he => h e (Tab.mem_of_mem_erase he); exact Tab.keys_insert h hk]

theorem Tab.keys_drop {P : Nat → Prop} (h : ∀ e ∈ t, P e.1) : ∀ e ∈ Tab.drop p t, P e.1 := fun e he =>
  h e (List.mem_filter.1 he).1

/-- Values: a property of entries survives writes of values that have it. -/
theorem Tab.all_insert {P : Nat × α → Prop} (h : ∀ e ∈ t, P e) (hv : P (k, v)) : ∀ e ∈ Tab.insert k v t, P e := by
  induction t with
  | nil => simpa [Tab.insert] using hv
  | cons e t ih =>
    have ih := ih fun e he => h e (List.mem_cons_of_mem _ he)
    simp only [Tab.insert]
    split <;> [skip; split] <;> simp only [List.mem_cons, forall_eq_or_imp] at h ⊢ <;> tauto

theorem Tab.all_put [DecidableEq α] {P : Nat × α → Prop} (h : ∀ e ∈ t, P e) (hv : P (k, v)) :
    ∀ e ∈ Tab.put d t k v, P e := by
  unfold Tab.put; split <;> [exact fun e he => h e (Tab.mem_of_mem_erase he); exact Tab.all_insert h hv]

end Sys2Proof.Machine
end

