-- ==== Sys2Proof/Laws/Prog.lean ====
section
/-! SUPPORT. How programs run, and the one induction over them: what every effect keeps, every program keeps. -/
namespace Sys2Proof.Machine

variable {s : State}

@[simp] theorem Prog.run_done : Prog.done.run s = s := rfl
@[simp] theorem Prog.run_eff (e : Eff) (k : Prog) : (Prog.eff e k).run s = k.run (e.apply s) := rfl
@[simp] theorem Prog.run_ask (k : State → Prog) : (ask k).run s = (k s).run s := rfl
@[simp] theorem Eff.run_prog (e : Eff) : e.prog.run s = e.apply s := rfl

@[simp] theorem Prog.run_andThen (p q : Prog) (s : State) : (p.andThen q).run s = q.run (p.run s) := by
  induction p generalizing s with
  | done => rfl
  | eff e k ih => exact ih (e.apply s)
  | ask k ih => exact ih s s

@[simp] theorem run_block_nil : (block []).run s = s := rfl
@[simp] theorem run_block_cons (p : Prog) (ps : List Prog) : (block (p :: ps)).run s = (block ps).run (p.run s) :=
  Prog.run_andThen p (block ps) s
@[simp] theorem run_forEach_nil {α : Type} (f : α → Prog) : (forEach [] f).run s = s := rfl
@[simp] theorem run_forEach_cons {α : Type} (x : α) (xs : List α) (f : α → Prog) :
    (forEach (x :: xs) f).run s = (forEach xs f).run ((f x).run s) := Prog.run_andThen (f x) (forEach xs f) s

theorem run_onlyIf (c : Prop) [Decidable c] (p : Prog) : (onlyIf c p).run s = if c then p.run s else s := by
  unfold onlyIf; split <;> rfl

@[simp] theorem run_onlyIf_pos {c : Prop} [Decidable c] (h : c) (p : Prog) : (onlyIf c p).run s = p.run s := by
  simp [run_onlyIf, h]

@[simp] theorem run_onlyIf_neg {c : Prop} [Decidable c] (h : ¬c) (p : Prog) : (onlyIf c p).run s = s := by
  simp [run_onlyIf, h]

/-- What every effect keeps, every program keeps. -/
theorem Prog.run_keeps {P : State → Prop} (h : ∀ (e : Eff) s, P s → P (e.apply s)) (p : Prog) :
    ∀ s, P s → P (p.run s) := by
  induction p with
  | done => exact fun _ hs => hs
  | eff e k ih => exact fun s hs => ih _ (h e s hs)
  | ask k ih => exact fun s hs => ih s s hs

/-- No program touches the queue of commands. -/
@[simp] theorem Prog.run_pending (p : Prog) (s : State) : (p.run s).pending = s.pending :=
  Prog.run_keeps (P := fun t => t.pending = s.pending)
    (by rintro (_ | _ | _ | _ | _ | _ | _ | _ | ⟨k, v⟩ | _ | ⟨k, v⟩ | _ | _ | _ | _) t h <;>
          simp only [Eff.apply] <;> first | exact h | (split <;> exact h)) p s rfl

theorem State.canonical_iff : s.canonical = true ↔
    Memory.wf s.mem = true ∧ Tab.wf (fun _ => 0) s.xp = true ∧ Tab.wf ioReset s.io = true
      ∧ Tab.wf (fun _ => 0) s.shadow = true ∧ Tab.wf (fun _ => 0) s.caps = true ∧ Tab.wf (fun _ => 0) s.regs = true
      ∧ Tab.wf (fun _ => 0) s.toks = true := by
  simp [State.canonical, and_assoc]

theorem State.hardWired_iff : s.hardWired = true ↔
    (∀ e ∈ s.regs, e.1 % 32 ≠ 0) ∧ (∀ e ∈ s.caps, e.1 % 256 ≠ 0) ∧ ∀ e ∈ s.toks, e.2 ≤ 15 := by
  simp only [State.hardWired, Bool.and_eq_true, List.all_eq_true, decide_eq_true_eq, and_assoc]

/-- Every effect keeps the canonical form of every table, the memory's among them. -/
theorem Eff.apply_canonical (e : Eff) (s : State) (h : s.canonical = true) : (e.apply s).canonical = true := by
  rw [State.canonical_iff] at h ⊢
  obtain ⟨hm, hx, hi, hs, hc, hr, ht⟩ := h
  cases e <;> simp only [Eff.apply] <;> try split
  all_goals
    refine ⟨?_, ?_, ?_, ?_, ?_, ?_, ?_⟩ <;>
      first | assumption | rfl | (refine Tab.wf_put ?_; assumption) | (refine Tab.wf_drop ?_; assumption)

/-- Every effect respects what the spec hard-wires. -/
theorem Eff.apply_hardWired (e : Eff) (s : State) (h : s.hardWired = true) : (e.apply s).hardWired = true := by
  rw [State.hardWired_iff] at h ⊢
  obtain ⟨hr, hc, ht⟩ := h
  cases e with
  | cap k v =>
    simp only [Eff.apply]; split
    · exact ⟨hr, hc, ht⟩
    · exact ⟨hr, by dsimp only; exact Tab.keys_put (P := fun k => k % 256 ≠ 0) hc ‹_›, ht⟩
  | reg k v =>
    simp only [Eff.apply]; split
    · exact ⟨hr, hc, ht⟩
    · exact ⟨by dsimp only; exact Tab.keys_put (P := fun k => k % 32 ≠ 0) hr ‹_›, hc, ht⟩
  | capClear => exact ⟨hr, by simp [Eff.apply], ht⟩
  | regClear lo n => exact ⟨fun e he => hr e (List.mem_filter.1 he).1, hc, ht⟩
  | tok k v =>
    refine ⟨hr, hc, ?_⟩
    simp only [Eff.apply]
    exact Tab.all_put (P := fun e => e.2 ≤ 15) ht (Nat.min_le_right v 15)
  | tokClear => exact ⟨hr, hc, fun e he => ht e (List.mem_filter.1 he).1⟩
  | mem | memClear | xp | xpClear | io | ioClear | shadow | shadowClear | dev => exact ⟨hr, hc, ht⟩

/-- Every effect keeps the invariant. -/
theorem Eff.apply_inv (e : Eff) (s : State) (h : s.Inv) : (e.apply s).Inv :=
  ⟨Eff.apply_canonical e s h.1, Eff.apply_hardWired e s h.2⟩

/-- Every program keeps the canonical form of every table. -/
@[simp] theorem Prog.run_canonical (p : Prog) {s : State} (h : s.canonical = true) : (p.run s).canonical = true :=
  Prog.run_keeps Eff.apply_canonical p s h

/-- Every program keeps the canonical form of the memory. -/
theorem Memory.wf_run (p : Prog) (s : State) (h : s.canonical = true) : Memory.wf (p.run s).mem = true :=
  (State.canonical_iff.1 (Prog.run_keeps Eff.apply_canonical p s h)).1

end Sys2Proof.Machine
end

