-- ==== Sys2Proof/Laws/Exec.lean ====
section
/-! SUPPORT. What a command can do: every command is a program (`exec_isRun`), so whatever every effect keeps, every
command and every step keeps. -/
namespace Sys2Proof.Machine

/-- The outcome is what some program leaves of `s`. -/
def Out.isRun (o : Out) (s : State) : Prop := ∃ p : Prog, o = .next (p.run s)

theorem performAlways_isRun (p : Prog) (s : State) : Out.isRun (performAlways p s) s := ⟨p, rfl⟩

theorem perform_isRun (p : Prog) (s : State) : Out.isRun (perform p s) s :=
  ⟨ask fun s => if s.dev.pwr.on then p else .done, by simp only [perform, Prog.run_ask]; split <;> rfl⟩

theorem Out.isRun_idle (s : State) : Out.isRun (.next s) s := ⟨.done, rfl⟩

theorem Out.isRun_after {o : Out} {s : State} (p : Prog) (h : Out.isRun o (p.run s)) : Out.isRun o s := by
  obtain ⟨q, rfl⟩ := h
  exact ⟨p.andThen q, by rw [Prog.run_andThen]⟩

theorem execUndefinedInstruction_isRun (u : UnitId) (w : BitVec 56) (s : State) :
    Out.isRun (execUndefinedInstruction u w s) s := by
  unfold execUndefinedInstruction; split <;> [exact Out.isRun_idle s; exact perform_isRun _ s]

theorem reissue_isRun (i : Instr) (s : State) : Out.isRun (reissue i s) s := by
  unfold reissue; split <;> first | exact perform_isRun _ s | exact Out.isRun_idle s

theorem execTokenWaitSatisfied_isRun (u : UnitId) (s : State) : Out.isRun (execTokenWaitSatisfied u s) s := by
  unfold execTokenWaitSatisfied
  split <;> [exact Out.isRun_idle s; split]
  · exact Out.isRun_after (waitEnds u.num) (reissue_isRun _ _)
  · exact Out.isRun_idle s

/-- Every command leaves what some program leaves. -/
theorem exec_isRun (i : Instr) (s : State) : Out.isRun (exec i s) s := by
  cases i <;>
    first
    | exact perform_isRun _ s
    | exact performAlways_isRun _ s
    | exact execUndefinedInstruction_isRun _ _ s
    | exact execTokenWaitSatisfied_isRun _ s

/-- What every effect keeps, every command keeps. -/
theorem exec_keeps {P : State → Prop} (h : ∀ (e : Eff) s, P s → P (e.apply s)) {i : Instr} {s t : State}
    (he : exec i s = .next t) (hs : P s) : P t := by
  obtain ⟨p, hp⟩ := exec_isRun i s
  rw [hp] at he
  cases he
  exact Prog.run_keeps h p s hs

/-- No command touches the queue. -/
theorem exec_pending {i : Instr} {s t : State} (he : exec i s = .next t) : t.pending = s.pending := by
  obtain ⟨p, hp⟩ := exec_isRun i s
  rw [hp] at he
  cases he
  exact Prog.run_pending p s

/-- The front of the queue runs on the state with the queue's rest. -/
theorem step_cons {c : Instr} {cs : List Instr} {s : State} (h : s.pending = c :: cs) :
    step s = exec c { s with pending := cs } := by unfold step; rw [h]

theorem step_nil {s : State} (h : s.pending = []) : step s = .next (clockTick s) := by unfold step; rw [h]

end Sys2Proof.Machine
end

