-- ==== Sys2Proof/Laws/State.lean ====
section
/-! SUPPORT. One lemma per field per update of the state: what an effect or a named operation writes, and that it leaves
every other field as it was. -/
namespace Sys2Proof.Machine

variable {s : State}

/-! ### The effects -/

@[simp] theorem Eff.mem_mem (a : Nat) (v : Byte) : ((Eff.mem a v).apply s).mem = Tab.put memDefault s.mem a v := rfl
@[simp] theorem Eff.mem_xp (a : Nat) (v : Byte) : ((Eff.mem a v).apply s).xp = s.xp := rfl
@[simp] theorem Eff.mem_io (a : Nat) (v : Byte) : ((Eff.mem a v).apply s).io = s.io := rfl
@[simp] theorem Eff.mem_shadow (a : Nat) (v : Byte) : ((Eff.mem a v).apply s).shadow = s.shadow := rfl
@[simp] theorem Eff.mem_caps (a : Nat) (v : Byte) : ((Eff.mem a v).apply s).caps = s.caps := rfl
@[simp] theorem Eff.mem_regs (a : Nat) (v : Byte) : ((Eff.mem a v).apply s).regs = s.regs := rfl
@[simp] theorem Eff.mem_toks (a : Nat) (v : Byte) : ((Eff.mem a v).apply s).toks = s.toks := rfl
@[simp] theorem Eff.mem_dev (a : Nat) (v : Byte) : ((Eff.mem a v).apply s).dev = s.dev := rfl
@[simp] theorem Eff.mem_pending (a : Nat) (v : Byte) : ((Eff.mem a v).apply s).pending = s.pending := rfl

@[simp] theorem Eff.memClear_mem (lo n : Nat) :
    ((Eff.memClear lo n).apply s).mem = Tab.drop (fun k => decide (lo ≤ k ∧ k < lo + n)) s.mem := rfl
@[simp] theorem Eff.memClear_xp (lo n : Nat) : ((Eff.memClear lo n).apply s).xp = s.xp := rfl
@[simp] theorem Eff.memClear_io (lo n : Nat) : ((Eff.memClear lo n).apply s).io = s.io := rfl
@[simp] theorem Eff.memClear_shadow (lo n : Nat) : ((Eff.memClear lo n).apply s).shadow = s.shadow := rfl
@[simp] theorem Eff.memClear_caps (lo n : Nat) : ((Eff.memClear lo n).apply s).caps = s.caps := rfl
@[simp] theorem Eff.memClear_regs (lo n : Nat) : ((Eff.memClear lo n).apply s).regs = s.regs := rfl
@[simp] theorem Eff.memClear_toks (lo n : Nat) : ((Eff.memClear lo n).apply s).toks = s.toks := rfl
@[simp] theorem Eff.memClear_dev (lo n : Nat) : ((Eff.memClear lo n).apply s).dev = s.dev := rfl
@[simp] theorem Eff.memClear_pending (lo n : Nat) : ((Eff.memClear lo n).apply s).pending = s.pending := rfl

@[simp] theorem Eff.xp_mem (k : Nat) (v : BitVec 19) : ((Eff.xp k v).apply s).mem = s.mem := rfl
@[simp] theorem Eff.xp_xp (k : Nat) (v : BitVec 19) : ((Eff.xp k v).apply s).xp = Tab.put (fun _ => 0) s.xp k v := rfl
@[simp] theorem Eff.xp_io (k : Nat) (v : BitVec 19) : ((Eff.xp k v).apply s).io = s.io := rfl
@[simp] theorem Eff.xp_shadow (k : Nat) (v : BitVec 19) : ((Eff.xp k v).apply s).shadow = s.shadow := rfl
@[simp] theorem Eff.xp_caps (k : Nat) (v : BitVec 19) : ((Eff.xp k v).apply s).caps = s.caps := rfl
@[simp] theorem Eff.xp_regs (k : Nat) (v : BitVec 19) : ((Eff.xp k v).apply s).regs = s.regs := rfl
@[simp] theorem Eff.xp_toks (k : Nat) (v : BitVec 19) : ((Eff.xp k v).apply s).toks = s.toks := rfl
@[simp] theorem Eff.xp_dev (k : Nat) (v : BitVec 19) : ((Eff.xp k v).apply s).dev = s.dev := rfl
@[simp] theorem Eff.xp_pending (k : Nat) (v : BitVec 19) : ((Eff.xp k v).apply s).pending = s.pending := rfl

@[simp] theorem Eff.xpClear_mem (lo n : Nat) : ((Eff.xpClear lo n).apply s).mem = s.mem := rfl
@[simp] theorem Eff.xpClear_xp (lo n : Nat) :
    ((Eff.xpClear lo n).apply s).xp = Tab.drop (fun k => decide (lo ≤ k ∧ k < lo + n)) s.xp := rfl
@[simp] theorem Eff.xpClear_io (lo n : Nat) : ((Eff.xpClear lo n).apply s).io = s.io := rfl
@[simp] theorem Eff.xpClear_shadow (lo n : Nat) : ((Eff.xpClear lo n).apply s).shadow = s.shadow := rfl
@[simp] theorem Eff.xpClear_caps (lo n : Nat) : ((Eff.xpClear lo n).apply s).caps = s.caps := rfl
@[simp] theorem Eff.xpClear_regs (lo n : Nat) : ((Eff.xpClear lo n).apply s).regs = s.regs := rfl
@[simp] theorem Eff.xpClear_toks (lo n : Nat) : ((Eff.xpClear lo n).apply s).toks = s.toks := rfl
@[simp] theorem Eff.xpClear_dev (lo n : Nat) : ((Eff.xpClear lo n).apply s).dev = s.dev := rfl
@[simp] theorem Eff.xpClear_pending (lo n : Nat) : ((Eff.xpClear lo n).apply s).pending = s.pending := rfl

@[simp] theorem Eff.io_mem (a : Nat) (v : Reg32) : ((Eff.io a v).apply s).mem = s.mem := rfl
@[simp] theorem Eff.io_xp (a : Nat) (v : Reg32) : ((Eff.io a v).apply s).xp = s.xp := rfl
@[simp] theorem Eff.io_io (a : Nat) (v : Reg32) : ((Eff.io a v).apply s).io = Tab.put ioReset s.io a v := rfl
@[simp] theorem Eff.io_shadow (a : Nat) (v : Reg32) : ((Eff.io a v).apply s).shadow = s.shadow := rfl
@[simp] theorem Eff.io_caps (a : Nat) (v : Reg32) : ((Eff.io a v).apply s).caps = s.caps := rfl
@[simp] theorem Eff.io_regs (a : Nat) (v : Reg32) : ((Eff.io a v).apply s).regs = s.regs := rfl
@[simp] theorem Eff.io_toks (a : Nat) (v : Reg32) : ((Eff.io a v).apply s).toks = s.toks := rfl
@[simp] theorem Eff.io_dev (a : Nat) (v : Reg32) : ((Eff.io a v).apply s).dev = s.dev := rfl
@[simp] theorem Eff.io_pending (a : Nat) (v : Reg32) : ((Eff.io a v).apply s).pending = s.pending := rfl

@[simp] theorem Eff.ioClear_mem : ((Eff.ioClear).apply s).mem = s.mem := rfl
@[simp] theorem Eff.ioClear_xp : ((Eff.ioClear).apply s).xp = s.xp := rfl
@[simp] theorem Eff.ioClear_io : ((Eff.ioClear).apply s).io = [] := rfl
@[simp] theorem Eff.ioClear_shadow : ((Eff.ioClear).apply s).shadow = s.shadow := rfl
@[simp] theorem Eff.ioClear_caps : ((Eff.ioClear).apply s).caps = s.caps := rfl
@[simp] theorem Eff.ioClear_regs : ((Eff.ioClear).apply s).regs = s.regs := rfl
@[simp] theorem Eff.ioClear_toks : ((Eff.ioClear).apply s).toks = s.toks := rfl
@[simp] theorem Eff.ioClear_dev : ((Eff.ioClear).apply s).dev = s.dev := rfl
@[simp] theorem Eff.ioClear_pending : ((Eff.ioClear).apply s).pending = s.pending := rfl

@[simp] theorem Eff.shadow_mem (a : Nat) (v : BitVec 64) : ((Eff.shadow a v).apply s).mem = s.mem := rfl
@[simp] theorem Eff.shadow_xp (a : Nat) (v : BitVec 64) : ((Eff.shadow a v).apply s).xp = s.xp := rfl
@[simp] theorem Eff.shadow_io (a : Nat) (v : BitVec 64) : ((Eff.shadow a v).apply s).io = s.io := rfl
@[simp] theorem Eff.shadow_shadow (a : Nat) (v : BitVec 64) :
    ((Eff.shadow a v).apply s).shadow = Tab.put (fun _ => 0) s.shadow a v := rfl
@[simp] theorem Eff.shadow_caps (a : Nat) (v : BitVec 64) : ((Eff.shadow a v).apply s).caps = s.caps := rfl
@[simp] theorem Eff.shadow_regs (a : Nat) (v : BitVec 64) : ((Eff.shadow a v).apply s).regs = s.regs := rfl
@[simp] theorem Eff.shadow_toks (a : Nat) (v : BitVec 64) : ((Eff.shadow a v).apply s).toks = s.toks := rfl
@[simp] theorem Eff.shadow_dev (a : Nat) (v : BitVec 64) : ((Eff.shadow a v).apply s).dev = s.dev := rfl
@[simp] theorem Eff.shadow_pending (a : Nat) (v : BitVec 64) : ((Eff.shadow a v).apply s).pending = s.pending := rfl

@[simp] theorem Eff.shadowClear_mem : ((Eff.shadowClear).apply s).mem = s.mem := rfl
@[simp] theorem Eff.shadowClear_xp : ((Eff.shadowClear).apply s).xp = s.xp := rfl
@[simp] theorem Eff.shadowClear_io : ((Eff.shadowClear).apply s).io = s.io := rfl
@[simp] theorem Eff.shadowClear_shadow : ((Eff.shadowClear).apply s).shadow = [] := rfl
@[simp] theorem Eff.shadowClear_caps : ((Eff.shadowClear).apply s).caps = s.caps := rfl
@[simp] theorem Eff.shadowClear_regs : ((Eff.shadowClear).apply s).regs = s.regs := rfl
@[simp] theorem Eff.shadowClear_toks : ((Eff.shadowClear).apply s).toks = s.toks := rfl
@[simp] theorem Eff.shadowClear_dev : ((Eff.shadowClear).apply s).dev = s.dev := rfl
@[simp] theorem Eff.shadowClear_pending : ((Eff.shadowClear).apply s).pending = s.pending := rfl

@[simp] theorem Eff.cap_mem (k : Nat) (v : BitVec 128) :
    ((Eff.cap k v).apply s).mem = s.mem := by simp only [Eff.apply]; split <;> rfl
@[simp] theorem Eff.cap_xp (k : Nat) (v : BitVec 128) :
    ((Eff.cap k v).apply s).xp = s.xp := by simp only [Eff.apply]; split <;> rfl
@[simp] theorem Eff.cap_io (k : Nat) (v : BitVec 128) :
    ((Eff.cap k v).apply s).io = s.io := by simp only [Eff.apply]; split <;> rfl
@[simp] theorem Eff.cap_shadow (k : Nat) (v : BitVec 128) :
    ((Eff.cap k v).apply s).shadow = s.shadow := by simp only [Eff.apply]; split <;> rfl
@[simp] theorem Eff.cap_caps (k : Nat) (v : BitVec 128) :
    ((Eff.cap k v).apply s).caps = if k % 256 = 0 then s.caps else Tab.put (fun _ => 0) s.caps k v :=
  by simp only [Eff.apply]; split <;> rfl
@[simp] theorem Eff.cap_regs (k : Nat) (v : BitVec 128) :
    ((Eff.cap k v).apply s).regs = s.regs := by simp only [Eff.apply]; split <;> rfl
@[simp] theorem Eff.cap_toks (k : Nat) (v : BitVec 128) :
    ((Eff.cap k v).apply s).toks = s.toks := by simp only [Eff.apply]; split <;> rfl
@[simp] theorem Eff.cap_dev (k : Nat) (v : BitVec 128) :
    ((Eff.cap k v).apply s).dev = s.dev := by simp only [Eff.apply]; split <;> rfl
@[simp] theorem Eff.cap_pending (k : Nat) (v : BitVec 128) :
    ((Eff.cap k v).apply s).pending = s.pending := by simp only [Eff.apply]; split <;> rfl

@[simp] theorem Eff.capClear_mem : ((Eff.capClear).apply s).mem = s.mem := rfl
@[simp] theorem Eff.capClear_xp : ((Eff.capClear).apply s).xp = s.xp := rfl
@[simp] theorem Eff.capClear_io : ((Eff.capClear).apply s).io = s.io := rfl
@[simp] theorem Eff.capClear_shadow : ((Eff.capClear).apply s).shadow = s.shadow := rfl
@[simp] theorem Eff.capClear_caps : ((Eff.capClear).apply s).caps = [] := rfl
@[simp] theorem Eff.capClear_regs : ((Eff.capClear).apply s).regs = s.regs := rfl
@[simp] theorem Eff.capClear_toks : ((Eff.capClear).apply s).toks = s.toks := rfl
@[simp] theorem Eff.capClear_dev : ((Eff.capClear).apply s).dev = s.dev := rfl
@[simp] theorem Eff.capClear_pending : ((Eff.capClear).apply s).pending = s.pending := rfl

@[simp] theorem Eff.reg_mem (k : Nat) (v : Word) :
    ((Eff.reg k v).apply s).mem = s.mem := by simp only [Eff.apply]; split <;> rfl
@[simp] theorem Eff.reg_xp (k : Nat) (v : Word) :
    ((Eff.reg k v).apply s).xp = s.xp := by simp only [Eff.apply]; split <;> rfl
@[simp] theorem Eff.reg_io (k : Nat) (v : Word) :
    ((Eff.reg k v).apply s).io = s.io := by simp only [Eff.apply]; split <;> rfl
@[simp] theorem Eff.reg_shadow (k : Nat) (v : Word) :
    ((Eff.reg k v).apply s).shadow = s.shadow := by simp only [Eff.apply]; split <;> rfl
@[simp] theorem Eff.reg_caps (k : Nat) (v : Word) :
    ((Eff.reg k v).apply s).caps = s.caps := by simp only [Eff.apply]; split <;> rfl
@[simp] theorem Eff.reg_regs (k : Nat) (v : Word) :
    ((Eff.reg k v).apply s).regs = if k % 32 = 0 then s.regs else Tab.put (fun _ => 0) s.regs k v :=
  by simp only [Eff.apply]; split <;> rfl
@[simp] theorem Eff.reg_toks (k : Nat) (v : Word) :
    ((Eff.reg k v).apply s).toks = s.toks := by simp only [Eff.apply]; split <;> rfl
@[simp] theorem Eff.reg_dev (k : Nat) (v : Word) :
    ((Eff.reg k v).apply s).dev = s.dev := by simp only [Eff.apply]; split <;> rfl
@[simp] theorem Eff.reg_pending (k : Nat) (v : Word) :
    ((Eff.reg k v).apply s).pending = s.pending := by simp only [Eff.apply]; split <;> rfl

@[simp] theorem Eff.regClear_mem (lo n : Nat) : ((Eff.regClear lo n).apply s).mem = s.mem := rfl
@[simp] theorem Eff.regClear_xp (lo n : Nat) : ((Eff.regClear lo n).apply s).xp = s.xp := rfl
@[simp] theorem Eff.regClear_io (lo n : Nat) : ((Eff.regClear lo n).apply s).io = s.io := rfl
@[simp] theorem Eff.regClear_shadow (lo n : Nat) : ((Eff.regClear lo n).apply s).shadow = s.shadow := rfl
@[simp] theorem Eff.regClear_caps (lo n : Nat) : ((Eff.regClear lo n).apply s).caps = s.caps := rfl
@[simp] theorem Eff.regClear_regs (lo n : Nat) :
    ((Eff.regClear lo n).apply s).regs = Tab.drop (fun k => decide (lo ≤ k ∧ k < lo + n)) s.regs := rfl
@[simp] theorem Eff.regClear_toks (lo n : Nat) : ((Eff.regClear lo n).apply s).toks = s.toks := rfl
@[simp] theorem Eff.regClear_dev (lo n : Nat) : ((Eff.regClear lo n).apply s).dev = s.dev := rfl
@[simp] theorem Eff.regClear_pending (lo n : Nat) : ((Eff.regClear lo n).apply s).pending = s.pending := rfl

@[simp] theorem Eff.tok_mem (k v : Nat) : ((Eff.tok k v).apply s).mem = s.mem := rfl
@[simp] theorem Eff.tok_xp (k v : Nat) : ((Eff.tok k v).apply s).xp = s.xp := rfl
@[simp] theorem Eff.tok_io (k v : Nat) : ((Eff.tok k v).apply s).io = s.io := rfl
@[simp] theorem Eff.tok_shadow (k v : Nat) : ((Eff.tok k v).apply s).shadow = s.shadow := rfl
@[simp] theorem Eff.tok_caps (k v : Nat) : ((Eff.tok k v).apply s).caps = s.caps := rfl
@[simp] theorem Eff.tok_regs (k v : Nat) : ((Eff.tok k v).apply s).regs = s.regs := rfl
@[simp] theorem Eff.tok_toks (k v : Nat) :
    ((Eff.tok k v).apply s).toks = Tab.put (fun _ => 0) s.toks k (min v 15) := rfl
@[simp] theorem Eff.tok_dev (k v : Nat) : ((Eff.tok k v).apply s).dev = s.dev := rfl
@[simp] theorem Eff.tok_pending (k v : Nat) : ((Eff.tok k v).apply s).pending = s.pending := rfl

@[simp] theorem Eff.tokClear_mem (lo n : Nat) : ((Eff.tokClear lo n).apply s).mem = s.mem := rfl
@[simp] theorem Eff.tokClear_xp (lo n : Nat) : ((Eff.tokClear lo n).apply s).xp = s.xp := rfl
@[simp] theorem Eff.tokClear_io (lo n : Nat) : ((Eff.tokClear lo n).apply s).io = s.io := rfl
@[simp] theorem Eff.tokClear_shadow (lo n : Nat) : ((Eff.tokClear lo n).apply s).shadow = s.shadow := rfl
@[simp] theorem Eff.tokClear_caps (lo n : Nat) : ((Eff.tokClear lo n).apply s).caps = s.caps := rfl
@[simp] theorem Eff.tokClear_regs (lo n : Nat) : ((Eff.tokClear lo n).apply s).regs = s.regs := rfl
@[simp] theorem Eff.tokClear_toks (lo n : Nat) :
    ((Eff.tokClear lo n).apply s).toks = Tab.drop (fun k => decide (lo ≤ k ∧ k < lo + n)) s.toks := rfl
@[simp] theorem Eff.tokClear_dev (lo n : Nat) : ((Eff.tokClear lo n).apply s).dev = s.dev := rfl
@[simp] theorem Eff.tokClear_pending (lo n : Nat) : ((Eff.tokClear lo n).apply s).pending = s.pending := rfl

@[simp] theorem Eff.dev_mem (f : Dev → Dev) : ((Eff.dev f).apply s).mem = s.mem := rfl
@[simp] theorem Eff.dev_xp (f : Dev → Dev) : ((Eff.dev f).apply s).xp = s.xp := rfl
@[simp] theorem Eff.dev_io (f : Dev → Dev) : ((Eff.dev f).apply s).io = s.io := rfl
@[simp] theorem Eff.dev_shadow (f : Dev → Dev) : ((Eff.dev f).apply s).shadow = s.shadow := rfl
@[simp] theorem Eff.dev_caps (f : Dev → Dev) : ((Eff.dev f).apply s).caps = s.caps := rfl
@[simp] theorem Eff.dev_regs (f : Dev → Dev) : ((Eff.dev f).apply s).regs = s.regs := rfl
@[simp] theorem Eff.dev_toks (f : Dev → Dev) : ((Eff.dev f).apply s).toks = s.toks := rfl
@[simp] theorem Eff.dev_dev (f : Dev → Dev) : ((Eff.dev f).apply s).dev = f s.dev := rfl
@[simp] theorem Eff.dev_pending (f : Dev → Dev) : ((Eff.dev f).apply s).pending = s.pending := rfl

/-! ### The named operations: the tables of the state, then the parts of `dev` -/

@[simp] theorem modHart_mem (u : Nat) (f : Hart → Hart) : ((modHart u f).run s).mem = s.mem := rfl
@[simp] theorem modHart_xp (u : Nat) (f : Hart → Hart) : ((modHart u f).run s).xp = s.xp := rfl
@[simp] theorem modHart_io (u : Nat) (f : Hart → Hart) : ((modHart u f).run s).io = s.io := rfl
@[simp] theorem modHart_shadow (u : Nat) (f : Hart → Hart) : ((modHart u f).run s).shadow = s.shadow := rfl
@[simp] theorem modHart_caps (u : Nat) (f : Hart → Hart) : ((modHart u f).run s).caps = s.caps := rfl
@[simp] theorem modHart_regs (u : Nat) (f : Hart → Hart) : ((modHart u f).run s).regs = s.regs := rfl
@[simp] theorem modHart_toks (u : Nat) (f : Hart → Hart) : ((modHart u f).run s).toks = s.toks := rfl
@[simp] theorem modHart_pending (u : Nat) (f : Hart → Hart) : ((modHart u f).run s).pending = s.pending := rfl
@[simp] theorem modHart_dev_beat (u : Nat) (f : Hart → Hart) : ((modHart u f).run s).dev.beat = s.dev.beat := rfl
@[simp] theorem modHart_dev_harts (u : Nat) (f : Hart → Hart) :
    ((modHart u f).run s).dev.harts = Tab.insert u (f (s.hart u)) s.dev.harts := rfl
@[simp] theorem modHart_dev_links (u : Nat) (f : Hart → Hart) : ((modHart u f).run s).dev.links = s.dev.links := rfl
@[simp] theorem modHart_dev_bridges (u : Nat) (f : Hart → Hart) :
    ((modHart u f).run s).dev.bridges = s.dev.bridges := rfl
@[simp] theorem modHart_dev_parts (u : Nat) (f : Hart → Hart) : ((modHart u f).run s).dev.parts = s.dev.parts := rfl
@[simp] theorem modHart_dev_banks (u : Nat) (f : Hart → Hart) : ((modHart u f).run s).dev.banks = s.dev.banks := rfl
@[simp] theorem modHart_dev_fuses (u : Nat) (f : Hart → Hart) : ((modHart u f).run s).dev.fuses = s.dev.fuses := rfl
@[simp] theorem modHart_dev_job (u : Nat) (f : Hart → Hart) : ((modHart u f).run s).dev.job = s.dev.job := rfl
@[simp] theorem modHart_dev_stop (u : Nat) (f : Hart → Hart) : ((modHart u f).run s).dev.stop = s.dev.stop := rfl
@[simp] theorem modHart_dev_recd (u : Nat) (f : Hart → Hart) : ((modHart u f).run s).dev.recd = s.dev.recd := rfl
@[simp] theorem modHart_dev_icu (u : Nat) (f : Hart → Hart) : ((modHart u f).run s).dev.icu = s.dev.icu := rfl
@[simp] theorem modHart_dev_dbg (u : Nat) (f : Hart → Hart) : ((modHart u f).run s).dev.dbg = s.dev.dbg := rfl
@[simp] theorem modHart_dev_pwr (u : Nat) (f : Hart → Hart) : ((modHart u f).run s).dev.pwr = s.dev.pwr := rfl
@[simp] theorem modHart_dev_readData (u : Nat) (f : Hart → Hart) :
    ((modHart u f).run s).dev.readData = s.dev.readData := rfl
@[simp] theorem modHart_dev_readPoison (u : Nat) (f : Hart → Hart) :
    ((modHart u f).run s).dev.readPoison = s.dev.readPoison := rfl
@[simp] theorem modHart_dev_lastOut (u : Nat) (f : Hart → Hart) :
    ((modHart u f).run s).dev.lastOut = s.dev.lastOut := rfl
@[simp] theorem modHart_dev_free (u : Nat) (f : Hart → Hart) : ((modHart u f).run s).dev.free = s.dev.free := rfl

@[simp] theorem modLink_mem (l : Nat) (f : Link → Link) : ((modLink l f).run s).mem = s.mem := rfl
@[simp] theorem modLink_xp (l : Nat) (f : Link → Link) : ((modLink l f).run s).xp = s.xp := rfl
@[simp] theorem modLink_io (l : Nat) (f : Link → Link) : ((modLink l f).run s).io = s.io := rfl
@[simp] theorem modLink_shadow (l : Nat) (f : Link → Link) : ((modLink l f).run s).shadow = s.shadow := rfl
@[simp] theorem modLink_caps (l : Nat) (f : Link → Link) : ((modLink l f).run s).caps = s.caps := rfl
@[simp] theorem modLink_regs (l : Nat) (f : Link → Link) : ((modLink l f).run s).regs = s.regs := rfl
@[simp] theorem modLink_toks (l : Nat) (f : Link → Link) : ((modLink l f).run s).toks = s.toks := rfl
@[simp] theorem modLink_pending (l : Nat) (f : Link → Link) : ((modLink l f).run s).pending = s.pending := rfl
@[simp] theorem modLink_dev_beat (l : Nat) (f : Link → Link) : ((modLink l f).run s).dev.beat = s.dev.beat := rfl
@[simp] theorem modLink_dev_harts (l : Nat) (f : Link → Link) : ((modLink l f).run s).dev.harts = s.dev.harts := rfl
@[simp] theorem modLink_dev_links (l : Nat) (f : Link → Link) :
    ((modLink l f).run s).dev.links = Tab.insert l (f (s.link l)) s.dev.links := rfl
@[simp] theorem modLink_dev_bridges (l : Nat) (f : Link → Link) :
    ((modLink l f).run s).dev.bridges = s.dev.bridges := rfl
@[simp] theorem modLink_dev_parts (l : Nat) (f : Link → Link) : ((modLink l f).run s).dev.parts = s.dev.parts := rfl
@[simp] theorem modLink_dev_banks (l : Nat) (f : Link → Link) : ((modLink l f).run s).dev.banks = s.dev.banks := rfl
@[simp] theorem modLink_dev_fuses (l : Nat) (f : Link → Link) : ((modLink l f).run s).dev.fuses = s.dev.fuses := rfl
@[simp] theorem modLink_dev_job (l : Nat) (f : Link → Link) : ((modLink l f).run s).dev.job = s.dev.job := rfl
@[simp] theorem modLink_dev_stop (l : Nat) (f : Link → Link) : ((modLink l f).run s).dev.stop = s.dev.stop := rfl
@[simp] theorem modLink_dev_recd (l : Nat) (f : Link → Link) : ((modLink l f).run s).dev.recd = s.dev.recd := rfl
@[simp] theorem modLink_dev_icu (l : Nat) (f : Link → Link) : ((modLink l f).run s).dev.icu = s.dev.icu := rfl
@[simp] theorem modLink_dev_dbg (l : Nat) (f : Link → Link) : ((modLink l f).run s).dev.dbg = s.dev.dbg := rfl
@[simp] theorem modLink_dev_pwr (l : Nat) (f : Link → Link) : ((modLink l f).run s).dev.pwr = s.dev.pwr := rfl
@[simp] theorem modLink_dev_readData (l : Nat) (f : Link → Link) :
    ((modLink l f).run s).dev.readData = s.dev.readData := rfl
@[simp] theorem modLink_dev_readPoison (l : Nat) (f : Link → Link) :
    ((modLink l f).run s).dev.readPoison = s.dev.readPoison := rfl
@[simp] theorem modLink_dev_lastOut (l : Nat) (f : Link → Link) :
    ((modLink l f).run s).dev.lastOut = s.dev.lastOut := rfl
@[simp] theorem modLink_dev_free (l : Nat) (f : Link → Link) : ((modLink l f).run s).dev.free = s.dev.free := rfl

@[simp] theorem modBridge_mem (n : Nat) (f : Bridge → Bridge) : ((modBridge n f).run s).mem = s.mem := rfl
@[simp] theorem modBridge_xp (n : Nat) (f : Bridge → Bridge) : ((modBridge n f).run s).xp = s.xp := rfl
@[simp] theorem modBridge_io (n : Nat) (f : Bridge → Bridge) : ((modBridge n f).run s).io = s.io := rfl
@[simp] theorem modBridge_shadow (n : Nat) (f : Bridge → Bridge) : ((modBridge n f).run s).shadow = s.shadow := rfl
@[simp] theorem modBridge_caps (n : Nat) (f : Bridge → Bridge) : ((modBridge n f).run s).caps = s.caps := rfl
@[simp] theorem modBridge_regs (n : Nat) (f : Bridge → Bridge) : ((modBridge n f).run s).regs = s.regs := rfl
@[simp] theorem modBridge_toks (n : Nat) (f : Bridge → Bridge) : ((modBridge n f).run s).toks = s.toks := rfl
@[simp] theorem modBridge_pending (n : Nat) (f : Bridge → Bridge) : ((modBridge n f).run s).pending = s.pending := rfl
@[simp] theorem modBridge_dev_beat (n : Nat) (f : Bridge → Bridge) :
    ((modBridge n f).run s).dev.beat = s.dev.beat := rfl
@[simp] theorem modBridge_dev_harts (n : Nat) (f : Bridge → Bridge) :
    ((modBridge n f).run s).dev.harts = s.dev.harts := rfl
@[simp] theorem modBridge_dev_links (n : Nat) (f : Bridge → Bridge) :
    ((modBridge n f).run s).dev.links = s.dev.links := rfl
@[simp] theorem modBridge_dev_bridges (n : Nat) (f : Bridge → Bridge) :
    ((modBridge n f).run s).dev.bridges = Tab.insert n (f (s.bridge n)) s.dev.bridges := rfl
@[simp] theorem modBridge_dev_parts (n : Nat) (f : Bridge → Bridge) :
    ((modBridge n f).run s).dev.parts = s.dev.parts := rfl
@[simp] theorem modBridge_dev_banks (n : Nat) (f : Bridge → Bridge) :
    ((modBridge n f).run s).dev.banks = s.dev.banks := rfl
@[simp] theorem modBridge_dev_fuses (n : Nat) (f : Bridge → Bridge) :
    ((modBridge n f).run s).dev.fuses = s.dev.fuses := rfl
@[simp] theorem modBridge_dev_job (n : Nat) (f : Bridge → Bridge) : ((modBridge n f).run s).dev.job = s.dev.job := rfl
@[simp] theorem modBridge_dev_stop (n : Nat) (f : Bridge → Bridge) :
    ((modBridge n f).run s).dev.stop = s.dev.stop := rfl
@[simp] theorem modBridge_dev_recd (n : Nat) (f : Bridge → Bridge) :
    ((modBridge n f).run s).dev.recd = s.dev.recd := rfl
@[simp] theorem modBridge_dev_icu (n : Nat) (f : Bridge → Bridge) : ((modBridge n f).run s).dev.icu = s.dev.icu := rfl
@[simp] theorem modBridge_dev_dbg (n : Nat) (f : Bridge → Bridge) : ((modBridge n f).run s).dev.dbg = s.dev.dbg := rfl
@[simp] theorem modBridge_dev_pwr (n : Nat) (f : Bridge → Bridge) : ((modBridge n f).run s).dev.pwr = s.dev.pwr := rfl
@[simp] theorem modBridge_dev_readData (n : Nat) (f : Bridge → Bridge) :
    ((modBridge n f).run s).dev.readData = s.dev.readData := rfl
@[simp] theorem modBridge_dev_readPoison (n : Nat) (f : Bridge → Bridge) :
    ((modBridge n f).run s).dev.readPoison = s.dev.readPoison := rfl
@[simp] theorem modBridge_dev_lastOut (n : Nat) (f : Bridge → Bridge) :
    ((modBridge n f).run s).dev.lastOut = s.dev.lastOut := rfl
@[simp] theorem modBridge_dev_free (n : Nat) (f : Bridge → Bridge) :
    ((modBridge n f).run s).dev.free = s.dev.free := rfl

@[simp] theorem modPart_mem (p : Nat) (f : Part → Part) : ((modPart p f).run s).mem = s.mem := rfl
@[simp] theorem modPart_xp (p : Nat) (f : Part → Part) : ((modPart p f).run s).xp = s.xp := rfl
@[simp] theorem modPart_io (p : Nat) (f : Part → Part) : ((modPart p f).run s).io = s.io := rfl
@[simp] theorem modPart_shadow (p : Nat) (f : Part → Part) : ((modPart p f).run s).shadow = s.shadow := rfl
@[simp] theorem modPart_caps (p : Nat) (f : Part → Part) : ((modPart p f).run s).caps = s.caps := rfl
@[simp] theorem modPart_regs (p : Nat) (f : Part → Part) : ((modPart p f).run s).regs = s.regs := rfl
@[simp] theorem modPart_toks (p : Nat) (f : Part → Part) : ((modPart p f).run s).toks = s.toks := rfl
@[simp] theorem modPart_pending (p : Nat) (f : Part → Part) : ((modPart p f).run s).pending = s.pending := rfl
@[simp] theorem modPart_dev_beat (p : Nat) (f : Part → Part) : ((modPart p f).run s).dev.beat = s.dev.beat := rfl
@[simp] theorem modPart_dev_harts (p : Nat) (f : Part → Part) : ((modPart p f).run s).dev.harts = s.dev.harts := rfl
@[simp] theorem modPart_dev_links (p : Nat) (f : Part → Part) : ((modPart p f).run s).dev.links = s.dev.links := rfl
@[simp] theorem modPart_dev_bridges (p : Nat) (f : Part → Part) :
    ((modPart p f).run s).dev.bridges = s.dev.bridges := rfl
@[simp] theorem modPart_dev_parts (p : Nat) (f : Part → Part) :
    ((modPart p f).run s).dev.parts = Tab.insert p (f (s.part p)) s.dev.parts := rfl
@[simp] theorem modPart_dev_banks (p : Nat) (f : Part → Part) : ((modPart p f).run s).dev.banks = s.dev.banks := rfl
@[simp] theorem modPart_dev_fuses (p : Nat) (f : Part → Part) : ((modPart p f).run s).dev.fuses = s.dev.fuses := rfl
@[simp] theorem modPart_dev_job (p : Nat) (f : Part → Part) : ((modPart p f).run s).dev.job = s.dev.job := rfl
@[simp] theorem modPart_dev_stop (p : Nat) (f : Part → Part) : ((modPart p f).run s).dev.stop = s.dev.stop := rfl
@[simp] theorem modPart_dev_recd (p : Nat) (f : Part → Part) : ((modPart p f).run s).dev.recd = s.dev.recd := rfl
@[simp] theorem modPart_dev_icu (p : Nat) (f : Part → Part) : ((modPart p f).run s).dev.icu = s.dev.icu := rfl
@[simp] theorem modPart_dev_dbg (p : Nat) (f : Part → Part) : ((modPart p f).run s).dev.dbg = s.dev.dbg := rfl
@[simp] theorem modPart_dev_pwr (p : Nat) (f : Part → Part) : ((modPart p f).run s).dev.pwr = s.dev.pwr := rfl
@[simp] theorem modPart_dev_readData (p : Nat) (f : Part → Part) :
    ((modPart p f).run s).dev.readData = s.dev.readData := rfl
@[simp] theorem modPart_dev_readPoison (p : Nat) (f : Part → Part) :
    ((modPart p f).run s).dev.readPoison = s.dev.readPoison := rfl
@[simp] theorem modPart_dev_lastOut (p : Nat) (f : Part → Part) :
    ((modPart p f).run s).dev.lastOut = s.dev.lastOut := rfl
@[simp] theorem modPart_dev_free (p : Nat) (f : Part → Part) : ((modPart p f).run s).dev.free = s.dev.free := rfl

@[simp] theorem modBank_mem (b : Nat) (f : Bank → Bank) : ((modBank b f).run s).mem = s.mem := rfl
@[simp] theorem modBank_xp (b : Nat) (f : Bank → Bank) : ((modBank b f).run s).xp = s.xp := rfl
@[simp] theorem modBank_io (b : Nat) (f : Bank → Bank) : ((modBank b f).run s).io = s.io := rfl
@[simp] theorem modBank_shadow (b : Nat) (f : Bank → Bank) : ((modBank b f).run s).shadow = s.shadow := rfl
@[simp] theorem modBank_caps (b : Nat) (f : Bank → Bank) : ((modBank b f).run s).caps = s.caps := rfl
@[simp] theorem modBank_regs (b : Nat) (f : Bank → Bank) : ((modBank b f).run s).regs = s.regs := rfl
@[simp] theorem modBank_toks (b : Nat) (f : Bank → Bank) : ((modBank b f).run s).toks = s.toks := rfl
@[simp] theorem modBank_pending (b : Nat) (f : Bank → Bank) : ((modBank b f).run s).pending = s.pending := rfl
@[simp] theorem modBank_dev_beat (b : Nat) (f : Bank → Bank) : ((modBank b f).run s).dev.beat = s.dev.beat := rfl
@[simp] theorem modBank_dev_harts (b : Nat) (f : Bank → Bank) : ((modBank b f).run s).dev.harts = s.dev.harts := rfl
@[simp] theorem modBank_dev_links (b : Nat) (f : Bank → Bank) : ((modBank b f).run s).dev.links = s.dev.links := rfl
@[simp] theorem modBank_dev_bridges (b : Nat) (f : Bank → Bank) :
    ((modBank b f).run s).dev.bridges = s.dev.bridges := rfl
@[simp] theorem modBank_dev_parts (b : Nat) (f : Bank → Bank) : ((modBank b f).run s).dev.parts = s.dev.parts := rfl
@[simp] theorem modBank_dev_banks (b : Nat) (f : Bank → Bank) :
    ((modBank b f).run s).dev.banks = Tab.insert b (f (s.bank b)) s.dev.banks := rfl
@[simp] theorem modBank_dev_fuses (b : Nat) (f : Bank → Bank) : ((modBank b f).run s).dev.fuses = s.dev.fuses := rfl
@[simp] theorem modBank_dev_job (b : Nat) (f : Bank → Bank) : ((modBank b f).run s).dev.job = s.dev.job := rfl
@[simp] theorem modBank_dev_stop (b : Nat) (f : Bank → Bank) : ((modBank b f).run s).dev.stop = s.dev.stop := rfl
@[simp] theorem modBank_dev_recd (b : Nat) (f : Bank → Bank) : ((modBank b f).run s).dev.recd = s.dev.recd := rfl
@[simp] theorem modBank_dev_icu (b : Nat) (f : Bank → Bank) : ((modBank b f).run s).dev.icu = s.dev.icu := rfl
@[simp] theorem modBank_dev_dbg (b : Nat) (f : Bank → Bank) : ((modBank b f).run s).dev.dbg = s.dev.dbg := rfl
@[simp] theorem modBank_dev_pwr (b : Nat) (f : Bank → Bank) : ((modBank b f).run s).dev.pwr = s.dev.pwr := rfl
@[simp] theorem modBank_dev_readData (b : Nat) (f : Bank → Bank) :
    ((modBank b f).run s).dev.readData = s.dev.readData := rfl
@[simp] theorem modBank_dev_readPoison (b : Nat) (f : Bank → Bank) :
    ((modBank b f).run s).dev.readPoison = s.dev.readPoison := rfl
@[simp] theorem modBank_dev_lastOut (b : Nat) (f : Bank → Bank) :
    ((modBank b f).run s).dev.lastOut = s.dev.lastOut := rfl
@[simp] theorem modBank_dev_free (b : Nat) (f : Bank → Bank) : ((modBank b f).run s).dev.free = s.dev.free := rfl

@[simp] theorem modJob_mem (f : JobSt → JobSt) : ((modJob f).run s).mem = s.mem := rfl
@[simp] theorem modJob_xp (f : JobSt → JobSt) : ((modJob f).run s).xp = s.xp := rfl
@[simp] theorem modJob_io (f : JobSt → JobSt) : ((modJob f).run s).io = s.io := rfl
@[simp] theorem modJob_shadow (f : JobSt → JobSt) : ((modJob f).run s).shadow = s.shadow := rfl
@[simp] theorem modJob_caps (f : JobSt → JobSt) : ((modJob f).run s).caps = s.caps := rfl
@[simp] theorem modJob_regs (f : JobSt → JobSt) : ((modJob f).run s).regs = s.regs := rfl
@[simp] theorem modJob_toks (f : JobSt → JobSt) : ((modJob f).run s).toks = s.toks := rfl
@[simp] theorem modJob_pending (f : JobSt → JobSt) : ((modJob f).run s).pending = s.pending := rfl
@[simp] theorem modJob_dev_beat (f : JobSt → JobSt) : ((modJob f).run s).dev.beat = s.dev.beat := rfl
@[simp] theorem modJob_dev_harts (f : JobSt → JobSt) : ((modJob f).run s).dev.harts = s.dev.harts := rfl
@[simp] theorem modJob_dev_links (f : JobSt → JobSt) : ((modJob f).run s).dev.links = s.dev.links := rfl
@[simp] theorem modJob_dev_bridges (f : JobSt → JobSt) : ((modJob f).run s).dev.bridges = s.dev.bridges := rfl
@[simp] theorem modJob_dev_parts (f : JobSt → JobSt) : ((modJob f).run s).dev.parts = s.dev.parts := rfl
@[simp] theorem modJob_dev_banks (f : JobSt → JobSt) : ((modJob f).run s).dev.banks = s.dev.banks := rfl
@[simp] theorem modJob_dev_fuses (f : JobSt → JobSt) : ((modJob f).run s).dev.fuses = s.dev.fuses := rfl
@[simp] theorem modJob_dev_job (f : JobSt → JobSt) : ((modJob f).run s).dev.job = f s.dev.job := rfl
@[simp] theorem modJob_dev_stop (f : JobSt → JobSt) : ((modJob f).run s).dev.stop = s.dev.stop := rfl
@[simp] theorem modJob_dev_recd (f : JobSt → JobSt) : ((modJob f).run s).dev.recd = s.dev.recd := rfl
@[simp] theorem modJob_dev_icu (f : JobSt → JobSt) : ((modJob f).run s).dev.icu = s.dev.icu := rfl
@[simp] theorem modJob_dev_dbg (f : JobSt → JobSt) : ((modJob f).run s).dev.dbg = s.dev.dbg := rfl
@[simp] theorem modJob_dev_pwr (f : JobSt → JobSt) : ((modJob f).run s).dev.pwr = s.dev.pwr := rfl
@[simp] theorem modJob_dev_readData (f : JobSt → JobSt) : ((modJob f).run s).dev.readData = s.dev.readData := rfl
@[simp] theorem modJob_dev_readPoison (f : JobSt → JobSt) : ((modJob f).run s).dev.readPoison = s.dev.readPoison := rfl
@[simp] theorem modJob_dev_lastOut (f : JobSt → JobSt) : ((modJob f).run s).dev.lastOut = s.dev.lastOut := rfl
@[simp] theorem modJob_dev_free (f : JobSt → JobSt) : ((modJob f).run s).dev.free = s.dev.free := rfl

@[simp] theorem modRec_mem (f : RecSt → RecSt) : ((modRec f).run s).mem = s.mem := rfl
@[simp] theorem modRec_xp (f : RecSt → RecSt) : ((modRec f).run s).xp = s.xp := rfl
@[simp] theorem modRec_io (f : RecSt → RecSt) : ((modRec f).run s).io = s.io := rfl
@[simp] theorem modRec_shadow (f : RecSt → RecSt) : ((modRec f).run s).shadow = s.shadow := rfl
@[simp] theorem modRec_caps (f : RecSt → RecSt) : ((modRec f).run s).caps = s.caps := rfl
@[simp] theorem modRec_regs (f : RecSt → RecSt) : ((modRec f).run s).regs = s.regs := rfl
@[simp] theorem modRec_toks (f : RecSt → RecSt) : ((modRec f).run s).toks = s.toks := rfl
@[simp] theorem modRec_pending (f : RecSt → RecSt) : ((modRec f).run s).pending = s.pending := rfl
@[simp] theorem modRec_dev_beat (f : RecSt → RecSt) : ((modRec f).run s).dev.beat = s.dev.beat := rfl
@[simp] theorem modRec_dev_harts (f : RecSt → RecSt) : ((modRec f).run s).dev.harts = s.dev.harts := rfl
@[simp] theorem modRec_dev_links (f : RecSt → RecSt) : ((modRec f).run s).dev.links = s.dev.links := rfl
@[simp] theorem modRec_dev_bridges (f : RecSt → RecSt) : ((modRec f).run s).dev.bridges = s.dev.bridges := rfl
@[simp] theorem modRec_dev_parts (f : RecSt → RecSt) : ((modRec f).run s).dev.parts = s.dev.parts := rfl
@[simp] theorem modRec_dev_banks (f : RecSt → RecSt) : ((modRec f).run s).dev.banks = s.dev.banks := rfl
@[simp] theorem modRec_dev_fuses (f : RecSt → RecSt) : ((modRec f).run s).dev.fuses = s.dev.fuses := rfl
@[simp] theorem modRec_dev_job (f : RecSt → RecSt) : ((modRec f).run s).dev.job = s.dev.job := rfl
@[simp] theorem modRec_dev_stop (f : RecSt → RecSt) : ((modRec f).run s).dev.stop = s.dev.stop := rfl
@[simp] theorem modRec_dev_recd (f : RecSt → RecSt) : ((modRec f).run s).dev.recd = f s.dev.recd := rfl
@[simp] theorem modRec_dev_icu (f : RecSt → RecSt) : ((modRec f).run s).dev.icu = s.dev.icu := rfl
@[simp] theorem modRec_dev_dbg (f : RecSt → RecSt) : ((modRec f).run s).dev.dbg = s.dev.dbg := rfl
@[simp] theorem modRec_dev_pwr (f : RecSt → RecSt) : ((modRec f).run s).dev.pwr = s.dev.pwr := rfl
@[simp] theorem modRec_dev_readData (f : RecSt → RecSt) : ((modRec f).run s).dev.readData = s.dev.readData := rfl
@[simp] theorem modRec_dev_readPoison (f : RecSt → RecSt) : ((modRec f).run s).dev.readPoison = s.dev.readPoison := rfl
@[simp] theorem modRec_dev_lastOut (f : RecSt → RecSt) : ((modRec f).run s).dev.lastOut = s.dev.lastOut := rfl
@[simp] theorem modRec_dev_free (f : RecSt → RecSt) : ((modRec f).run s).dev.free = s.dev.free := rfl

@[simp] theorem modBeat_mem (f : BeatSt → BeatSt) : ((modBeat f).run s).mem = s.mem := rfl
@[simp] theorem modBeat_xp (f : BeatSt → BeatSt) : ((modBeat f).run s).xp = s.xp := rfl
@[simp] theorem modBeat_io (f : BeatSt → BeatSt) : ((modBeat f).run s).io = s.io := rfl
@[simp] theorem modBeat_shadow (f : BeatSt → BeatSt) : ((modBeat f).run s).shadow = s.shadow := rfl
@[simp] theorem modBeat_caps (f : BeatSt → BeatSt) : ((modBeat f).run s).caps = s.caps := rfl
@[simp] theorem modBeat_regs (f : BeatSt → BeatSt) : ((modBeat f).run s).regs = s.regs := rfl
@[simp] theorem modBeat_toks (f : BeatSt → BeatSt) : ((modBeat f).run s).toks = s.toks := rfl
@[simp] theorem modBeat_pending (f : BeatSt → BeatSt) : ((modBeat f).run s).pending = s.pending := rfl
@[simp] theorem modBeat_dev_beat (f : BeatSt → BeatSt) : ((modBeat f).run s).dev.beat = f s.dev.beat := rfl
@[simp] theorem modBeat_dev_harts (f : BeatSt → BeatSt) : ((modBeat f).run s).dev.harts = s.dev.harts := rfl
@[simp] theorem modBeat_dev_links (f : BeatSt → BeatSt) : ((modBeat f).run s).dev.links = s.dev.links := rfl
@[simp] theorem modBeat_dev_bridges (f : BeatSt → BeatSt) : ((modBeat f).run s).dev.bridges = s.dev.bridges := rfl
@[simp] theorem modBeat_dev_parts (f : BeatSt → BeatSt) : ((modBeat f).run s).dev.parts = s.dev.parts := rfl
@[simp] theorem modBeat_dev_banks (f : BeatSt → BeatSt) : ((modBeat f).run s).dev.banks = s.dev.banks := rfl
@[simp] theorem modBeat_dev_fuses (f : BeatSt → BeatSt) : ((modBeat f).run s).dev.fuses = s.dev.fuses := rfl
@[simp] theorem modBeat_dev_job (f : BeatSt → BeatSt) : ((modBeat f).run s).dev.job = s.dev.job := rfl
@[simp] theorem modBeat_dev_stop (f : BeatSt → BeatSt) : ((modBeat f).run s).dev.stop = s.dev.stop := rfl
@[simp] theorem modBeat_dev_recd (f : BeatSt → BeatSt) : ((modBeat f).run s).dev.recd = s.dev.recd := rfl
@[simp] theorem modBeat_dev_icu (f : BeatSt → BeatSt) : ((modBeat f).run s).dev.icu = s.dev.icu := rfl
@[simp] theorem modBeat_dev_dbg (f : BeatSt → BeatSt) : ((modBeat f).run s).dev.dbg = s.dev.dbg := rfl
@[simp] theorem modBeat_dev_pwr (f : BeatSt → BeatSt) : ((modBeat f).run s).dev.pwr = s.dev.pwr := rfl
@[simp] theorem modBeat_dev_readData (f : BeatSt → BeatSt) : ((modBeat f).run s).dev.readData = s.dev.readData := rfl
@[simp] theorem modBeat_dev_readPoison (f : BeatSt → BeatSt) :
    ((modBeat f).run s).dev.readPoison = s.dev.readPoison := rfl
@[simp] theorem modBeat_dev_lastOut (f : BeatSt → BeatSt) : ((modBeat f).run s).dev.lastOut = s.dev.lastOut := rfl
@[simp] theorem modBeat_dev_free (f : BeatSt → BeatSt) : ((modBeat f).run s).dev.free = s.dev.free := rfl

@[simp] theorem modStop_mem (f : StopSt → StopSt) : ((modStop f).run s).mem = s.mem := rfl
@[simp] theorem modStop_xp (f : StopSt → StopSt) : ((modStop f).run s).xp = s.xp := rfl
@[simp] theorem modStop_io (f : StopSt → StopSt) : ((modStop f).run s).io = s.io := rfl
@[simp] theorem modStop_shadow (f : StopSt → StopSt) : ((modStop f).run s).shadow = s.shadow := rfl
@[simp] theorem modStop_caps (f : StopSt → StopSt) : ((modStop f).run s).caps = s.caps := rfl
@[simp] theorem modStop_regs (f : StopSt → StopSt) : ((modStop f).run s).regs = s.regs := rfl
@[simp] theorem modStop_toks (f : StopSt → StopSt) : ((modStop f).run s).toks = s.toks := rfl
@[simp] theorem modStop_pending (f : StopSt → StopSt) : ((modStop f).run s).pending = s.pending := rfl
@[simp] theorem modStop_dev_beat (f : StopSt → StopSt) : ((modStop f).run s).dev.beat = s.dev.beat := rfl
@[simp] theorem modStop_dev_harts (f : StopSt → StopSt) : ((modStop f).run s).dev.harts = s.dev.harts := rfl
@[simp] theorem modStop_dev_links (f : StopSt → StopSt) : ((modStop f).run s).dev.links = s.dev.links := rfl
@[simp] theorem modStop_dev_bridges (f : StopSt → StopSt) : ((modStop f).run s).dev.bridges = s.dev.bridges := rfl
@[simp] theorem modStop_dev_parts (f : StopSt → StopSt) : ((modStop f).run s).dev.parts = s.dev.parts := rfl
@[simp] theorem modStop_dev_banks (f : StopSt → StopSt) : ((modStop f).run s).dev.banks = s.dev.banks := rfl
@[simp] theorem modStop_dev_fuses (f : StopSt → StopSt) : ((modStop f).run s).dev.fuses = s.dev.fuses := rfl
@[simp] theorem modStop_dev_job (f : StopSt → StopSt) : ((modStop f).run s).dev.job = s.dev.job := rfl
@[simp] theorem modStop_dev_stop (f : StopSt → StopSt) : ((modStop f).run s).dev.stop = f s.dev.stop := rfl
@[simp] theorem modStop_dev_recd (f : StopSt → StopSt) : ((modStop f).run s).dev.recd = s.dev.recd := rfl
@[simp] theorem modStop_dev_icu (f : StopSt → StopSt) : ((modStop f).run s).dev.icu = s.dev.icu := rfl
@[simp] theorem modStop_dev_dbg (f : StopSt → StopSt) : ((modStop f).run s).dev.dbg = s.dev.dbg := rfl
@[simp] theorem modStop_dev_pwr (f : StopSt → StopSt) : ((modStop f).run s).dev.pwr = s.dev.pwr := rfl
@[simp] theorem modStop_dev_readData (f : StopSt → StopSt) : ((modStop f).run s).dev.readData = s.dev.readData := rfl
@[simp] theorem modStop_dev_readPoison (f : StopSt → StopSt) :
    ((modStop f).run s).dev.readPoison = s.dev.readPoison := rfl
@[simp] theorem modStop_dev_lastOut (f : StopSt → StopSt) : ((modStop f).run s).dev.lastOut = s.dev.lastOut := rfl
@[simp] theorem modStop_dev_free (f : StopSt → StopSt) : ((modStop f).run s).dev.free = s.dev.free := rfl

@[simp] theorem modIcu_mem (f : IcuSt → IcuSt) : ((modIcu f).run s).mem = s.mem := rfl
@[simp] theorem modIcu_xp (f : IcuSt → IcuSt) : ((modIcu f).run s).xp = s.xp := rfl
@[simp] theorem modIcu_io (f : IcuSt → IcuSt) : ((modIcu f).run s).io = s.io := rfl
@[simp] theorem modIcu_shadow (f : IcuSt → IcuSt) : ((modIcu f).run s).shadow = s.shadow := rfl
@[simp] theorem modIcu_caps (f : IcuSt → IcuSt) : ((modIcu f).run s).caps = s.caps := rfl
@[simp] theorem modIcu_regs (f : IcuSt → IcuSt) : ((modIcu f).run s).regs = s.regs := rfl
@[simp] theorem modIcu_toks (f : IcuSt → IcuSt) : ((modIcu f).run s).toks = s.toks := rfl
@[simp] theorem modIcu_pending (f : IcuSt → IcuSt) : ((modIcu f).run s).pending = s.pending := rfl
@[simp] theorem modIcu_dev_beat (f : IcuSt → IcuSt) : ((modIcu f).run s).dev.beat = s.dev.beat := rfl
@[simp] theorem modIcu_dev_harts (f : IcuSt → IcuSt) : ((modIcu f).run s).dev.harts = s.dev.harts := rfl
@[simp] theorem modIcu_dev_links (f : IcuSt → IcuSt) : ((modIcu f).run s).dev.links = s.dev.links := rfl
@[simp] theorem modIcu_dev_bridges (f : IcuSt → IcuSt) : ((modIcu f).run s).dev.bridges = s.dev.bridges := rfl
@[simp] theorem modIcu_dev_parts (f : IcuSt → IcuSt) : ((modIcu f).run s).dev.parts = s.dev.parts := rfl
@[simp] theorem modIcu_dev_banks (f : IcuSt → IcuSt) : ((modIcu f).run s).dev.banks = s.dev.banks := rfl
@[simp] theorem modIcu_dev_fuses (f : IcuSt → IcuSt) : ((modIcu f).run s).dev.fuses = s.dev.fuses := rfl
@[simp] theorem modIcu_dev_job (f : IcuSt → IcuSt) : ((modIcu f).run s).dev.job = s.dev.job := rfl
@[simp] theorem modIcu_dev_stop (f : IcuSt → IcuSt) : ((modIcu f).run s).dev.stop = s.dev.stop := rfl
@[simp] theorem modIcu_dev_recd (f : IcuSt → IcuSt) : ((modIcu f).run s).dev.recd = s.dev.recd := rfl
@[simp] theorem modIcu_dev_icu (f : IcuSt → IcuSt) : ((modIcu f).run s).dev.icu = f s.dev.icu := rfl
@[simp] theorem modIcu_dev_dbg (f : IcuSt → IcuSt) : ((modIcu f).run s).dev.dbg = s.dev.dbg := rfl
@[simp] theorem modIcu_dev_pwr (f : IcuSt → IcuSt) : ((modIcu f).run s).dev.pwr = s.dev.pwr := rfl
@[simp] theorem modIcu_dev_readData (f : IcuSt → IcuSt) : ((modIcu f).run s).dev.readData = s.dev.readData := rfl
@[simp] theorem modIcu_dev_readPoison (f : IcuSt → IcuSt) : ((modIcu f).run s).dev.readPoison = s.dev.readPoison := rfl
@[simp] theorem modIcu_dev_lastOut (f : IcuSt → IcuSt) : ((modIcu f).run s).dev.lastOut = s.dev.lastOut := rfl
@[simp] theorem modIcu_dev_free (f : IcuSt → IcuSt) : ((modIcu f).run s).dev.free = s.dev.free := rfl

@[simp] theorem modDbg_mem (f : DbgSt → DbgSt) : ((modDbg f).run s).mem = s.mem := rfl
@[simp] theorem modDbg_xp (f : DbgSt → DbgSt) : ((modDbg f).run s).xp = s.xp := rfl
@[simp] theorem modDbg_io (f : DbgSt → DbgSt) : ((modDbg f).run s).io = s.io := rfl
@[simp] theorem modDbg_shadow (f : DbgSt → DbgSt) : ((modDbg f).run s).shadow = s.shadow := rfl
@[simp] theorem modDbg_caps (f : DbgSt → DbgSt) : ((modDbg f).run s).caps = s.caps := rfl
@[simp] theorem modDbg_regs (f : DbgSt → DbgSt) : ((modDbg f).run s).regs = s.regs := rfl
@[simp] theorem modDbg_toks (f : DbgSt → DbgSt) : ((modDbg f).run s).toks = s.toks := rfl
@[simp] theorem modDbg_pending (f : DbgSt → DbgSt) : ((modDbg f).run s).pending = s.pending := rfl
@[simp] theorem modDbg_dev_beat (f : DbgSt → DbgSt) : ((modDbg f).run s).dev.beat = s.dev.beat := rfl
@[simp] theorem modDbg_dev_harts (f : DbgSt → DbgSt) : ((modDbg f).run s).dev.harts = s.dev.harts := rfl
@[simp] theorem modDbg_dev_links (f : DbgSt → DbgSt) : ((modDbg f).run s).dev.links = s.dev.links := rfl
@[simp] theorem modDbg_dev_bridges (f : DbgSt → DbgSt) : ((modDbg f).run s).dev.bridges = s.dev.bridges := rfl
@[simp] theorem modDbg_dev_parts (f : DbgSt → DbgSt) : ((modDbg f).run s).dev.parts = s.dev.parts := rfl
@[simp] theorem modDbg_dev_banks (f : DbgSt → DbgSt) : ((modDbg f).run s).dev.banks = s.dev.banks := rfl
@[simp] theorem modDbg_dev_fuses (f : DbgSt → DbgSt) : ((modDbg f).run s).dev.fuses = s.dev.fuses := rfl
@[simp] theorem modDbg_dev_job (f : DbgSt → DbgSt) : ((modDbg f).run s).dev.job = s.dev.job := rfl
@[simp] theorem modDbg_dev_stop (f : DbgSt → DbgSt) : ((modDbg f).run s).dev.stop = s.dev.stop := rfl
@[simp] theorem modDbg_dev_recd (f : DbgSt → DbgSt) : ((modDbg f).run s).dev.recd = s.dev.recd := rfl
@[simp] theorem modDbg_dev_icu (f : DbgSt → DbgSt) : ((modDbg f).run s).dev.icu = s.dev.icu := rfl
@[simp] theorem modDbg_dev_dbg (f : DbgSt → DbgSt) : ((modDbg f).run s).dev.dbg = f s.dev.dbg := rfl
@[simp] theorem modDbg_dev_pwr (f : DbgSt → DbgSt) : ((modDbg f).run s).dev.pwr = s.dev.pwr := rfl
@[simp] theorem modDbg_dev_readData (f : DbgSt → DbgSt) : ((modDbg f).run s).dev.readData = s.dev.readData := rfl
@[simp] theorem modDbg_dev_readPoison (f : DbgSt → DbgSt) : ((modDbg f).run s).dev.readPoison = s.dev.readPoison := rfl
@[simp] theorem modDbg_dev_lastOut (f : DbgSt → DbgSt) : ((modDbg f).run s).dev.lastOut = s.dev.lastOut := rfl
@[simp] theorem modDbg_dev_free (f : DbgSt → DbgSt) : ((modDbg f).run s).dev.free = s.dev.free := rfl

@[simp] theorem modPwr_mem (f : PwrSt → PwrSt) : ((modPwr f).run s).mem = s.mem := rfl
@[simp] theorem modPwr_xp (f : PwrSt → PwrSt) : ((modPwr f).run s).xp = s.xp := rfl
@[simp] theorem modPwr_io (f : PwrSt → PwrSt) : ((modPwr f).run s).io = s.io := rfl
@[simp] theorem modPwr_shadow (f : PwrSt → PwrSt) : ((modPwr f).run s).shadow = s.shadow := rfl
@[simp] theorem modPwr_caps (f : PwrSt → PwrSt) : ((modPwr f).run s).caps = s.caps := rfl
@[simp] theorem modPwr_regs (f : PwrSt → PwrSt) : ((modPwr f).run s).regs = s.regs := rfl
@[simp] theorem modPwr_toks (f : PwrSt → PwrSt) : ((modPwr f).run s).toks = s.toks := rfl
@[simp] theorem modPwr_pending (f : PwrSt → PwrSt) : ((modPwr f).run s).pending = s.pending := rfl
@[simp] theorem modPwr_dev_beat (f : PwrSt → PwrSt) : ((modPwr f).run s).dev.beat = s.dev.beat := rfl
@[simp] theorem modPwr_dev_harts (f : PwrSt → PwrSt) : ((modPwr f).run s).dev.harts = s.dev.harts := rfl
@[simp] theorem modPwr_dev_links (f : PwrSt → PwrSt) : ((modPwr f).run s).dev.links = s.dev.links := rfl
@[simp] theorem modPwr_dev_bridges (f : PwrSt → PwrSt) : ((modPwr f).run s).dev.bridges = s.dev.bridges := rfl
@[simp] theorem modPwr_dev_parts (f : PwrSt → PwrSt) : ((modPwr f).run s).dev.parts = s.dev.parts := rfl
@[simp] theorem modPwr_dev_banks (f : PwrSt → PwrSt) : ((modPwr f).run s).dev.banks = s.dev.banks := rfl
@[simp] theorem modPwr_dev_fuses (f : PwrSt → PwrSt) : ((modPwr f).run s).dev.fuses = s.dev.fuses := rfl
@[simp] theorem modPwr_dev_job (f : PwrSt → PwrSt) : ((modPwr f).run s).dev.job = s.dev.job := rfl
@[simp] theorem modPwr_dev_stop (f : PwrSt → PwrSt) : ((modPwr f).run s).dev.stop = s.dev.stop := rfl
@[simp] theorem modPwr_dev_recd (f : PwrSt → PwrSt) : ((modPwr f).run s).dev.recd = s.dev.recd := rfl
@[simp] theorem modPwr_dev_icu (f : PwrSt → PwrSt) : ((modPwr f).run s).dev.icu = s.dev.icu := rfl
@[simp] theorem modPwr_dev_dbg (f : PwrSt → PwrSt) : ((modPwr f).run s).dev.dbg = s.dev.dbg := rfl
@[simp] theorem modPwr_dev_pwr (f : PwrSt → PwrSt) : ((modPwr f).run s).dev.pwr = f s.dev.pwr := rfl
@[simp] theorem modPwr_dev_readData (f : PwrSt → PwrSt) : ((modPwr f).run s).dev.readData = s.dev.readData := rfl
@[simp] theorem modPwr_dev_readPoison (f : PwrSt → PwrSt) : ((modPwr f).run s).dev.readPoison = s.dev.readPoison := rfl
@[simp] theorem modPwr_dev_lastOut (f : PwrSt → PwrSt) : ((modPwr f).run s).dev.lastOut = s.dev.lastOut := rfl
@[simp] theorem modPwr_dev_free (f : PwrSt → PwrSt) : ((modPwr f).run s).dev.free = s.dev.free := rfl

@[simp] theorem transmit_mem (b : List Byte) : ((transmit b).run s).mem = s.mem := rfl
@[simp] theorem transmit_xp (b : List Byte) : ((transmit b).run s).xp = s.xp := rfl
@[simp] theorem transmit_io (b : List Byte) : ((transmit b).run s).io = s.io := rfl
@[simp] theorem transmit_shadow (b : List Byte) : ((transmit b).run s).shadow = s.shadow := rfl
@[simp] theorem transmit_caps (b : List Byte) : ((transmit b).run s).caps = s.caps := rfl
@[simp] theorem transmit_regs (b : List Byte) : ((transmit b).run s).regs = s.regs := rfl
@[simp] theorem transmit_toks (b : List Byte) : ((transmit b).run s).toks = s.toks := rfl
@[simp] theorem transmit_pending (b : List Byte) : ((transmit b).run s).pending = s.pending := rfl
@[simp] theorem transmit_dev_beat (b : List Byte) : ((transmit b).run s).dev.beat = s.dev.beat := rfl
@[simp] theorem transmit_dev_harts (b : List Byte) : ((transmit b).run s).dev.harts = s.dev.harts := rfl
@[simp] theorem transmit_dev_links (b : List Byte) : ((transmit b).run s).dev.links = s.dev.links := rfl
@[simp] theorem transmit_dev_bridges (b : List Byte) : ((transmit b).run s).dev.bridges = s.dev.bridges := rfl
@[simp] theorem transmit_dev_parts (b : List Byte) : ((transmit b).run s).dev.parts = s.dev.parts := rfl
@[simp] theorem transmit_dev_banks (b : List Byte) : ((transmit b).run s).dev.banks = s.dev.banks := rfl
@[simp] theorem transmit_dev_fuses (b : List Byte) : ((transmit b).run s).dev.fuses = s.dev.fuses := rfl
@[simp] theorem transmit_dev_job (b : List Byte) : ((transmit b).run s).dev.job = s.dev.job := rfl
@[simp] theorem transmit_dev_stop (b : List Byte) : ((transmit b).run s).dev.stop = s.dev.stop := rfl
@[simp] theorem transmit_dev_recd (b : List Byte) : ((transmit b).run s).dev.recd = s.dev.recd := rfl
@[simp] theorem transmit_dev_icu (b : List Byte) : ((transmit b).run s).dev.icu = s.dev.icu := rfl
@[simp] theorem transmit_dev_dbg (b : List Byte) : ((transmit b).run s).dev.dbg = s.dev.dbg := rfl
@[simp] theorem transmit_dev_pwr (b : List Byte) : ((transmit b).run s).dev.pwr = s.dev.pwr := rfl
@[simp] theorem transmit_dev_readData (b : List Byte) : ((transmit b).run s).dev.readData = s.dev.readData := rfl
@[simp] theorem transmit_dev_readPoison (b : List Byte) : ((transmit b).run s).dev.readPoison = s.dev.readPoison := rfl
@[simp] theorem transmit_dev_lastOut (b : List Byte) : ((transmit b).run s).dev.lastOut = b := rfl
@[simp] theorem transmit_dev_free (b : List Byte) : ((transmit b).run s).dev.free = s.dev.free := rfl

@[simp] theorem useFree_mem : ((useFree).run s).mem = s.mem := rfl
@[simp] theorem useFree_xp : ((useFree).run s).xp = s.xp := rfl
@[simp] theorem useFree_io : ((useFree).run s).io = s.io := rfl
@[simp] theorem useFree_shadow : ((useFree).run s).shadow = s.shadow := rfl
@[simp] theorem useFree_caps : ((useFree).run s).caps = s.caps := rfl
@[simp] theorem useFree_regs : ((useFree).run s).regs = s.regs := rfl
@[simp] theorem useFree_toks : ((useFree).run s).toks = s.toks := rfl
@[simp] theorem useFree_pending : ((useFree).run s).pending = s.pending := rfl
@[simp] theorem useFree_dev_beat : ((useFree).run s).dev.beat = s.dev.beat := rfl
@[simp] theorem useFree_dev_harts : ((useFree).run s).dev.harts = s.dev.harts := rfl
@[simp] theorem useFree_dev_links : ((useFree).run s).dev.links = s.dev.links := rfl
@[simp] theorem useFree_dev_bridges : ((useFree).run s).dev.bridges = s.dev.bridges := rfl
@[simp] theorem useFree_dev_parts : ((useFree).run s).dev.parts = s.dev.parts := rfl
@[simp] theorem useFree_dev_banks : ((useFree).run s).dev.banks = s.dev.banks := rfl
@[simp] theorem useFree_dev_fuses : ((useFree).run s).dev.fuses = s.dev.fuses := rfl
@[simp] theorem useFree_dev_job : ((useFree).run s).dev.job = s.dev.job := rfl
@[simp] theorem useFree_dev_stop : ((useFree).run s).dev.stop = s.dev.stop := rfl
@[simp] theorem useFree_dev_recd : ((useFree).run s).dev.recd = s.dev.recd := rfl
@[simp] theorem useFree_dev_icu : ((useFree).run s).dev.icu = s.dev.icu := rfl
@[simp] theorem useFree_dev_dbg : ((useFree).run s).dev.dbg = s.dev.dbg := rfl
@[simp] theorem useFree_dev_pwr : ((useFree).run s).dev.pwr = s.dev.pwr := rfl
@[simp] theorem useFree_dev_readData : ((useFree).run s).dev.readData = s.dev.readData := rfl
@[simp] theorem useFree_dev_readPoison : ((useFree).run s).dev.readPoison = s.dev.readPoison := rfl
@[simp] theorem useFree_dev_lastOut : ((useFree).run s).dev.lastOut = s.dev.lastOut := rfl
@[simp] theorem useFree_dev_free : ((useFree).run s).dev.free = s.dev.free + 1 := rfl

@[simp] theorem answer_mem (b : List Byte) : ((answer b).run s).mem = s.mem := rfl
@[simp] theorem answer_xp (b : List Byte) : ((answer b).run s).xp = s.xp := rfl
@[simp] theorem answer_io (b : List Byte) : ((answer b).run s).io = s.io := rfl
@[simp] theorem answer_shadow (b : List Byte) : ((answer b).run s).shadow = s.shadow := rfl
@[simp] theorem answer_caps (b : List Byte) : ((answer b).run s).caps = s.caps := rfl
@[simp] theorem answer_regs (b : List Byte) : ((answer b).run s).regs = s.regs := rfl
@[simp] theorem answer_toks (b : List Byte) : ((answer b).run s).toks = s.toks := rfl
@[simp] theorem answer_pending (b : List Byte) : ((answer b).run s).pending = s.pending := rfl
@[simp] theorem answer_dev_beat (b : List Byte) : ((answer b).run s).dev.beat = s.dev.beat := rfl
@[simp] theorem answer_dev_harts (b : List Byte) : ((answer b).run s).dev.harts = s.dev.harts := rfl
@[simp] theorem answer_dev_links (b : List Byte) : ((answer b).run s).dev.links = s.dev.links := rfl
@[simp] theorem answer_dev_bridges (b : List Byte) : ((answer b).run s).dev.bridges = s.dev.bridges := rfl
@[simp] theorem answer_dev_parts (b : List Byte) : ((answer b).run s).dev.parts = s.dev.parts := rfl
@[simp] theorem answer_dev_banks (b : List Byte) : ((answer b).run s).dev.banks = s.dev.banks := rfl
@[simp] theorem answer_dev_fuses (b : List Byte) : ((answer b).run s).dev.fuses = s.dev.fuses := rfl
@[simp] theorem answer_dev_job (b : List Byte) : ((answer b).run s).dev.job = s.dev.job := rfl
@[simp] theorem answer_dev_stop (b : List Byte) : ((answer b).run s).dev.stop = s.dev.stop := rfl
@[simp] theorem answer_dev_recd (b : List Byte) : ((answer b).run s).dev.recd = s.dev.recd := rfl
@[simp] theorem answer_dev_icu (b : List Byte) : ((answer b).run s).dev.icu = s.dev.icu := rfl
@[simp] theorem answer_dev_dbg (b : List Byte) : ((answer b).run s).dev.dbg = s.dev.dbg := rfl
@[simp] theorem answer_dev_pwr (b : List Byte) : ((answer b).run s).dev.pwr = s.dev.pwr := rfl
@[simp] theorem answer_dev_readData (b : List Byte) : ((answer b).run s).dev.readData = b := rfl
@[simp] theorem answer_dev_readPoison (b : List Byte) : ((answer b).run s).dev.readPoison = false := rfl
@[simp] theorem answer_dev_lastOut (b : List Byte) : ((answer b).run s).dev.lastOut = s.dev.lastOut := rfl
@[simp] theorem answer_dev_free (b : List Byte) : ((answer b).run s).dev.free = s.dev.free := rfl

@[simp] theorem answerPoison_mem (b : List Byte) : ((answerPoison b).run s).mem = s.mem := rfl
@[simp] theorem answerPoison_xp (b : List Byte) : ((answerPoison b).run s).xp = s.xp := rfl
@[simp] theorem answerPoison_io (b : List Byte) : ((answerPoison b).run s).io = s.io := rfl
@[simp] theorem answerPoison_shadow (b : List Byte) : ((answerPoison b).run s).shadow = s.shadow := rfl
@[simp] theorem answerPoison_caps (b : List Byte) : ((answerPoison b).run s).caps = s.caps := rfl
@[simp] theorem answerPoison_regs (b : List Byte) : ((answerPoison b).run s).regs = s.regs := rfl
@[simp] theorem answerPoison_toks (b : List Byte) : ((answerPoison b).run s).toks = s.toks := rfl
@[simp] theorem answerPoison_pending (b : List Byte) : ((answerPoison b).run s).pending = s.pending := rfl
@[simp] theorem answerPoison_dev_beat (b : List Byte) : ((answerPoison b).run s).dev.beat = s.dev.beat := rfl
@[simp] theorem answerPoison_dev_harts (b : List Byte) : ((answerPoison b).run s).dev.harts = s.dev.harts := rfl
@[simp] theorem answerPoison_dev_links (b : List Byte) : ((answerPoison b).run s).dev.links = s.dev.links := rfl
@[simp] theorem answerPoison_dev_bridges (b : List Byte) : ((answerPoison b).run s).dev.bridges = s.dev.bridges := rfl
@[simp] theorem answerPoison_dev_parts (b : List Byte) : ((answerPoison b).run s).dev.parts = s.dev.parts := rfl
@[simp] theorem answerPoison_dev_banks (b : List Byte) : ((answerPoison b).run s).dev.banks = s.dev.banks := rfl
@[simp] theorem answerPoison_dev_fuses (b : List Byte) : ((answerPoison b).run s).dev.fuses = s.dev.fuses := rfl
@[simp] theorem answerPoison_dev_job (b : List Byte) : ((answerPoison b).run s).dev.job = s.dev.job := rfl
@[simp] theorem answerPoison_dev_stop (b : List Byte) : ((answerPoison b).run s).dev.stop = s.dev.stop := rfl
@[simp] theorem answerPoison_dev_recd (b : List Byte) : ((answerPoison b).run s).dev.recd = s.dev.recd := rfl
@[simp] theorem answerPoison_dev_icu (b : List Byte) : ((answerPoison b).run s).dev.icu = s.dev.icu := rfl
@[simp] theorem answerPoison_dev_dbg (b : List Byte) : ((answerPoison b).run s).dev.dbg = s.dev.dbg := rfl
@[simp] theorem answerPoison_dev_pwr (b : List Byte) : ((answerPoison b).run s).dev.pwr = s.dev.pwr := rfl
@[simp] theorem answerPoison_dev_readData (b : List Byte) : ((answerPoison b).run s).dev.readData = b := rfl
@[simp] theorem answerPoison_dev_readPoison (b : List Byte) : ((answerPoison b).run s).dev.readPoison = true := rfl
@[simp] theorem answerPoison_dev_lastOut (b : List Byte) : ((answerPoison b).run s).dev.lastOut = s.dev.lastOut := rfl
@[simp] theorem answerPoison_dev_free (b : List Byte) : ((answerPoison b).run s).dev.free = s.dev.free := rfl

@[simp] theorem modDev_run (f : Dev → Dev) : (modDev f).run s = { s with dev := f s.dev } := rfl
@[simp] theorem setReg_run (u r : Nat) (v : Word) : (setReg u r v).run s = (Eff.reg (u * 32 + r % 32) v).apply s := rfl
@[simp] theorem setTok_run (u t v : Nat) : (setTok u t v).run s = (Eff.tok (u * 64 + t) v).apply s := rfl
@[simp] theorem ioSet_run (a : Nat) (v : Reg32) : (ioSet a v).run s = (Eff.io a v).apply s := rfl

/-! ### What the units and interfaces hold -/

theorem State.hart_congr {s t : State} (h : t.dev.harts = s.dev.harts) (k : Nat) : t.hart k = s.hart k := by unfold State.hart; rw [h]
theorem State.link_congr {s t : State} (h : t.dev.links = s.dev.links) (k : Nat) : t.link k = s.link k := by unfold State.link; rw [h]
theorem State.bridge_congr {s t : State} (h : t.dev.bridges = s.dev.bridges) (k : Nat) : t.bridge k = s.bridge k := by unfold State.bridge; rw [h]
theorem State.part_congr {s t : State} (h : t.dev.parts = s.dev.parts) (k : Nat) : t.part k = s.part k := by unfold State.part; rw [h]
theorem State.bank_congr {s t : State} (h : t.dev.banks = s.dev.banks) (k : Nat) : t.bank k = s.bank k := by unfold State.bank; rw [h]

theorem State.hart_modHart (k j : Nat) (f : Hart → Hart) :
    ((modHart k f).run s).hart j = if j = k then f (s.hart k) else s.hart j := Tab.get_insert _ _ _ _ _
@[simp] theorem State.hart_modHart_same (k : Nat) (f : Hart → Hart) : ((modHart k f).run s).hart k = f (s.hart k) :=
  Tab.get_insert_same
theorem State.link_modLink (k j : Nat) (f : Link → Link) :
    ((modLink k f).run s).link j = if j = k then f (s.link k) else s.link j := Tab.get_insert _ _ _ _ _
@[simp] theorem State.link_modLink_same (k : Nat) (f : Link → Link) : ((modLink k f).run s).link k = f (s.link k) :=
  Tab.get_insert_same
theorem State.bridge_modBridge (k j : Nat) (f : Bridge → Bridge) :
    ((modBridge k f).run s).bridge j = if j = k then f (s.bridge k) else s.bridge j := Tab.get_insert _ _ _ _ _
@[simp] theorem State.bridge_modBridge_same (k : Nat) (f : Bridge → Bridge) :
    ((modBridge k f).run s).bridge k = f (s.bridge k) :=
  Tab.get_insert_same
theorem State.part_modPart (k j : Nat) (f : Part → Part) :
    ((modPart k f).run s).part j = if j = k then f (s.part k) else s.part j := Tab.get_insert _ _ _ _ _
@[simp] theorem State.part_modPart_same (k : Nat) (f : Part → Part) : ((modPart k f).run s).part k = f (s.part k) :=
  Tab.get_insert_same
theorem State.bank_modBank (k j : Nat) (f : Bank → Bank) :
    ((modBank k f).run s).bank j = if j = k then f (s.bank k) else s.bank j := Tab.get_insert _ _ _ _ _
@[simp] theorem State.bank_modBank_same (k : Nat) (f : Bank → Bank) : ((modBank k f).run s).bank k = f (s.bank k) :=
  Tab.get_insert_same

@[simp] theorem State.hart_modLink (i : Nat) (l : Nat) (f : Link → Link) :
    ((modLink l f).run s).hart i = s.hart i := rfl
@[simp] theorem State.hart_modBridge (i : Nat) (n : Nat) (f : Bridge → Bridge) :
    ((modBridge n f).run s).hart i = s.hart i := rfl
@[simp] theorem State.hart_modPart (i : Nat) (p : Nat) (f : Part → Part) :
    ((modPart p f).run s).hart i = s.hart i := rfl
@[simp] theorem State.hart_modBank (i : Nat) (b : Nat) (f : Bank → Bank) :
    ((modBank b f).run s).hart i = s.hart i := rfl
@[simp] theorem State.hart_modJob (i : Nat) (f : JobSt → JobSt) : ((modJob f).run s).hart i = s.hart i := rfl
@[simp] theorem State.hart_modRec (i : Nat) (f : RecSt → RecSt) : ((modRec f).run s).hart i = s.hart i := rfl
@[simp] theorem State.hart_modBeat (i : Nat) (f : BeatSt → BeatSt) : ((modBeat f).run s).hart i = s.hart i := rfl
@[simp] theorem State.hart_modStop (i : Nat) (f : StopSt → StopSt) : ((modStop f).run s).hart i = s.hart i := rfl
@[simp] theorem State.hart_modIcu (i : Nat) (f : IcuSt → IcuSt) : ((modIcu f).run s).hart i = s.hart i := rfl
@[simp] theorem State.hart_modDbg (i : Nat) (f : DbgSt → DbgSt) : ((modDbg f).run s).hart i = s.hart i := rfl
@[simp] theorem State.hart_modPwr (i : Nat) (f : PwrSt → PwrSt) : ((modPwr f).run s).hart i = s.hart i := rfl
@[simp] theorem State.hart_transmit (i : Nat) (b : List Byte) : ((transmit b).run s).hart i = s.hart i := rfl
@[simp] theorem State.hart_useFree (i : Nat) : ((useFree).run s).hart i = s.hart i := rfl
@[simp] theorem State.hart_answer (i : Nat) (b : List Byte) : ((answer b).run s).hart i = s.hart i := rfl
@[simp] theorem State.hart_answerPoison (i : Nat) (b : List Byte) : ((answerPoison b).run s).hart i = s.hart i := rfl
@[simp] theorem State.hart_setReg (i : Nat) (u r : Nat) (v : Word) :
    ((setReg u r v).run s).hart i = s.hart i := State.hart_congr (by simp) i
@[simp] theorem State.hart_setTok (i : Nat) (u t v : Nat) : ((setTok u t v).run s).hart i = s.hart i := rfl
@[simp] theorem State.hart_ioSet (i : Nat) (a : Nat) (v : Reg32) : ((ioSet a v).run s).hart i = s.hart i := rfl
@[simp] theorem State.hart_eff_mem (i : Nat) (a : Nat) (v : Byte) :
    ((Eff.mem a v).apply s).hart i = s.hart i := State.hart_congr (by simp) i
@[simp] theorem State.hart_eff_memClear (i : Nat) (lo n : Nat) :
    ((Eff.memClear lo n).apply s).hart i = s.hart i := State.hart_congr (by simp) i
@[simp] theorem State.hart_eff_xp (i : Nat) (k : Nat) (v : BitVec 19) :
    ((Eff.xp k v).apply s).hart i = s.hart i := State.hart_congr (by simp) i
@[simp] theorem State.hart_eff_xpClear (i : Nat) (lo n : Nat) :
    ((Eff.xpClear lo n).apply s).hart i = s.hart i := State.hart_congr (by simp) i
@[simp] theorem State.hart_eff_io (i : Nat) (a : Nat) (v : Reg32) :
    ((Eff.io a v).apply s).hart i = s.hart i := State.hart_congr (by simp) i
@[simp] theorem State.hart_eff_ioClear (i : Nat) :
    ((Eff.ioClear).apply s).hart i = s.hart i := State.hart_congr (by simp) i
@[simp] theorem State.hart_eff_shadow (i : Nat) (a : Nat) (v : BitVec 64) :
    ((Eff.shadow a v).apply s).hart i = s.hart i := State.hart_congr (by simp) i
@[simp] theorem State.hart_eff_shadowClear (i : Nat) :
    ((Eff.shadowClear).apply s).hart i = s.hart i := State.hart_congr (by simp) i
@[simp] theorem State.hart_eff_cap (i : Nat) (k : Nat) (v : BitVec 128) :
    ((Eff.cap k v).apply s).hart i = s.hart i := State.hart_congr (by simp) i
@[simp] theorem State.hart_eff_capClear (i : Nat) :
    ((Eff.capClear).apply s).hart i = s.hart i := State.hart_congr (by simp) i
@[simp] theorem State.hart_eff_reg (i : Nat) (k : Nat) (v : Word) :
    ((Eff.reg k v).apply s).hart i = s.hart i := State.hart_congr (by simp) i
@[simp] theorem State.hart_eff_regClear (i : Nat) (lo n : Nat) :
    ((Eff.regClear lo n).apply s).hart i = s.hart i := State.hart_congr (by simp) i
@[simp] theorem State.hart_eff_tok (i : Nat) (k v : Nat) :
    ((Eff.tok k v).apply s).hart i = s.hart i := State.hart_congr (by simp) i
@[simp] theorem State.hart_eff_tokClear (i : Nat) (lo n : Nat) :
    ((Eff.tokClear lo n).apply s).hart i = s.hart i := State.hart_congr (by simp) i

@[simp] theorem State.link_modHart (i : Nat) (u : Nat) (f : Hart → Hart) :
    ((modHart u f).run s).link i = s.link i := rfl
@[simp] theorem State.link_modBridge (i : Nat) (n : Nat) (f : Bridge → Bridge) :
    ((modBridge n f).run s).link i = s.link i := rfl
@[simp] theorem State.link_modPart (i : Nat) (p : Nat) (f : Part → Part) :
    ((modPart p f).run s).link i = s.link i := rfl
@[simp] theorem State.link_modBank (i : Nat) (b : Nat) (f : Bank → Bank) :
    ((modBank b f).run s).link i = s.link i := rfl
@[simp] theorem State.link_modJob (i : Nat) (f : JobSt → JobSt) : ((modJob f).run s).link i = s.link i := rfl
@[simp] theorem State.link_modRec (i : Nat) (f : RecSt → RecSt) : ((modRec f).run s).link i = s.link i := rfl
@[simp] theorem State.link_modBeat (i : Nat) (f : BeatSt → BeatSt) : ((modBeat f).run s).link i = s.link i := rfl
@[simp] theorem State.link_modStop (i : Nat) (f : StopSt → StopSt) : ((modStop f).run s).link i = s.link i := rfl
@[simp] theorem State.link_modIcu (i : Nat) (f : IcuSt → IcuSt) : ((modIcu f).run s).link i = s.link i := rfl
@[simp] theorem State.link_modDbg (i : Nat) (f : DbgSt → DbgSt) : ((modDbg f).run s).link i = s.link i := rfl
@[simp] theorem State.link_modPwr (i : Nat) (f : PwrSt → PwrSt) : ((modPwr f).run s).link i = s.link i := rfl
@[simp] theorem State.link_transmit (i : Nat) (b : List Byte) : ((transmit b).run s).link i = s.link i := rfl
@[simp] theorem State.link_useFree (i : Nat) : ((useFree).run s).link i = s.link i := rfl
@[simp] theorem State.link_answer (i : Nat) (b : List Byte) : ((answer b).run s).link i = s.link i := rfl
@[simp] theorem State.link_answerPoison (i : Nat) (b : List Byte) : ((answerPoison b).run s).link i = s.link i := rfl
@[simp] theorem State.link_setReg (i : Nat) (u r : Nat) (v : Word) :
    ((setReg u r v).run s).link i = s.link i := State.link_congr (by simp) i
@[simp] theorem State.link_setTok (i : Nat) (u t v : Nat) : ((setTok u t v).run s).link i = s.link i := rfl
@[simp] theorem State.link_ioSet (i : Nat) (a : Nat) (v : Reg32) : ((ioSet a v).run s).link i = s.link i := rfl
@[simp] theorem State.link_eff_mem (i : Nat) (a : Nat) (v : Byte) :
    ((Eff.mem a v).apply s).link i = s.link i := State.link_congr (by simp) i
@[simp] theorem State.link_eff_memClear (i : Nat) (lo n : Nat) :
    ((Eff.memClear lo n).apply s).link i = s.link i := State.link_congr (by simp) i
@[simp] theorem State.link_eff_xp (i : Nat) (k : Nat) (v : BitVec 19) :
    ((Eff.xp k v).apply s).link i = s.link i := State.link_congr (by simp) i
@[simp] theorem State.link_eff_xpClear (i : Nat) (lo n : Nat) :
    ((Eff.xpClear lo n).apply s).link i = s.link i := State.link_congr (by simp) i
@[simp] theorem State.link_eff_io (i : Nat) (a : Nat) (v : Reg32) :
    ((Eff.io a v).apply s).link i = s.link i := State.link_congr (by simp) i
@[simp] theorem State.link_eff_ioClear (i : Nat) :
    ((Eff.ioClear).apply s).link i = s.link i := State.link_congr (by simp) i
@[simp] theorem State.link_eff_shadow (i : Nat) (a : Nat) (v : BitVec 64) :
    ((Eff.shadow a v).apply s).link i = s.link i := State.link_congr (by simp) i
@[simp] theorem State.link_eff_shadowClear (i : Nat) :
    ((Eff.shadowClear).apply s).link i = s.link i := State.link_congr (by simp) i
@[simp] theorem State.link_eff_cap (i : Nat) (k : Nat) (v : BitVec 128) :
    ((Eff.cap k v).apply s).link i = s.link i := State.link_congr (by simp) i
@[simp] theorem State.link_eff_capClear (i : Nat) :
    ((Eff.capClear).apply s).link i = s.link i := State.link_congr (by simp) i
@[simp] theorem State.link_eff_reg (i : Nat) (k : Nat) (v : Word) :
    ((Eff.reg k v).apply s).link i = s.link i := State.link_congr (by simp) i
@[simp] theorem State.link_eff_regClear (i : Nat) (lo n : Nat) :
    ((Eff.regClear lo n).apply s).link i = s.link i := State.link_congr (by simp) i
@[simp] theorem State.link_eff_tok (i : Nat) (k v : Nat) :
    ((Eff.tok k v).apply s).link i = s.link i := State.link_congr (by simp) i
@[simp] theorem State.link_eff_tokClear (i : Nat) (lo n : Nat) :
    ((Eff.tokClear lo n).apply s).link i = s.link i := State.link_congr (by simp) i

@[simp] theorem State.bridge_modHart (i : Nat) (u : Nat) (f : Hart → Hart) :
    ((modHart u f).run s).bridge i = s.bridge i := rfl
@[simp] theorem State.bridge_modLink (i : Nat) (l : Nat) (f : Link → Link) :
    ((modLink l f).run s).bridge i = s.bridge i := rfl
@[simp] theorem State.bridge_modPart (i : Nat) (p : Nat) (f : Part → Part) :
    ((modPart p f).run s).bridge i = s.bridge i := rfl
@[simp] theorem State.bridge_modBank (i : Nat) (b : Nat) (f : Bank → Bank) :
    ((modBank b f).run s).bridge i = s.bridge i := rfl
@[simp] theorem State.bridge_modJob (i : Nat) (f : JobSt → JobSt) : ((modJob f).run s).bridge i = s.bridge i := rfl
@[simp] theorem State.bridge_modRec (i : Nat) (f : RecSt → RecSt) : ((modRec f).run s).bridge i = s.bridge i := rfl
@[simp] theorem State.bridge_modBeat (i : Nat) (f : BeatSt → BeatSt) : ((modBeat f).run s).bridge i = s.bridge i := rfl
@[simp] theorem State.bridge_modStop (i : Nat) (f : StopSt → StopSt) : ((modStop f).run s).bridge i = s.bridge i := rfl
@[simp] theorem State.bridge_modIcu (i : Nat) (f : IcuSt → IcuSt) : ((modIcu f).run s).bridge i = s.bridge i := rfl
@[simp] theorem State.bridge_modDbg (i : Nat) (f : DbgSt → DbgSt) : ((modDbg f).run s).bridge i = s.bridge i := rfl
@[simp] theorem State.bridge_modPwr (i : Nat) (f : PwrSt → PwrSt) : ((modPwr f).run s).bridge i = s.bridge i := rfl
@[simp] theorem State.bridge_transmit (i : Nat) (b : List Byte) : ((transmit b).run s).bridge i = s.bridge i := rfl
@[simp] theorem State.bridge_useFree (i : Nat) : ((useFree).run s).bridge i = s.bridge i := rfl
@[simp] theorem State.bridge_answer (i : Nat) (b : List Byte) : ((answer b).run s).bridge i = s.bridge i := rfl
@[simp] theorem State.bridge_answerPoison (i : Nat) (b : List Byte) :
    ((answerPoison b).run s).bridge i = s.bridge i := rfl
@[simp] theorem State.bridge_setReg (i : Nat) (u r : Nat) (v : Word) :
    ((setReg u r v).run s).bridge i = s.bridge i := State.bridge_congr (by simp) i
@[simp] theorem State.bridge_setTok (i : Nat) (u t v : Nat) : ((setTok u t v).run s).bridge i = s.bridge i := rfl
@[simp] theorem State.bridge_ioSet (i : Nat) (a : Nat) (v : Reg32) : ((ioSet a v).run s).bridge i = s.bridge i := rfl
@[simp] theorem State.bridge_eff_mem (i : Nat) (a : Nat) (v : Byte) :
    ((Eff.mem a v).apply s).bridge i = s.bridge i := State.bridge_congr (by simp) i
@[simp] theorem State.bridge_eff_memClear (i : Nat) (lo n : Nat) :
    ((Eff.memClear lo n).apply s).bridge i = s.bridge i := State.bridge_congr (by simp) i
@[simp] theorem State.bridge_eff_xp (i : Nat) (k : Nat) (v : BitVec 19) :
    ((Eff.xp k v).apply s).bridge i = s.bridge i := State.bridge_congr (by simp) i
@[simp] theorem State.bridge_eff_xpClear (i : Nat) (lo n : Nat) :
    ((Eff.xpClear lo n).apply s).bridge i = s.bridge i := State.bridge_congr (by simp) i
@[simp] theorem State.bridge_eff_io (i : Nat) (a : Nat) (v : Reg32) :
    ((Eff.io a v).apply s).bridge i = s.bridge i := State.bridge_congr (by simp) i
@[simp] theorem State.bridge_eff_ioClear (i : Nat) :
    ((Eff.ioClear).apply s).bridge i = s.bridge i := State.bridge_congr (by simp) i
@[simp] theorem State.bridge_eff_shadow (i : Nat) (a : Nat) (v : BitVec 64) :
    ((Eff.shadow a v).apply s).bridge i = s.bridge i := State.bridge_congr (by simp) i
@[simp] theorem State.bridge_eff_shadowClear (i : Nat) :
    ((Eff.shadowClear).apply s).bridge i = s.bridge i := State.bridge_congr (by simp) i
@[simp] theorem State.bridge_eff_cap (i : Nat) (k : Nat) (v : BitVec 128) :
    ((Eff.cap k v).apply s).bridge i = s.bridge i := State.bridge_congr (by simp) i
@[simp] theorem State.bridge_eff_capClear (i : Nat) :
    ((Eff.capClear).apply s).bridge i = s.bridge i := State.bridge_congr (by simp) i
@[simp] theorem State.bridge_eff_reg (i : Nat) (k : Nat) (v : Word) :
    ((Eff.reg k v).apply s).bridge i = s.bridge i := State.bridge_congr (by simp) i
@[simp] theorem State.bridge_eff_regClear (i : Nat) (lo n : Nat) :
    ((Eff.regClear lo n).apply s).bridge i = s.bridge i := State.bridge_congr (by simp) i
@[simp] theorem State.bridge_eff_tok (i : Nat) (k v : Nat) :
    ((Eff.tok k v).apply s).bridge i = s.bridge i := State.bridge_congr (by simp) i
@[simp] theorem State.bridge_eff_tokClear (i : Nat) (lo n : Nat) :
    ((Eff.tokClear lo n).apply s).bridge i = s.bridge i := State.bridge_congr (by simp) i

@[simp] theorem State.part_modHart (i : Nat) (u : Nat) (f : Hart → Hart) :
    ((modHart u f).run s).part i = s.part i := rfl
@[simp] theorem State.part_modLink (i : Nat) (l : Nat) (f : Link → Link) :
    ((modLink l f).run s).part i = s.part i := rfl
@[simp] theorem State.part_modBridge (i : Nat) (n : Nat) (f : Bridge → Bridge) :
    ((modBridge n f).run s).part i = s.part i := rfl
@[simp] theorem State.part_modBank (i : Nat) (b : Nat) (f : Bank → Bank) :
    ((modBank b f).run s).part i = s.part i := rfl
@[simp] theorem State.part_modJob (i : Nat) (f : JobSt → JobSt) : ((modJob f).run s).part i = s.part i := rfl
@[simp] theorem State.part_modRec (i : Nat) (f : RecSt → RecSt) : ((modRec f).run s).part i = s.part i := rfl
@[simp] theorem State.part_modBeat (i : Nat) (f : BeatSt → BeatSt) : ((modBeat f).run s).part i = s.part i := rfl
@[simp] theorem State.part_modStop (i : Nat) (f : StopSt → StopSt) : ((modStop f).run s).part i = s.part i := rfl
@[simp] theorem State.part_modIcu (i : Nat) (f : IcuSt → IcuSt) : ((modIcu f).run s).part i = s.part i := rfl
@[simp] theorem State.part_modDbg (i : Nat) (f : DbgSt → DbgSt) : ((modDbg f).run s).part i = s.part i := rfl
@[simp] theorem State.part_modPwr (i : Nat) (f : PwrSt → PwrSt) : ((modPwr f).run s).part i = s.part i := rfl
@[simp] theorem State.part_transmit (i : Nat) (b : List Byte) : ((transmit b).run s).part i = s.part i := rfl
@[simp] theorem State.part_useFree (i : Nat) : ((useFree).run s).part i = s.part i := rfl
@[simp] theorem State.part_answer (i : Nat) (b : List Byte) : ((answer b).run s).part i = s.part i := rfl
@[simp] theorem State.part_answerPoison (i : Nat) (b : List Byte) : ((answerPoison b).run s).part i = s.part i := rfl
@[simp] theorem State.part_setReg (i : Nat) (u r : Nat) (v : Word) :
    ((setReg u r v).run s).part i = s.part i := State.part_congr (by simp) i
@[simp] theorem State.part_setTok (i : Nat) (u t v : Nat) : ((setTok u t v).run s).part i = s.part i := rfl
@[simp] theorem State.part_ioSet (i : Nat) (a : Nat) (v : Reg32) : ((ioSet a v).run s).part i = s.part i := rfl
@[simp] theorem State.part_eff_mem (i : Nat) (a : Nat) (v : Byte) :
    ((Eff.mem a v).apply s).part i = s.part i := State.part_congr (by simp) i
@[simp] theorem State.part_eff_memClear (i : Nat) (lo n : Nat) :
    ((Eff.memClear lo n).apply s).part i = s.part i := State.part_congr (by simp) i
@[simp] theorem State.part_eff_xp (i : Nat) (k : Nat) (v : BitVec 19) :
    ((Eff.xp k v).apply s).part i = s.part i := State.part_congr (by simp) i
@[simp] theorem State.part_eff_xpClear (i : Nat) (lo n : Nat) :
    ((Eff.xpClear lo n).apply s).part i = s.part i := State.part_congr (by simp) i
@[simp] theorem State.part_eff_io (i : Nat) (a : Nat) (v : Reg32) :
    ((Eff.io a v).apply s).part i = s.part i := State.part_congr (by simp) i
@[simp] theorem State.part_eff_ioClear (i : Nat) :
    ((Eff.ioClear).apply s).part i = s.part i := State.part_congr (by simp) i
@[simp] theorem State.part_eff_shadow (i : Nat) (a : Nat) (v : BitVec 64) :
    ((Eff.shadow a v).apply s).part i = s.part i := State.part_congr (by simp) i
@[simp] theorem State.part_eff_shadowClear (i : Nat) :
    ((Eff.shadowClear).apply s).part i = s.part i := State.part_congr (by simp) i
@[simp] theorem State.part_eff_cap (i : Nat) (k : Nat) (v : BitVec 128) :
    ((Eff.cap k v).apply s).part i = s.part i := State.part_congr (by simp) i
@[simp] theorem State.part_eff_capClear (i : Nat) :
    ((Eff.capClear).apply s).part i = s.part i := State.part_congr (by simp) i
@[simp] theorem State.part_eff_reg (i : Nat) (k : Nat) (v : Word) :
    ((Eff.reg k v).apply s).part i = s.part i := State.part_congr (by simp) i
@[simp] theorem State.part_eff_regClear (i : Nat) (lo n : Nat) :
    ((Eff.regClear lo n).apply s).part i = s.part i := State.part_congr (by simp) i
@[simp] theorem State.part_eff_tok (i : Nat) (k v : Nat) :
    ((Eff.tok k v).apply s).part i = s.part i := State.part_congr (by simp) i
@[simp] theorem State.part_eff_tokClear (i : Nat) (lo n : Nat) :
    ((Eff.tokClear lo n).apply s).part i = s.part i := State.part_congr (by simp) i

@[simp] theorem State.bank_modHart (i : Nat) (u : Nat) (f : Hart → Hart) :
    ((modHart u f).run s).bank i = s.bank i := rfl
@[simp] theorem State.bank_modLink (i : Nat) (l : Nat) (f : Link → Link) :
    ((modLink l f).run s).bank i = s.bank i := rfl
@[simp] theorem State.bank_modBridge (i : Nat) (n : Nat) (f : Bridge → Bridge) :
    ((modBridge n f).run s).bank i = s.bank i := rfl
@[simp] theorem State.bank_modPart (i : Nat) (p : Nat) (f : Part → Part) :
    ((modPart p f).run s).bank i = s.bank i := rfl
@[simp] theorem State.bank_modJob (i : Nat) (f : JobSt → JobSt) : ((modJob f).run s).bank i = s.bank i := rfl
@[simp] theorem State.bank_modRec (i : Nat) (f : RecSt → RecSt) : ((modRec f).run s).bank i = s.bank i := rfl
@[simp] theorem State.bank_modBeat (i : Nat) (f : BeatSt → BeatSt) : ((modBeat f).run s).bank i = s.bank i := rfl
@[simp] theorem State.bank_modStop (i : Nat) (f : StopSt → StopSt) : ((modStop f).run s).bank i = s.bank i := rfl
@[simp] theorem State.bank_modIcu (i : Nat) (f : IcuSt → IcuSt) : ((modIcu f).run s).bank i = s.bank i := rfl
@[simp] theorem State.bank_modDbg (i : Nat) (f : DbgSt → DbgSt) : ((modDbg f).run s).bank i = s.bank i := rfl
@[simp] theorem State.bank_modPwr (i : Nat) (f : PwrSt → PwrSt) : ((modPwr f).run s).bank i = s.bank i := rfl
@[simp] theorem State.bank_transmit (i : Nat) (b : List Byte) : ((transmit b).run s).bank i = s.bank i := rfl
@[simp] theorem State.bank_useFree (i : Nat) : ((useFree).run s).bank i = s.bank i := rfl
@[simp] theorem State.bank_answer (i : Nat) (b : List Byte) : ((answer b).run s).bank i = s.bank i := rfl
@[simp] theorem State.bank_answerPoison (i : Nat) (b : List Byte) : ((answerPoison b).run s).bank i = s.bank i := rfl
@[simp] theorem State.bank_setReg (i : Nat) (u r : Nat) (v : Word) :
    ((setReg u r v).run s).bank i = s.bank i := State.bank_congr (by simp) i
@[simp] theorem State.bank_setTok (i : Nat) (u t v : Nat) : ((setTok u t v).run s).bank i = s.bank i := rfl
@[simp] theorem State.bank_ioSet (i : Nat) (a : Nat) (v : Reg32) : ((ioSet a v).run s).bank i = s.bank i := rfl
@[simp] theorem State.bank_eff_mem (i : Nat) (a : Nat) (v : Byte) :
    ((Eff.mem a v).apply s).bank i = s.bank i := State.bank_congr (by simp) i
@[simp] theorem State.bank_eff_memClear (i : Nat) (lo n : Nat) :
    ((Eff.memClear lo n).apply s).bank i = s.bank i := State.bank_congr (by simp) i
@[simp] theorem State.bank_eff_xp (i : Nat) (k : Nat) (v : BitVec 19) :
    ((Eff.xp k v).apply s).bank i = s.bank i := State.bank_congr (by simp) i
@[simp] theorem State.bank_eff_xpClear (i : Nat) (lo n : Nat) :
    ((Eff.xpClear lo n).apply s).bank i = s.bank i := State.bank_congr (by simp) i
@[simp] theorem State.bank_eff_io (i : Nat) (a : Nat) (v : Reg32) :
    ((Eff.io a v).apply s).bank i = s.bank i := State.bank_congr (by simp) i
@[simp] theorem State.bank_eff_ioClear (i : Nat) :
    ((Eff.ioClear).apply s).bank i = s.bank i := State.bank_congr (by simp) i
@[simp] theorem State.bank_eff_shadow (i : Nat) (a : Nat) (v : BitVec 64) :
    ((Eff.shadow a v).apply s).bank i = s.bank i := State.bank_congr (by simp) i
@[simp] theorem State.bank_eff_shadowClear (i : Nat) :
    ((Eff.shadowClear).apply s).bank i = s.bank i := State.bank_congr (by simp) i
@[simp] theorem State.bank_eff_cap (i : Nat) (k : Nat) (v : BitVec 128) :
    ((Eff.cap k v).apply s).bank i = s.bank i := State.bank_congr (by simp) i
@[simp] theorem State.bank_eff_capClear (i : Nat) :
    ((Eff.capClear).apply s).bank i = s.bank i := State.bank_congr (by simp) i
@[simp] theorem State.bank_eff_reg (i : Nat) (k : Nat) (v : Word) :
    ((Eff.reg k v).apply s).bank i = s.bank i := State.bank_congr (by simp) i
@[simp] theorem State.bank_eff_regClear (i : Nat) (lo n : Nat) :
    ((Eff.regClear lo n).apply s).bank i = s.bank i := State.bank_congr (by simp) i
@[simp] theorem State.bank_eff_tok (i : Nat) (k v : Nat) :
    ((Eff.tok k v).apply s).bank i = s.bank i := State.bank_congr (by simp) i
@[simp] theorem State.bank_eff_tokClear (i : Nat) (lo n : Nat) :
    ((Eff.tokClear lo n).apply s).bank i = s.bank i := State.bank_congr (by simp) i

/-! ### Scalar registers, tokens, capabilities, I/O registers, memory -/

theorem State.reg_congr {s t : State} (h : t.regs = s.regs) (x i : Nat) : t.reg x i = s.reg x i := by unfold State.reg; rw [h]
theorem State.tok_congr {s t : State} (h : t.toks = s.toks) (x i : Nat) : t.tok x i = s.tok x i := by unfold State.tok; rw [h]
theorem State.creg_congr {s t : State} (h : t.caps = s.caps) (x i : Nat) : t.creg x i = s.creg x i := by unfold State.creg; rw [h]
theorem State.store_congr {s t : State} (h : t.caps = s.caps) (x i : Nat) : t.store x i = s.store x i := by unfold State.store; rw [h]
theorem State.ioVal_congr {s t : State} (h : t.io = s.io) (x : Nat) : t.ioVal x = s.ioVal x := by unfold State.ioVal; rw [h]
theorem State.byte_congr {s t : State} (h : t.mem = s.mem) (x : Nat) : t.byte x = s.byte x := by unfold State.byte; rw [h]

@[simp] theorem State.reg_modHart (x i : Nat) (u : Nat) (f : Hart → Hart) :
    ((modHart u f).run s).reg x i = s.reg x i := rfl
@[simp] theorem State.reg_modLink (x i : Nat) (l : Nat) (f : Link → Link) :
    ((modLink l f).run s).reg x i = s.reg x i := rfl
@[simp] theorem State.reg_modBridge (x i : Nat) (n : Nat) (f : Bridge → Bridge) :
    ((modBridge n f).run s).reg x i = s.reg x i := rfl
@[simp] theorem State.reg_modPart (x i : Nat) (p : Nat) (f : Part → Part) :
    ((modPart p f).run s).reg x i = s.reg x i := rfl
@[simp] theorem State.reg_modBank (x i : Nat) (b : Nat) (f : Bank → Bank) :
    ((modBank b f).run s).reg x i = s.reg x i := rfl
@[simp] theorem State.reg_modJob (x i : Nat) (f : JobSt → JobSt) : ((modJob f).run s).reg x i = s.reg x i := rfl
@[simp] theorem State.reg_modRec (x i : Nat) (f : RecSt → RecSt) : ((modRec f).run s).reg x i = s.reg x i := rfl
@[simp] theorem State.reg_modBeat (x i : Nat) (f : BeatSt → BeatSt) : ((modBeat f).run s).reg x i = s.reg x i := rfl
@[simp] theorem State.reg_modStop (x i : Nat) (f : StopSt → StopSt) : ((modStop f).run s).reg x i = s.reg x i := rfl
@[simp] theorem State.reg_modIcu (x i : Nat) (f : IcuSt → IcuSt) : ((modIcu f).run s).reg x i = s.reg x i := rfl
@[simp] theorem State.reg_modDbg (x i : Nat) (f : DbgSt → DbgSt) : ((modDbg f).run s).reg x i = s.reg x i := rfl
@[simp] theorem State.reg_modPwr (x i : Nat) (f : PwrSt → PwrSt) : ((modPwr f).run s).reg x i = s.reg x i := rfl
@[simp] theorem State.reg_transmit (x i : Nat) (b : List Byte) : ((transmit b).run s).reg x i = s.reg x i := rfl
@[simp] theorem State.reg_useFree (x i : Nat) : ((useFree).run s).reg x i = s.reg x i := rfl
@[simp] theorem State.reg_answer (x i : Nat) (b : List Byte) : ((answer b).run s).reg x i = s.reg x i := rfl
@[simp] theorem State.reg_answerPoison (x i : Nat) (b : List Byte) : ((answerPoison b).run s).reg x i = s.reg x i := rfl
@[simp] theorem State.reg_eff_mem (x i : Nat) (a : Nat) (v : Byte) :
    ((Eff.mem a v).apply s).reg x i = s.reg x i := State.reg_congr (by simp) x i
@[simp] theorem State.reg_eff_memClear (x i : Nat) (lo n : Nat) :
    ((Eff.memClear lo n).apply s).reg x i = s.reg x i := State.reg_congr (by simp) x i
@[simp] theorem State.reg_eff_xp (x i : Nat) (k : Nat) (v : BitVec 19) :
    ((Eff.xp k v).apply s).reg x i = s.reg x i := State.reg_congr (by simp) x i
@[simp] theorem State.reg_eff_xpClear (x i : Nat) (lo n : Nat) :
    ((Eff.xpClear lo n).apply s).reg x i = s.reg x i := State.reg_congr (by simp) x i
@[simp] theorem State.reg_eff_io (x i : Nat) (a : Nat) (v : Reg32) :
    ((Eff.io a v).apply s).reg x i = s.reg x i := State.reg_congr (by simp) x i
@[simp] theorem State.reg_eff_ioClear (x i : Nat) :
    ((Eff.ioClear).apply s).reg x i = s.reg x i := State.reg_congr (by simp) x i
@[simp] theorem State.reg_eff_shadow (x i : Nat) (a : Nat) (v : BitVec 64) :
    ((Eff.shadow a v).apply s).reg x i = s.reg x i := State.reg_congr (by simp) x i
@[simp] theorem State.reg_eff_shadowClear (x i : Nat) :
    ((Eff.shadowClear).apply s).reg x i = s.reg x i := State.reg_congr (by simp) x i
@[simp] theorem State.reg_eff_cap (x i : Nat) (k : Nat) (v : BitVec 128) :
    ((Eff.cap k v).apply s).reg x i = s.reg x i := State.reg_congr (by simp) x i
@[simp] theorem State.reg_eff_capClear (x i : Nat) :
    ((Eff.capClear).apply s).reg x i = s.reg x i := State.reg_congr (by simp) x i
@[simp] theorem State.reg_eff_tok (x i : Nat) (k v : Nat) :
    ((Eff.tok k v).apply s).reg x i = s.reg x i := State.reg_congr (by simp) x i
@[simp] theorem State.reg_eff_tokClear (x i : Nat) (lo n : Nat) :
    ((Eff.tokClear lo n).apply s).reg x i = s.reg x i := State.reg_congr (by simp) x i
@[simp] theorem State.reg_eff_dev (x i : Nat) (f : Dev → Dev) :
    ((Eff.dev f).apply s).reg x i = s.reg x i := State.reg_congr (by simp) x i

@[simp] theorem State.tok_modHart (x i : Nat) (u : Nat) (f : Hart → Hart) :
    ((modHart u f).run s).tok x i = s.tok x i := rfl
@[simp] theorem State.tok_modLink (x i : Nat) (l : Nat) (f : Link → Link) :
    ((modLink l f).run s).tok x i = s.tok x i := rfl
@[simp] theorem State.tok_modBridge (x i : Nat) (n : Nat) (f : Bridge → Bridge) :
    ((modBridge n f).run s).tok x i = s.tok x i := rfl
@[simp] theorem State.tok_modPart (x i : Nat) (p : Nat) (f : Part → Part) :
    ((modPart p f).run s).tok x i = s.tok x i := rfl
@[simp] theorem State.tok_modBank (x i : Nat) (b : Nat) (f : Bank → Bank) :
    ((modBank b f).run s).tok x i = s.tok x i := rfl
@[simp] theorem State.tok_modJob (x i : Nat) (f : JobSt → JobSt) : ((modJob f).run s).tok x i = s.tok x i := rfl
@[simp] theorem State.tok_modRec (x i : Nat) (f : RecSt → RecSt) : ((modRec f).run s).tok x i = s.tok x i := rfl
@[simp] theorem State.tok_modBeat (x i : Nat) (f : BeatSt → BeatSt) : ((modBeat f).run s).tok x i = s.tok x i := rfl
@[simp] theorem State.tok_modStop (x i : Nat) (f : StopSt → StopSt) : ((modStop f).run s).tok x i = s.tok x i := rfl
@[simp] theorem State.tok_modIcu (x i : Nat) (f : IcuSt → IcuSt) : ((modIcu f).run s).tok x i = s.tok x i := rfl
@[simp] theorem State.tok_modDbg (x i : Nat) (f : DbgSt → DbgSt) : ((modDbg f).run s).tok x i = s.tok x i := rfl
@[simp] theorem State.tok_modPwr (x i : Nat) (f : PwrSt → PwrSt) : ((modPwr f).run s).tok x i = s.tok x i := rfl
@[simp] theorem State.tok_transmit (x i : Nat) (b : List Byte) : ((transmit b).run s).tok x i = s.tok x i := rfl
@[simp] theorem State.tok_useFree (x i : Nat) : ((useFree).run s).tok x i = s.tok x i := rfl
@[simp] theorem State.tok_answer (x i : Nat) (b : List Byte) : ((answer b).run s).tok x i = s.tok x i := rfl
@[simp] theorem State.tok_answerPoison (x i : Nat) (b : List Byte) : ((answerPoison b).run s).tok x i = s.tok x i := rfl
@[simp] theorem State.tok_eff_mem (x i : Nat) (a : Nat) (v : Byte) :
    ((Eff.mem a v).apply s).tok x i = s.tok x i := State.tok_congr (by simp) x i
@[simp] theorem State.tok_eff_memClear (x i : Nat) (lo n : Nat) :
    ((Eff.memClear lo n).apply s).tok x i = s.tok x i := State.tok_congr (by simp) x i
@[simp] theorem State.tok_eff_xp (x i : Nat) (k : Nat) (v : BitVec 19) :
    ((Eff.xp k v).apply s).tok x i = s.tok x i := State.tok_congr (by simp) x i
@[simp] theorem State.tok_eff_xpClear (x i : Nat) (lo n : Nat) :
    ((Eff.xpClear lo n).apply s).tok x i = s.tok x i := State.tok_congr (by simp) x i
@[simp] theorem State.tok_eff_io (x i : Nat) (a : Nat) (v : Reg32) :
    ((Eff.io a v).apply s).tok x i = s.tok x i := State.tok_congr (by simp) x i
@[simp] theorem State.tok_eff_ioClear (x i : Nat) :
    ((Eff.ioClear).apply s).tok x i = s.tok x i := State.tok_congr (by simp) x i
@[simp] theorem State.tok_eff_shadow (x i : Nat) (a : Nat) (v : BitVec 64) :
    ((Eff.shadow a v).apply s).tok x i = s.tok x i := State.tok_congr (by simp) x i
@[simp] theorem State.tok_eff_shadowClear (x i : Nat) :
    ((Eff.shadowClear).apply s).tok x i = s.tok x i := State.tok_congr (by simp) x i
@[simp] theorem State.tok_eff_cap (x i : Nat) (k : Nat) (v : BitVec 128) :
    ((Eff.cap k v).apply s).tok x i = s.tok x i := State.tok_congr (by simp) x i
@[simp] theorem State.tok_eff_capClear (x i : Nat) :
    ((Eff.capClear).apply s).tok x i = s.tok x i := State.tok_congr (by simp) x i
@[simp] theorem State.tok_eff_reg (x i : Nat) (k : Nat) (v : Word) :
    ((Eff.reg k v).apply s).tok x i = s.tok x i := State.tok_congr (by simp) x i
@[simp] theorem State.tok_eff_regClear (x i : Nat) (lo n : Nat) :
    ((Eff.regClear lo n).apply s).tok x i = s.tok x i := State.tok_congr (by simp) x i
@[simp] theorem State.tok_eff_dev (x i : Nat) (f : Dev → Dev) :
    ((Eff.dev f).apply s).tok x i = s.tok x i := State.tok_congr (by simp) x i

@[simp] theorem State.creg_modHart (x i : Nat) (u : Nat) (f : Hart → Hart) :
    ((modHart u f).run s).creg x i = s.creg x i := rfl
@[simp] theorem State.creg_modLink (x i : Nat) (l : Nat) (f : Link → Link) :
    ((modLink l f).run s).creg x i = s.creg x i := rfl
@[simp] theorem State.creg_modBridge (x i : Nat) (n : Nat) (f : Bridge → Bridge) :
    ((modBridge n f).run s).creg x i = s.creg x i := rfl
@[simp] theorem State.creg_modPart (x i : Nat) (p : Nat) (f : Part → Part) :
    ((modPart p f).run s).creg x i = s.creg x i := rfl
@[simp] theorem State.creg_modBank (x i : Nat) (b : Nat) (f : Bank → Bank) :
    ((modBank b f).run s).creg x i = s.creg x i := rfl
@[simp] theorem State.creg_modJob (x i : Nat) (f : JobSt → JobSt) : ((modJob f).run s).creg x i = s.creg x i := rfl
@[simp] theorem State.creg_modRec (x i : Nat) (f : RecSt → RecSt) : ((modRec f).run s).creg x i = s.creg x i := rfl
@[simp] theorem State.creg_modBeat (x i : Nat) (f : BeatSt → BeatSt) : ((modBeat f).run s).creg x i = s.creg x i := rfl
@[simp] theorem State.creg_modStop (x i : Nat) (f : StopSt → StopSt) : ((modStop f).run s).creg x i = s.creg x i := rfl
@[simp] theorem State.creg_modIcu (x i : Nat) (f : IcuSt → IcuSt) : ((modIcu f).run s).creg x i = s.creg x i := rfl
@[simp] theorem State.creg_modDbg (x i : Nat) (f : DbgSt → DbgSt) : ((modDbg f).run s).creg x i = s.creg x i := rfl
@[simp] theorem State.creg_modPwr (x i : Nat) (f : PwrSt → PwrSt) : ((modPwr f).run s).creg x i = s.creg x i := rfl
@[simp] theorem State.creg_transmit (x i : Nat) (b : List Byte) : ((transmit b).run s).creg x i = s.creg x i := rfl
@[simp] theorem State.creg_useFree (x i : Nat) : ((useFree).run s).creg x i = s.creg x i := rfl
@[simp] theorem State.creg_answer (x i : Nat) (b : List Byte) : ((answer b).run s).creg x i = s.creg x i := rfl
@[simp] theorem State.creg_answerPoison (x i : Nat) (b : List Byte) :
    ((answerPoison b).run s).creg x i = s.creg x i := rfl
@[simp] theorem State.creg_eff_mem (x i : Nat) (a : Nat) (v : Byte) :
    ((Eff.mem a v).apply s).creg x i = s.creg x i := State.creg_congr (by simp) x i
@[simp] theorem State.creg_eff_memClear (x i : Nat) (lo n : Nat) :
    ((Eff.memClear lo n).apply s).creg x i = s.creg x i := State.creg_congr (by simp) x i
@[simp] theorem State.creg_eff_xp (x i : Nat) (k : Nat) (v : BitVec 19) :
    ((Eff.xp k v).apply s).creg x i = s.creg x i := State.creg_congr (by simp) x i
@[simp] theorem State.creg_eff_xpClear (x i : Nat) (lo n : Nat) :
    ((Eff.xpClear lo n).apply s).creg x i = s.creg x i := State.creg_congr (by simp) x i
@[simp] theorem State.creg_eff_io (x i : Nat) (a : Nat) (v : Reg32) :
    ((Eff.io a v).apply s).creg x i = s.creg x i := State.creg_congr (by simp) x i
@[simp] theorem State.creg_eff_ioClear (x i : Nat) :
    ((Eff.ioClear).apply s).creg x i = s.creg x i := State.creg_congr (by simp) x i
@[simp] theorem State.creg_eff_shadow (x i : Nat) (a : Nat) (v : BitVec 64) :
    ((Eff.shadow a v).apply s).creg x i = s.creg x i := State.creg_congr (by simp) x i
@[simp] theorem State.creg_eff_shadowClear (x i : Nat) :
    ((Eff.shadowClear).apply s).creg x i = s.creg x i := State.creg_congr (by simp) x i
@[simp] theorem State.creg_eff_reg (x i : Nat) (k : Nat) (v : Word) :
    ((Eff.reg k v).apply s).creg x i = s.creg x i := State.creg_congr (by simp) x i
@[simp] theorem State.creg_eff_regClear (x i : Nat) (lo n : Nat) :
    ((Eff.regClear lo n).apply s).creg x i = s.creg x i := State.creg_congr (by simp) x i
@[simp] theorem State.creg_eff_tok (x i : Nat) (k v : Nat) :
    ((Eff.tok k v).apply s).creg x i = s.creg x i := State.creg_congr (by simp) x i
@[simp] theorem State.creg_eff_tokClear (x i : Nat) (lo n : Nat) :
    ((Eff.tokClear lo n).apply s).creg x i = s.creg x i := State.creg_congr (by simp) x i
@[simp] theorem State.creg_eff_dev (x i : Nat) (f : Dev → Dev) :
    ((Eff.dev f).apply s).creg x i = s.creg x i := State.creg_congr (by simp) x i

@[simp] theorem State.store_modHart (x i : Nat) (u : Nat) (f : Hart → Hart) :
    ((modHart u f).run s).store x i = s.store x i := rfl
@[simp] theorem State.store_modLink (x i : Nat) (l : Nat) (f : Link → Link) :
    ((modLink l f).run s).store x i = s.store x i := rfl
@[simp] theorem State.store_modBridge (x i : Nat) (n : Nat) (f : Bridge → Bridge) :
    ((modBridge n f).run s).store x i = s.store x i := rfl
@[simp] theorem State.store_modPart (x i : Nat) (p : Nat) (f : Part → Part) :
    ((modPart p f).run s).store x i = s.store x i := rfl
@[simp] theorem State.store_modBank (x i : Nat) (b : Nat) (f : Bank → Bank) :
    ((modBank b f).run s).store x i = s.store x i := rfl
@[simp] theorem State.store_modJob (x i : Nat) (f : JobSt → JobSt) : ((modJob f).run s).store x i = s.store x i := rfl
@[simp] theorem State.store_modRec (x i : Nat) (f : RecSt → RecSt) : ((modRec f).run s).store x i = s.store x i := rfl
@[simp] theorem State.store_modBeat (x i : Nat) (f : BeatSt → BeatSt) :
    ((modBeat f).run s).store x i = s.store x i := rfl
@[simp] theorem State.store_modStop (x i : Nat) (f : StopSt → StopSt) :
    ((modStop f).run s).store x i = s.store x i := rfl
@[simp] theorem State.store_modIcu (x i : Nat) (f : IcuSt → IcuSt) : ((modIcu f).run s).store x i = s.store x i := rfl
@[simp] theorem State.store_modDbg (x i : Nat) (f : DbgSt → DbgSt) : ((modDbg f).run s).store x i = s.store x i := rfl
@[simp] theorem State.store_modPwr (x i : Nat) (f : PwrSt → PwrSt) : ((modPwr f).run s).store x i = s.store x i := rfl
@[simp] theorem State.store_transmit (x i : Nat) (b : List Byte) : ((transmit b).run s).store x i = s.store x i := rfl
@[simp] theorem State.store_useFree (x i : Nat) : ((useFree).run s).store x i = s.store x i := rfl
@[simp] theorem State.store_answer (x i : Nat) (b : List Byte) : ((answer b).run s).store x i = s.store x i := rfl
@[simp] theorem State.store_answerPoison (x i : Nat) (b : List Byte) :
    ((answerPoison b).run s).store x i = s.store x i := rfl
@[simp] theorem State.store_eff_mem (x i : Nat) (a : Nat) (v : Byte) :
    ((Eff.mem a v).apply s).store x i = s.store x i := State.store_congr (by simp) x i
@[simp] theorem State.store_eff_memClear (x i : Nat) (lo n : Nat) :
    ((Eff.memClear lo n).apply s).store x i = s.store x i := State.store_congr (by simp) x i
@[simp] theorem State.store_eff_xp (x i : Nat) (k : Nat) (v : BitVec 19) :
    ((Eff.xp k v).apply s).store x i = s.store x i := State.store_congr (by simp) x i
@[simp] theorem State.store_eff_xpClear (x i : Nat) (lo n : Nat) :
    ((Eff.xpClear lo n).apply s).store x i = s.store x i := State.store_congr (by simp) x i
@[simp] theorem State.store_eff_io (x i : Nat) (a : Nat) (v : Reg32) :
    ((Eff.io a v).apply s).store x i = s.store x i := State.store_congr (by simp) x i
@[simp] theorem State.store_eff_ioClear (x i : Nat) :
    ((Eff.ioClear).apply s).store x i = s.store x i := State.store_congr (by simp) x i
@[simp] theorem State.store_eff_shadow (x i : Nat) (a : Nat) (v : BitVec 64) :
    ((Eff.shadow a v).apply s).store x i = s.store x i := State.store_congr (by simp) x i
@[simp] theorem State.store_eff_shadowClear (x i : Nat) :
    ((Eff.shadowClear).apply s).store x i = s.store x i := State.store_congr (by simp) x i
@[simp] theorem State.store_eff_reg (x i : Nat) (k : Nat) (v : Word) :
    ((Eff.reg k v).apply s).store x i = s.store x i := State.store_congr (by simp) x i
@[simp] theorem State.store_eff_regClear (x i : Nat) (lo n : Nat) :
    ((Eff.regClear lo n).apply s).store x i = s.store x i := State.store_congr (by simp) x i
@[simp] theorem State.store_eff_tok (x i : Nat) (k v : Nat) :
    ((Eff.tok k v).apply s).store x i = s.store x i := State.store_congr (by simp) x i
@[simp] theorem State.store_eff_tokClear (x i : Nat) (lo n : Nat) :
    ((Eff.tokClear lo n).apply s).store x i = s.store x i := State.store_congr (by simp) x i
@[simp] theorem State.store_eff_dev (x i : Nat) (f : Dev → Dev) :
    ((Eff.dev f).apply s).store x i = s.store x i := State.store_congr (by simp) x i

@[simp] theorem State.ioVal_modHart (x : Nat) (u : Nat) (f : Hart → Hart) :
    ((modHart u f).run s).ioVal x = s.ioVal x := rfl
@[simp] theorem State.ioVal_modLink (x : Nat) (l : Nat) (f : Link → Link) :
    ((modLink l f).run s).ioVal x = s.ioVal x := rfl
@[simp] theorem State.ioVal_modBridge (x : Nat) (n : Nat) (f : Bridge → Bridge) :
    ((modBridge n f).run s).ioVal x = s.ioVal x := rfl
@[simp] theorem State.ioVal_modPart (x : Nat) (p : Nat) (f : Part → Part) :
    ((modPart p f).run s).ioVal x = s.ioVal x := rfl
@[simp] theorem State.ioVal_modBank (x : Nat) (b : Nat) (f : Bank → Bank) :
    ((modBank b f).run s).ioVal x = s.ioVal x := rfl
@[simp] theorem State.ioVal_modJob (x : Nat) (f : JobSt → JobSt) : ((modJob f).run s).ioVal x = s.ioVal x := rfl
@[simp] theorem State.ioVal_modRec (x : Nat) (f : RecSt → RecSt) : ((modRec f).run s).ioVal x = s.ioVal x := rfl
@[simp] theorem State.ioVal_modBeat (x : Nat) (f : BeatSt → BeatSt) : ((modBeat f).run s).ioVal x = s.ioVal x := rfl
@[simp] theorem State.ioVal_modStop (x : Nat) (f : StopSt → StopSt) : ((modStop f).run s).ioVal x = s.ioVal x := rfl
@[simp] theorem State.ioVal_modIcu (x : Nat) (f : IcuSt → IcuSt) : ((modIcu f).run s).ioVal x = s.ioVal x := rfl
@[simp] theorem State.ioVal_modDbg (x : Nat) (f : DbgSt → DbgSt) : ((modDbg f).run s).ioVal x = s.ioVal x := rfl
@[simp] theorem State.ioVal_modPwr (x : Nat) (f : PwrSt → PwrSt) : ((modPwr f).run s).ioVal x = s.ioVal x := rfl
@[simp] theorem State.ioVal_transmit (x : Nat) (b : List Byte) : ((transmit b).run s).ioVal x = s.ioVal x := rfl
@[simp] theorem State.ioVal_useFree (x : Nat) : ((useFree).run s).ioVal x = s.ioVal x := rfl
@[simp] theorem State.ioVal_answer (x : Nat) (b : List Byte) : ((answer b).run s).ioVal x = s.ioVal x := rfl
@[simp] theorem State.ioVal_answerPoison (x : Nat) (b : List Byte) : ((answerPoison b).run s).ioVal x = s.ioVal x := rfl
@[simp] theorem State.ioVal_eff_mem (x : Nat) (a : Nat) (v : Byte) :
    ((Eff.mem a v).apply s).ioVal x = s.ioVal x := State.ioVal_congr (by simp) x
@[simp] theorem State.ioVal_eff_memClear (x : Nat) (lo n : Nat) :
    ((Eff.memClear lo n).apply s).ioVal x = s.ioVal x := State.ioVal_congr (by simp) x
@[simp] theorem State.ioVal_eff_xp (x : Nat) (k : Nat) (v : BitVec 19) :
    ((Eff.xp k v).apply s).ioVal x = s.ioVal x := State.ioVal_congr (by simp) x
@[simp] theorem State.ioVal_eff_xpClear (x : Nat) (lo n : Nat) :
    ((Eff.xpClear lo n).apply s).ioVal x = s.ioVal x := State.ioVal_congr (by simp) x
@[simp] theorem State.ioVal_eff_shadow (x : Nat) (a : Nat) (v : BitVec 64) :
    ((Eff.shadow a v).apply s).ioVal x = s.ioVal x := State.ioVal_congr (by simp) x
@[simp] theorem State.ioVal_eff_shadowClear (x : Nat) :
    ((Eff.shadowClear).apply s).ioVal x = s.ioVal x := State.ioVal_congr (by simp) x
@[simp] theorem State.ioVal_eff_cap (x : Nat) (k : Nat) (v : BitVec 128) :
    ((Eff.cap k v).apply s).ioVal x = s.ioVal x := State.ioVal_congr (by simp) x
@[simp] theorem State.ioVal_eff_capClear (x : Nat) :
    ((Eff.capClear).apply s).ioVal x = s.ioVal x := State.ioVal_congr (by simp) x
@[simp] theorem State.ioVal_eff_reg (x : Nat) (k : Nat) (v : Word) :
    ((Eff.reg k v).apply s).ioVal x = s.ioVal x := State.ioVal_congr (by simp) x
@[simp] theorem State.ioVal_eff_regClear (x : Nat) (lo n : Nat) :
    ((Eff.regClear lo n).apply s).ioVal x = s.ioVal x := State.ioVal_congr (by simp) x
@[simp] theorem State.ioVal_eff_tok (x : Nat) (k v : Nat) :
    ((Eff.tok k v).apply s).ioVal x = s.ioVal x := State.ioVal_congr (by simp) x
@[simp] theorem State.ioVal_eff_tokClear (x : Nat) (lo n : Nat) :
    ((Eff.tokClear lo n).apply s).ioVal x = s.ioVal x := State.ioVal_congr (by simp) x
@[simp] theorem State.ioVal_eff_dev (x : Nat) (f : Dev → Dev) :
    ((Eff.dev f).apply s).ioVal x = s.ioVal x := State.ioVal_congr (by simp) x

@[simp] theorem State.byte_modHart (x : Nat) (u : Nat) (f : Hart → Hart) :
    ((modHart u f).run s).byte x = s.byte x := rfl
@[simp] theorem State.byte_modLink (x : Nat) (l : Nat) (f : Link → Link) :
    ((modLink l f).run s).byte x = s.byte x := rfl
@[simp] theorem State.byte_modBridge (x : Nat) (n : Nat) (f : Bridge → Bridge) :
    ((modBridge n f).run s).byte x = s.byte x := rfl
@[simp] theorem State.byte_modPart (x : Nat) (p : Nat) (f : Part → Part) :
    ((modPart p f).run s).byte x = s.byte x := rfl
@[simp] theorem State.byte_modBank (x : Nat) (b : Nat) (f : Bank → Bank) :
    ((modBank b f).run s).byte x = s.byte x := rfl
@[simp] theorem State.byte_modJob (x : Nat) (f : JobSt → JobSt) : ((modJob f).run s).byte x = s.byte x := rfl
@[simp] theorem State.byte_modRec (x : Nat) (f : RecSt → RecSt) : ((modRec f).run s).byte x = s.byte x := rfl
@[simp] theorem State.byte_modBeat (x : Nat) (f : BeatSt → BeatSt) : ((modBeat f).run s).byte x = s.byte x := rfl
@[simp] theorem State.byte_modStop (x : Nat) (f : StopSt → StopSt) : ((modStop f).run s).byte x = s.byte x := rfl
@[simp] theorem State.byte_modIcu (x : Nat) (f : IcuSt → IcuSt) : ((modIcu f).run s).byte x = s.byte x := rfl
@[simp] theorem State.byte_modDbg (x : Nat) (f : DbgSt → DbgSt) : ((modDbg f).run s).byte x = s.byte x := rfl
@[simp] theorem State.byte_modPwr (x : Nat) (f : PwrSt → PwrSt) : ((modPwr f).run s).byte x = s.byte x := rfl
@[simp] theorem State.byte_transmit (x : Nat) (b : List Byte) : ((transmit b).run s).byte x = s.byte x := rfl
@[simp] theorem State.byte_useFree (x : Nat) : ((useFree).run s).byte x = s.byte x := rfl
@[simp] theorem State.byte_answer (x : Nat) (b : List Byte) : ((answer b).run s).byte x = s.byte x := rfl
@[simp] theorem State.byte_answerPoison (x : Nat) (b : List Byte) : ((answerPoison b).run s).byte x = s.byte x := rfl
@[simp] theorem State.byte_eff_xp (x : Nat) (k : Nat) (v : BitVec 19) :
    ((Eff.xp k v).apply s).byte x = s.byte x := State.byte_congr (by simp) x
@[simp] theorem State.byte_eff_xpClear (x : Nat) (lo n : Nat) :
    ((Eff.xpClear lo n).apply s).byte x = s.byte x := State.byte_congr (by simp) x
@[simp] theorem State.byte_eff_io (x : Nat) (a : Nat) (v : Reg32) :
    ((Eff.io a v).apply s).byte x = s.byte x := State.byte_congr (by simp) x
@[simp] theorem State.byte_eff_ioClear (x : Nat) :
    ((Eff.ioClear).apply s).byte x = s.byte x := State.byte_congr (by simp) x
@[simp] theorem State.byte_eff_shadow (x : Nat) (a : Nat) (v : BitVec 64) :
    ((Eff.shadow a v).apply s).byte x = s.byte x := State.byte_congr (by simp) x
@[simp] theorem State.byte_eff_shadowClear (x : Nat) :
    ((Eff.shadowClear).apply s).byte x = s.byte x := State.byte_congr (by simp) x
@[simp] theorem State.byte_eff_cap (x : Nat) (k : Nat) (v : BitVec 128) :
    ((Eff.cap k v).apply s).byte x = s.byte x := State.byte_congr (by simp) x
@[simp] theorem State.byte_eff_capClear (x : Nat) :
    ((Eff.capClear).apply s).byte x = s.byte x := State.byte_congr (by simp) x
@[simp] theorem State.byte_eff_reg (x : Nat) (k : Nat) (v : Word) :
    ((Eff.reg k v).apply s).byte x = s.byte x := State.byte_congr (by simp) x
@[simp] theorem State.byte_eff_regClear (x : Nat) (lo n : Nat) :
    ((Eff.regClear lo n).apply s).byte x = s.byte x := State.byte_congr (by simp) x
@[simp] theorem State.byte_eff_tok (x : Nat) (k v : Nat) :
    ((Eff.tok k v).apply s).byte x = s.byte x := State.byte_congr (by simp) x
@[simp] theorem State.byte_eff_tokClear (x : Nat) (lo n : Nat) :
    ((Eff.tokClear lo n).apply s).byte x = s.byte x := State.byte_congr (by simp) x
@[simp] theorem State.byte_eff_dev (x : Nat) (f : Dev → Dev) :
    ((Eff.dev f).apply s).byte x = s.byte x := State.byte_congr (by simp) x

/-- s0 reads zero (R50). -/
@[simp] theorem State.reg_zero (u : Nat) : s.reg u 0 = 0 := rfl

/-- A scalar register after a write: s0 still reads zero (R50). -/
theorem State.reg_setReg (h : s.canonical = true) (u r v i : Nat) (x : Word) :
    ((setReg u r x).run s).reg v i = if v = u ∧ i % 32 = r % 32 ∧ r % 32 ≠ 0 then x else s.reg v i := by
  have hr := (State.canonical_iff.1 h).2.2.2.2.2.1
  simp only [State.reg, setReg_run, Eff.reg_regs]
  by_cases hi : i % 32 = 0
  · simp only [hi, if_true]; rw [if_neg (by omega)]
  · simp only [hi, if_false]
    by_cases h0 : r % 32 = 0
    · rw [if_pos (by omega), if_neg (by omega)]
    · rw [if_neg (by omega), Tab.get_put hr]
      exact if_congr (by omega) rfl rfl

/-- A token after a write: it stops at 15 (R66). -/
theorem State.tok_setTok (h : s.canonical = true) (u t v i x : Nat) (ht : t < 64) (hi : i < 64) :
    ((setTok u t x).run s).tok v i = if v = u ∧ i = t then min x 15 else s.tok v i := by
  have hr := (State.canonical_iff.1 h).2.2.2.2.2.2
  simp only [State.tok, setTok_run, Eff.tok_toks, Tab.get_put hr]
  exact if_congr (by omega) rfl rfl

/-- An I/O register after a write. -/
theorem State.ioVal_ioSet (h : s.canonical = true) (a b : Nat) (x : Reg32) :
    ((ioSet a x).run s).ioVal b = if b = a then x else s.ioVal b := by
  simp only [State.ioVal, ioSet_run, Eff.io_io, Tab.get_put (State.canonical_iff.1 h).2.2.1]

/-- One byte of memory after a write. -/
theorem State.byte_mem (h : s.canonical = true) (a b : Nat) (x : Byte) :
    ((Eff.mem a x).apply s).byte b = if b = a then x else s.byte b := by
  have hm : Tab.wf memDefault s.mem = true := (State.canonical_iff.1 h).1
  simp only [State.byte, Eff.mem_mem, Tab.get_put hm]

/-- Capability register `r` after a write: c0 stays null (R372). -/
theorem State.creg_cap (h : s.canonical = true) (u r v i : Nat) (x : BitVec 128) (hr : r < 16) (hi : i < 16) :
    ((Eff.cap (u * 512 + r) x).apply s).creg v i = if v = u ∧ i = r ∧ r ≠ 0 then x else s.creg v i := by
  have hc := (State.canonical_iff.1 h).2.2.2.2.1
  simp only [State.creg, Eff.cap_caps]
  by_cases h0 : i = 0
  · simp only [h0, if_true]; rw [if_neg (by omega)]
  · simp only [h0, if_false]
    by_cases hz : r = 0
    · rw [if_pos (by omega), if_neg (by omega)]
    · rw [if_neg (by omega), Tab.get_put hc]
      exact if_congr (by omega) rfl rfl

/-- Store entry `e` after a write: entry 0 stays null (R373). -/
theorem State.store_cap (h : s.canonical = true) (u e v i : Nat) (x : BitVec 128) (he : e < 256) (hi : i < 256) :
    ((Eff.cap (u * 512 + 256 + e) x).apply s).store v i = if v = u ∧ i = e ∧ e ≠ 0 then x else s.store v i := by
  have hc := (State.canonical_iff.1 h).2.2.2.2.1
  simp only [State.store, Eff.cap_caps]
  by_cases h0 : i = 0
  · simp only [h0, if_true]; rw [if_neg (by omega)]
  · simp only [h0, if_false]
    by_cases hz : e = 0
    · rw [if_pos (by omega), if_neg (by omega)]
    · rw [if_neg (by omega), Tab.get_put hc]
      exact if_congr (by omega) rfl rfl

end Sys2Proof.Machine
end

