-- ==== Sys2Proof/Laws/Issue.lean ====
section
/-! SUPPORT. What issue, completion and the capability checks do where nothing stands in the way: each says once all that
the shared operation does. -/
namespace Sys2Proof.Machine

variable {s : State} {u len : Nat}

theorem Tab.insert_insert {α : Type} (k : Nat) (v w : α) (t : Tab α) :
    Tab.insert k v (Tab.insert k w t) = Tab.insert k v t := by
  induction t with
  | nil => simp [Tab.insert]
  | cons e t ih =>
    obtain ⟨j, x⟩ := e
    simp only [Tab.insert]
    split <;> [skip; split]
    · simp [Tab.insert]
    · simp [Tab.insert]
    · simp only [Tab.insert]; rw [if_neg ‹_›, if_neg ‹_›, ih]

/-- Two changes of a unit are one. -/
@[simp] theorem modHart_modHart (u : Nat) (f g : Hart → Hart) (s : State) :
    (modHart u g).run ((modHart u f).run s) = (modHart u fun h => g (f h)).run s := by
  simp only [modHart, Eff.run_prog, Eff.apply, Tab.get_insert_same, Tab.insert_insert]

theorem modHart_congr {f g : Hart → Hart} (h : f (s.hart u) = g (s.hart u)) : (modHart u f).run s = (modHart u g).run s := by
  simp only [modHart, Eff.run_prog, Eff.apply]
  rw [show f (Tab.get (fun _ => {}) s.dev.harts u) = g (Tab.get (fun _ => {}) s.dev.harts u) from h]

/-! ### Clean blocks -/

theorem State.blkClass_of_clean {k : Nat} (h : s.clean k = true) : s.blkClass k = 0 := by
  simp only [State.clean, Bool.and_eq_true, decide_eq_true_eq] at h; exact h.1

theorem State.not_bad_of_clean {k : Nat} (h : s.clean k = true) : s.blkBad k = false := by
  simp only [State.clean, Bool.and_eq_true, Bool.not_eq_true'] at h; exact h.2

/-- A clean block is read without any other effect (R421). -/
theorem touchBlk_clean {k : Nat} (h : s.clean k = true) : (touchBlk k).run s = s := by
  simp only [touchBlk, Prog.run_ask, State.blkClass_of_clean h]
  split <;> first | rfl | simp_all

theorem forEach_touchBlk (ks : List Nat) (h : ∀ k ∈ ks, s.clean k = true) : (forEach ks touchBlk).run s = s := by
  induction ks with
  | nil => rfl
  | cons k ks ih =>
    rw [run_forEach_cons, touchBlk_clean (h k List.mem_cons_self)]
    exact ih fun k hk => h k (List.mem_cons_of_mem _ hk)

/-- Capabilities in clean blocks are used without any other effect (R424). -/
theorem capUse_run {ixs : List Nat} (h : s.capsClean u ixs = true) (k : Prog) : (capUse u ixs k).run s = k.run s := by
  have hc : ∀ b ∈ ixs.flatMap (fun i => [sram 0xA u (16 * i) / 8, sram 0xA u (16 * i) / 8 + 1]), s.clean b = true := by
    intro b hb
    obtain ⟨i, hi, hb⟩ := List.mem_flatMap.1 hb
    have := List.all_eq_true.1 h i hi
    simp only [Bool.and_eq_true] at this
    rcases List.mem_cons.1 hb with rfl | hb <;> [exact this.1; skip]
    rw [List.mem_singleton.1 hb]; exact this.2
  have hn : ¬(ixs.flatMap (fun i => [sram 0xA u (16 * i) / 8, sram 0xA u (16 * i) / 8 + 1])).any s.blkBad = true := by
    simp only [List.any_eq_true, not_exists, not_and, Bool.not_eq_true]
    exact fun b hb => State.not_bad_of_clean (hc b hb)
  simp only [capUse, Prog.run_ask]
  rw [if_neg hn]
  simp only [run_block_cons, run_block_nil, forEach_touchBlk _ hc]

/-- Clean program memory is fetched without any other effect (R424). -/
theorem pmCheck_run (h : s.pmClean u len = true) (k : Prog) : (pmCheck u len k).run s = k.run s := by
  have hc : ∀ b ∈ (range 0 len).map (fun i => pmAddr u (((s.hart u).pc.toNat + i) % pmSize u) / 8), s.clean b = true := by
    intro b hb
    obtain ⟨i, hi, rfl⟩ := List.mem_map.1 hb
    exact List.all_eq_true.1 h i hi
  have hn : ¬((range 0 len).map (fun i => pmAddr u (((s.hart u).pc.toNat + i) % pmSize u) / 8)).any s.blkBad = true := by
    simp only [List.any_eq_true, not_exists, not_and, Bool.not_eq_true]
    exact fun b hb => State.not_bad_of_clean (hc b hb)
  simp only [pmCheck, Prog.run_ask]
  rw [if_neg hn]
  simp only [run_block_cons, run_block_nil, forEach_touchBlk _ hc]

/-! ### Issue -/

/-- What `State.canIssue` says, one part each. -/
theorem State.canIssue_iff : s.canIssue u len = true ↔
    s.dev.pwr.on = true ∧ s.ready u = true ∧ (s.hart u).breakAt = none ∧ s.pmClean u len = true
      ∧ s.mayFetch u len = true ∧ (s.hart u).pc.toNat + len ≤ pmSize u ∧ (s.hart u).straddles len = false := by
  simp only [State.canIssue, Bool.and_eq_true, decide_eq_true_eq, Bool.not_eq_true', and_assoc]

theorem State.issues_iff : s.issues u len = true ↔ s.canIssue u len = true ∧ (s.hart u).quiet = true := by
  simp only [State.issues, Bool.and_eq_true]

theorem State.on_of_canIssue (h : s.canIssue u len = true) : s.dev.pwr.on = true := (State.canIssue_iff.1 h).1

theorem Hart.quiet_iff {h : Hart} : h.quiet = true ↔ h.shadows = [] ∧ h.haltReq = none ∧ h.stepping = none := by
  simp only [Hart.quiet, Bool.and_eq_true, decide_eq_true_eq, and_assoc]

theorem Hart.shadowStall_of_quiet {h : Hart} (q : h.quiet = true) : h.shadowStall = false := by
  simp [Hart.shadowStall, (Hart.quiet_iff.1 q).1]

/-- An instruction that can issue goes to its body, or, with bits that its table refuses, takes ILLEGAL (R46). -/
theorem issue_run (h : s.canIssue u len = true) (hsh : (s.hart u).shadowStall = false) (legal : Bool) (body : Prog) :
    (issue u len legal body).run s = if legal then body.run s else (raise u .illegal 0).run s := by
  obtain ⟨-, hr, hb, hp, hf, hl, hs⟩ := State.canIssue_iff.1 h
  simp only [issue, Prog.run_ask, hr, hsh, hb]
  simp only [not_true_eq_false, Bool.false_eq_true, or_self, if_false]
  have key : (pmCheck u len (ask fun s =>
      if pmSize u < (s.hart u).pc.toNat + len ∨ (s.hart u).straddles len ∨ ¬legal then raise u .illegal 0 else body)).run s =
      if legal then body.run s else (raise u .illegal 0).run s := by
    rw [pmCheck_run hp, Prog.run_ask]
    cases legal
    · simp
    · rw [if_neg (by simp [hs]; omega)]; simp
  by_cases hu : 128 ≤ u
  · simpa only [hu, if_true] using key
  · simp only [State.mayFetch, hu, decide_false, Bool.false_or, Bool.and_eq_true, decide_eq_true_eq] at hf
    rw [if_neg hu, capUse_run hf.1, Prog.run_ask, hf.2]
    exact key

/-- With bits that its table refuses, an instruction that can issue takes ILLEGAL (R46). -/
theorem instr_illegal {u : UnitId} {legal : Bool} {body : Prog} (h : s.issues u.num len = true) (hl : legal = false) :
    instr u len legal body s = .next ((raise u.num .illegal 0).run s) := by
  obtain ⟨h, q⟩ := State.issues_iff.1 h
  rw [instr, perform, if_pos (State.on_of_canIssue h), issue_run h (Hart.shadowStall_of_quiet q), hl, if_neg (by simp)]

/-- An instruction that can issue and whose bits its table allows runs its body. -/
theorem instr_run {u : UnitId} {legal : Bool} {body : Prog} (h : s.issues u.num len = true) (hl : legal = true) :
    instr u len legal body s = .next (body.run s) := by
  obtain ⟨h, q⟩ := State.issues_iff.1 h
  rw [instr, perform, if_pos (State.on_of_canIssue h), issue_run h (Hart.shadowStall_of_quiet q), if_pos hl]

/-! ### Completion -/

theorem endTest_quiet (n : Nat) (h : Hart) :
    (endTest n h).shadows = h.shadows ∧ (endTest n h).haltReq = h.haltReq ∧ (endTest n h).stepping = h.stepping := by
  induction n generalizing h with
  | zero => exact ⟨rfl, rfl, rfl⟩
  | succ n ih =>
    simp only [endTest]; split <;> [split; exact ⟨rfl, rfl, rfl⟩]
    · exact ⟨rfl, rfl, rfl⟩
    · exact ih _

theorem closeLoops_quiet (n : Nat) (h : Hart) :
    (closeLoops n h).shadows = h.shadows ∧ (closeLoops n h).haltReq = h.haltReq ∧ (closeLoops n h).stepping = h.stepping := by
  induction n generalizing h with
  | zero => exact ⟨rfl, rfl, rfl⟩
  | succ n ih => simp only [closeLoops]; split <;> [exact ih _; exact ⟨rfl, rfl, rfl⟩]

theorem Hart.quiet_congr {h k : Hart} (e : k.shadows = h.shadows ∧ k.haltReq = h.haltReq ∧ k.stepping = h.stepping)
    (q : h.quiet = true) : k.quiet = true := by
  rw [Hart.quiet_iff] at *; rw [e.1, e.2.1, e.2.2]; exact q

theorem seqPc_quiet {h : Hart} (q : h.quiet = true) : (seqPc u len h).quiet = true :=
  Hart.quiet_congr (endTest_quiet 4 _) q

theorem jumpPc_quiet {h : Hart} {a : Nat} (q : h.quiet = true) : (jumpPc u a h).quiet = true :=
  Hart.quiet_congr (closeLoops_quiet 4 _) q

/-- At a quiet boundary a completed instruction changes its unit by `f` and nothing else. -/
theorem finish_run {f : Hart → Hart} (h : (s.hart u).quiet = true) (hf : (f (s.hart u)).quiet = true) :
    (finish u f none).run s = (modHart u f).run s := by
  obtain ⟨h1, h2, h3⟩ := Hart.quiet_iff.1 hf
  obtain ⟨g1, g2, g3⟩ := Hart.quiet_iff.1 h
  simp only [finish, run_block_cons, run_block_nil, landShadows, tryHalt, Prog.run_ask, State.hart_modHart_same,
    Prog.run_done, h1, List.map_nil, List.filter_nil, run_forEach_nil, modHart_modHart, h2, h3]
  simp only [reduceCtorEq, if_false]
  refine (congrArg _ ?_).trans rfl
  apply modHart_congr
  simp only [h1, h2, List.map_nil, List.filter_nil, h3]
  have : ∀ k : Hart, k.shadows = [] → k.haltReq = none → k.stepping = none →
      ({ k with shadows := [], haltReq := none, stepping := none } : Hart) = k := by
    rintro k a b c; cases k; simp_all
  exact this _ h1 h2 h3

/-- A plain instruction completes at a quiet boundary: the PC moves on, with the end test (R61). -/
theorem retire_run (h : (s.hart u).quiet = true) : (retire u len).run s = (modHart u (seqPc u len)).run s :=
  finish_run h (seqPc_quiet h)

end Sys2Proof.Machine
end

