-- ==== Sys2Proof/Laws/Scalar.lean ====
section
/-! SUPPORT. What writing a register and completing leaves, said once for every instruction of that shape. -/
namespace Sys2Proof.Machine

variable {s : State} {u len : Nat}

/-- A unit after a change to it. -/
theorem oneHart_modHart (f : Hart → Hart) : OneHart s ((modHart u f).run s) u (f (s.hart u)) :=
  ⟨State.hart_modHart_same u f, fun v hv => by rw [State.hart_modHart, if_neg hv]⟩

theorem Only.refl (ps : List Piece) (s : State) : Only ps s s :=
  ⟨fun p _ => by cases p <;> simp [Piece.same], rfl⟩

theorem Only.trans {ps : List Piece} {s t w : State} (h : Only ps s t) (k : Only ps t w) : Only ps s w :=
  ⟨fun p hp => by
    have a := h.1 p hp
    have b := k.1 p hp
    cases p <;> simp_all [Piece.same], k.2.trans h.2⟩

theorem Only.mono {ps qs : List Piece} {s t : State} (h : Only ps s t) (hs : ∀ p ∈ ps, p ∈ qs) : Only qs s t :=
  ⟨fun p hp => h.1 p fun hq => hp (hs p hq), h.2⟩

theorem only_setReg (r : Nat) (v : Word) : Only [.regs] s ((setReg u r v).run s) :=
  ⟨fun p hp => by cases p <;> simp_all [Piece.same], by simp⟩

theorem only_modHart (f : Hart → Hart) : Only [.harts] s ((modHart u f).run s) :=
  ⟨fun p hp => by cases p <;> simp_all [Piece.same], by simp⟩

theorem oneReg_setReg (h : s.canonical = true) (r : Nat) (v : Word) : OneReg s ((setReg u r v).run s) u r v := by
  constructor
  · rw [State.reg_setReg h]
    by_cases h0 : r % 32 = 0
    · simp [h0, State.reg]
    · simp [h0]
  · intro w i hi; rw [State.reg_setReg h, if_neg (by tauto)]

/-- `writeRd` at a quiet boundary writes the one register and moves the PC on. -/
theorem writeRd_wrote (hc : s.canonical = true) (h : s.issues u len = true) (rd : BitVec 5) (v : State → Word) :
    Wrote s ((writeRd u len rd v).run s) u len rd.toNat (v s) := by
  have hq : (((setReg u rd.toNat (v s)).run s).hart u).quiet = true := by simpa using (State.issues_iff.1 h).2
  simp only [writeRd, Prog.run_ask, run_block_cons, run_block_nil, retire_run hq]
  refine ⟨((only_setReg _ _).mono (by simp)).trans ((only_modHart _).mono (by simp)), ?_, ?_⟩
  · have := oneReg_setReg (u := u) hc rd.toNat (v s)
    exact ⟨by simpa using this.1, fun w r h => by rw [← this.2 w r h]; simp⟩
  · have := oneHart_modHart (s := (setReg u rd.toNat (v s)).run s) (u := u) (seqPc u len)
    exact ⟨by simpa using this.1, fun w h => by simpa using this.2 w h⟩

/-- An instruction that writes `rd` and completes. -/
theorem instr_writeRd {u : UnitId} {len : Nat} (hi : s.Inv) (h : s.issues u.num len = true) {legal : Bool} (hl : legal = true)
    (rd : BitVec 5) (v : State → Word) :
    ∃ t, instr u len legal (writeRd u.num len rd v) s = .next t ∧ Wrote s t u.num len rd.toNat (v s) :=
  ⟨_, instr_run h hl, writeRd_wrote hi.1 h rd v⟩

/-- An instruction that only moves the PC. -/
theorem instr_finish {u : UnitId} {len : Nat} (h : s.issues u.num len = true) {legal : Bool} (hl : legal = true)
    {f : Hart → Hart} (hf : (f (s.hart u.num)).quiet = true) :
    ∃ t, instr u len legal (finish u.num f none) s = .next t ∧ Only [.harts] s t ∧ OneHart s t u.num (f (s.hart u.num)) :=
  ⟨_, instr_run h hl, by
    rw [finish_run (State.issues_iff.1 h).2 hf]
    exact ⟨only_modHart f, oneHart_modHart f⟩⟩

end Sys2Proof.Machine
end

