-- ==== Sys2Proof/Laws/Frames.lean ====
section
/-! SUPPORT. Which pieces of the state a program can change: one lemma per shared operation. -/
namespace Sys2Proof.Machine

/-- From every state the program changes at most the pieces `ps`. -/
def Prog.touches (ps : List Piece) (p : Prog) : Prop := ∀ s, Only ps s (p.run s)

section
variable {ps qs : List Piece} {p q : Prog}

theorem Prog.touches.mono (h : p.touches ps) (hs : ∀ x ∈ ps, x ∈ qs) : p.touches qs := fun s => (h s).mono hs

theorem touches_done : Prog.done.touches ps := fun s => Only.refl ps s

theorem touches_ask {k : State → Prog} (h : ∀ s, (k s).touches ps) : (ask k).touches ps := fun s => h s s

theorem touches_andThen (hp : p.touches ps) (hq : q.touches ps) : (p.andThen q).touches ps := fun s => by
  rw [Prog.run_andThen]; exact (hp s).trans (hq _)

theorem touches_nil : (block []).touches ps := touches_done

theorem touches_cons {l : List Prog} (hp : p.touches ps) (hl : (block l).touches ps) : (block (p :: l)).touches ps :=
  touches_andThen hp hl

theorem touches_forEach {α : Type} {l : List α} {f : α → Prog} (h : ∀ x, (f x).touches ps) : (forEach l f).touches ps := by
  induction l with
  | nil => exact touches_done
  | cons x l ih => exact touches_andThen (h x) ih

theorem touches_onlyIf {c : Prop} [Decidable c] (h : p.touches ps) : (onlyIf c p).touches ps := by
  unfold onlyIf; split <;> [exact h; exact touches_done]

theorem touches_ite {c : Prop} [Decidable c] (hp : p.touches ps) (hq : q.touches ps) :
    (if c then p else q).touches ps := by split <;> assumption

end

/-! ### The effects and the named operations -/

theorem touches_eff_mem (a : Nat) (v : Byte) : (Eff.mem a v).prog.touches [.mem] := fun s =>
  ⟨fun p hp => by cases p <;> simp_all [Piece.same], by simp⟩
theorem touches_eff_memClear (lo n : Nat) : (Eff.memClear lo n).prog.touches [.mem] := fun s =>
  ⟨fun p hp => by cases p <;> simp_all [Piece.same], by simp⟩
theorem touches_eff_xp (k : Nat) (v : BitVec 19) : (Eff.xp k v).prog.touches [.xp] := fun s =>
  ⟨fun p hp => by cases p <;> simp_all [Piece.same], by simp⟩
theorem touches_eff_xpClear (lo n : Nat) : (Eff.xpClear lo n).prog.touches [.xp] := fun s =>
  ⟨fun p hp => by cases p <;> simp_all [Piece.same], by simp⟩
theorem touches_eff_shadow (a : Nat) (v : BitVec 64) : (Eff.shadow a v).prog.touches [.shadow] := fun s =>
  ⟨fun p hp => by cases p <;> simp_all [Piece.same], by simp⟩
theorem touches_eff_shadowClear  : (Eff.shadowClear).prog.touches [.shadow] := fun s =>
  ⟨fun p hp => by cases p <;> simp_all [Piece.same], by simp⟩
theorem touches_eff_cap (k : Nat) (v : BitVec 128) : (Eff.cap k v).prog.touches [.caps] := fun s =>
  ⟨fun p hp => by cases p <;> simp_all [Piece.same], by simp⟩
theorem touches_eff_capClear  : (Eff.capClear).prog.touches [.caps] := fun s =>
  ⟨fun p hp => by cases p <;> simp_all [Piece.same], by simp⟩
theorem touches_eff_regClear (lo n : Nat) : (Eff.regClear lo n).prog.touches [.regs] := fun s =>
  ⟨fun p hp => by cases p <;> simp_all [Piece.same], by simp⟩
theorem touches_eff_tokClear (lo n : Nat) : (Eff.tokClear lo n).prog.touches [.toks] := fun s =>
  ⟨fun p hp => by cases p <;> simp_all [Piece.same], by simp⟩
theorem touches_eff_ioClear  : (Eff.ioClear).prog.touches [.io] := fun s =>
  ⟨fun p hp => by cases p <;> simp_all [Piece.same], by simp⟩
theorem touches_setReg (u r : Nat) (v : Word) : (setReg u r v).touches [.regs] := fun s =>
  ⟨fun p hp => by cases p <;> simp_all [Piece.same], by simp⟩
theorem touches_setTok (u t v : Nat) : (setTok u t v).touches [.toks] := fun s =>
  ⟨fun p hp => by cases p <;> simp_all [Piece.same], by simp⟩
theorem touches_ioSet (a : Nat) (v : Reg32) : (ioSet a v).touches [.io] := fun s =>
  ⟨fun p hp => by cases p <;> simp_all [Piece.same], by simp⟩
theorem touches_modHart (u : Nat) (f : Hart → Hart) : (modHart u f).touches [.harts] := fun s =>
  ⟨fun p hp => by cases p <;> simp_all [Piece.same], by simp⟩
theorem touches_modLink (l : Nat) (f : Link → Link) : (modLink l f).touches [.links] := fun s =>
  ⟨fun p hp => by cases p <;> simp_all [Piece.same], by simp⟩
theorem touches_modBridge (n : Nat) (f : Bridge → Bridge) : (modBridge n f).touches [.bridges] := fun s =>
  ⟨fun p hp => by cases p <;> simp_all [Piece.same], by simp⟩
theorem touches_modPart (p : Nat) (f : Part → Part) : (modPart p f).touches [.parts] := fun s =>
  ⟨fun p hp => by cases p <;> simp_all [Piece.same], by simp⟩
theorem touches_modBank (b : Nat) (f : Bank → Bank) : (modBank b f).touches [.banks] := fun s =>
  ⟨fun p hp => by cases p <;> simp_all [Piece.same], by simp⟩
theorem touches_modJob (f : JobSt → JobSt) : (modJob f).touches [.job] := fun s =>
  ⟨fun p hp => by cases p <;> simp_all [Piece.same], by simp⟩
theorem touches_modRec (f : RecSt → RecSt) : (modRec f).touches [.recd] := fun s =>
  ⟨fun p hp => by cases p <;> simp_all [Piece.same], by simp⟩
theorem touches_modBeat (f : BeatSt → BeatSt) : (modBeat f).touches [.beat] := fun s =>
  ⟨fun p hp => by cases p <;> simp_all [Piece.same], by simp⟩
theorem touches_modStop (f : StopSt → StopSt) : (modStop f).touches [.stop] := fun s =>
  ⟨fun p hp => by cases p <;> simp_all [Piece.same], by simp⟩
theorem touches_modIcu (f : IcuSt → IcuSt) : (modIcu f).touches [.icu] := fun s =>
  ⟨fun p hp => by cases p <;> simp_all [Piece.same], by simp⟩
theorem touches_modDbg (f : DbgSt → DbgSt) : (modDbg f).touches [.dbg] := fun s =>
  ⟨fun p hp => by cases p <;> simp_all [Piece.same], by simp⟩
theorem touches_modPwr (f : PwrSt → PwrSt) : (modPwr f).touches [.pwr] := fun s =>
  ⟨fun p hp => by cases p <;> simp_all [Piece.same], by simp⟩
theorem touches_transmit (b : List Byte) : (transmit b).touches [.out] := fun s =>
  ⟨fun p hp => by cases p <;> simp_all [Piece.same], by simp⟩
theorem touches_answer (b : List Byte) : (answer b).touches [.out] := fun s =>
  ⟨fun p hp => by cases p <;> simp_all [Piece.same], by simp⟩
theorem touches_answerPoison (b : List Byte) : (answerPoison b).touches [.out] := fun s =>
  ⟨fun p hp => by cases p <;> simp_all [Piece.same], by simp⟩
theorem touches_useFree  : (useFree).touches [.free] := fun s =>
  ⟨fun p hp => by cases p <;> simp_all [Piece.same], by simp⟩

end Sys2Proof.Machine
end

