-- ==== Sys2Proof/Laws/FramesCore.lean ====
section
/-! SUPPORT. What each shared operation can change, one lemma per operation: registers, errors, memory, caches, issue and scalar work. -/
namespace Sys2Proof.Machine

/-! ### Machine/Ops.lean -/

theorem touches_capFresh (u ix : Nat) :
    (capFresh u ix).touches [.xp] := by
  unfold capFresh
  repeat' first
    | with_reducible exact touches_nil | with_reducible refine touches_cons ?_ ?_
    | with_reducible exact (touches_eff_xp ..).mono (by decide)

theorem touches_setCreg (u r : Nat) (v : Cap) :
    (setCreg u r v).touches [.xp, .caps] := by
  unfold setCreg
  repeat' first
    | with_reducible exact touches_nil | with_reducible refine touches_cons ?_ ?_
    | with_reducible exact (touches_capFresh ..).mono (by decide)
    | with_reducible exact (touches_eff_cap ..).mono (by decide)

theorem touches_setStore (u e : Nat) (v : Cap) :
    (setStore u e v).touches [.xp, .caps] := by
  unfold setStore
  repeat' first
    | with_reducible exact touches_nil | with_reducible refine touches_cons ?_ ?_
    | with_reducible exact (touches_capFresh ..).mono (by decide)
    | with_reducible exact (touches_eff_cap ..).mono (by decide)

theorem touches_setFld (a hi lo x : Nat) :
    (setFld a hi lo x).touches [.io] := by
  unfold setFld
  repeat' first
    | with_reducible refine touches_ask fun _ => ?_ | with_reducible exact (touches_ioSet ..).mono (by decide)

theorem touches_setMask (a : Nat) (m : Reg32) :
    (setMask a m).touches [.io] := by
  unfold setMask
  repeat' first
    | with_reducible refine touches_ask fun _ => ?_ | with_reducible exact (touches_ioSet ..).mono (by decide)

theorem touches_satAdd (a hi lo n : Nat) :
    (satAdd a hi lo n).touches [.io] := by
  unfold satAdd
  repeat' first
    | with_reducible refine touches_ask fun _ => ?_ | with_reducible exact (touches_setFld ..).mono (by decide)

theorem touches_setPair (a v : Nat) :
    (setPair a v).touches [.io] := by
  unfold setPair
  repeat' first
    | with_reducible exact touches_nil | with_reducible refine touches_cons ?_ ?_
    | with_reducible exact (touches_ioSet ..).mono (by decide)

theorem touches_advance (n : Nat) :
    (advance n).touches [.beat] := by
  unfold advance
  repeat' first
    | with_reducible exact (touches_modBeat ..).mono (by decide)

theorem touches_advanceTime (t : Nat) :
    (advanceTime t).touches [.beat] := by
  unfold advanceTime
  repeat' first
    | with_reducible refine touches_ask fun _ => ?_ | with_reducible refine touches_onlyIf ?_
    | with_reducible exact (touches_advance ..).mono (by decide)

theorem touches_hpIrq (p b : Nat) :
    (hpIrq p b).touches [.io, .parts] := by
  unfold hpIrq
  repeat' first
    | with_reducible exact touches_nil | with_reducible refine touches_cons ?_ ?_
    | with_reducible refine touches_ask fun _ => ?_ | with_reducible refine touches_onlyIf ?_
    | with_reducible exact (touches_modPart ..).mono (by decide)
    | with_reducible exact (touches_setMask ..).mono (by decide)

theorem touches_icuEvent (n : Nat) :
    (icuEvent n).touches [.io, .parts, .icu] := by
  unfold icuEvent
  repeat' first
    | with_reducible exact touches_nil | with_reducible refine touches_cons ?_ ?_
    | with_reducible refine touches_ask fun _ => ?_ | with_reducible exact touches_done
    | with_reducible refine touches_forEach fun _ => ?_ | with_reducible exact (touches_modIcu ..).mono (by decide)
    | with_reducible exact (touches_hpIrq ..).mono (by decide) | dsimp only | split

theorem touches_icuLevel (n : Nat) (on : Bool) :
    (icuLevel n on).touches [.io, .parts, .icu] := by
  unfold icuLevel
  repeat' first
    | with_reducible exact touches_nil | with_reducible refine touches_cons ?_ ?_
    | with_reducible refine touches_ask fun _ => ?_ | with_reducible refine touches_onlyIf ?_
    | with_reducible exact (touches_modIcu ..).mono (by decide)
    | with_reducible exact (touches_icuEvent ..).mono (by decide)

theorem touches_alertSync :
    (alertSync).touches [.io, .parts, .icu] := by
  unfold alertSync
  repeat' first
    | with_reducible refine touches_ask fun _ => ?_ | with_reducible exact (touches_icuLevel ..).mono (by decide)

/-! ### Machine/Errors.lean -/

theorem touches_offer (o : Offer) :
    (offer o).touches [.recd] := by
  unfold offer
  repeat' first
    | with_reducible exact (touches_modRec ..).mono (by decide)

theorem touches_snapTrigger (p c e : Nat) :
    (snapTrigger p c e).touches [.recd] := by
  unfold snapTrigger
  repeat' first
    | with_reducible exact (touches_modRec ..).mono (by decide)

theorem touches_setSlotSt (v x : Nat) :
    (setSlotSt v x).touches [.io, .parts, .icu] := by
  unfold setSlotSt
  repeat' first
    | with_reducible exact touches_nil | with_reducible refine touches_cons ?_ ?_
    | with_reducible refine touches_ask fun _ => ?_ | with_reducible exact (touches_setFld ..).mono (by decide)
    | with_reducible exact (touches_icuLevel ..).mono (by decide)

theorem touches_hostErrPoint :
    (hostErrPoint).touches [.io, .parts, .stop] := by
  unfold hostErrPoint
  repeat' first
    | with_reducible exact touches_nil | with_reducible refine touches_cons ?_ ?_
    | with_reducible refine touches_ask fun _ => ?_ | with_reducible refine touches_forEach fun _ => ?_
    | with_reducible refine touches_onlyIf ?_ | with_reducible exact (touches_modStop ..).mono (by decide)
    | with_reducible exact (touches_hpIrq ..).mono (by decide)

theorem touches_jobIrqPoint :
    (jobIrqPoint).touches [.io, .parts, .stop] := by
  unfold jobIrqPoint
  repeat' first
    | with_reducible exact touches_nil | with_reducible refine touches_cons ?_ ?_
    | with_reducible refine touches_ask fun _ => ?_ | with_reducible refine touches_forEach fun _ => ?_
    | with_reducible exact (touches_modStop ..).mono (by decide)
    | with_reducible exact (touches_hpIrq ..).mono (by decide)
    | with_reducible exact (touches_hostErrPoint ..).mono (by decide)

theorem touches_fillSlot (v page code info addr : Nat) :
    (fillSlot v page code info addr).touches [.io, .parts, .stop, .icu] := by
  unfold fillSlot
  repeat' first
    | with_reducible exact touches_nil | with_reducible refine touches_cons ?_ ?_
    | with_reducible refine touches_ask fun _ => ?_ | with_reducible exact (touches_ioSet ..).mono (by decide)
    | with_reducible exact (touches_modStop ..).mono (by decide)
    | with_reducible exact (touches_satAdd ..).mono (by decide)
    | with_reducible exact (touches_setPair ..).mono (by decide)
    | with_reducible exact (touches_setSlotSt ..).mono (by decide) | dsimp only | split

theorem touches_nesting (v : Nat) :
    (nesting v).touches [.io, .parts, .stop, .icu] := by
  unfold nesting
  repeat' first
    | with_reducible exact touches_nil | with_reducible refine touches_cons ?_ ?_
    | with_reducible refine touches_ask fun _ => ?_ | with_reducible exact touches_done
    | with_reducible refine touches_onlyIf ?_ | with_reducible exact (touches_modStop ..).mono (by decide)
    | with_reducible exact (touches_setMask ..).mono (by decide)
    | with_reducible exact (touches_setSlotSt ..).mono (by decide)
    | with_reducible exact (touches_jobIrqPoint ..).mono (by decide) | dsimp only | split

theorem touches_report (page : Nat) (e : ErrCode) (info addr : Nat) :
    (report page e info addr).touches [.io, .parts, .stop, .recd, .icu] := by
  unfold report
  repeat' first
    | with_reducible exact touches_nil | with_reducible refine touches_cons ?_ ?_
    | with_reducible refine touches_ask fun _ => ?_ | with_reducible exact touches_done
    | with_reducible refine touches_forEach fun _ => ?_ | with_reducible refine touches_onlyIf ?_
    | with_reducible exact (touches_modStop ..).mono (by decide)
    | with_reducible exact (touches_setFld ..).mono (by decide)
    | with_reducible exact (touches_setMask ..).mono (by decide)
    | with_reducible exact (touches_hpIrq ..).mono (by decide)
    | with_reducible exact (touches_icuEvent ..).mono (by decide)
    | with_reducible exact (touches_alertSync ..).mono (by decide)
    | with_reducible exact (touches_offer ..).mono (by decide)
    | with_reducible exact (touches_snapTrigger ..).mono (by decide)
    | with_reducible exact (touches_hostErrPoint ..).mono (by decide)
    | with_reducible exact (touches_fillSlot ..).mono (by decide)
    | with_reducible exact (touches_nesting ..).mono (by decide) | dsimp only | split

/-! ### Machine/Mem.lean -/

theorem touches_bankPut (a : Nat) (r : BReq) :
    (bankPut a r).touches [.banks] := by
  unfold bankPut
  repeat' first
    | with_reducible refine touches_ask fun _ => ?_ | with_reducible exact touches_done
    | with_reducible exact (touches_modBank ..).mono (by decide) | dsimp only | split

theorem touches_bankReq (page a : Nat) (write : Bool) :
    (bankReq page a write).touches [.banks] := by
  unfold bankReq
  repeat' first
    | with_reducible exact (touches_bankPut ..).mono (by decide)

theorem touches_bankRange (page : Nat) (rdr : Option Nat) (a n : Nat) :
    (bankRange page rdr a n).touches [.banks] := by
  unfold bankRange
  repeat' first
    | with_reducible refine touches_forEach fun _ => ?_ | with_reducible exact (touches_bankPut ..).mono (by decide)

theorem touches_bankServed (p : BReq → Bool) :
    (bankServed p).touches [.mem, .xp, .io, .shadow, .caps, .regs, .toks, .beat, .harts, .links, .bridges, .parts, .banks, .fuses, .job, .stop, .recd, .icu, .dbg, .pwr, .out, .free] := fun s =>
  ⟨fun p hp => by cases p <;> simp at hp, by simp⟩

theorem touches_bankDrop (p : BReq → Bool) :
    (bankDrop p).touches [.mem, .xp, .io, .shadow, .caps, .regs, .toks, .beat, .harts, .links, .bridges, .parts, .banks, .fuses, .job, .stop, .recd, .icu, .dbg, .pwr, .out, .free] := fun s =>
  ⟨fun p hp => by cases p <;> simp at hp, by simp⟩

theorem touches_eccLog (a : Nat) (ue : Bool) (sym : Nat) :
    (eccLog a ue sym).touches [.io, .parts, .banks, .stop, .recd, .icu] := by
  unfold eccLog
  repeat' first
    | with_reducible exact touches_nil | with_reducible refine touches_cons ?_ ?_
    | with_reducible refine touches_ask fun _ => ?_ | with_reducible exact touches_done
    | with_reducible exact (touches_ioSet ..).mono (by decide)
    | with_reducible exact (touches_modBank ..).mono (by decide)
    | with_reducible exact (touches_setMask ..).mono (by decide)
    | with_reducible exact (touches_satAdd ..).mono (by decide)
    | with_reducible exact (touches_setPair ..).mono (by decide)
    | with_reducible exact (touches_report ..).mono (by decide) | dsimp only | split

theorem touches_setChk (k : Nat) (c : Chk) :
    (setChk k c).touches [.xp] := by
  unfold setChk
  repeat' first
    | with_reducible exact (touches_eff_xp ..).mono (by decide)

theorem touches_xpLog (m unit blk cls rs cs : Nat) (ce : Bool) :
    (xpLog m unit blk cls rs cs ce).touches [.io, .parts, .stop, .recd, .icu] := by
  unfold xpLog
  repeat' first
    | with_reducible exact touches_nil | with_reducible refine touches_cons ?_ ?_
    | with_reducible refine touches_ask fun _ => ?_ | with_reducible exact (touches_ioSet ..).mono (by decide)
    | with_reducible exact (touches_setMask ..).mono (by decide)
    | with_reducible exact (touches_satAdd ..).mono (by decide)
    | with_reducible exact (touches_report ..).mono (by decide) | dsimp only | split

theorem touches_setBlk (k v : Nat) :
    (setBlk k v).touches [.mem, .caps] := by
  unfold setBlk
  repeat' first
    | with_reducible refine touches_ask fun _ => ?_ | with_reducible refine touches_forEach fun _ => ?_
    | with_reducible exact (touches_eff_mem ..).mono (by decide)
    | with_reducible exact (touches_eff_cap ..).mono (by decide) | dsimp only | split

theorem touches_freshChk (k v : Nat) :
    (freshChk k v).touches [.xp] := by
  unfold freshChk
  repeat' first
    | with_reducible exact (touches_setChk ..).mono (by decide)
    | with_reducible exact (touches_eff_xp ..).mono (by decide) | split

theorem touches_touchBlk (k : Nat) :
    (touchBlk k).touches [.mem, .xp, .io, .caps, .parts, .stop, .recd, .icu] := by
  unfold touchBlk
  repeat' first
    | with_reducible exact touches_nil | with_reducible refine touches_cons ?_ ?_
    | with_reducible refine touches_ask fun _ => ?_ | with_reducible exact touches_done
    | with_reducible exact (touches_setChk ..).mono (by decide)
    | with_reducible exact (touches_xpLog ..).mono (by decide)
    | with_reducible exact (touches_setBlk ..).mono (by decide)
    | with_reducible exact (touches_freshChk ..).mono (by decide) | dsimp only | split

theorem touches_touch (a n : Nat) :
    (touch a n).touches [.mem, .xp, .io, .caps, .parts, .stop, .recd, .icu] := by
  unfold touch
  repeat' first
    | with_reducible refine touches_ask fun _ => ?_ | with_reducible refine touches_forEach fun _ => ?_
    | with_reducible refine touches_onlyIf ?_ | with_reducible exact (touches_report ..).mono (by decide)
    | with_reducible exact (touches_touchBlk ..).mono (by decide) | dsimp only | split

theorem touches_setBytes (x0 : Nat) (x1 : List Byte) :
    (setBytes x0 x1).touches [.mem] := by
  induction x1 generalizing x0 with
  | nil => exact touches_done
  | cons y ys ih =>
    unfold setBytes
    repeat' first
      | with_reducible exact ih .. | with_reducible exact touches_done | with_reducible refine touches_andThen ?_ ?_
      | with_reducible exact (touches_eff_mem ..).mono (by decide)

theorem touches_writePiece (a : Nat) (bs : List Byte) :
    (writePiece a bs).touches [.mem, .xp, .io, .caps, .parts, .banks, .stop, .recd, .icu] := by
  unfold writePiece
  repeat' first
    | with_reducible exact touches_nil | with_reducible refine touches_cons ?_ ?_
    | with_reducible refine touches_ask fun _ => ?_ | with_reducible exact touches_done
    | with_reducible refine touches_forEach fun _ => ?_ | with_reducible refine touches_onlyIf ?_
    | with_reducible exact (touches_report ..).mono (by decide)
    | with_reducible exact (touches_eccLog ..).mono (by decide)
    | with_reducible exact (touches_setBlk ..).mono (by decide)
    | with_reducible exact (touches_freshChk ..).mono (by decide)
    | with_reducible exact (touches_touchBlk ..).mono (by decide)
    | with_reducible exact (touches_setBytes ..).mono (by decide)
    | with_reducible exact (touches_eff_xp ..).mono (by decide) | dsimp only | split

theorem touches_writeAt (a : Nat) (bs : List Byte) :
    (writeAt a bs).touches [.mem, .xp, .io, .caps, .parts, .banks, .stop, .recd, .icu] := by
  unfold writeAt
  repeat' first
    | with_reducible refine touches_forEach fun _ => ?_
    | with_reducible exact (touches_writePiece ..).mono (by decide)

theorem touches_clearAt (a n : Nat) :
    (clearAt a n).touches [.mem, .xp] := by
  unfold clearAt
  repeat' first
    | with_reducible exact touches_nil | with_reducible refine touches_cons ?_ ?_
    | with_reducible exact (touches_eff_memClear ..).mono (by decide)
    | with_reducible exact (touches_eff_xpClear ..).mono (by decide)

theorem touches_poisonAt (a : Nat) :
    (poisonAt a).touches [.xp] := by
  unfold poisonAt
  repeat' first
    | with_reducible refine touches_ask fun _ => ?_ | with_reducible refine touches_forEach fun _ => ?_
    | with_reducible exact (touches_setChk ..).mono (by decide)

theorem touches_scramble (a : Nat) :
    (scramble a).touches [.mem, .free] := by
  unfold scramble
  repeat' first
    | with_reducible exact touches_nil | with_reducible refine touches_cons ?_ ?_
    | with_reducible refine touches_ask fun _ => ?_ | with_reducible refine touches_forEach fun _ => ?_
    | with_reducible exact (touches_useFree ..).mono (by decide)
    | with_reducible exact (touches_eff_mem ..).mono (by decide)

theorem touches_eccEvent (a : Nat) (e : Ecc) :
    (eccEvent a e).touches [.mem, .xp, .io, .parts, .banks, .stop, .recd, .icu, .free] := by
  unfold eccEvent
  repeat' first
    | with_reducible exact touches_nil | with_reducible refine touches_cons ?_ ?_ | with_reducible exact touches_done
    | with_reducible refine touches_onlyIf ?_ | with_reducible exact (touches_eccLog ..).mono (by decide)
    | with_reducible exact (touches_poisonAt ..).mono (by decide)
    | with_reducible exact (touches_scramble ..).mono (by decide) | dsimp only | split

theorem touches_walkReqs (page va : Nat) :
    (walkReqs page va).touches [.mem, .xp, .io, .caps, .parts, .banks, .stop, .recd, .icu] := by
  unfold walkReqs
  repeat' first
    | with_reducible exact touches_nil | with_reducible refine touches_cons ?_ ?_
    | with_reducible refine touches_ask fun _ => ?_ | with_reducible refine touches_forEach fun _ => ?_
    | with_reducible refine touches_onlyIf ?_ | with_reducible exact (touches_bankReq ..).mono (by decide)
    | with_reducible exact (touches_touch ..).mono (by decide)

theorem touches_trFailed (u va : Nat) :
    (trFailed u va).touches [.mem, .xp, .io, .caps, .parts, .banks, .stop, .recd, .icu] := by
  unfold trFailed
  repeat' first
    | with_reducible refine touches_ask fun _ => ?_ | with_reducible refine touches_onlyIf ?_
    | with_reducible exact (touches_walkReqs ..).mono (by decide)

theorem touches_trUse (u va : Nat) :
    (trUse u va).touches [.mem, .xp, .io, .caps, .harts, .parts, .banks, .stop, .recd, .icu, .free] := by
  unfold trUse
  repeat' first
    | with_reducible exact touches_nil | with_reducible refine touches_cons ?_ ?_
    | with_reducible refine touches_ask fun _ => ?_ | with_reducible exact touches_done
    | with_reducible refine touches_onlyIf ?_ | with_reducible exact (touches_modHart ..).mono (by decide)
    | with_reducible exact (touches_useFree ..).mono (by decide)
    | with_reducible exact (touches_walkReqs ..).mono (by decide) | dsimp only | split

theorem touches_refuseWrites (g : Guard) :
    (refuseWrites g).touches [.io, .parts, .stop, .recd, .icu] := by
  unfold refuseWrites
  repeat' first
    | with_reducible refine touches_ask fun _ => ?_ | with_reducible refine touches_forEach fun _ => ?_
    | with_reducible refine touches_onlyIf ?_ | with_reducible exact (touches_satAdd ..).mono (by decide)
    | with_reducible exact (touches_report ..).mono (by decide) | split

theorem touches_guarded {ps : List Piece} {g : Guard} {p : Prog}
    (hs : ∀ p ∈ ([.io, .parts, .stop, .recd, .icu] : List Piece), p ∈ ps)
    (hp : p.touches ps) : (guarded g p).touches ps := by
  unfold guarded
  repeat' first
    | with_reducible exact hp | with_reducible refine touches_ask fun _ => ?_
    | with_reducible exact (touches_refuseWrites ..).mono (fun p hp => hs p (by revert p; decide)) | split

theorem touches_guardD {ps : List Piece} {w : Writer} {va n : Nat} {p : Prog}
    (hs : ∀ p ∈ ([.io, .parts, .stop, .recd, .icu] : List Piece), p ∈ ps)
    (hp : p.touches ps) : (guardD w va n p).touches ps := by
  unfold guardD
  repeat' first
    | with_reducible exact hp | with_reducible refine touches_guarded (fun p hp => hs p (by revert p; decide)) ?_

theorem touches_storeD (w : Writer) (va pa : Nat) (bs : List Byte) :
    (storeD w va pa bs).touches [.mem, .xp, .io, .caps, .parts, .banks, .stop, .recd, .icu] := by
  unfold storeD
  repeat' first
    | with_reducible exact (touches_writeAt ..).mono (by decide) | with_reducible refine touches_guardD (by decide) ?_

/-! ### Machine/Cache.lean -/

theorem touches_setLine (u i : Nat) (c : Option CLine) :
    (setLine u i c).touches [.harts] := by
  unfold setLine
  repeat' first
    | with_reducible exact (touches_modHart ..).mono (by decide)

theorem touches_useLine (u i : Nat) :
    (useLine u i).touches [.harts] := by
  unfold useLine
  repeat' first
    | with_reducible refine touches_ask fun _ => ?_ | with_reducible exact touches_done
    | with_reducible exact (touches_setLine ..).mono (by decide) | dsimp only | split

theorem touches_copyLine (u i line : Nat) :
    (copyLine u i line).touches [.mem, .xp, .caps] := by
  unfold copyLine
  repeat' first
    | with_reducible exact touches_nil | with_reducible refine touches_cons ?_ ?_
    | with_reducible refine touches_ask fun _ => ?_ | with_reducible refine touches_forEach fun _ => ?_
    | with_reducible exact (touches_setChk ..).mono (by decide)
    | with_reducible exact (touches_setBlk ..).mono (by decide)
    | with_reducible exact (touches_freshChk ..).mono (by decide) | dsimp only | split

theorem touches_cacheWrite (u pa : Nat) (bs : List Byte) :
    (cacheWrite u pa bs).touches [.mem, .xp, .io, .caps, .parts, .banks, .stop, .recd, .icu] := by
  unfold cacheWrite
  repeat' first
    | with_reducible refine touches_ask fun _ => ?_ | with_reducible exact touches_done
    | with_reducible refine touches_forEach fun _ => ?_ | with_reducible exact (touches_writeAt ..).mono (by decide)
    | dsimp only | split

theorem touches_cacheSync (u pa n : Nat) :
    (cacheSync u pa n).touches [.mem, .xp, .io, .caps, .parts, .banks, .stop, .recd, .icu] := by
  unfold cacheSync
  repeat' first
    | with_reducible refine touches_ask fun _ => ?_ | with_reducible exact touches_done
    | with_reducible refine touches_forEach fun _ => ?_ | with_reducible exact (touches_writeAt ..).mono (by decide)
    | dsimp only | split

theorem touches_landBytes (page : Nat) (xs : List (Nat × Byte)) (poison : Bool) :
    (landBytes page xs poison).touches [.mem, .xp, .io, .caps, .parts, .banks, .stop, .recd, .icu] := by
  unfold landBytes
  repeat' first
    | with_reducible exact touches_nil | with_reducible refine touches_cons ?_ ?_ | with_reducible exact touches_done
    | with_reducible refine touches_forEach fun _ => ?_ | with_reducible refine touches_onlyIf ?_
    | with_reducible exact (touches_writeAt ..).mono (by decide)
    | with_reducible exact (touches_poisonAt ..).mono (by decide)
    | with_reducible exact (touches_cacheSync ..).mono (by decide) | dsimp only | split

theorem touches_landStore (r : BReq) :
    (landStore r).touches [.mem, .xp, .io, .caps, .parts, .banks, .stop, .recd, .icu] := by
  unfold landStore
  repeat' first
    | with_reducible refine touches_onlyIf ?_ | with_reducible refine touches_guarded (by decide) ?_
    | with_reducible exact (touches_landBytes ..).mono (by decide)

theorem touches_storeGrain (page : Nat) (g : Guard) (xs : List (Nat × Byte)) (poison : Bool) :
    (storeGrain page g xs poison).touches [.mem, .xp, .io, .caps, .parts, .banks, .stop, .recd, .icu] := by
  unfold storeGrain
  repeat' first
    | with_reducible exact touches_nil | with_reducible refine touches_cons ?_ ?_
    | with_reducible refine touches_ask fun _ => ?_ | with_reducible refine touches_onlyIf ?_
    | with_reducible exact (touches_bankPut ..).mono (by decide)
    | with_reducible refine touches_guarded (by decide) ?_
    | with_reducible exact (touches_landBytes ..).mono (by decide)
    | with_reducible exact (touches_landStore ..).mono (by decide) | dsimp only | split

theorem touches_drainEntry (u : Nat) (e : MbEntry) :
    (drainEntry u e).touches [.mem, .xp, .io, .caps, .parts, .banks, .stop, .recd, .icu] := by
  unfold drainEntry
  repeat' first
    | with_reducible refine touches_forEach fun _ => ?_ | with_reducible refine touches_onlyIf ?_
    | with_reducible exact (touches_storeGrain ..).mono (by decide)

theorem touches_drainOldest (u : Nat) :
    (drainOldest u).touches [.mem, .xp, .io, .caps, .harts, .parts, .banks, .stop, .recd, .icu] := by
  unfold drainOldest
  repeat' first
    | with_reducible exact touches_nil | with_reducible refine touches_cons ?_ ?_
    | with_reducible refine touches_ask fun _ => ?_ | with_reducible exact touches_done
    | with_reducible exact (touches_modHart ..).mono (by decide)
    | with_reducible exact (touches_drainEntry ..).mono (by decide) | dsimp only | split

theorem touches_drainAll (u : Nat) :
    (drainAll u).touches [.mem, .xp, .io, .caps, .harts, .parts, .banks, .stop, .recd, .icu] := by
  unfold drainAll
  repeat' first
    | with_reducible exact touches_nil | with_reducible refine touches_cons ?_ ?_
    | with_reducible refine touches_ask fun _ => ?_ | with_reducible refine touches_forEach fun _ => ?_
    | with_reducible exact (touches_modHart ..).mono (by decide)
    | with_reducible exact (touches_drainEntry ..).mono (by decide)

theorem touches_drainOver (u pa n : Nat) :
    (drainOver u pa n).touches [.mem, .xp, .io, .caps, .harts, .parts, .banks, .stop, .recd, .icu] := by
  unfold drainOver
  repeat' first
    | with_reducible refine touches_ask fun _ => ?_ | with_reducible refine touches_onlyIf ?_
    | with_reducible exact (touches_drainAll ..).mono (by decide)

theorem touches_mbStore (u va pa : Nat) (bs : List Byte) :
    (mbStore u va pa bs).touches [.mem, .xp, .io, .caps, .harts, .parts, .banks, .stop, .recd, .icu] := by
  unfold mbStore
  repeat' first
    | with_reducible exact touches_nil | with_reducible refine touches_cons ?_ ?_
    | with_reducible refine touches_ask fun _ => ?_ | with_reducible refine touches_onlyIf ?_
    | with_reducible exact (touches_modHart ..).mono (by decide)
    | with_reducible exact (touches_cacheWrite ..).mono (by decide)
    | with_reducible exact (touches_drainOldest ..).mono (by decide) | dsimp only | split

theorem touches_refill (u pa : Nat) :
    (refill u pa).touches [.mem, .xp, .io, .caps, .parts, .stop, .recd, .icu] := by
  unfold refill
  repeat' first
    | with_reducible exact touches_nil | with_reducible refine touches_cons ?_ ?_
    | with_reducible refine touches_ask fun _ => ?_ | with_reducible exact touches_done
    | with_reducible refine touches_onlyIf ?_ | with_reducible exact (touches_touchBlk ..).mono (by decide)
    | with_reducible exact (touches_copyLine ..).mono (by decide) | dsimp only | split

theorem touches_fillLine (u line : Nat) :
    (fillLine u line).touches [.mem, .xp, .io, .caps, .harts, .parts, .banks, .stop, .recd, .icu] := by
  unfold fillLine
  repeat' first
    | with_reducible exact touches_nil | with_reducible refine touches_cons ?_ ?_
    | with_reducible refine touches_ask fun _ => ?_ | with_reducible exact touches_done
    | with_reducible refine touches_forEach fun _ => ?_ | with_reducible exact (touches_writeAt ..).mono (by decide)
    | with_reducible exact (touches_setLine ..).mono (by decide)
    | with_reducible exact (touches_useLine ..).mono (by decide)
    | with_reducible exact (touches_copyLine ..).mono (by decide) | dsimp only | split

theorem touches_dcctlSettle (u : Nat) :
    (dcctlSettle u).touches [.io, .harts] := by
  unfold dcctlSettle
  repeat' first
    | with_reducible exact touches_nil | with_reducible refine touches_cons ?_ ?_
    | with_reducible refine touches_ask fun _ => ?_ | with_reducible exact touches_done
    | with_reducible refine touches_onlyIf ?_ | with_reducible exact (touches_ioSet ..).mono (by decide)
    | with_reducible exact (touches_modHart ..).mono (by decide) | dsimp only | split

theorem touches_cinvLines (u : Nat) :
    (cinvLines u).touches [.harts] := by
  unfold cinvLines
  repeat' first
    | with_reducible refine touches_ask fun _ => ?_ | with_reducible exact (touches_modHart ..).mono (by decide)

theorem touches_trainPrefetch (u : Nat) (pc : BitVec 18) (va : Nat) :
    (trainPrefetch u pc va).touches [.mem, .xp, .io, .caps, .harts, .parts, .banks, .stop, .recd, .icu, .free] := by
  unfold trainPrefetch
  repeat' first
    | with_reducible exact touches_nil | with_reducible refine touches_cons ?_ ?_
    | with_reducible refine touches_ask fun _ => ?_ | with_reducible refine touches_forEach fun _ => ?_
    | with_reducible refine touches_onlyIf ?_ | with_reducible exact (touches_modHart ..).mono (by decide)
    | with_reducible exact (touches_bankRange ..).mono (by decide)
    | with_reducible exact (touches_touch ..).mono (by decide)
    | with_reducible exact (touches_walkReqs ..).mono (by decide)
    | with_reducible exact (touches_trUse ..).mono (by decide) | dsimp only | split

theorem touches_storeRow (u va : Nat) (ps : List (Nat × Nat × Nat)) (bs : List Byte) (bad : List Nat) :
    (storeRow u va ps bs bad).touches [.mem, .xp, .io, .caps, .harts, .parts, .banks, .stop, .recd, .icu] := by
  unfold storeRow
  repeat' first
    | with_reducible exact touches_nil | with_reducible refine touches_cons ?_ ?_
    | with_reducible refine touches_forEach fun _ => ?_
    | with_reducible exact (touches_storeGrain ..).mono (by decide)
    | with_reducible exact (touches_drainOver ..).mono (by decide)

theorem touches_directStore (u va pa : Nat) (bs : List Byte) :
    (directStore u va pa bs).touches [.mem, .xp, .io, .caps, .harts, .parts, .banks, .stop, .recd, .icu] := by
  unfold directStore
  repeat' first
    | with_reducible exact (touches_storeRow ..).mono (by decide)

theorem touches_storeMany (u : Nat) (guard : List Nat → Guard) (xs : List (Nat × Nat × List Byte × Bool)) :
    (storeMany u guard xs).touches [.mem, .xp, .io, .caps, .harts, .parts, .banks, .stop, .recd, .icu] := by
  unfold storeMany
  repeat' first
    | with_reducible exact touches_nil | with_reducible refine touches_cons ?_ ?_
    | with_reducible refine touches_forEach fun _ => ?_
    | with_reducible exact (touches_storeGrain ..).mono (by decide)
    | with_reducible exact (touches_drainOver ..).mono (by decide)

theorem touches_readTakes (page stamp a : Nat) (bad : Bool) :
    (readTakes page stamp a bad).touches [.harts] := by
  unfold readTakes
  repeat' first
    | with_reducible refine touches_ask fun _ => ?_ | with_reducible exact touches_done
    | with_reducible exact (touches_modHart ..).mono (by decide) | dsimp only | split

theorem touches_admSettle (c : Nat) :
    (admSettle c).touches [.io, .harts] := by
  unfold admSettle
  repeat' first
    | with_reducible exact touches_nil | with_reducible refine touches_cons ?_ ?_
    | with_reducible refine touches_ask fun _ => ?_ | with_reducible refine touches_onlyIf ?_
    | with_reducible exact (touches_modHart ..).mono (by decide)
    | with_reducible exact (touches_satAdd ..).mono (by decide) | dsimp only | split

theorem touches_tagSettle (c : Nat) :
    (tagSettle c).touches [.io] := by
  unfold tagSettle
  repeat' first
    | with_reducible refine touches_ask fun _ => ?_ | with_reducible refine touches_onlyIf ?_
    | with_reducible exact (touches_ioSet ..).mono (by decide)

theorem touches_strmSees (c n a : Nat) :
    (strmSees c n a).touches [.harts] := by
  unfold strmSees
  repeat' first
    | with_reducible refine touches_ask fun _ => ?_ | with_reducible exact (touches_modHart ..).mono (by decide)

theorem touches_admitted (r : BReq) :
    (admitted r).touches [.mem, .xp, .io, .caps, .harts, .parts, .banks, .stop, .recd, .icu] := by
  unfold admitted
  repeat' first
    | with_reducible exact touches_nil | with_reducible refine touches_cons ?_ ?_ | with_reducible exact touches_done
    | with_reducible exact (touches_landStore ..).mono (by decide)
    | with_reducible exact (touches_readTakes ..).mono (by decide)
    | with_reducible exact (touches_tagSettle ..).mono (by decide)
    | with_reducible exact (touches_strmSees ..).mono (by decide) | dsimp only | split

/-! ### Machine/Issue.lean -/

theorem touches_tryHalt (u : Nat) :
    (tryHalt u).touches [.harts] := by
  unfold tryHalt
  repeat' first
    | with_reducible refine touches_ask fun _ => ?_ | with_reducible exact touches_done
    | with_reducible refine touches_onlyIf ?_ | with_reducible exact (touches_modHart ..).mono (by decide)
    | dsimp only | split

theorem touches_askHalt (u r : Nat) :
    (askHalt u r).touches [.harts] := by
  unfold askHalt
  repeat' first
    | with_reducible exact (touches_modHart ..).mono (by decide)

theorem touches_watch (u va n : Nat) (rd wr : Bool) :
    (watch u va n rd wr).touches [.harts] := by
  unfold watch
  repeat' first
    | with_reducible refine touches_ask fun _ => ?_ | with_reducible exact touches_done
    | with_reducible exact (touches_askHalt ..).mono (by decide) | dsimp only | split

theorem touches_landShadows (u : Nat) :
    (landShadows u).touches [.regs, .harts] := by
  unfold landShadows
  repeat' first
    | with_reducible exact touches_nil | with_reducible refine touches_cons ?_ ?_
    | with_reducible refine touches_ask fun _ => ?_ | with_reducible refine touches_forEach fun _ => ?_
    | with_reducible exact (touches_setReg ..).mono (by decide)
    | with_reducible exact (touches_modHart ..).mono (by decide)

theorem touches_readDone (u stamp : Nat) :
    (readDone u stamp).touches [.mem, .xp, .io, .shadow, .caps, .regs, .toks, .beat, .harts, .links, .bridges, .parts, .banks, .fuses, .job, .stop, .recd, .icu, .dbg, .pwr, .out, .free] := fun s =>
  ⟨fun p hp => by cases p <;> simp at hp, by simp⟩

theorem touches_completeShadows (u : Nat) :
    (completeShadows u).touches [.mem, .xp, .io, .shadow, .caps, .regs, .toks, .beat, .harts, .links, .bridges, .parts, .banks, .fuses, .job, .stop, .recd, .icu, .dbg, .pwr, .out, .free] := fun s =>
  ⟨fun p hp => by cases p <;> simp at hp, by simp⟩

theorem touches_coreFatal (u info : Nat) :
    (coreFatal u info).touches [.io, .harts, .parts, .stop, .recd, .icu] := by
  unfold coreFatal
  repeat' first
    | with_reducible exact touches_nil | with_reducible refine touches_cons ?_ ?_
    | with_reducible refine touches_ask fun _ => ?_ | with_reducible refine touches_onlyIf ?_
    | with_reducible exact (touches_modHart ..).mono (by decide)
    | with_reducible exact (touches_icuEvent ..).mono (by decide)
    | with_reducible exact (touches_report ..).mono (by decide)

theorem touches_capUse {ps : List Piece} {u : Nat} {ixs : List Nat} {k : Prog}
    (hs : ∀ p ∈ ([.mem, .xp, .io, .caps, .harts, .parts, .stop, .recd, .icu] : List Piece), p ∈ ps)
    (hk : k.touches ps) : (capUse u ixs k).touches ps := by
  unfold capUse
  repeat' first
    | with_reducible exact hk | with_reducible exact touches_nil | with_reducible refine touches_cons ?_ ?_
    | with_reducible refine touches_ask fun _ => ?_ | with_reducible refine touches_forEach fun _ => ?_
    | with_reducible exact (touches_touchBlk ..).mono (fun p hp => hs p (by revert p; decide))
    | with_reducible exact (touches_coreFatal ..).mono (fun p hp => hs p (by revert p; decide)) | dsimp only | split

theorem touches_lastChance (u kind cause why : Nat) :
    (lastChance u kind cause why).touches [.io, .harts, .parts, .stop, .recd, .icu] := by
  unfold lastChance
  repeat' first
    | with_reducible exact touches_nil | with_reducible refine touches_cons ?_ ?_
    | with_reducible refine touches_ask fun _ => ?_ | with_reducible exact (touches_ioSet ..).mono (by decide)
    | with_reducible exact (touches_coreFatal ..).mono (by decide)

theorem touches_enter (u kind cause source prio bad insn : Nat) :
    (enter u kind cause source prio bad insn).touches [.mem, .xp, .io, .shadow, .caps, .regs, .toks, .beat, .harts, .links, .bridges, .parts, .banks, .fuses, .job, .stop, .recd, .icu, .dbg, .pwr, .out, .free] := fun s =>
  ⟨fun p hp => by cases p <;> simp at hp, by simp⟩

theorem touches_seqFault (u : Nat) :
    (seqFault u).touches [.io, .harts, .parts, .stop, .recd, .icu] := by
  unfold seqFault
  repeat' first
    | with_reducible exact touches_nil | with_reducible refine touches_cons ?_ ?_
    | with_reducible refine touches_ask fun _ => ?_ | with_reducible exact (touches_modHart ..).mono (by decide)
    | with_reducible exact (touches_report ..).mono (by decide)

theorem touches_raise (u : Nat) (c : Cause) (bad : Nat) :
    (raise u c bad).touches [.mem, .xp, .io, .shadow, .caps, .regs, .toks, .beat, .harts, .links, .bridges, .parts, .banks, .fuses, .job, .stop, .recd, .icu, .dbg, .pwr, .out, .free] := fun s =>
  ⟨fun p hp => by cases p <;> simp at hp, by simp⟩

theorem touches_raiseTr (u va : Nat) (wr : Bool) (r : Tr) :
    (raiseTr u va wr r).touches [.mem, .xp, .io, .shadow, .caps, .regs, .toks, .beat, .harts, .links, .bridges, .parts, .banks, .fuses, .job, .stop, .recd, .icu, .dbg, .pwr, .out, .free] := fun s =>
  ⟨fun p hp => by cases p <;> simp at hp, by simp⟩

theorem touches_latePoison (u : Nat) (pc : BitVec 18) (bad : Nat) :
    (latePoison u pc bad).touches [.mem, .xp, .io, .shadow, .caps, .regs, .toks, .beat, .harts, .links, .bridges, .parts, .banks, .fuses, .job, .stop, .recd, .icu, .dbg, .pwr, .out, .free] := fun s =>
  ⟨fun p hp => by cases p <;> simp at hp, by simp⟩

theorem touches_finish (u : Nat) (f : Hart → Hart) (sh : Option Shadow) :
    (finish u f sh).touches [.regs, .harts] := by
  unfold finish
  repeat' first
    | with_reducible exact touches_nil | with_reducible refine touches_cons ?_ ?_ | with_reducible exact touches_done
    | with_reducible exact (touches_modHart ..).mono (by decide)
    | with_reducible exact (touches_tryHalt ..).mono (by decide)
    | with_reducible exact (touches_landShadows ..).mono (by decide) | dsimp only | split

theorem touches_retire (u len : Nat) :
    (retire u len).touches [.regs, .harts] := by
  unfold retire
  repeat' first
    | with_reducible exact (touches_finish ..).mono (by decide)

theorem touches_pmCheck {ps : List Piece} {u len : Nat} {k : Prog}
    (hs : ∀ p ∈ ([.mem, .xp, .io, .caps, .harts, .parts, .stop, .recd, .icu] : List Piece), p ∈ ps)
    (hk : k.touches ps) : (pmCheck u len k).touches ps := by
  unfold pmCheck
  repeat' first
    | with_reducible exact hk | with_reducible exact touches_nil | with_reducible refine touches_cons ?_ ?_
    | with_reducible refine touches_ask fun _ => ?_ | with_reducible refine touches_forEach fun _ => ?_
    | with_reducible exact (touches_touchBlk ..).mono (fun p hp => hs p (by revert p; decide))
    | with_reducible exact (touches_coreFatal ..).mono (fun p hp => hs p (by revert p; decide))
    | with_reducible exact (touches_seqFault ..).mono (fun p hp => hs p (by revert p; decide)) | dsimp only | split

theorem touches_issue {ps : List Piece} {u len : Nat} {legal : Bool} {body : Prog}
    (hs : ∀ p ∈ ([.mem, .xp, .io, .shadow, .caps, .regs, .toks, .beat, .harts, .links, .bridges, .parts, .banks, .fuses, .job, .stop, .recd, .icu, .dbg, .pwr, .out, .free] : List Piece), p ∈ ps)
    (hbody : body.touches ps) : (issue u len legal body).touches ps := by
  unfold issue
  repeat' first
    | with_reducible exact hbody | with_reducible exact touches_nil | with_reducible refine touches_cons ?_ ?_
    | with_reducible refine touches_ask fun _ => ?_ | with_reducible exact touches_done | with_reducible assumption
    | with_reducible exact (touches_tryHalt ..).mono (fun p hp => hs p (by revert p; decide))
    | with_reducible exact (touches_askHalt ..).mono (fun p hp => hs p (by revert p; decide))
    | with_reducible refine touches_capUse (fun p hp => hs p (by revert p; decide)) ?_
    | with_reducible exact (touches_raise ..).mono (fun p hp => hs p (by revert p; decide))
    | with_reducible refine touches_pmCheck (fun p hp => hs p (by revert p; decide)) ?_ | dsimp only | split

theorem touches_addTok (c t n : Nat) :
    (addTok c t n).touches [.io, .toks, .parts, .stop, .recd, .icu] := by
  unfold addTok
  repeat' first
    | with_reducible exact touches_nil | with_reducible refine touches_cons ?_ ?_
    | with_reducible refine touches_ask fun _ => ?_ | with_reducible refine touches_onlyIf ?_
    | with_reducible exact (touches_setTok ..).mono (by decide)
    | with_reducible exact (touches_report ..).mono (by decide)

theorem touches_subTok (u t n : Nat) :
    (subTok u t n).touches [.toks] := by
  unfold subTok
  repeat' first
    | with_reducible refine touches_ask fun _ => ?_ | with_reducible exact (touches_setTok ..).mono (by decide)

theorem touches_awaitTok {ps : List Piece} {u t n : Nat} {i : Instr} {body : Prog}
    (hs : ∀ p ∈ ([.harts] : List Piece), p ∈ ps)
    (hbody : body.touches ps) : (awaitTok u t n i body).touches ps := by
  unfold awaitTok
  repeat' first
    | with_reducible exact hbody | with_reducible refine touches_ask fun _ => ?_
    | with_reducible exact (touches_modHart ..).mono (fun p hp => hs p (by revert p; decide)) | split

theorem touches_awaitWte {ps : List Piece} {u : Nat} {wte : Bool} {wtok : Nat} {i : Instr} {body : Prog}
    (hs : ∀ p ∈ ([.harts] : List Piece), p ∈ ps)
    (hbody : body.touches ps) : (awaitWte u wte wtok i body).touches ps := by
  unfold awaitWte
  repeat' first
    | with_reducible exact hbody | with_reducible refine touches_awaitTok (fun p hp => hs p (by revert p; decide)) ?_
    | split

theorem touches_takeWte (u : Nat) (wte : Bool) (wtok : Nat) :
    (takeWte u wte wtok).touches [.toks] := by
  unfold takeWte
  repeat' first
    | with_reducible exact touches_done | with_reducible exact (touches_subTok ..).mono (by decide) | split

theorem touches_waitEnds (u : Nat) :
    (waitEnds u).touches [.io, .harts] := by
  unfold waitEnds
  repeat' first
    | with_reducible exact touches_nil | with_reducible refine touches_cons ?_ ?_
    | with_reducible refine touches_ask fun _ => ?_ | with_reducible exact touches_done
    | with_reducible refine touches_onlyIf ?_ | with_reducible exact (touches_ioSet ..).mono (by decide)
    | with_reducible exact (touches_modHart ..).mono (by decide) | dsimp only | split

/-! ### Machine/Scalar.lean -/

theorem touches_writeRd (u len : Nat) (rd : BitVec 5) (v : State → Word) :
    (writeRd u len rd v).touches [.regs, .harts] := by
  unfold writeRd
  repeat' first
    | with_reducible exact touches_nil | with_reducible refine touches_cons ?_ ?_
    | with_reducible refine touches_ask fun _ => ?_ | with_reducible exact (touches_setReg ..).mono (by decide)
    | with_reducible exact (touches_retire ..).mono (by decide)

theorem touches_branch (u len : Nat) (taken : Bool) (off : Int) :
    (branch u len taken off).touches [.regs, .harts] := by
  unfold branch
  repeat' first
    | with_reducible exact (touches_finish ..).mono (by decide)
    | with_reducible exact (touches_retire ..).mono (by decide) | split

theorem touches_waitBody (u len t n : Nat) (i : Instr) :
    (waitBody u len t n i).touches [.regs, .toks, .harts] := by
  unfold waitBody
  repeat' first
    | with_reducible exact touches_nil | with_reducible refine touches_cons ?_ ?_
    | with_reducible exact (touches_retire ..).mono (by decide)
    | with_reducible exact (touches_subTok ..).mono (by decide)
    | with_reducible refine touches_awaitTok (by decide) ?_

theorem touches_signal (u len core t n : Nat) :
    (signal u len core t n).touches [.mem, .xp, .io, .caps, .regs, .harts, .parts, .banks, .stop, .recd, .icu] := by
  unfold signal
  repeat' first
    | with_reducible exact touches_nil | with_reducible refine touches_cons ?_ ?_
    | with_reducible exact (touches_modHart ..).mono (by decide)
    | with_reducible exact (touches_drainAll ..).mono (by decide)
    | with_reducible exact (touches_retire ..).mono (by decide)

/-! ### Machine/Loads.lean -/

theorem touches_dAccess {ps : List Piece} {u a n : Nat} {wr : Bool} {k : Nat → Prog}
    (hs : ∀ p ∈ ([.mem, .xp, .io, .shadow, .caps, .regs, .toks, .beat, .harts, .links, .bridges, .parts, .banks, .fuses, .job, .stop, .recd, .icu, .dbg, .pwr, .out, .free] : List Piece), p ∈ ps)
    (hk : ∀ a0, (k a0).touches ps) : (dAccess u a n wr k).touches ps := by
  unfold dAccess
  repeat' first
    | with_reducible exact hk _ | with_reducible exact touches_nil | with_reducible refine touches_cons ?_ ?_
    | with_reducible refine touches_ask fun _ => ?_ | with_reducible exact touches_done
    | with_reducible exact (touches_trUse ..).mono (fun p hp => hs p (by revert p; decide))
    | with_reducible refine touches_capUse (fun p hp => hs p (by revert p; decide)) ?_
    | with_reducible exact (touches_raise ..).mono (fun p hp => hs p (by revert p; decide))
    | with_reducible exact (touches_raiseTr ..).mono (fun p hp => hs p (by revert p; decide)) | dsimp only | split

theorem touches_loadAsks (u : Nat) (sh : Shadow) :
    (loadAsks u sh).touches [.banks] := by
  unfold loadAsks
  repeat' first
    | with_reducible exact (touches_bankRange ..).mono (by decide) | dsimp only | split

theorem touches_loadAt (u rd a pa n : Nat) (signed : Bool) :
    (loadAt u rd a pa n signed).touches [.mem, .xp, .io, .shadow, .caps, .regs, .toks, .beat, .harts, .links, .bridges, .parts, .banks, .fuses, .job, .stop, .recd, .icu, .dbg, .pwr, .out, .free] := fun s =>
  ⟨fun p hp => by cases p <;> simp at hp, by simp⟩

theorem touches_seqLoad (u rd a n : Nat) (signed : Bool) :
    (seqLoad u rd a n signed).touches [.mem, .xp, .io, .caps, .regs, .harts, .parts, .stop, .recd, .icu] := by
  unfold seqLoad
  repeat' first
    | with_reducible exact touches_nil | with_reducible refine touches_cons ?_ ?_
    | with_reducible refine touches_ask fun _ => ?_ | with_reducible exact (touches_touch ..).mono (by decide)
    | with_reducible exact (touches_seqFault ..).mono (by decide)
    | with_reducible exact (touches_finish ..).mono (by decide) | split

theorem touches_pmWrite (u : Nat) (x0 : Nat) (x1 : Nat) (x2 : Nat) :
    (pmWrite u x0 x1 x2).touches [.mem, .xp, .io, .caps, .parts, .stop, .recd, .icu] := by
  induction x0 generalizing x1 x2 with
  | zero => exact touches_done
  | succ n ih =>
    unfold pmWrite
    repeat' first
      | with_reducible exact ih .. | with_reducible exact touches_nil | with_reducible refine touches_cons ?_ ?_
      | with_reducible refine touches_ask fun _ => ?_ | with_reducible exact touches_done
      | with_reducible refine touches_andThen ?_ ?_ | with_reducible exact (touches_setChk ..).mono (by decide)
      | with_reducible exact (touches_setBlk ..).mono (by decide)
      | with_reducible exact (touches_freshChk ..).mono (by decide)
      | with_reducible exact (touches_touchBlk ..).mono (by decide) | dsimp only | split

theorem touches_pAccess {ps : List Piece} {u : Nat} {f : S4P} {perm : Nat} {k : Nat → Prog}
    (hs : ∀ p ∈ ([.mem, .xp, .io, .shadow, .caps, .regs, .toks, .beat, .harts, .links, .bridges, .parts, .banks, .fuses, .job, .stop, .recd, .icu, .dbg, .pwr, .out, .free] : List Piece), p ∈ ps)
    (hk : ∀ a0, (k a0).touches ps) : (pAccess u f perm k).touches ps := by
  unfold pAccess
  repeat' first
    | with_reducible exact hk _ | with_reducible refine touches_ask fun _ => ?_
    | with_reducible refine touches_capUse (fun p hp => hs p (by revert p; decide)) ?_
    | with_reducible exact (touches_raise ..).mono (fun p hp => hs p (by revert p; decide)) | dsimp only | split

end Sys2Proof.Machine
end

