-- ==== Sys2Proof/Laws/FramesUnits.lean ====
section
/-! SUPPORT. What each shared operation can change, one lemma per operation: tiles, the array, the vector unit, the queues, UPD, the Streamers and capabilities. -/
namespace Sys2Proof.Machine

/-! ### Machine/Tiles.lean -/

theorem touches_setTag (u t : Nat) (g : Option Tag) :
    (setTag u t g).touches [.harts] := by
  unfold setTag
  repeat' first
    | with_reducible exact (touches_modHart ..).mono (by decide)

theorem touches_clearRows (u t r : Nat) :
    (clearRows u t r).touches [.mem, .xp] := by
  unfold clearRows
  repeat' first
    | with_reducible exact (touches_clearAt ..).mono (by decide)

theorem touches_takeStamp (u : Nat) :
    (takeStamp u).touches [.harts] := by
  unfold takeStamp
  repeat' first
    | with_reducible exact (touches_modHart ..).mono (by decide)

theorem touches_raiseRow (u : Nat) (wr : Bool) (e : RowFail) :
    (raiseRow u wr e).touches [.mem, .xp, .io, .shadow, .caps, .regs, .toks, .beat, .harts, .links, .bridges, .parts, .banks, .fuses, .job, .stop, .recd, .icu, .dbg, .pwr, .out, .free] := fun s =>
  ⟨fun p hp => by cases p <;> simp at hp, by simp⟩

theorem touches_rowLand (u : Nat) (r : RowOp) :
    (rowLand u r).touches [.mem, .xp, .io, .caps, .parts, .banks, .stop, .recd, .icu] := by
  unfold rowLand
  repeat' first
    | with_reducible exact touches_nil | with_reducible refine touches_cons ?_ ?_
    | with_reducible refine touches_forEach fun _ => ?_ | with_reducible exact (touches_writeAt ..).mono (by decide)
    | with_reducible exact (touches_poisonAt ..).mono (by decide)

theorem touches_rowStore (u : Nat) (r : RowStore) :
    (rowStore u r).touches [.mem, .xp, .io, .caps, .harts, .parts, .banks, .stop, .recd, .icu] := by
  unfold rowStore
  repeat' first
    | with_reducible exact touches_nil | with_reducible refine touches_cons ?_ ?_
    | with_reducible refine touches_ask fun _ => ?_ | with_reducible exact (touches_touch ..).mono (by decide)
    | with_reducible exact (touches_storeRow ..).mono (by decide) | dsimp only | split

theorem touches_tileStart (u : Nat) (q : TileOp) :
    (tileStart u q).touches [.mem, .xp, .io, .caps, .harts, .parts, .banks, .stop, .recd, .icu] := by
  unfold tileStart
  repeat' first
    | with_reducible exact touches_nil | with_reducible refine touches_cons ?_ ?_
    | with_reducible refine touches_forEach fun _ => ?_ | with_reducible exact (touches_modHart ..).mono (by decide)
    | with_reducible exact (touches_clearAt ..).mono (by decide)
    | with_reducible exact (touches_rowLand ..).mono (by decide)
    | with_reducible exact (touches_rowStore ..).mono (by decide)

theorem touches_tileRun (u : Nat) :
    (tileRun u).touches [.mem, .xp, .io, .shadow, .caps, .regs, .toks, .beat, .harts, .links, .bridges, .parts, .banks, .fuses, .job, .stop, .recd, .icu, .dbg, .pwr, .out, .free] := fun s =>
  ⟨fun p hp => by cases p <;> simp at hp, by simp⟩

theorem touches_tileEnter {ps : List Piece} {u : Nat} {q : TileOp} {fin : Prog}
    (hs : ∀ p ∈ ([.mem, .xp, .io, .shadow, .caps, .regs, .toks, .beat, .harts, .links, .bridges, .parts, .banks, .fuses, .job, .stop, .recd, .icu, .dbg, .pwr, .out, .free] : List Piece), p ∈ ps)
    (hfin : fin.touches ps) : (tileEnter u q fin).touches ps := by
  unfold tileEnter
  repeat' first
    | with_reducible exact hfin | with_reducible exact touches_nil | with_reducible refine touches_cons ?_ ?_
    | with_reducible refine touches_ask fun _ => ?_ | with_reducible exact touches_done
    | with_reducible exact (touches_modHart ..).mono (fun p hp => hs p (by revert p; decide))
    | with_reducible exact (touches_latePoison ..).mono (fun p hp => hs p (by revert p; decide))
    | with_reducible exact (touches_takeStamp ..).mono (fun p hp => hs p (by revert p; decide))
    | with_reducible exact (touches_tileStart ..).mono (fun p hp => hs p (by revert p; decide)) | dsimp only | split

theorem touches_rowAsks (u : Nat) (stamp : Nat) (pss : List (List (Nat × Nat × Nat))) :
    (rowAsks u stamp pss).touches [.mem, .xp, .io, .caps, .harts, .parts, .banks, .stop, .recd, .icu, .free] := by
  unfold rowAsks
  repeat' first
    | with_reducible exact touches_nil | with_reducible refine touches_cons ?_ ?_ | with_reducible exact touches_done
    | with_reducible refine touches_forEach fun _ => ?_ | with_reducible refine touches_onlyIf ?_
    | with_reducible exact (touches_bankRange ..).mono (by decide)
    | with_reducible exact (touches_touch ..).mono (by decide)
    | with_reducible exact (touches_trUse ..).mono (by decide)
    | with_reducible exact (touches_watch ..).mono (by decide) | dsimp only | split

theorem touches_rowUses (u : Nat) (pss : List (List (Nat × Nat × Nat))) :
    (rowUses u pss).touches [.mem, .xp, .io, .caps, .harts, .parts, .banks, .stop, .recd, .icu, .free] := by
  unfold rowUses
  repeat' first
    | with_reducible exact touches_nil | with_reducible refine touches_cons ?_ ?_ | with_reducible exact touches_done
    | with_reducible refine touches_forEach fun _ => ?_ | with_reducible exact (touches_trUse ..).mono (by decide)
    | with_reducible exact (touches_watch ..).mono (by decide) | dsimp only | split

theorem touches_stopAt (u f : Nat) :
    (stopAt u f).touches [.harts] := by
  unfold stopAt
  repeat' first
    | with_reducible exact (touches_modHart ..).mono (by decide)

theorem touches_tileDone (u : Nat) (f : S4U) :
    (tileDone u f).touches [.regs, .toks, .harts] := by
  unfold tileDone
  repeat' first
    | with_reducible exact touches_nil | with_reducible refine touches_cons ?_ ?_
    | with_reducible exact (touches_modHart ..).mono (by decide)
    | with_reducible exact (touches_retire ..).mono (by decide)
    | with_reducible exact (touches_takeWte ..).mono (by decide)

theorem touches_tileEnd (u : Nat) (f : S4U) (wr : Bool) (stop : Nat) (fail : Option RowFail) :
    (tileEnd u f wr stop fail).touches [.mem, .xp, .io, .shadow, .caps, .regs, .toks, .beat, .harts, .links, .bridges, .parts, .banks, .fuses, .job, .stop, .recd, .icu, .dbg, .pwr, .out, .free] := fun s =>
  ⟨fun p hp => by cases p <;> simp at hp, by simp⟩

theorem touches_tldBody (u : Nat) (f : S4U) :
    (tldBody u f).touches [.mem, .xp, .io, .shadow, .caps, .regs, .toks, .beat, .harts, .links, .bridges, .parts, .banks, .fuses, .job, .stop, .recd, .icu, .dbg, .pwr, .out, .free] := fun s =>
  ⟨fun p hp => by cases p <;> simp at hp, by simp⟩

theorem touches_tstBody (u : Nat) (f : S4U) :
    (tstBody u f).touches [.mem, .xp, .io, .shadow, .caps, .regs, .toks, .beat, .harts, .links, .bridges, .parts, .banks, .fuses, .job, .stop, .recd, .icu, .dbg, .pwr, .out, .free] := fun s =>
  ⟨fun p hp => by cases p <;> simp at hp, by simp⟩

theorem touches_tzeroBody (u : Nat) (f : S4U) :
    (tzeroBody u f).touches [.mem, .xp, .io, .shadow, .caps, .regs, .toks, .beat, .harts, .links, .bridges, .parts, .banks, .fuses, .job, .stop, .recd, .icu, .dbg, .pwr, .out, .free] := fun s =>
  ⟨fun p hp => by cases p <;> simp at hp, by simp⟩

theorem touches_trelBody (u : Nat) (f : S4U) :
    (trelBody u f).touches [.mem, .xp, .io, .shadow, .caps, .regs, .toks, .beat, .harts, .links, .bridges, .parts, .banks, .fuses, .job, .stop, .recd, .icu, .dbg, .pwr, .out, .free] := fun s =>
  ⟨fun p hp => by cases p <;> simp at hp, by simp⟩

theorem touches_tsaveBody (u : Nat) (f : S4U) :
    (tsaveBody u f).touches [.mem, .xp, .io, .shadow, .caps, .regs, .toks, .beat, .harts, .links, .bridges, .parts, .banks, .fuses, .job, .stop, .recd, .icu, .dbg, .pwr, .out, .free] := fun s =>
  ⟨fun p hp => by cases p <;> simp at hp, by simp⟩

theorem touches_restoreRows {ps : List Piece} {u b pos : Nat} {tiles : List (Nat × Tag)} {f : S4U} {header : Prog}
    (hs : ∀ p ∈ ([.mem, .xp, .io, .shadow, .caps, .regs, .toks, .beat, .harts, .links, .bridges, .parts, .banks, .fuses, .job, .stop, .recd, .icu, .dbg, .pwr, .out, .free] : List Piece), p ∈ ps)
    (hheader : header.touches ps) : (restoreRows u b pos tiles f header).touches ps := by
  unfold restoreRows
  repeat' first
    | with_reducible exact hheader | with_reducible exact touches_nil | with_reducible refine touches_cons ?_ ?_
    | with_reducible refine touches_ask fun _ => ?_ | with_reducible exact touches_done
    | with_reducible refine touches_forEach fun _ => ?_
    | with_reducible exact (touches_setTag ..).mono (fun p hp => hs p (by revert p; decide))
    | with_reducible refine touches_tileEnter (fun p hp => hs p (by revert p; decide)) ?_
    | with_reducible exact (touches_rowAsks ..).mono (fun p hp => hs p (by revert p; decide))
    | with_reducible exact (touches_tileEnd ..).mono (fun p hp => hs p (by revert p; decide)) | dsimp only | split

theorem touches_trestoreBody (u : Nat) (f : S4U) :
    (trestoreBody u f).touches [.mem, .xp, .io, .shadow, .caps, .regs, .toks, .beat, .harts, .links, .bridges, .parts, .banks, .fuses, .job, .stop, .recd, .icu, .dbg, .pwr, .out, .free] := fun s =>
  ⟨fun p hp => by cases p <;> simp at hp, by simp⟩

/-! ### Machine/Array.lean -/

theorem touches_accPut (c : Nat) (aw : Bool) (acc m n : Nat) (el : Acc) :
    (accPut c aw acc m n el).touches [.mem, .xp, .io, .caps, .parts, .banks, .stop, .recd, .icu] := by
  unfold accPut
  repeat' first
    | with_reducible exact touches_nil | with_reducible refine touches_cons ?_ ?_
    | with_reducible exact (touches_writeAt ..).mono (by decide) | dsimp only | split

theorem touches_accClear (c a : Nat) :
    (accClear c a).touches [.mem, .xp] := by
  unfold accClear
  repeat' first
    | with_reducible exact touches_nil | with_reducible refine touches_cons ?_ ?_
    | with_reducible exact (touches_clearAt ..).mono (by decide)

theorem touches_setGnf (c : Nat) :
    (setGnf c).touches [.io, .job] := by
  unfold setGnf
  repeat' first
    | with_reducible exact touches_nil | with_reducible refine touches_cons ?_ ?_
    | with_reducible exact (touches_modJob ..).mono (by decide)
    | with_reducible exact (touches_setMask ..).mono (by decide)

theorem touches_enqueueArray (u : Nat) (f : S4U) (i : Instr) (vals : List Word) (tile : Option Nat) (aux : List Int) (phys : List Nat := []) :
    (enqueueArray u f i vals tile aux phys).touches [.regs, .toks, .harts] := by
  unfold enqueueArray
  repeat' first
    | with_reducible exact touches_nil | with_reducible refine touches_cons ?_ ?_
    | with_reducible exact (touches_modHart ..).mono (by decide)
    | with_reducible exact (touches_retire ..).mono (by decide)
    | with_reducible exact (touches_takeWte ..).mono (by decide)
    | with_reducible exact (touches_takeStamp ..).mono (by decide)

theorem touches_ifRoom {ps : List Piece} {u : Nat} {p : Prog}
    (hs : ∀ p ∈ ([] : List Piece), p ∈ ps)
    (hp : p.touches ps) : (ifRoom u p).touches ps := by
  unfold ifRoom
  repeat' first
    | with_reducible exact hp | with_reducible refine touches_ask fun _ => ?_
    | with_reducible refine touches_onlyIf ?_

theorem touches_mseatBody (u : Nat) (f : S4U) :
    (mseatBody u f).touches [.mem, .xp, .io, .shadow, .caps, .regs, .toks, .beat, .harts, .links, .bridges, .parts, .banks, .fuses, .job, .stop, .recd, .icu, .dbg, .pwr, .out, .free] := fun s =>
  ⟨fun p hp => by cases p <;> simp at hp, by simp⟩

theorem touches_mmaBody (u : Nat) (f : S4U) :
    (mmaBody u f).touches [.mem, .xp, .io, .shadow, .caps, .regs, .toks, .beat, .harts, .links, .bridges, .parts, .banks, .fuses, .job, .stop, .recd, .icu, .dbg, .pwr, .out, .free] := fun s =>
  ⟨fun p hp => by cases p <;> simp at hp, by simp⟩

theorem touches_mzeroBody (u : Nat) (f : S4U) :
    (mzeroBody u f).touches [.regs, .toks, .harts] := by
  unfold mzeroBody
  repeat' first
    | with_reducible exact touches_nil | with_reducible refine touches_cons ?_ ?_
    | with_reducible refine touches_ask fun _ => ?_ | with_reducible exact (touches_modHart ..).mono (by decide)
    | with_reducible exact (touches_enqueueArray ..).mono (by decide)
    | with_reducible refine touches_ifRoom (by decide) ?_

theorem touches_manchorBody (u : Nat) (f : S4U) :
    (manchorBody u f).touches [.mem, .xp, .io, .shadow, .caps, .regs, .toks, .beat, .harts, .links, .bridges, .parts, .banks, .fuses, .job, .stop, .recd, .icu, .dbg, .pwr, .out, .free] := fun s =>
  ⟨fun p hp => by cases p <;> simp at hp, by simp⟩

theorem touches_mwaitBody (u : Nat) (f : S4U) :
    (mwaitBody u f).touches [.mem, .xp, .io, .shadow, .caps, .regs, .toks, .beat, .harts, .links, .bridges, .parts, .banks, .fuses, .job, .stop, .recd, .icu, .dbg, .pwr, .out, .free] := fun s =>
  ⟨fun p hp => by cases p <;> simp at hp, by simp⟩

theorem touches_mwaitCheck (u : Nat) :
    (mwaitCheck u).touches [.regs, .harts] := by
  unfold mwaitCheck
  repeat' first
    | with_reducible exact touches_nil | with_reducible refine touches_cons ?_ ?_
    | with_reducible refine touches_ask fun _ => ?_ | with_reducible exact touches_done
    | with_reducible refine touches_onlyIf ?_ | with_reducible exact (touches_modHart ..).mono (by decide)
    | with_reducible exact (touches_finish ..).mono (by decide) | dsimp only | split

theorem touches_mseatRun (u : Nat) (f : S4U) :
    (mseatRun u f).touches [.mem, .xp, .io, .caps, .parts, .banks, .stop, .recd, .icu] := by
  unfold mseatRun
  repeat' first
    | with_reducible exact touches_nil | with_reducible refine touches_cons ?_ ?_
    | with_reducible refine touches_ask fun _ => ?_ | with_reducible refine touches_forEach fun _ => ?_
    | with_reducible refine touches_onlyIf ?_ | with_reducible exact (touches_touch ..).mono (by decide)
    | with_reducible exact (touches_writeAt ..).mono (by decide)
    | with_reducible exact (touches_poisonAt ..).mono (by decide)

theorem touches_mzeroRun (u : Nat) (f : S4U) (changed : Bool) :
    (mzeroRun u f changed).touches [.mem, .xp] := by
  unfold mzeroRun
  repeat' first
    | with_reducible refine touches_forEach fun _ => ?_ | with_reducible exact (touches_accClear ..).mono (by decide)

theorem touches_accScan (u : Nat) (aw : Bool) (acc m n : Nat) :
    (accScan u aw acc m n).touches [.mem, .xp, .io, .caps, .parts, .stop, .recd, .icu] := by
  unfold accScan
  repeat' first
    | with_reducible exact touches_nil | with_reducible refine touches_cons ?_ ?_
    | with_reducible refine touches_forEach fun _ => ?_ | with_reducible exact (touches_touch ..).mono (by decide)

theorem touches_rebaseRun (u : Nat) (pc : BitVec 18) (acc : Nat) (new : Int) :
    (rebaseRun u pc acc new).touches [.mem, .xp, .io, .shadow, .caps, .regs, .toks, .beat, .harts, .links, .bridges, .parts, .banks, .fuses, .job, .stop, .recd, .icu, .dbg, .pwr, .out, .free] := fun s =>
  ⟨fun p hp => by cases p <;> simp at hp, by simp⟩

theorem touches_mmaRun (u : Nat) (f : S4U) (q : QOp) (cols : Nat) :
    (mmaRun u f q cols).touches [.mem, .xp, .io, .shadow, .caps, .regs, .toks, .beat, .harts, .links, .bridges, .parts, .banks, .fuses, .job, .stop, .recd, .icu, .dbg, .pwr, .out, .free] := fun s =>
  ⟨fun p hp => by cases p <;> simp at hp, by simp⟩

theorem touches_drainRow (u : Nat) (d : Drain) (r : Nat) :
    (drainRow u d r).touches [.mem, .xp, .io, .caps, .harts, .parts, .banks, .job, .stop, .recd, .icu] := by
  unfold drainRow
  repeat' first
    | with_reducible exact touches_nil | with_reducible refine touches_cons ?_ ?_
    | with_reducible refine touches_ask fun _ => ?_ | with_reducible exact touches_done
    | with_reducible refine touches_forEach fun _ => ?_ | with_reducible refine touches_onlyIf ?_
    | with_reducible exact (touches_setMask ..).mono (by decide)
    | with_reducible exact (touches_satAdd ..).mono (by decide)
    | with_reducible exact (touches_touch ..).mono (by decide)
    | with_reducible exact (touches_storeRow ..).mono (by decide)
    | with_reducible exact (touches_accPut ..).mono (by decide)
    | with_reducible exact (touches_setGnf ..).mono (by decide)
    | with_reducible exact (touches_accScan ..).mono (by decide) | dsimp only | split

theorem touches_mdrainRun (u : Nat) (f : S4U) (q : QOp) :
    (mdrainRun u f q).touches [.mem, .xp, .io, .shadow, .caps, .regs, .toks, .beat, .harts, .links, .bridges, .parts, .banks, .fuses, .job, .stop, .recd, .icu, .dbg, .pwr, .out, .free] := fun s =>
  ⟨fun p hp => by cases p <;> simp at hp, by simp⟩

theorem touches_mmafBody (u : Nat) (f : S4U) :
    (mmafBody u f).touches [.mem, .xp, .io, .shadow, .caps, .regs, .toks, .beat, .harts, .links, .bridges, .parts, .banks, .fuses, .job, .stop, .recd, .icu, .dbg, .pwr, .out, .free] := fun s =>
  ⟨fun p hp => by cases p <;> simp at hp, by simp⟩

theorem touches_foldWrite (u : Nat) (x : Fold) (out : List (Nat × Acc × Nat)) :
    (foldWrite u x out).touches [.mem, .xp, .io, .caps, .harts, .parts, .banks, .stop, .recd, .icu] := by
  unfold foldWrite
  repeat' first
    | with_reducible exact touches_nil | with_reducible refine touches_cons ?_ ?_
    | with_reducible refine touches_ask fun _ => ?_ | with_reducible exact touches_done
    | with_reducible refine touches_forEach fun _ => ?_ | with_reducible refine touches_onlyIf ?_
    | with_reducible exact (touches_setMask ..).mono (by decide)
    | with_reducible exact (touches_storeRow ..).mono (by decide) | dsimp only | split

theorem touches_foldAnchors (u : Nat) (x : Fold) :
    (foldAnchors u x).touches [.harts] := by
  unfold foldAnchors
  repeat' first
    | with_reducible exact (touches_modHart ..).mono (by decide)

theorem touches_mmafRun (u : Nat) (q : QOp) :
    (mmafRun u q).touches [.mem, .xp, .io, .shadow, .caps, .regs, .toks, .beat, .harts, .links, .bridges, .parts, .banks, .fuses, .job, .stop, .recd, .icu, .dbg, .pwr, .out, .free] := fun s =>
  ⟨fun p hp => by cases p <;> simp at hp, by simp⟩

theorem touches_freeBytes (a n : Nat) :
    (freeBytes a n).touches [.mem, .xp, .io, .caps, .parts, .banks, .stop, .recd, .icu, .free] := by
  unfold freeBytes
  repeat' first
    | with_reducible exact touches_nil | with_reducible refine touches_cons ?_ ?_
    | with_reducible refine touches_ask fun _ => ?_ | with_reducible refine touches_forEach fun _ => ?_
    | with_reducible exact (touches_useFree ..).mono (by decide)
    | with_reducible exact (touches_writeAt ..).mono (by decide)

theorem touches_mmafCut (u : Nat) (q : QOp) :
    (mmafCut u q).touches [.mem, .xp, .io, .caps, .harts, .parts, .banks, .stop, .recd, .icu, .free] := by
  unfold mmafCut
  repeat' first
    | with_reducible exact touches_nil | with_reducible refine touches_cons ?_ ?_
    | with_reducible refine touches_ask fun _ => ?_ | with_reducible exact touches_done
    | with_reducible refine touches_forEach fun _ => ?_ | with_reducible refine touches_onlyIf ?_
    | with_reducible exact (touches_useFree ..).mono (by decide)
    | with_reducible exact (touches_foldWrite ..).mono (by decide)
    | with_reducible exact (touches_foldAnchors ..).mono (by decide)
    | with_reducible exact (touches_freeBytes ..).mono (by decide) | dsimp only | split

theorem touches_arrayStart (c : Nat) :
    (arrayStart c).touches [.mem, .xp, .io, .shadow, .caps, .regs, .toks, .beat, .harts, .links, .bridges, .parts, .banks, .fuses, .job, .stop, .recd, .icu, .dbg, .pwr, .out, .free] := fun s =>
  ⟨fun p hp => by cases p <;> simp at hp, by simp⟩

theorem touches_arrayStop (c : Nat) :
    (arrayStop c).touches [.mem, .xp, .io, .shadow, .caps, .regs, .toks, .beat, .harts, .links, .bridges, .parts, .banks, .fuses, .job, .stop, .recd, .icu, .dbg, .pwr, .out, .free] := fun s =>
  ⟨fun p hp => by cases p <;> simp at hp, by simp⟩

theorem touches_arrayJobStart (c : Nat) :
    (arrayJobStart c).touches [.mem, .xp, .io, .harts] := by
  unfold arrayJobStart
  repeat' first
    | with_reducible exact touches_nil | with_reducible refine touches_cons ?_ ?_
    | with_reducible exact (touches_ioSet ..).mono (by decide)
    | with_reducible exact (touches_modHart ..).mono (by decide)
    | with_reducible exact (touches_clearAt ..).mono (by decide)

/-! ### Machine/Vector.lean -/

theorem touches_setElem (c r n i v : Nat) :
    (setElem c r n i v).touches [.mem, .xp, .io, .caps, .parts, .banks, .stop, .recd, .icu] := by
  unfold setElem
  repeat' first
    | with_reducible exact (touches_writeAt ..).mono (by decide)

theorem touches_setMBit (c m i : Nat) (b : Bool) :
    (setMBit c m i b).touches [.mem, .xp, .io, .caps, .parts, .banks, .stop, .recd, .icu] := by
  unfold setMBit
  repeat' first
    | with_reducible refine touches_ask fun _ => ?_ | with_reducible exact (touches_writeAt ..).mono (by decide)

theorem touches_setFlags (c : Nat) (m : BitVec 32) :
    (setFlags c m).touches [.harts] := by
  unfold setFlags
  repeat' first
    | with_reducible exact (touches_modHart ..).mono (by decide)

theorem touches_putElems (c r n : Nat) (xs : List (Nat × Nat)) :
    (putElems c r n xs).touches [.mem, .xp, .io, .caps, .parts, .banks, .stop, .recd, .icu] := by
  unfold putElems
  repeat' first
    | with_reducible refine touches_forEach fun _ => ?_ | with_reducible exact (touches_setElem ..).mono (by decide)

theorem touches_putFloats (c r ew : Nat) (xs : List (Nat × Nat)) :
    (putFloats c r ew xs).touches [.mem, .xp, .io, .caps, .harts, .parts, .banks, .stop, .recd, .icu] := by
  unfold putFloats
  repeat' first
    | with_reducible exact touches_nil | with_reducible refine touches_cons ?_ ?_
    | with_reducible exact (touches_setFlags ..).mono (by decide)
    | with_reducible exact (touches_putElems ..).mono (by decide)

theorem touches_arrCount (c o n : Nat) :
    (arrCount c o n).touches [.io] := by
  unfold arrCount
  repeat' first
    | with_reducible exact (touches_satAdd ..).mono (by decide)

theorem touches_cvtRun (c : Nat) (q : QOp) (f : S2V) :
    (cvtRun c q f).touches [.mem, .xp, .io, .caps, .harts, .parts, .banks, .job, .stop, .recd, .icu] := by
  unfold cvtRun
  repeat' first
    | with_reducible exact touches_nil | with_reducible refine touches_cons ?_ ?_
    | with_reducible refine touches_ask fun _ => ?_ | with_reducible refine touches_onlyIf ?_
    | with_reducible exact (touches_setGnf ..).mono (by decide)
    | with_reducible exact (touches_setFlags ..).mono (by decide)
    | with_reducible exact (touches_putElems ..).mono (by decide)
    | with_reducible exact (touches_arrCount ..).mono (by decide)

theorem touches_tbRun (c : Nat) (q : QOp) (f : S4U) (col : Bool) :
    (tbRun c q f col).touches [.mem, .xp, .io, .caps, .harts, .parts, .banks, .stop, .recd, .icu] := by
  unfold tbRun
  repeat' first
    | with_reducible exact touches_nil | with_reducible refine touches_cons ?_ ?_
    | with_reducible refine touches_ask fun _ => ?_ | with_reducible exact touches_done
    | with_reducible refine touches_forEach fun _ => ?_ | with_reducible exact (touches_writeAt ..).mono (by decide)
    | with_reducible exact (touches_setElem ..).mono (by decide)
    | with_reducible exact (touches_setFlags ..).mono (by decide) | dsimp only | split

theorem touches_vecRun (c : Nat) (q : QOp) :
    (vecRun c q).touches [.mem, .xp, .io, .caps, .harts, .parts, .banks, .job, .stop, .recd, .icu] := by
  unfold vecRun
  repeat' first
    | with_reducible exact touches_nil | with_reducible refine touches_cons ?_ ?_
    | with_reducible refine touches_ask fun _ => ?_ | with_reducible exact touches_done
    | with_reducible refine touches_forEach fun _ => ?_ | with_reducible refine touches_onlyIf ?_
    | with_reducible exact (touches_writeAt ..).mono (by decide)
    | with_reducible exact (touches_setElem ..).mono (by decide)
    | with_reducible exact (touches_setMBit ..).mono (by decide)
    | with_reducible exact (touches_setFlags ..).mono (by decide)
    | with_reducible exact (touches_putElems ..).mono (by decide)
    | with_reducible exact (touches_putFloats ..).mono (by decide)
    | with_reducible exact (touches_cvtRun ..).mono (by decide)
    | with_reducible exact (touches_tbRun ..).mono (by decide) | dsimp only | split

theorem touches_useSrcs {ps : List Piece} {c : Nat} {q : QOp} {stop : Nat → Prog} {go : Prog}
    (hs : ∀ p ∈ ([.mem, .xp, .io, .caps, .parts, .stop, .recd, .icu] : List Piece), p ∈ ps)
    (hstop : ∀ a0, (stop a0).touches ps) (hgo : go.touches ps) : (useSrcs c q stop go).touches ps := by
  unfold useSrcs
  repeat' first
    | with_reducible exact hstop _ | with_reducible exact hgo | with_reducible exact touches_nil
    | with_reducible refine touches_cons ?_ ?_ | with_reducible refine touches_ask fun _ => ?_
    | with_reducible refine touches_forEach fun _ => ?_
    | with_reducible exact (touches_touch ..).mono (fun p hp => hs p (by revert p; decide)) | dsimp only | split

theorem touches_vecQueue (u : Nat) (q : QOp) :
    (vecQueue u q).touches [.harts] := by
  unfold vecQueue
  repeat' first
    | with_reducible exact (touches_modHart ..).mono (by decide)

theorem touches_vecEnqueue {ps : List Piece} {c : Nat} {q0 : QOp} {fin : Prog}
    (hs : ∀ p ∈ ([.mem, .xp, .io, .shadow, .caps, .regs, .toks, .beat, .harts, .links, .bridges, .parts, .banks, .fuses, .job, .stop, .recd, .icu, .dbg, .pwr, .out, .free] : List Piece), p ∈ ps)
    (hfin : fin.touches ps) : (vecEnqueue c q0 fin).touches ps := by
  unfold vecEnqueue
  repeat' first
    | with_reducible exact hfin | with_reducible exact touches_nil | with_reducible refine touches_cons ?_ ?_
    | with_reducible refine touches_ask fun _ => ?_ | with_reducible exact touches_done
    | with_reducible refine touches_onlyIf ?_
    | with_reducible exact (touches_raise ..).mono (fun p hp => hs p (by revert p; decide))
    | with_reducible exact (touches_takeStamp ..).mono (fun p hp => hs p (by revert p; decide))
    | with_reducible exact (touches_vecRun ..).mono (fun p hp => hs p (by revert p; decide))
    | with_reducible refine touches_useSrcs (fun p hp => hs p (by revert p; decide)) (fun _ => ?_) ?_
    | with_reducible exact (touches_vecQueue ..).mono (fun p hp => hs p (by revert p; decide)) | dsimp only | split

theorem touches_scalarMove (u : UnitId) (f : S2V) (q : QOp) (v : State → Nat) :
    (scalarMove u f q v).touches [.mem, .xp, .io, .shadow, .caps, .regs, .toks, .beat, .harts, .links, .bridges, .parts, .banks, .fuses, .job, .stop, .recd, .icu, .dbg, .pwr, .out, .free] := fun s =>
  ⟨fun p hp => by cases p <;> simp at hp, by simp⟩

theorem touches_tbBody (u : Nat) (f : S4U) (i : Instr) :
    (tbBody u f i).touches [.mem, .xp, .io, .shadow, .caps, .regs, .toks, .beat, .harts, .links, .bridges, .parts, .banks, .fuses, .job, .stop, .recd, .icu, .dbg, .pwr, .out, .free] := fun s =>
  ⟨fun p hp => by cases p <;> simp at hp, by simp⟩

theorem touches_vecJobStart (c : Nat) :
    (vecJobStart c).touches [.mem, .xp, .harts] := by
  unfold vecJobStart
  repeat' first
    | with_reducible exact touches_nil | with_reducible refine touches_cons ?_ ?_
    | with_reducible exact (touches_modHart ..).mono (by decide)
    | with_reducible exact (touches_clearAt ..).mono (by decide)

/-! ### Machine/VecMem.lean -/

theorem touches_setVresume (u v : Nat) :
    (setVresume u v).touches [.harts] := by
  unfold setVresume
  repeat' first
    | with_reducible exact (touches_modHart ..).mono (by decide)

theorem touches_vLand (u : Nat) (q : QOp) :
    (vLand u q).touches [.mem, .xp, .io, .shadow, .caps, .regs, .toks, .beat, .harts, .links, .bridges, .parts, .banks, .fuses, .job, .stop, .recd, .icu, .dbg, .pwr, .out, .free] := fun s =>
  ⟨fun p hp => by cases p <;> simp at hp, by simp⟩

theorem touches_vLoad (u : Nat) (q : QOp) (wait : Bool) :
    (vLoad u q wait).touches [.mem, .xp, .io, .shadow, .caps, .regs, .toks, .beat, .harts, .links, .bridges, .parts, .banks, .fuses, .job, .stop, .recd, .icu, .dbg, .pwr, .out, .free] := fun s =>
  ⟨fun p hp => by cases p <;> simp at hp, by simp⟩

theorem touches_vStore (u : Nat) (q : QOp) :
    (vStore u q).touches [.mem, .xp, .io, .caps, .harts, .parts, .banks, .stop, .recd, .icu, .free] := by
  unfold vStore
  repeat' first
    | with_reducible exact touches_nil | with_reducible refine touches_cons ?_ ?_
    | with_reducible refine touches_ask fun _ => ?_ | with_reducible refine touches_forEach fun _ => ?_
    | with_reducible exact (touches_touch ..).mono (by decide)
    | with_reducible exact (touches_trUse ..).mono (by decide)
    | with_reducible exact (touches_storeMany ..).mono (by decide)
    | with_reducible exact (touches_watch ..).mono (by decide)

theorem touches_vDone (u : Nat) (f : S4V) :
    (vDone u f).touches [.regs, .toks, .harts] := by
  unfold vDone
  repeat' first
    | with_reducible exact touches_nil | with_reducible refine touches_cons ?_ ?_
    | with_reducible exact (touches_retire ..).mono (by decide)
    | with_reducible exact (touches_takeWte ..).mono (by decide)
    | with_reducible exact (touches_setVresume ..).mono (by decide)

theorem touches_vEnter {ps : List Piece} {u : Nat} {q : QOp} {wr : Bool} {fin : Prog}
    (hs : ∀ p ∈ ([.mem, .xp, .io, .shadow, .caps, .regs, .toks, .beat, .harts, .links, .bridges, .parts, .banks, .fuses, .job, .stop, .recd, .icu, .dbg, .pwr, .out, .free] : List Piece), p ∈ ps)
    (hfin : fin.touches ps) : (vEnter u q wr fin).touches ps := by
  unfold vEnter
  repeat' first
    | with_reducible exact hfin | with_reducible exact touches_nil | with_reducible refine touches_cons ?_ ?_
    | with_reducible refine touches_ask fun _ => ?_ | with_reducible refine touches_onlyIf ?_
    | with_reducible exact (touches_takeStamp ..).mono (fun p hp => hs p (by revert p; decide))
    | with_reducible exact (touches_vecQueue ..).mono (fun p hp => hs p (by revert p; decide))
    | with_reducible exact (touches_vLoad ..).mono (fun p hp => hs p (by revert p; decide))
    | with_reducible exact (touches_vStore ..).mono (fun p hp => hs p (by revert p; decide)) | split

theorem touches_vStop {ps : List Piece} {u : Nat} {q : QOp} {wr : Bool} {k : Prog}
    (hs : ∀ p ∈ ([.mem, .xp, .io, .shadow, .caps, .regs, .toks, .beat, .harts, .links, .bridges, .parts, .banks, .fuses, .job, .stop, .recd, .icu, .dbg, .pwr, .out, .free] : List Piece), p ∈ ps)
    (hk : k.touches ps) : (vStop u q wr k).touches ps := by
  unfold vStop
  repeat' first
    | with_reducible exact hk | with_reducible exact touches_nil | with_reducible refine touches_cons ?_ ?_
    | with_reducible exact (touches_takeStamp ..).mono (fun p hp => hs p (by revert p; decide))
    | with_reducible exact (touches_vLoad ..).mono (fun p hp => hs p (by revert p; decide))
    | with_reducible exact (touches_vStore ..).mono (fun p hp => hs p (by revert p; decide)) | split

theorem touches_vElemBody (u : Nat) (f : S4V) (i : Instr) (r n lowest : Nat) (ff wr : Bool) (es : List (Nat × Nat)) :
    (vElemBody u f i r n lowest ff wr es).touches [.mem, .xp, .io, .shadow, .caps, .regs, .toks, .beat, .harts, .links, .bridges, .parts, .banks, .fuses, .job, .stop, .recd, .icu, .dbg, .pwr, .out, .free] := fun s =>
  ⟨fun p hp => by cases p <;> simp at hp, by simp⟩

theorem touches_vmemBody (u : Nat) (f : S4V) (i : Instr) (kind : VKind) (form : VForm) :
    (vmemBody u f i kind form).touches [.mem, .xp, .io, .shadow, .caps, .regs, .toks, .beat, .harts, .links, .bridges, .parts, .banks, .fuses, .job, .stop, .recd, .icu, .dbg, .pwr, .out, .free] := fun s =>
  ⟨fun p hp => by cases p <;> simp at hp, by simp⟩

theorem touches_vmaskBody (u : Nat) (f : S4V) (i : Instr) (wr : Bool) :
    (vmaskBody u f i wr).touches [.mem, .xp, .io, .shadow, .caps, .regs, .toks, .beat, .harts, .links, .bridges, .parts, .banks, .fuses, .job, .stop, .recd, .icu, .dbg, .pwr, .out, .free] := fun s =>
  ⟨fun p hp => by cases p <;> simp at hp, by simp⟩

/-! ### Machine/Units.lean -/

theorem touches_vecTurn (c : Nat) (q : QOp) :
    (vecTurn c q).touches [.mem, .xp, .io, .shadow, .caps, .regs, .toks, .beat, .harts, .links, .bridges, .parts, .banks, .fuses, .job, .stop, .recd, .icu, .dbg, .pwr, .out, .free] := fun s =>
  ⟨fun p hp => by cases p <;> simp at hp, by simp⟩

theorem touches_vecDrain (c : Nat) (x0 : Nat) :
    (vecDrain c x0).touches [.mem, .xp, .io, .shadow, .caps, .regs, .toks, .beat, .harts, .links, .bridges, .parts, .banks, .fuses, .job, .stop, .recd, .icu, .dbg, .pwr, .out, .free] := fun s =>
  ⟨fun p hp => by cases p <;> simp at hp, by simp⟩

theorem touches_unitsRun (c : Nat) :
    (unitsRun c).touches [.mem, .xp, .io, .shadow, .caps, .regs, .toks, .beat, .harts, .links, .bridges, .parts, .banks, .fuses, .job, .stop, .recd, .icu, .dbg, .pwr, .out, .free] := fun s =>
  ⟨fun p hp => by cases p <;> simp at hp, by simp⟩

theorem touches_unitsStop (c : Nat) :
    (unitsStop c).touches [.mem, .xp, .harts] := by
  unfold unitsStop
  repeat' first
    | with_reducible exact touches_nil | with_reducible refine touches_cons ?_ ?_
    | with_reducible refine touches_ask fun _ => ?_ | with_reducible refine touches_forEach fun _ => ?_
    | with_reducible exact (touches_modHart ..).mono (by decide)
    | with_reducible exact (touches_clearRows ..).mono (by decide)

/-! ### Machine/Upd.lean -/

theorem touches_pmUse (o n : Nat) :
    (pmUse o n).touches [.mem, .xp, .io, .caps, .parts, .stop, .recd, .icu] := by
  unfold pmUse
  repeat' first
    | with_reducible exact touches_nil | with_reducible refine touches_cons ?_ ?_
    | with_reducible refine touches_ask fun _ => ?_ | with_reducible exact touches_done
    | with_reducible exact (touches_report ..).mono (by decide)
    | with_reducible exact (touches_touch ..).mono (by decide) | dsimp only | split

theorem touches_evalBegin :
    (evalBegin).touches [.io, .job] := by
  unfold evalBegin
  repeat' first
    | with_reducible exact touches_nil | with_reducible refine touches_cons ?_ ?_
    | with_reducible refine touches_ask fun _ => ?_ | with_reducible exact (touches_modJob ..).mono (by decide)
    | with_reducible exact (touches_setFld ..).mono (by decide)

theorem touches_evalEnd :
    (evalEnd).touches [.mem, .xp, .io, .caps, .parts, .banks, .job, .stop, .recd, .icu] := by
  unfold evalEnd
  repeat' first
    | with_reducible exact touches_nil | with_reducible refine touches_cons ?_ ?_
    | with_reducible refine touches_ask fun _ => ?_ | with_reducible exact touches_done
    | with_reducible refine touches_forEach fun _ => ?_ | with_reducible exact (touches_modJob ..).mono (by decide)
    | with_reducible exact (touches_setFld ..).mono (by decide)
    | with_reducible exact (touches_writeAt ..).mono (by decide)
    | with_reducible exact (touches_pmUse ..).mono (by decide) | dsimp only | split

theorem touches_updEnter (u : Nat) (f : S4U) (i : Instr) (a : UArgs) :
    (updEnter u f i a).touches [.regs, .toks, .harts] := by
  unfold updEnter
  repeat' first
    | with_reducible exact touches_nil | with_reducible refine touches_cons ?_ ?_
    | with_reducible refine touches_ask fun _ => ?_ | with_reducible exact (touches_modHart ..).mono (by decide)
    | with_reducible exact (touches_retire ..).mono (by decide)
    | with_reducible exact (touches_takeWte ..).mono (by decide)
    | with_reducible exact (touches_takeStamp ..).mono (by decide)

theorem touches_updBody (u : Nat) (f : S4U) (i : Instr) (kind : UKind) :
    (updBody u f i kind).touches [.mem, .xp, .io, .shadow, .caps, .regs, .toks, .beat, .harts, .links, .bridges, .parts, .banks, .fuses, .job, .stop, .recd, .icu, .dbg, .pwr, .out, .free] := fun s =>
  ⟨fun p hp => by cases p <;> simp at hp, by simp⟩

theorem touches_updFlush (u : Nat) (outs : List (Nat × Nat × List Byte × Bool)) :
    (updFlush u outs).touches [.mem, .xp, .io, .caps, .harts, .parts, .banks, .stop, .recd, .icu] := by
  unfold updFlush
  repeat' first
    | with_reducible exact (touches_storeMany ..).mono (by decide)

theorem touches_updFail (u : Nat) (pc : BitVec 18) (x : Bool × Nat) :
    (updFail u pc x).touches [.mem, .xp, .io, .shadow, .caps, .regs, .toks, .beat, .harts, .links, .bridges, .parts, .banks, .fuses, .job, .stop, .recd, .icu, .dbg, .pwr, .out, .free] := fun s =>
  ⟨fun p hp => by cases p <;> simp at hp, by simp⟩

theorem touches_updKeep (u : Nat) (a : UArgs) (i : Nat) (ops : List Nat) :
    (updKeep u a i ops).touches [.mem, .xp, .io, .caps, .harts, .parts, .banks, .stop, .recd, .icu, .free] := by
  unfold updKeep
  repeat' first
    | with_reducible exact touches_nil | with_reducible refine touches_cons ?_ ?_
    | with_reducible refine touches_ask fun _ => ?_ | with_reducible exact touches_done
    | with_reducible refine touches_forEach fun _ => ?_ | with_reducible refine touches_onlyIf ?_
    | with_reducible exact (touches_bankReq ..).mono (by decide)
    | with_reducible exact (touches_touch ..).mono (by decide)
    | with_reducible exact (touches_trUse ..).mono (by decide) | dsimp only | split

theorem touches_updLoop {ps : List Piece} {u : Nat} {pc : BitVec 18} {a : UArgs} {sc : List Nat} {fin : List (Nat × Nat × List Byte × Bool) → Prog} {outs : List (Nat × Nat × List Byte × Bool)} {x0 : List Nat}
    (hs : ∀ p ∈ ([.mem, .xp, .io, .shadow, .caps, .regs, .toks, .beat, .harts, .links, .bridges, .parts, .banks, .fuses, .job, .stop, .recd, .icu, .dbg, .pwr, .out, .free] : List Piece), p ∈ ps)
    (hfin : ∀ a0, (fin a0).touches ps) : (updLoop u pc a sc fin outs x0).touches ps := by
  induction x0 generalizing u pc a sc outs with
  | nil => exact hfin _
  | cons i is ih =>
    unfold updLoop
    repeat' first
      | with_reducible exact ih ..
      | with_reducible exact hfin _ | with_reducible exact touches_nil | with_reducible refine touches_cons ?_ ?_
      | with_reducible refine touches_ask fun _ => ?_ | with_reducible refine touches_onlyIf ?_
      | with_reducible exact (touches_setMask ..).mono (fun p hp => hs p (by revert p; decide))
      | with_reducible exact (touches_report ..).mono (fun p hp => hs p (by revert p; decide))
      | with_reducible exact (touches_arrCount ..).mono (fun p hp => hs p (by revert p; decide))
      | with_reducible exact (touches_updFlush ..).mono (fun p hp => hs p (by revert p; decide))
      | with_reducible exact (touches_updFail ..).mono (fun p hp => hs p (by revert p; decide))
      | with_reducible exact (touches_updKeep ..).mono (fun p hp => hs p (by revert p; decide)) | dsimp only | split

theorem touches_updWatch (u : Nat) (a : UArgs) :
    (updWatch u a).touches [.harts] := by
  unfold updWatch
  repeat' first
    | with_reducible refine touches_ask fun _ => ?_ | with_reducible refine touches_forEach fun _ => ?_
    | with_reducible exact (touches_watch ..).mono (by decide)

theorem touches_updRun (u : Nat) (q : QOp) :
    (updRun u q).touches [.mem, .xp, .io, .shadow, .caps, .regs, .toks, .beat, .harts, .links, .bridges, .parts, .banks, .fuses, .job, .stop, .recd, .icu, .dbg, .pwr, .out, .free] := fun s =>
  ⟨fun p hp => by cases p <;> simp at hp, by simp⟩

theorem touches_preReport (v : Reg32) :
    (preReport v).touches [.io, .recd] := by
  unfold preReport
  repeat' first
    | with_reducible exact touches_nil | with_reducible refine touches_cons ?_ ?_
    | with_reducible refine touches_ask fun _ => ?_ | with_reducible refine touches_onlyIf ?_
    | with_reducible exact (touches_ioSet ..).mono (by decide)
    | with_reducible exact (touches_satAdd ..).mono (by decide)
    | with_reducible exact (touches_offer ..).mono (by decide)

/-! ### Machine/Streamer.lean -/

theorem touches_sqBody (u : Nat) (f : S4U) :
    (sqBody u f).touches [.mem, .xp, .io, .shadow, .caps, .regs, .toks, .beat, .harts, .links, .bridges, .parts, .banks, .fuses, .job, .stop, .recd, .icu, .dbg, .pwr, .out, .free] := fun s =>
  ⟨fun p hp => by cases p <;> simp at hp, by simp⟩

theorem touches_strmUse (c va : Nat) :
    (strmUse c va).touches [.mem, .xp, .io, .caps, .harts, .parts, .banks, .stop, .recd, .icu, .free] := by
  unfold strmUse
  repeat' first
    | with_reducible exact touches_nil | with_reducible refine touches_cons ?_ ?_
    | with_reducible refine touches_ask fun _ => ?_ | with_reducible refine touches_onlyIf ?_
    | with_reducible exact (touches_modHart ..).mono (by decide)
    | with_reducible exact (touches_useFree ..).mono (by decide)
    | with_reducible exact (touches_walkReqs ..).mono (by decide)

theorem touches_strmFailed (c va : Nat) :
    (strmFailed c va).touches [.mem, .xp, .io, .caps, .parts, .banks, .stop, .recd, .icu] := by
  unfold strmFailed
  repeat' first
    | with_reducible refine touches_ask fun _ => ?_ | with_reducible refine touches_onlyIf ?_
    | with_reducible exact (touches_walkReqs ..).mono (by decide)

theorem touches_modTx (l i : Nat) (f : TxImg → TxImg) :
    (modTx l i f).touches [.links] := by
  unfold modTx
  repeat' first
    | with_reducible assumption | with_reducible exact (touches_modLink ..).mono (by decide)

theorem touches_modRx (l i : Nat) (f : RxImg → RxImg) :
    (modRx l i f).touches [.links] := by
  unfold modRx
  repeat' first
    | with_reducible exact (touches_modLink ..).mono (by decide)

theorem touches_xferWrite (c k : Nat) (x : XFer) (a : Nat) (bs : List Byte) :
    (xferWrite c k x a bs).touches [.mem, .xp, .io, .caps, .harts, .links, .parts, .banks, .stop, .recd, .icu, .free] := by
  unfold xferWrite
  repeat' first
    | with_reducible exact touches_nil | with_reducible refine touches_cons ?_ ?_
    | with_reducible refine touches_ask fun _ => ?_ | with_reducible exact touches_done
    | with_reducible refine touches_forEach fun _ => ?_ | with_reducible exact (touches_modHart ..).mono (by decide)
    | with_reducible exact (touches_bankPut ..).mono (by decide)
    | with_reducible exact (touches_writeAt ..).mono (by decide)
    | with_reducible exact (touches_strmUse ..).mono (by decide)
    | with_reducible exact (touches_modTx ..).mono (by decide) | dsimp only | split

theorem touches_strmLand (c : Nat) (held : List (Nat × Nat × List Byte)) :
    (strmLand c held).touches [.mem, .xp, .io, .caps, .parts, .banks, .stop, .recd, .icu] := by
  unfold strmLand
  repeat' first
    | with_reducible refine touches_forEach fun _ => ?_ | with_reducible refine touches_guarded (by decide) ?_
    | with_reducible exact (touches_landBytes ..).mono (by decide)

theorem touches_strmKeep (c : Nat) (x : XFer) :
    (strmKeep c x).touches [.mem, .xp, .io, .caps, .parts, .banks, .stop, .recd, .icu] := by
  unfold strmKeep
  repeat' first
    | with_reducible refine touches_ask fun _ => ?_ | with_reducible exact (touches_strmLand ..).mono (by decide)

theorem touches_undefByte (c pa : Nat) :
    (undefByte c pa).touches [.mem, .xp, .io, .caps, .parts, .banks, .stop, .recd, .icu, .free] := by
  unfold undefByte
  repeat' first
    | with_reducible exact touches_nil | with_reducible refine touches_cons ?_ ?_
    | with_reducible refine touches_ask fun _ => ?_ | with_reducible refine touches_onlyIf ?_
    | with_reducible exact (touches_useFree ..).mono (by decide)
    | with_reducible exact (touches_writeAt ..).mono (by decide)
    | with_reducible exact (touches_cacheWrite ..).mono (by decide)

theorem touches_undefDst (c : Nat) (x : XFer) (a : Nat) :
    (undefDst c x a).touches [.mem, .xp, .io, .caps, .parts, .banks, .stop, .recd, .icu, .free] := by
  unfold undefDst
  repeat' first
    | with_reducible refine touches_ask fun _ => ?_ | with_reducible exact touches_done
    | with_reducible refine touches_onlyIf ?_ | with_reducible exact (touches_undefByte ..).mono (by decide)
    | dsimp only | split

theorem touches_xferFault (c k : Nat) (x : XFer) (cause a : Nat) (wrote : List Nat) :
    (xferFault c k x cause a wrote).touches [.mem, .xp, .io, .shadow, .caps, .regs, .toks, .beat, .harts, .links, .bridges, .parts, .banks, .fuses, .job, .stop, .recd, .icu, .dbg, .pwr, .out, .free] := fun s =>
  ⟨fun p hp => by cases p <;> simp at hp, by simp⟩

theorem touches_srcTouch (c : Nat) (x : XFer) (a n : Nat) (ecc : Ecc) :
    (srcTouch c x a n ecc).touches [.mem, .xp, .io, .caps, .harts, .parts, .banks, .stop, .recd, .icu, .free] := by
  unfold srcTouch
  repeat' first
    | with_reducible exact touches_nil | with_reducible refine touches_cons ?_ ?_
    | with_reducible refine touches_ask fun _ => ?_ | with_reducible exact touches_done
    | with_reducible refine touches_forEach fun _ => ?_ | with_reducible refine touches_onlyIf ?_
    | with_reducible exact (touches_touch ..).mono (by decide)
    | with_reducible exact (touches_eccEvent ..).mono (by decide)
    | with_reducible exact (touches_strmSees ..).mono (by decide)
    | with_reducible exact (touches_strmUse ..).mono (by decide)
    | with_reducible exact (touches_strmFailed ..).mono (by decide) | dsimp only | split

theorem touches_xferAsk {ps : List Piece} {c k : Nat} {x : XFer} {a n : Nat} {p : Prog}
    (hs : ∀ p ∈ ([.io, .harts, .banks] : List Piece), p ∈ ps)
    (hp : p.touches ps) : (xferAsk c k x a n p).touches ps := by
  unfold xferAsk
  repeat' first
    | with_reducible exact hp | with_reducible exact touches_nil | with_reducible refine touches_cons ?_ ?_
    | with_reducible refine touches_ask fun _ => ?_ | with_reducible refine touches_forEach fun _ => ?_
    | with_reducible refine touches_onlyIf ?_
    | with_reducible exact (touches_modHart ..).mono (fun p hp => hs p (by revert p; decide))
    | with_reducible exact (touches_bankPut ..).mono (fun p hp => hs p (by revert p; decide))
    | with_reducible exact (touches_admSettle ..).mono (fun p hp => hs p (by revert p; decide))
    | with_reducible exact (touches_tagSettle ..).mono (fun p hp => hs p (by revert p; decide))
    | with_reducible exact (touches_strmSees ..).mono (fun p hp => hs p (by revert p; decide)) | dsimp only | split

theorem touches_xferPuts {ps : List Piece} {c k : Nat} {x : XFer} {fin : Prog} {x0 : List (Nat × List Byte)} {x1 : List Nat}
    (hs : ∀ p ∈ ([.mem, .xp, .io, .shadow, .caps, .regs, .toks, .beat, .harts, .links, .bridges, .parts, .banks, .fuses, .job, .stop, .recd, .icu, .dbg, .pwr, .out, .free] : List Piece), p ∈ ps)
    (hfin : fin.touches ps) : (xferPuts c k x fin x0 x1).touches ps := by
  induction x0 generalizing c k x x1 with
  | nil => exact hfin
  | cons i is ih =>
    unfold xferPuts
    repeat' first
      | with_reducible exact ih ..
      | with_reducible exact hfin | with_reducible exact touches_nil | with_reducible refine touches_cons ?_ ?_
      | with_reducible refine touches_ask fun _ => ?_ | with_reducible refine touches_onlyIf ?_
      | with_reducible exact (touches_strmFailed ..).mono (fun p hp => hs p (by revert p; decide))
      | with_reducible exact (touches_xferWrite ..).mono (fun p hp => hs p (by revert p; decide))
      | with_reducible exact (touches_xferFault ..).mono (fun p hp => hs p (by revert p; decide)) | dsimp only | split

theorem touches_xferWalk (c k : Nat) (x : XFer) (src : List Byte) :
    (xferWalk c k x src).touches [.mem, .xp, .io, .shadow, .caps, .regs, .toks, .beat, .harts, .links, .bridges, .parts, .banks, .fuses, .job, .stop, .recd, .icu, .dbg, .pwr, .out, .free] := fun s =>
  ⟨fun p hp => by cases p <;> simp at hp, by simp⟩

theorem touches_gatherPlan {ps : List Piece} {c k : Nat} {x : XFer} {go : XFer → Prog}
    (hs : ∀ p ∈ ([.mem, .xp, .io, .shadow, .caps, .regs, .toks, .beat, .harts, .links, .bridges, .parts, .banks, .fuses, .job, .stop, .recd, .icu, .dbg, .pwr, .out, .free] : List Piece), p ∈ ps)
    (hgo : ∀ a0, (go a0).touches ps) : (gatherPlan c k x go).touches ps := by
  unfold gatherPlan
  repeat' first
    | with_reducible exact hgo _ | with_reducible exact touches_nil | with_reducible refine touches_cons ?_ ?_
    | with_reducible refine touches_ask fun _ => ?_ | with_reducible exact touches_done
    | with_reducible refine touches_forEach fun _ => ?_
    | with_reducible exact (touches_modHart ..).mono (fun p hp => hs p (by revert p; decide))
    | with_reducible exact (touches_touch ..).mono (fun p hp => hs p (by revert p; decide))
    | with_reducible exact (touches_strmFailed ..).mono (fun p hp => hs p (by revert p; decide))
    | with_reducible exact (touches_xferFault ..).mono (fun p hp => hs p (by revert p; decide)) | dsimp only | split

theorem touches_xferServe (c k : Nat) (x : XFer) (src : List Byte) :
    (xferServe c k x src).touches [.mem, .xp, .io, .shadow, .caps, .regs, .toks, .beat, .harts, .links, .bridges, .parts, .banks, .fuses, .job, .stop, .recd, .icu, .dbg, .pwr, .out, .free] := fun s =>
  ⟨fun p hp => by cases p <;> simp at hp, by simp⟩

theorem touches_xferRead (c k : Nat) (x : XFer) (ecc : Ecc) :
    (xferRead c k x ecc).touches [.mem, .xp, .io, .shadow, .caps, .regs, .toks, .beat, .harts, .links, .bridges, .parts, .banks, .fuses, .job, .stop, .recd, .icu, .dbg, .pwr, .out, .free] := fun s =>
  ⟨fun p hp => by cases p <;> simp at hp, by simp⟩

theorem touches_xferStep (c k : Nat) (x : XFer) (ecc : Ecc) :
    (xferStep c k x ecc).touches [.mem, .xp, .io, .shadow, .caps, .regs, .toks, .beat, .harts, .links, .bridges, .parts, .banks, .fuses, .job, .stop, .recd, .icu, .dbg, .pwr, .out, .free] := fun s =>
  ⟨fun p hp => by cases p <;> simp at hp, by simp⟩

theorem touches_strmStop (c : Nat) :
    (strmStop c).touches [.mem, .xp, .io, .shadow, .caps, .regs, .toks, .beat, .harts, .links, .bridges, .parts, .banks, .fuses, .job, .stop, .recd, .icu, .dbg, .pwr, .out, .free] := fun s =>
  ⟨fun p hp => by cases p <;> simp at hp, by simp⟩

theorem touches_strmJobStart (c : Nat) :
    (strmJobStart c).touches [.mem, .xp, .io, .shadow, .caps, .regs, .toks, .beat, .harts, .links, .bridges, .parts, .banks, .fuses, .job, .stop, .recd, .icu, .dbg, .pwr, .out, .free] := fun s =>
  ⟨fun p hp => by cases p <;> simp at hp, by simp⟩

/-! ### Machine/CapInstr.lean -/

theorem touches_writeCa (u : UnitId) (f : S2C) (c : Cap) :
    (writeCa u f c).touches [.xp, .caps, .regs, .harts] := by
  unfold writeCa
  repeat' first
    | with_reducible exact touches_nil | with_reducible refine touches_cons ?_ ?_
    | with_reducible exact (touches_setCreg ..).mono (by decide)
    | with_reducible exact (touches_retire ..).mono (by decide)

theorem touches_storeAccess {ps : List Piece} {u : UnitId} {f : S2C} {perm : Nat} {k : Nat → Prog}
    (hs : ∀ p ∈ ([.mem, .xp, .io, .shadow, .caps, .regs, .toks, .beat, .harts, .links, .bridges, .parts, .banks, .fuses, .job, .stop, .recd, .icu, .dbg, .pwr, .out, .free] : List Piece), p ∈ ps)
    (hk : ∀ a0, (k a0).touches ps) : (storeAccess u f perm k).touches ps := by
  unfold storeAccess
  repeat' first
    | with_reducible exact hk _ | with_reducible refine touches_ask fun _ => ?_
    | with_reducible refine touches_capUse (fun p hp => hs p (by revert p; decide)) ?_
    | with_reducible exact (touches_raise ..).mono (fun p hp => hs p (by revert p; decide)) | dsimp only | split

theorem touches_ccallTo (u : Nat) (ca : Cap) (target : Nat) (ret : Cap) (link : Bool) :
    (ccallTo u ca target ret link).touches [.mem, .xp, .io, .caps, .regs, .harts, .parts, .stop, .recd, .icu] := by
  unfold ccallTo
  repeat' first
    | with_reducible exact touches_nil | with_reducible refine touches_cons ?_ ?_
    | with_reducible refine touches_ask fun _ => ?_ | with_reducible refine touches_onlyIf ?_
    | with_reducible exact (touches_setReg ..).mono (by decide)
    | with_reducible exact (touches_setCreg ..).mono (by decide) | with_reducible refine touches_capUse (by decide) ?_
    | with_reducible exact (touches_finish ..).mono (by decide)

end Sys2Proof.Machine
end

