-- ==== Sys2Proof/Laws/FramesLinks.lean ====
section
/-! SUPPORT. What each shared operation can change, one lemma per operation: beats, links, slots, the Bow and bridges. -/
namespace Sys2Proof.Machine

/-! ### Machine/Beat.lean -/

theorem touches_advanceBeat (b : BitVec 48) :
    (advanceBeat b).touches [.beat] := by
  unfold advanceBeat
  repeat' first
    | with_reducible refine touches_ask fun _ => ?_ | with_reducible refine touches_onlyIf ?_
    | with_reducible exact (touches_advance ..).mono (by decide)

theorem touches_reachBeat (b : BitVec 48) :
    (reachBeat b).touches [.beat] := by
  unfold reachBeat
  repeat' first
    | with_reducible refine touches_ask fun _ => ?_ | with_reducible refine touches_onlyIf ?_
    | with_reducible exact (touches_advance ..).mono (by decide)

theorem touches_advanceSlot (b : BitVec 48) (o : Nat) :
    (advanceSlot b o).touches [.beat] := by
  unfold advanceSlot
  repeat' first
    | with_reducible refine touches_ask fun _ => ?_ | with_reducible refine touches_onlyIf ?_
    | with_reducible exact (touches_advance ..).mono (by decide)

theorem touches_clearLock :
    (clearLock).touches [.io, .beat, .parts, .stop, .recd, .icu] := by
  unfold clearLock
  repeat' first
    | with_reducible exact touches_nil | with_reducible refine touches_cons ?_ ?_
    | with_reducible refine touches_ask fun _ => ?_ | with_reducible refine touches_onlyIf ?_
    | with_reducible exact (touches_modBeat ..).mono (by decide)
    | with_reducible exact (touches_setFld ..).mono (by decide)
    | with_reducible exact (touches_satAdd ..).mono (by decide)
    | with_reducible exact (touches_report ..).mono (by decide)

theorem touches_chooseParent :
    (chooseParent).touches [.io, .beat, .links] := by
  unfold chooseParent
  repeat' first
    | with_reducible exact touches_nil | with_reducible refine touches_cons ?_ ?_
    | with_reducible refine touches_ask fun _ => ?_ | with_reducible exact touches_done
    | with_reducible exact (touches_modLink ..).mono (by decide)
    | with_reducible exact (touches_modBeat ..).mono (by decide)
    | with_reducible exact (touches_setFld ..).mono (by decide) | dsimp only | split

theorem touches_stepTime (h : Slot0Hdr) (delay : Int) :
    (stepTime h delay).touches [.beat] := by
  unfold stepTime
  repeat' first
    | with_reducible exact (touches_modBeat ..).mono (by decide)

theorem touches_lockUpdate (theta : Int) :
    (lockUpdate theta).touches [.io, .beat, .parts, .stop, .recd, .icu] := by
  unfold lockUpdate
  repeat' first
    | with_reducible exact touches_nil | with_reducible refine touches_cons ?_ ?_
    | with_reducible refine touches_ask fun _ => ?_ | with_reducible refine touches_onlyIf ?_
    | with_reducible exact (touches_modBeat ..).mono (by decide)
    | with_reducible exact (touches_setFld ..).mono (by decide)
    | with_reducible exact (touches_clearLock ..).mono (by decide) | dsimp only | split

/-! ### Machine/Bow.lean -/

theorem touches_setEdge (k : Nat) :
    (setEdge k).touches [.job] := by
  unfold setEdge
  repeat' first
    | with_reducible exact (touches_modJob ..).mono (by decide)

theorem touches_bowReceive (bs : List Byte) :
    (bowReceive bs).touches [.io, .parts, .job, .stop, .recd, .icu] := by
  unfold bowReceive
  repeat' first
    | with_reducible exact touches_nil | with_reducible refine touches_cons ?_ ?_
    | with_reducible refine touches_ask fun _ => ?_ | with_reducible exact touches_done
    | with_reducible exact (touches_modJob ..).mono (by decide)
    | with_reducible exact (touches_satAdd ..).mono (by decide)
    | with_reducible exact (touches_report ..).mono (by decide) | dsimp only | split

theorem touches_clearGnf :
    (clearGnf).touches [.io] := by
  unfold clearGnf
  repeat' first
    | with_reducible refine touches_forEach fun _ => ?_ | with_reducible exact (touches_setFld ..).mono (by decide)

theorem touches_sealRead (nf : Bool) :
    (sealRead nf).touches [.mem, .xp, .io, .caps, .parts, .job, .stop, .recd, .icu] := by
  unfold sealRead
  repeat' first
    | with_reducible exact touches_nil | with_reducible refine touches_cons ?_ ?_
    | with_reducible refine touches_ask fun _ => ?_ | with_reducible refine touches_forEach fun _ => ?_
    | with_reducible exact (touches_modJob ..).mono (by decide)
    | with_reducible exact (touches_report ..).mono (by decide)
    | with_reducible exact (touches_touch ..).mono (by decide) | dsimp only | split

theorem touches_publish (a : Bow) :
    (publish a).touches [.mem, .xp, .io, .caps, .toks, .parts, .banks, .stop, .recd, .icu] := by
  unfold publish
  repeat' first
    | with_reducible exact touches_nil | with_reducible refine touches_cons ?_ ?_
    | with_reducible refine touches_ask fun _ => ?_ | with_reducible refine touches_forEach fun _ => ?_
    | with_reducible exact (touches_report ..).mono (by decide)
    | with_reducible exact (touches_writeAt ..).mono (by decide)
    | with_reducible exact (touches_addTok ..).mono (by decide) | dsimp only | split

/-! ### Machine/Links.lean -/

theorem touches_setLinkState (l st : Nat) :
    (setLinkState l st).touches [.io, .links, .parts, .stop, .recd, .icu] := by
  unfold setLinkState
  repeat' first
    | with_reducible exact touches_nil | with_reducible refine touches_cons ?_ ?_
    | with_reducible refine touches_ask fun _ => ?_ | with_reducible refine touches_onlyIf ?_
    | with_reducible exact (touches_modLink ..).mono (by decide)
    | with_reducible exact (touches_report ..).mono (by decide)

theorem touches_train (l : Nat) :
    (train l).touches [.io, .links, .parts, .stop, .recd, .icu] := by
  unfold train
  repeat' first
    | with_reducible exact touches_nil | with_reducible refine touches_cons ?_ ?_
    | with_reducible refine touches_ask fun _ => ?_ | with_reducible exact (touches_modLink ..).mono (by decide)
    | with_reducible exact (touches_setLinkState ..).mono (by decide)

theorem touches_checkRecord (l : Nat) (r : IdRecord) :
    (checkRecord l r).touches [.io, .links, .parts, .stop, .recd, .icu] := by
  unfold checkRecord
  repeat' first
    | with_reducible exact touches_nil | with_reducible refine touches_cons ?_ ?_
    | with_reducible refine touches_ask fun _ => ?_ | with_reducible refine touches_onlyIf ?_
    | with_reducible exact (touches_ioSet ..).mono (by decide)
    | with_reducible exact (touches_modLink ..).mono (by decide)
    | with_reducible exact (touches_report ..).mono (by decide)
    | with_reducible exact (touches_setLinkState ..).mono (by decide)

theorem touches_recheckLinks :
    (recheckLinks).touches [.io, .links, .parts, .stop, .recd, .icu] := by
  unfold recheckLinks
  repeat' first
    | with_reducible refine touches_ask fun _ => ?_ | with_reducible exact touches_done
    | with_reducible refine touches_forEach fun _ => ?_ | with_reducible refine touches_onlyIf ?_
    | with_reducible exact (touches_checkRecord ..).mono (by decide) | dsimp only | split

/-! ### Machine/Slots.lean -/

theorem touches_sendSlot (l : Nat) (beat : BitVec 48) (slot stream : Nat) (payload : List Byte) :
    (sendSlot l beat slot stream payload).touches [.out] := by
  unfold sendSlot
  repeat' first
    | with_reducible refine touches_ask fun _ => ?_ | with_reducible exact (touches_transmit ..).mono (by decide)

theorem touches_SDesc_count (d : SDesc) :
    (SDesc.count d).touches [.io, .toks, .parts, .stop, .recd, .icu] := by
  unfold SDesc.count
  repeat' first
    | with_reducible refine touches_onlyIf ?_ | with_reducible exact (touches_addTok ..).mono (by decide)

theorem touches_slotMiss (l : Nat) (d : SDesc) (f : Nat) :
    (slotMiss l d f).touches [.io, .links, .parts, .stop, .recd, .icu] := by
  unfold slotMiss
  repeat' first
    | with_reducible exact touches_nil | with_reducible refine touches_cons ?_ ?_
    | with_reducible exact (touches_modLink ..).mono (by decide)
    | with_reducible exact (touches_report ..).mono (by decide)

theorem touches_seqRead {ps : List Piece} {u a n : Nat} {k : List Byte → Prog}
    (hs : ∀ p ∈ ([.mem, .xp, .io, .caps, .harts, .parts, .stop, .recd, .icu] : List Piece), p ∈ ps)
    (hk : ∀ a0, (k a0).touches ps) : (seqRead u a n k).touches ps := by
  unfold seqRead
  repeat' first
    | with_reducible exact hk _ | with_reducible exact touches_nil | with_reducible refine touches_cons ?_ ?_
    | with_reducible refine touches_ask fun _ => ?_
    | with_reducible exact (touches_touch ..).mono (fun p hp => hs p (by revert p; decide))
    | with_reducible exact (touches_seqFault ..).mono (fun p hp => hs p (by revert p; decide)) | split

theorem touches_larmBody (u : Nat) (bs : List Byte) :
    (larmBody u bs).touches [.io, .regs, .harts, .links, .parts, .stop, .recd, .icu] := by
  unfold larmBody
  repeat' first
    | with_reducible exact touches_nil | with_reducible refine touches_cons ?_ ?_
    | with_reducible refine touches_ask fun _ => ?_ | with_reducible exact touches_done
    | with_reducible exact (touches_modLink ..).mono (by decide)
    | with_reducible exact (touches_seqFault ..).mono (by decide)
    | with_reducible exact (touches_retire ..).mono (by decide)
    | with_reducible exact (touches_slotMiss ..).mono (by decide) | dsimp only | split

theorem touches_slackOf (l : Nat) (d : SDesc) (img : Nat) :
    (slackOf l d img).touches [.links] := by
  unfold slackOf
  repeat' first
    | with_reducible refine touches_ask fun _ => ?_ | with_reducible exact (touches_modLink ..).mono (by decide)

theorem touches_sendReady (l : Nat) (d : SDesc) (t : TxReady) :
    (sendReady l d t).touches [.mem, .xp, .io, .caps, .toks, .links, .parts, .stop, .recd, .icu, .out] := by
  unfold sendReady
  repeat' first
    | with_reducible exact touches_nil | with_reducible refine touches_cons ?_ ?_
    | with_reducible refine touches_ask fun _ => ?_ | with_reducible exact touches_done
    | with_reducible refine touches_onlyIf ?_ | with_reducible exact (touches_modLink ..).mono (by decide)
    | with_reducible exact (touches_report ..).mono (by decide)
    | with_reducible exact (touches_touch ..).mono (by decide)
    | with_reducible exact (touches_modTx ..).mono (by decide)
    | with_reducible exact (touches_sendSlot ..).mono (by decide)
    | with_reducible exact (touches_SDesc_count ..).mono (by decide)
    | with_reducible exact (touches_slackOf ..).mono (by decide) | dsimp only | split

theorem touches_emptySlot (l n : Nat) :
    (emptySlot l n).touches [.out] := by
  unfold emptySlot
  repeat' first
    | with_reducible refine touches_ask fun _ => ?_ | with_reducible refine touches_onlyIf ?_
    | with_reducible exact (touches_sendSlot ..).mono (by decide)

theorem touches_headSlot (l n : Nat) (d : SDesc) :
    (headSlot l n d).touches [.mem, .xp, .io, .caps, .toks, .links, .parts, .stop, .recd, .icu, .out] := by
  unfold headSlot
  repeat' first
    | with_reducible exact touches_nil | with_reducible refine touches_cons ?_ ?_
    | with_reducible refine touches_ask fun _ => ?_ | with_reducible exact (touches_modLink ..).mono (by decide)
    | with_reducible exact (touches_slotMiss ..).mono (by decide)
    | with_reducible exact (touches_sendReady ..).mono (by decide)
    | with_reducible exact (touches_emptySlot ..).mono (by decide) | dsimp only | split

theorem touches_slotErr (l : Nat) (e : ErrCode) (stream n key : Nat) :
    (slotErr l e stream n key).touches [.io, .parts, .stop, .recd, .icu] := by
  unfold slotErr
  repeat' first
    | with_reducible exact (touches_report ..).mono (by decide)

theorem touches_popRx (l : Nat) :
    (popRx l).touches [.links] := by
  unfold popRx
  repeat' first
    | with_reducible exact (touches_modLink ..).mono (by decide)

theorem touches_emptyImage (l : Nat) (d : SDesc) :
    (emptyImage l d).touches [.mem, .xp, .links] := by
  unfold emptyImage
  repeat' first
    | with_reducible exact touches_nil | with_reducible refine touches_cons ?_ ?_
    | with_reducible refine touches_onlyIf ?_ | with_reducible exact (touches_clearAt ..).mono (by decide)
    | with_reducible exact (touches_modRx ..).mono (by decide)

theorem touches_beginReceive (l : Nat) (d : SDesc) :
    (beginReceive l d).touches [.mem, .xp, .io, .links, .parts, .stop, .recd, .icu] := by
  unfold beginReceive
  repeat' first
    | with_reducible exact touches_nil | with_reducible refine touches_cons ?_ ?_
    | with_reducible refine touches_ask fun _ => ?_ | with_reducible refine touches_onlyIf ?_
    | with_reducible exact (touches_modLink ..).mono (by decide)
    | with_reducible exact (touches_modRx ..).mono (by decide)
    | with_reducible exact (touches_slotMiss ..).mono (by decide)
    | with_reducible exact (touches_emptyImage ..).mono (by decide) | split

theorem touches_matchHeader (l : Nat) (key nflit : Nat) (x0 : Nat) :
    (matchHeader l key nflit x0).touches [.mem, .xp, .io, .links, .parts, .stop, .recd, .icu] := by
  induction x0 with
  | zero => exact touches_done
  | succ n ih =>
    unfold matchHeader
    repeat' first
      | with_reducible exact ih | with_reducible exact touches_nil | with_reducible refine touches_cons ?_ ?_
      | with_reducible refine touches_ask fun _ => ?_ | with_reducible exact touches_done
      | with_reducible exact (touches_slotErr ..).mono (by decide)
      | with_reducible exact (touches_popRx ..).mono (by decide)
      | with_reducible exact (touches_emptyImage ..).mono (by decide)
      | with_reducible exact (touches_beginReceive ..).mono (by decide) | dsimp only | split

theorem touches_completeReceive {ps : List Piece} {l : Nat} {ks : List Nat} {payload : List Byte} {k : SDesc → Prog}
    (hs : ∀ p ∈ ([.io, .links, .parts, .stop, .recd, .icu] : List Piece), p ∈ ps)
    (hk : ∀ a0, (k a0).touches ps) : (completeReceive l ks payload k).touches ps := by
  unfold completeReceive
  repeat' first
    | with_reducible exact hk _ | with_reducible exact touches_nil | with_reducible refine touches_cons ?_ ?_
    | with_reducible refine touches_ask fun _ => ?_ | with_reducible exact touches_done
    | with_reducible refine touches_onlyIf ?_
    | with_reducible exact (touches_modLink ..).mono (fun p hp => hs p (by revert p; decide))
    | with_reducible exact (touches_slotErr ..).mono (fun p hp => hs p (by revert p; decide)) | dsimp only | split

theorem touches_seqJobStart (l : Nat) :
    (seqJobStart l).touches [.regs, .toks, .harts, .links] := by
  unfold seqJobStart
  repeat' first
    | with_reducible exact touches_nil | with_reducible refine touches_cons ?_ ?_
    | with_reducible refine touches_ask fun _ => ?_ | with_reducible exact (touches_modHart ..).mono (by decide)
    | with_reducible exact (touches_modLink ..).mono (by decide)
    | with_reducible exact (touches_eff_regClear ..).mono (by decide)
    | with_reducible exact (touches_eff_tokClear ..).mono (by decide)

theorem touches_slackRecord (l : Nat) :
    (slackRecord l).touches [.links, .recd] := by
  unfold slackRecord
  repeat' first
    | with_reducible exact touches_nil | with_reducible refine touches_cons ?_ ?_
    | with_reducible refine touches_ask fun _ => ?_ | with_reducible refine touches_onlyIf ?_
    | with_reducible exact (touches_modLink ..).mono (by decide)
    | with_reducible exact (touches_offer ..).mono (by decide)

theorem touches_seqStop (l : Nat) :
    (seqStop l).touches [.harts, .links, .recd] := by
  unfold seqStop
  repeat' first
    | with_reducible exact touches_nil | with_reducible refine touches_cons ?_ ?_
    | with_reducible exact (touches_modHart ..).mono (by decide)
    | with_reducible exact (touches_modLink ..).mono (by decide)
    | with_reducible exact (touches_slackRecord ..).mono (by decide)

/-! ### Machine/BestEffort.lean -/

theorem touches_bePlace (p : BePacket) :
    (bePlace p).touches [.io, .links, .parts, .stop, .recd, .icu] := by
  unfold bePlace
  repeat' first
    | with_reducible refine touches_ask fun _ => ?_ | with_reducible exact touches_done
    | with_reducible exact (touches_modLink ..).mono (by decide)
    | with_reducible exact (touches_report ..).mono (by decide) | dsimp only | split

theorem touches_beputBody (u : Nat) (bs : List Byte) :
    (beputBody u bs).touches [.mem, .xp, .io, .caps, .regs, .harts, .links, .parts, .banks, .stop, .recd, .icu] := by
  unfold beputBody
  repeat' first
    | with_reducible exact touches_nil | with_reducible refine touches_cons ?_ ?_
    | with_reducible refine touches_ask fun _ => ?_ | with_reducible exact touches_done
    | with_reducible refine touches_forEach fun _ => ?_ | with_reducible exact (touches_modLink ..).mono (by decide)
    | with_reducible exact (touches_bankRange ..).mono (by decide)
    | with_reducible exact (touches_touch ..).mono (by decide)
    | with_reducible exact (touches_seqFault ..).mono (by decide)
    | with_reducible exact (touches_retire ..).mono (by decide)
    | with_reducible exact (touches_bePlace ..).mono (by decide) | dsimp only | split

theorem touches_beWrite (l : Nat) (p : BePacket) :
    (beWrite l p).touches [.mem, .xp, .io, .caps, .parts, .banks, .stop, .recd, .icu, .out] := by
  unfold beWrite
  repeat' first
    | with_reducible exact touches_nil | with_reducible refine touches_cons ?_ ?_
    | with_reducible refine touches_ask fun _ => ?_ | with_reducible refine touches_forEach fun _ => ?_
    | with_reducible exact (touches_transmit ..).mono (by decide)
    | with_reducible exact (touches_report ..).mono (by decide)
    | with_reducible exact (touches_bankReq ..).mono (by decide)
    | with_reducible exact (touches_writeAt ..).mono (by decide) | with_reducible refine touches_guardD (by decide) ?_
    | dsimp only | split

/-! ### Machine/Bridges.lean -/

theorem touches_sendFrame (n typ step offset credits outc : Nat) (payload : List Byte) :
    (sendFrame n typ step offset credits outc payload).touches [.bridges, .out] := by
  unfold sendFrame
  repeat' first
    | with_reducible exact touches_nil | with_reducible refine touches_cons ?_ ?_
    | with_reducible refine touches_ask fun _ => ?_ | with_reducible exact (touches_modBridge ..).mono (by decide)
    | with_reducible exact (touches_transmit ..).mono (by decide)

theorem touches_onFrame {ps : List Piece} {n typ : Nat} {fr : BridgeFrame} {k : Prog}
    (hs : ∀ p ∈ ([.io, .parts, .stop, .recd, .icu] : List Piece), p ∈ ps)
    (hk : k.touches ps) : (onFrame n typ fr k).touches ps := by
  unfold onFrame
  repeat' first
    | with_reducible exact hk | with_reducible refine touches_ask fun _ => ?_
    | with_reducible refine touches_onlyIf ?_
    | with_reducible exact (touches_report ..).mono (fun p hp => hs p (by revert p; decide)) | split

theorem touches_takeFrame (n : Nat) (fr : BridgeFrame) :
    (takeFrame n fr).touches [.mem, .xp, .io, .caps, .bridges, .parts, .banks, .stop, .recd, .icu, .out] := by
  unfold takeFrame
  repeat' first
    | with_reducible exact touches_nil | with_reducible refine touches_cons ?_ ?_
    | with_reducible refine touches_ask fun _ => ?_ | with_reducible refine touches_forEach fun _ => ?_
    | with_reducible refine touches_onlyIf ?_ | with_reducible exact (touches_modBridge ..).mono (by decide)
    | with_reducible exact (touches_setFld ..).mono (by decide)
    | with_reducible exact (touches_report ..).mono (by decide)
    | with_reducible exact (touches_bankReq ..).mono (by decide)
    | with_reducible exact (touches_writeAt ..).mono (by decide) | with_reducible refine touches_guardD (by decide) ?_
    | with_reducible exact (touches_sendFrame ..).mono (by decide) | dsimp only | split

theorem touches_readResult {ps : List Piece} {n va len : Nat} {k : List Byte → Prog}
    (hs : ∀ p ∈ ([.mem, .xp, .io, .caps, .parts, .banks, .stop, .recd, .icu] : List Piece), p ∈ ps)
    (hk : ∀ a0, (k a0).touches ps) : (readResult n va len k).touches ps := by
  unfold readResult
  repeat' first
    | with_reducible exact hk _ | with_reducible exact touches_nil | with_reducible refine touches_cons ?_ ?_
    | with_reducible refine touches_ask fun _ => ?_ | with_reducible refine touches_forEach fun _ => ?_
    | with_reducible exact (touches_report ..).mono (fun p hp => hs p (by revert p; decide))
    | with_reducible exact (touches_bankRange ..).mono (fun p hp => hs p (by revert p; decide))
    | with_reducible exact (touches_touch ..).mono (fun p hp => hs p (by revert p; decide)) | dsimp only | split

theorem touches_returnFrames (n : Nat) (x0 : Nat) :
    (returnFrames n x0).touches [.mem, .xp, .io, .caps, .bridges, .parts, .banks, .stop, .recd, .icu, .out] := by
  induction x0 with
  | zero => exact touches_done
  | succ n ih =>
    unfold returnFrames
    repeat' first
      | with_reducible exact ih | with_reducible exact touches_nil | with_reducible refine touches_cons ?_ ?_
      | with_reducible refine touches_ask fun _ => ?_ | with_reducible exact touches_done
      | with_reducible refine touches_onlyIf ?_ | with_reducible exact (touches_modBridge ..).mono (by decide)
      | with_reducible exact (touches_sendFrame ..).mono (by decide)
      | with_reducible refine touches_readResult (by decide) (fun _ => ?_) | dsimp only | split

theorem touches_bridgeStop (n : Nat) :
    (bridgeStop n).touches [.bridges, .out] := by
  unfold bridgeStop
  repeat' first
    | with_reducible exact touches_nil | with_reducible refine touches_cons ?_ ?_
    | with_reducible refine touches_ask fun _ => ?_ | with_reducible refine touches_onlyIf ?_
    | with_reducible exact (touches_modBridge ..).mono (by decide)
    | with_reducible exact (touches_sendFrame ..).mono (by decide)

theorem touches_bridgeStep (n : Nat) :
    (bridgeStep n).touches [.io, .bridges] := by
  unfold bridgeStep
  repeat' first
    | with_reducible exact touches_nil | with_reducible refine touches_cons ?_ ?_
    | with_reducible exact (touches_ioSet ..).mono (by decide)
    | with_reducible exact (touches_modBridge ..).mono (by decide)
    | with_reducible exact (touches_setFld ..).mono (by decide)

theorem touches_bridgeJobStart (n : Nat) :
    (bridgeJobStart n).touches [.io, .bridges] := by
  unfold bridgeJobStart
  repeat' first
    | with_reducible exact touches_nil | with_reducible refine touches_cons ?_ ?_
    | with_reducible exact (touches_ioSet ..).mono (by decide)
    | with_reducible exact (touches_modBridge ..).mono (by decide)
    | with_reducible exact (touches_setFld ..).mono (by decide)

end Sys2Proof.Machine
end

