-- ==== Sys2Proof/Laws/FramesDevice.lean ====
section
/-! SUPPORT. What each shared operation can change, one lemma per operation: interrupts, jobs, records, mailboxes, power, registers and debug. -/
namespace Sys2Proof.Machine

/-! ### Machine/Icu.lean -/

theorem touches_deliver (x0 : Nat) :
    (deliver x0).touches [.harts] := by
  induction x0 with
  | zero => exact touches_done
  | succ n ih =>
    unfold deliver
    repeat' first
      | with_reducible exact ih | with_reducible exact touches_nil | with_reducible refine touches_cons ?_ ?_
      | with_reducible refine touches_ask fun _ => ?_ | with_reducible exact touches_done
      | with_reducible exact (touches_modHart ..).mono (by decide) | dsimp only | split

theorem touches_hostDelivery (n : Nat) :
    (hostDelivery n).touches [.io, .parts, .icu] := by
  unfold hostDelivery
  repeat' first
    | with_reducible exact touches_nil | with_reducible refine touches_cons ?_ ?_
    | with_reducible refine touches_ask fun _ => ?_ | with_reducible refine touches_forEach fun _ => ?_
    | with_reducible refine touches_onlyIf ?_ | with_reducible exact (touches_modIcu ..).mono (by decide)
    | with_reducible exact (touches_hpIrq ..).mono (by decide)

theorem touches_eoiBy (n : Nat) (v : Reg32) :
    (eoiBy n v).touches [.io, .harts, .parts, .stop, .recd, .icu] := by
  unfold eoiBy
  repeat' first
    | with_reducible exact touches_nil | with_reducible refine touches_cons ?_ ?_
    | with_reducible refine touches_ask fun _ => ?_ | with_reducible exact (touches_modHart ..).mono (by decide)
    | with_reducible exact (touches_modIcu ..).mono (by decide)
    | with_reducible exact (touches_setFld ..).mono (by decide)
    | with_reducible exact (touches_satAdd ..).mono (by decide)
    | with_reducible exact (touches_icuEvent ..).mono (by decide)
    | with_reducible exact (touches_report ..).mono (by decide) | dsimp only | split

theorem touches_swsetBy (v : Reg32) :
    (swsetBy v).touches [.io, .parts, .icu] := by
  unfold swsetBy
  repeat' first
    | with_reducible refine touches_onlyIf ?_ | with_reducible exact (touches_icuEvent ..).mono (by decide)

theorem touches_kickBy (n : Nat) :
    (kickBy n).touches [.harts] := by
  unfold kickBy
  repeat' first
    | with_reducible refine touches_ask fun _ => ?_ | with_reducible exact (touches_modHart ..).mono (by decide)

/-! ### Machine/Dram.lean -/

theorem touches_sendPending (p : Nat) :
    (sendPending p).touches [.parts] := by
  unfold sendPending
  repeat' first
    | with_reducible refine touches_ask fun _ => ?_ | with_reducible refine touches_onlyIf ?_
    | with_reducible exact (touches_modPart ..).mono (by decide)

/-! ### Machine/Job.lean -/

theorem touches_snapAll (b c : Nat) :
    (snapAll b c).touches [.recd] := by
  unfold snapAll
  repeat' first
    | with_reducible refine touches_ask fun _ => ?_ | with_reducible refine touches_forEach fun _ => ?_
    | with_reducible exact (touches_snapTrigger ..).mono (by decide)

theorem touches_setDevState (x : Nat) :
    (setDevState x).touches [.io] := by
  unfold setDevState
  repeat' first
    | with_reducible refine touches_ask fun _ => ?_ | with_reducible refine touches_onlyIf ?_
    | with_reducible exact (touches_setFld ..).mono (by decide)

theorem touches_applyShadow (a : Nat) :
    (applyShadow a).touches [.io, .shadow] := by
  unfold applyShadow
  repeat' first
    | with_reducible exact touches_nil | with_reducible refine touches_cons ?_ ?_
    | with_reducible refine touches_ask fun _ => ?_ | with_reducible exact (touches_ioSet ..).mono (by decide)
    | with_reducible exact (touches_eff_shadow ..).mono (by decide)

theorem touches_coreJobStart (c : Nat) :
    (coreJobStart c).touches [.mem, .xp, .io, .shadow, .caps, .regs, .toks, .beat, .harts, .links, .bridges, .parts, .banks, .fuses, .job, .stop, .recd, .icu, .dbg, .pwr, .out, .free] := fun s =>
  ⟨fun p hp => by cases p <;> simp at hp, by simp⟩

theorem touches_stepBegin :
    (stepBegin).touches [.io, .bridges, .job] := by
  unfold stepBegin
  repeat' first
    | with_reducible exact touches_nil | with_reducible refine touches_cons ?_ ?_
    | with_reducible refine touches_forEach fun _ => ?_ | with_reducible exact (touches_ioSet ..).mono (by decide)
    | with_reducible exact (touches_setFld ..).mono (by decide)
    | with_reducible exact (touches_setEdge ..).mono (by decide)
    | with_reducible exact (touches_bridgeStep ..).mono (by decide)

theorem touches_resetDcctl :
    (resetDcctl).touches [.io, .harts] := by
  unfold resetDcctl
  repeat' first
    | with_reducible exact touches_nil | with_reducible refine touches_cons ?_ ?_
    | with_reducible refine touches_forEach fun _ => ?_ | with_reducible exact (touches_ioSet ..).mono (by decide)
    | with_reducible exact (touches_modHart ..).mono (by decide)

theorem touches_endDebug :
    (endDebug).touches [.io, .harts, .dbg] := by
  unfold endDebug
  repeat' first
    | with_reducible exact touches_nil | with_reducible refine touches_cons ?_ ?_
    | with_reducible refine touches_forEach fun _ => ?_ | with_reducible exact (touches_modHart ..).mono (by decide)
    | with_reducible exact (touches_modDbg ..).mono (by decide)
    | with_reducible exact (touches_setFld ..).mono (by decide)

theorem touches_haltUnit (u : Nat) :
    (haltUnit u).touches [.harts] := by
  unfold haltUnit
  repeat' first
    | with_reducible exact (touches_modHart ..).mono (by decide)

theorem touches_endJob :
    (endJob).touches [.mem, .xp, .io, .shadow, .caps, .regs, .toks, .beat, .harts, .links, .bridges, .parts, .banks, .fuses, .job, .stop, .recd, .icu, .dbg, .pwr, .out, .free] := fun s =>
  ⟨fun p hp => by cases p <;> simp at hp, by simp⟩

theorem touches_latchCheckpoint :
    (latchCheckpoint).touches [.io, .job] := by
  unfold latchCheckpoint
  repeat' first
    | with_reducible exact touches_nil | with_reducible refine touches_cons ?_ ?_
    | with_reducible refine touches_ask fun _ => ?_ | with_reducible exact (touches_ioSet ..).mono (by decide)
    | with_reducible exact (touches_modJob ..).mono (by decide)

theorem touches_completeCmtwait :
    (completeCmtwait).touches [.regs, .harts] := by
  unfold completeCmtwait
  repeat' first
    | with_reducible exact touches_nil | with_reducible refine touches_cons ?_ ?_
    | with_reducible refine touches_ask fun _ => ?_ | with_reducible refine touches_forEach fun _ => ?_
    | with_reducible exact (touches_modHart ..).mono (by decide)
    | with_reducible exact (touches_tryHalt ..).mono (by decide)
    | with_reducible exact (touches_landShadows ..).mono (by decide)

theorem touches_commitRest (skip : Bool) :
    (commitRest skip).touches [.mem, .xp, .io, .shadow, .caps, .regs, .toks, .beat, .harts, .links, .bridges, .parts, .banks, .fuses, .job, .stop, .recd, .icu, .dbg, .pwr, .out, .free] := fun s =>
  ⟨fun p hp => by cases p <;> simp at hp, by simp⟩

theorem touches_commitStep :
    (commitStep).touches [.mem, .xp, .io, .shadow, .caps, .regs, .toks, .beat, .harts, .links, .bridges, .parts, .banks, .fuses, .job, .stop, .recd, .icu, .dbg, .pwr, .out, .free] := fun s =>
  ⟨fun p hp => by cases p <;> simp at hp, by simp⟩

theorem touches_takeStop (code : Nat) (link : Option Nat) :
    (takeStop code link).touches [.mem, .xp, .io, .shadow, .caps, .regs, .toks, .beat, .harts, .links, .bridges, .parts, .banks, .fuses, .job, .stop, .recd, .icu, .dbg, .pwr, .out, .free] := fun s =>
  ⟨fun p hp => by cases p <;> simp at hp, by simp⟩

theorem touches_jobIrqDue (s : State) :
    (jobIrqDue s).touches [.io, .parts, .stop] := by
  unfold jobIrqDue
  repeat' first
    | with_reducible exact (touches_modStop ..).mono (by decide)
    | with_reducible exact (touches_jobIrqPoint ..).mono (by decide) | split

/-! ### Machine/Figure.lean -/

theorem touches_loadBlocks (a : Nat) (bs : List Byte) :
    (loadBlocks a bs).touches [.mem, .xp, .caps] := by
  unfold loadBlocks
  repeat' first
    | with_reducible exact touches_nil | with_reducible refine touches_cons ?_ ?_
    | with_reducible refine touches_forEach fun _ => ?_ | with_reducible exact (touches_setBlk ..).mono (by decide)
    | with_reducible exact (touches_freshChk ..).mono (by decide)

theorem touches_loadProgram (u : Nat) (bs : List Byte) :
    (loadProgram u bs).touches [.mem, .xp, .caps] := by
  unfold loadProgram
  repeat' first
    | with_reducible exact touches_nil | with_reducible refine touches_cons ?_ ?_
    | with_reducible refine touches_forEach fun _ => ?_ | with_reducible exact (touches_setBlk ..).mono (by decide)
    | with_reducible exact (touches_freshChk ..).mono (by decide)
    | with_reducible exact (touches_clearAt ..).mono (by decide)

theorem touches_ioDirect (a : Nat) (v : Reg32) :
    (ioDirect a v).touches [.io, .shadow] := by
  unfold ioDirect
  repeat' first
    | with_reducible exact touches_nil | with_reducible refine touches_cons ?_ ?_
    | with_reducible exact (touches_ioSet ..).mono (by decide)
    | with_reducible exact (touches_eff_shadow ..).mono (by decide)

theorem touches_loadSections (ss : List FigSec) :
    (loadSections ss).touches [.mem, .xp, .io, .shadow, .caps] := by
  unfold loadSections
  repeat' first
    | with_reducible exact touches_nil | with_reducible refine touches_cons ?_ ?_
    | with_reducible refine touches_forEach fun _ => ?_ | with_reducible exact (touches_setStore ..).mono (by decide)
    | with_reducible exact (touches_clearAt ..).mono (by decide)
    | with_reducible exact (touches_loadBlocks ..).mono (by decide)
    | with_reducible exact (touches_loadProgram ..).mono (by decide)
    | with_reducible exact (touches_ioDirect ..).mono (by decide)

theorem touches_writePreloads (xs : List (Nat × List Byte)) :
    (writePreloads xs).touches [.mem, .xp, .io, .caps, .parts, .banks, .stop, .recd, .icu] := by
  unfold writePreloads
  repeat' first
    | with_reducible refine touches_ask fun _ => ?_ | with_reducible exact touches_done
    | with_reducible refine touches_forEach fun _ => ?_ | with_reducible exact (touches_writeAt ..).mono (by decide)
    | dsimp only | split

/-! ### Machine/Recorder.lean -/

theorem touches_claimEffect :
    (claimEffect).touches [.io, .parts, .icu] := by
  unfold claimEffect
  repeat' first
    | with_reducible exact touches_nil | with_reducible refine touches_cons ?_ ?_
    | with_reducible refine touches_ask fun _ => ?_ | with_reducible exact touches_done
    | with_reducible exact (touches_setFld ..).mono (by decide)
    | with_reducible exact (touches_setSlotSt ..).mono (by decide) | dsimp only | split

theorem touches_doneEffect (v : Reg32) :
    (doneEffect v).touches [.io, .parts, .stop, .icu] := by
  unfold doneEffect
  repeat' first
    | with_reducible exact touches_nil | with_reducible refine touches_cons ?_ ?_
    | with_reducible refine touches_ask fun _ => ?_ | with_reducible refine touches_onlyIf ?_
    | with_reducible exact (touches_setSlotSt ..).mono (by decide)
    | with_reducible exact (touches_jobIrqPoint ..).mono (by decide)

theorem touches_xptestEffect {ps : List Piece} {v : Reg32} {deny : Prog}
    (hs : ∀ p ∈ ([.mem, .xp, .io, .caps] : List Piece), p ∈ ps)
    (hdeny : deny.touches ps) : (xptestEffect v deny).touches ps := by
  unfold xptestEffect
  repeat' first
    | with_reducible exact hdeny | with_reducible exact touches_nil | with_reducible refine touches_cons ?_ ?_
    | with_reducible refine touches_ask fun _ => ?_ | with_reducible refine touches_onlyIf ?_
    | with_reducible exact (touches_ioSet ..).mono (fun p hp => hs p (by revert p; decide))
    | with_reducible exact (touches_setPair ..).mono (fun p hp => hs p (by revert p; decide))
    | with_reducible exact (touches_setChk ..).mono (fun p hp => hs p (by revert p; decide))
    | with_reducible exact (touches_setBlk ..).mono (fun p hp => hs p (by revert p; decide)) | dsimp only | split

theorem touches_recIrq :
    (recIrq).touches [.io, .parts] := by
  unfold recIrq
  repeat' first
    | with_reducible refine touches_ask fun _ => ?_ | with_reducible refine touches_forEach fun _ => ?_
    | with_reducible exact (touches_hpIrq ..).mono (by decide)

theorem touches_overrun (off n : Nat) :
    (overrun off n).touches [.io, .parts, .recd, .icu] := by
  unfold overrun
  repeat' first
    | with_reducible exact touches_nil | with_reducible refine touches_cons ?_ ?_
    | with_reducible refine touches_ask fun _ => ?_ | with_reducible refine touches_onlyIf ?_
    | with_reducible exact (touches_modRec ..).mono (by decide)
    | with_reducible exact (touches_setMask ..).mono (by decide)
    | with_reducible exact (touches_icuEvent ..).mono (by decide)
    | with_reducible exact (touches_recIrq ..).mono (by decide)

theorem touches_ringWrite (rec' : List Byte) :
    (ringWrite rec').touches [.mem, .xp, .io, .caps, .parts, .banks, .stop, .recd, .icu] := by
  unfold ringWrite
  repeat' first
    | with_reducible exact touches_nil | with_reducible refine touches_cons ?_ ?_
    | with_reducible refine touches_ask fun _ => ?_ | with_reducible refine touches_onlyIf ?_
    | with_reducible exact (touches_modRec ..).mono (by decide)
    | with_reducible exact (touches_setFld ..).mono (by decide)
    | with_reducible exact (touches_writeAt ..).mono (by decide)
    | with_reducible exact (touches_overrun ..).mono (by decide)

theorem touches_recWrite (rec' : List Byte) :
    (recWrite rec').touches [.mem, .xp, .io, .caps, .parts, .banks, .stop, .recd, .icu] := by
  unfold recWrite
  repeat' first
    | with_reducible exact touches_nil | with_reducible refine touches_cons ?_ ?_
    | with_reducible refine touches_ask fun _ => ?_ | with_reducible exact (touches_modRec ..).mono (by decide)
    | with_reducible exact (touches_setFld ..).mono (by decide)
    | with_reducible exact (touches_setMask ..).mono (by decide)
    | with_reducible exact (touches_satAdd ..).mono (by decide)
    | with_reducible exact (touches_writeAt ..).mono (by decide)
    | with_reducible exact (touches_recIrq ..).mono (by decide)
    | with_reducible exact (touches_ringWrite ..).mono (by decide) | dsimp only | split

theorem touches_admitRec (o : Offer) :
    (admitRec o).touches [.mem, .xp, .io, .caps, .parts, .banks, .stop, .recd, .icu] := by
  unfold admitRec
  repeat' first
    | with_reducible exact touches_nil | with_reducible refine touches_cons ?_ ?_
    | with_reducible refine touches_ask fun _ => ?_ | with_reducible exact (touches_ioSet ..).mono (by decide)
    | with_reducible exact (touches_modRec ..).mono (by decide)
    | with_reducible exact (touches_recWrite ..).mono (by decide)

theorem touches_postDone (o : Offer) :
    (postDone o).touches [.harts, .recd] := by
  unfold postDone
  repeat' first
    | with_reducible exact touches_done | with_reducible exact (touches_modHart ..).mono (by decide)
    | with_reducible exact (touches_modRec ..).mono (by decide) | dsimp only | split

theorem touches_badPost (page : Nat) (v : Reg32) :
    (badPost page v).touches [.io, .parts, .stop, .recd, .icu] := by
  unfold badPost
  repeat' first
    | with_reducible exact (touches_report ..).mono (by decide)

theorem touches_postFrom {ps : List Piece} {page base size off lo hi poster : Nat} {v : Reg32} {busy : Prog}
    (hs : ∀ p ∈ ([.mem, .xp, .io, .caps, .parts, .stop, .recd, .icu] : List Piece), p ∈ ps)
    (hbusy : busy.touches ps) : (postFrom page base size off lo hi poster v busy).touches ps := by
  unfold postFrom
  repeat' first
    | with_reducible exact hbusy | with_reducible exact touches_nil | with_reducible refine touches_cons ?_ ?_
    | with_reducible refine touches_ask fun _ => ?_
    | with_reducible exact (touches_offer ..).mono (fun p hp => hs p (by revert p; decide))
    | with_reducible exact (touches_touch ..).mono (fun p hp => hs p (by revert p; decide))
    | with_reducible exact (touches_badPost ..).mono (fun p hp => hs p (by revert p; decide)) | dsimp only | split

theorem touches_recpostEffect (c : Nat) (v : Reg32) :
    (recpostEffect c v).touches [.mem, .xp, .io, .caps, .harts, .parts, .stop, .recd, .icu] := by
  unfold recpostEffect
  repeat' first
    | with_reducible refine touches_ask fun _ => ?_ | with_reducible refine touches_onlyIf ?_
    | with_reducible exact (touches_modHart ..).mono (by decide)
    | with_reducible refine touches_postFrom (by decide) ?_

theorem touches_postEffect (n : Nat) (v : Reg32) :
    (postEffect n v).touches [.mem, .xp, .io, .caps, .parts, .stop, .recd, .icu] := by
  unfold postEffect
  repeat' first
    | with_reducible refine touches_ask fun _ => ?_ | with_reducible refine touches_onlyIf ?_
    | with_reducible exact (touches_modRec ..).mono (by decide)
    | with_reducible refine touches_postFrom (by decide) ?_

theorem touches_rddataEffect :
    (rddataEffect).touches [.mem, .xp, .io, .caps, .parts, .stop, .recd, .icu] := by
  unfold rddataEffect
  repeat' first
    | with_reducible exact touches_nil | with_reducible refine touches_cons ?_ ?_
    | with_reducible refine touches_ask fun _ => ?_ | with_reducible exact (touches_setFld ..).mono (by decide)
    | with_reducible exact (touches_touch ..).mono (by decide)

theorem touches_sprddataEffect :
    (sprddataEffect).touches [.mem, .xp, .io, .caps, .parts, .stop, .recd, .icu, .free] := by
  unfold sprddataEffect
  repeat' first
    | with_reducible exact touches_nil | with_reducible refine touches_cons ?_ ?_
    | with_reducible refine touches_ask fun _ => ?_ | with_reducible exact (touches_useFree ..).mono (by decide)
    | with_reducible exact (touches_setFld ..).mono (by decide)
    | with_reducible exact (touches_touch ..).mono (by decide) | split

theorem touches_snpdataEffect :
    (snpdataEffect).touches [.mem, .xp, .io, .caps, .parts, .stop, .recd, .icu] := by
  unfold snpdataEffect
  repeat' first
    | with_reducible exact touches_nil | with_reducible refine touches_cons ?_ ?_
    | with_reducible refine touches_ask fun _ => ?_ | with_reducible exact (touches_modRec ..).mono (by decide)
    | with_reducible exact (touches_touch ..).mono (by decide)

theorem touches_freezeRec :
    (freezeRec).touches [.io] := by
  unfold freezeRec
  repeat' first
    | with_reducible exact (touches_setMask ..).mono (by decide)

theorem touches_thawRec :
    (thawRec).touches [.mem, .xp, .io, .caps, .parts, .banks, .stop, .recd, .icu] := by
  unfold thawRec
  repeat' first
    | with_reducible exact touches_nil | with_reducible refine touches_cons ?_ ?_
    | with_reducible refine touches_ask fun _ => ?_ | with_reducible refine touches_forEach fun _ => ?_
    | with_reducible refine touches_onlyIf ?_ | with_reducible exact (touches_ioSet ..).mono (by decide)
    | with_reducible exact (touches_modRec ..).mono (by decide)
    | with_reducible exact (touches_setFld ..).mono (by decide)
    | with_reducible exact (touches_touch ..).mono (by decide)
    | with_reducible exact (touches_ringWrite ..).mono (by decide)
    | with_reducible exact (touches_admitRec ..).mono (by decide)

theorem touches_snapshotOf (p : Nat) (vals : List Nat) :
    (snapshotOf p vals).touches [.mem, .xp, .io, .caps, .parts, .banks, .stop, .recd, .icu] := by
  unfold snapshotOf
  repeat' first
    | with_reducible exact touches_nil | with_reducible refine touches_cons ?_ ?_
    | with_reducible refine touches_ask fun _ => ?_ | with_reducible exact touches_done
    | with_reducible exact (touches_modRec ..).mono (by decide)
    | with_reducible exact (touches_writeAt ..).mono (by decide) | dsimp only | split

/-! ### Machine/Sec.lean -/

theorem touches_fuseViews :
    (fuseViews).touches [.io] := by
  unfold fuseViews
  repeat' first
    | with_reducible exact touches_nil | with_reducible refine touches_cons ?_ ?_
    | with_reducible refine touches_ask fun _ => ?_ | with_reducible refine touches_forEach fun _ => ?_
    | with_reducible exact (touches_ioSet ..).mono (by decide)

theorem touches_setMeasure (i : Nat) (bs : List Byte) :
    (setMeasure i bs).touches [.io] := by
  unfold setMeasure
  repeat' first
    | with_reducible refine touches_forEach fun _ => ?_ | with_reducible exact (touches_ioSet ..).mono (by decide)

theorem touches_extendM (i : Nat) (d : List Byte) :
    (extendM i d).touches [.io] := by
  unfold extendM
  repeat' first
    | with_reducible refine touches_ask fun _ => ?_ | with_reducible exact (touches_setMeasure ..).mono (by decide)

/-! ### Machine/Mailbox.lean -/

theorem touches_setSlot (p sl x : Nat) :
    (setSlot p sl x).touches [.parts] := by
  unfold setSlot
  repeat' first
    | with_reducible exact (touches_modPart ..).mono (by decide)

theorem touches_mbError (p sl off : Nat) :
    (mbError p sl off).touches [.io, .parts, .stop, .recd, .icu] := by
  unfold mbError
  repeat' first
    | with_reducible exact (touches_report ..).mono (by decide)

theorem touches_doorbellEffect (p v : Nat) :
    (doorbellEffect p v).touches [.io, .parts, .stop, .recd, .icu] := by
  unfold doorbellEffect
  repeat' first
    | with_reducible exact touches_nil | with_reducible refine touches_cons ?_ ?_
    | with_reducible refine touches_ask fun _ => ?_ | with_reducible exact (touches_modPart ..).mono (by decide)
    | with_reducible exact (touches_icuEvent ..).mono (by decide)
    | with_reducible exact (touches_setSlot ..).mono (by decide)
    | with_reducible exact (touches_mbError ..).mono (by decide) | dsimp only | split

theorem touches_mbackEffect (p v : Nat) :
    (mbackEffect p v).touches [.io, .parts, .stop, .recd, .icu] := by
  unfold mbackEffect
  repeat' first
    | with_reducible refine touches_ask fun _ => ?_ | with_reducible refine touches_forEach fun _ => ?_
    | with_reducible exact (touches_setSlot ..).mono (by decide)
    | with_reducible exact (touches_mbError ..).mono (by decide) | split

theorem touches_respond (p sl jseq result reason abeat rdata : Nat) (data : List Byte) :
    (respond p sl jseq result reason abeat rdata data).touches [.mem, .xp, .io, .caps, .parts, .banks, .stop, .recd, .icu] := by
  unfold respond
  repeat' first
    | with_reducible exact touches_nil | with_reducible refine touches_cons ?_ ?_
    | with_reducible refine touches_ask fun _ => ?_ | with_reducible exact touches_done
    | with_reducible exact (touches_writeAt ..).mono (by decide)

theorem touches_finishCmd (p sl jseq result reason abeat rdata : Nat) (data : List Byte) :
    (finishCmd p sl jseq result reason abeat rdata data).touches [.mem, .xp, .io, .caps, .parts, .banks, .stop, .recd, .icu] := by
  unfold finishCmd
  repeat' first
    | with_reducible exact touches_nil | with_reducible refine touches_cons ?_ ?_
    | with_reducible exact (touches_modPart ..).mono (by decide)
    | with_reducible exact (touches_hpIrq ..).mono (by decide)
    | with_reducible exact (touches_setSlot ..).mono (by decide)
    | with_reducible exact (touches_respond ..).mono (by decide)

theorem touches_Cmd_ok (c : Cmd) (reason rdata : Nat) (data : List Byte) :
    (Cmd.ok c reason rdata data).touches [.mem, .xp, .io, .caps, .parts, .banks, .stop, .recd, .icu] := by
  unfold Cmd.ok
  repeat' first
    | with_reducible assumption | with_reducible exact (touches_finishCmd ..).mono (by decide)

theorem touches_Cmd_reject (c : Cmd) (reason rdata : Nat) :
    (Cmd.reject c reason rdata).touches [.mem, .xp, .io, .caps, .parts, .banks, .stop, .recd, .icu] := by
  unfold Cmd.reject
  repeat' first
    | with_reducible exact (touches_finishCmd ..).mono (by decide)

theorem touches_Cmd_accept (c : Cmd) :
    (Cmd.accept c).touches [.mem, .xp, .io, .caps, .parts, .banks, .stop, .recd, .icu] := by
  unfold Cmd.accept
  repeat' first
    | with_reducible exact touches_nil | with_reducible refine touches_cons ?_ ?_
    | with_reducible refine touches_ask fun _ => ?_ | with_reducible exact (touches_modPart ..).mono (by decide)
    | with_reducible exact (touches_respond ..).mono (by decide)

theorem touches_takeCmd {ps : List Piece} {p sl : Nat} {k : Cmd → Prog}
    (hs : ∀ p ∈ ([.io, .parts] : List Piece), p ∈ ps)
    (hk : ∀ a0, (k a0).touches ps) : (takeCmd p sl k).touches ps := by
  unfold takeCmd
  repeat' first
    | with_reducible exact hk _ | with_reducible exact touches_nil | with_reducible refine touches_cons ?_ ?_
    | with_reducible refine touches_ask fun _ => ?_
    | with_reducible exact (touches_ioSet ..).mono (fun p hp => hs p (by revert p; decide))
    | with_reducible exact (touches_modPart ..).mono (fun p hp => hs p (by revert p; decide))
    | with_reducible exact (touches_setSlot ..).mono (fun p hp => hs p (by revert p; decide))

theorem touches_leaveQueue {ps : List Piece} {p sl : Nat} {k : Cmd → Prog}
    (hs : ∀ p ∈ ([.mem, .xp, .io, .caps, .parts, .banks, .stop, .recd, .icu] : List Piece), p ∈ ps)
    (hk : ∀ a0, (k a0).touches ps) : (leaveQueue p sl k).touches ps := by
  unfold leaveQueue
  repeat' first
    | with_reducible exact hk _ | with_reducible exact touches_nil | with_reducible refine touches_cons ?_ ?_
    | with_reducible refine touches_ask fun _ => ?_
    | with_reducible exact (touches_writeAt ..).mono (fun p hp => hs p (by revert p; decide))
    | with_reducible refine touches_takeCmd (fun p hp => hs p (by revert p; decide)) (fun _ => ?_)

theorem touches_endCmd (p : Nat) (a : Active) (result reason rdata : Nat) (data : List Byte) :
    (endCmd p a result reason rdata data).touches [.mem, .xp, .io, .caps, .parts, .banks, .stop, .recd, .icu] := by
  unfold endCmd
  repeat' first
    | with_reducible exact (touches_finishCmd ..).mono (by decide)

theorem touches_unloadFigure :
    (unloadFigure).touches [.io, .links, .bridges, .parts, .stop, .recd, .icu] := by
  unfold unloadFigure
  repeat' first
    | with_reducible exact touches_nil | with_reducible refine touches_cons ?_ ?_
    | with_reducible refine touches_forEach fun _ => ?_ | with_reducible exact (touches_modBridge ..).mono (by decide)
    | with_reducible exact (touches_setFld ..).mono (by decide)
    | with_reducible exact (touches_setPair ..).mono (by decide)
    | with_reducible exact (touches_recheckLinks ..).mono (by decide)

theorem touches_loadFails (p : Nat) (a : Active) (reason : Nat) :
    (loadFails p a reason).touches [.mem, .xp, .io, .caps, .parts, .banks, .job, .stop, .recd, .icu] := by
  unfold loadFails
  repeat' first
    | with_reducible exact touches_nil | with_reducible refine touches_cons ?_ ?_
    | with_reducible exact (touches_modJob ..).mono (by decide)
    | with_reducible exact (touches_setFld ..).mono (by decide)
    | with_reducible exact (touches_endCmd ..).mono (by decide)

theorem touches_loadFigure (p : Nat) (a : Active) (b : List Byte) (ss : List FigSec) :
    (loadFigure p a b ss).touches [.mem, .xp, .io, .shadow, .caps, .links, .parts, .banks, .job, .stop, .recd, .icu] := by
  unfold loadFigure
  repeat' first
    | with_reducible exact touches_nil | with_reducible refine touches_cons ?_ ?_
    | with_reducible refine touches_ask fun _ => ?_ | with_reducible exact (touches_modJob ..).mono (by decide)
    | with_reducible exact (touches_setFld ..).mono (by decide)
    | with_reducible exact (touches_satAdd ..).mono (by decide)
    | with_reducible exact (touches_setPair ..).mono (by decide)
    | with_reducible exact (touches_recheckLinks ..).mono (by decide)
    | with_reducible exact (touches_loadSections ..).mono (by decide)
    | with_reducible exact (touches_writePreloads ..).mono (by decide)
    | with_reducible exact (touches_extendM ..).mono (by decide)
    | with_reducible exact (touches_endCmd ..).mono (by decide)

theorem touches_abortJob :
    (abortJob).touches [.mem, .xp, .io, .shadow, .caps, .regs, .toks, .beat, .harts, .links, .bridges, .parts, .banks, .fuses, .job, .stop, .recd, .icu, .dbg, .pwr, .out, .free] := fun s =>
  ⟨fun p hp => by cases p <;> simp at hp, by simp⟩

theorem touches_abortLoad (p : Nat) :
    (abortLoad p).touches [.mem, .xp, .io, .caps, .parts, .banks, .job, .stop, .recd, .icu] := by
  unfold abortLoad
  repeat' first
    | with_reducible refine touches_ask fun _ => ?_ | with_reducible exact touches_done
    | with_reducible exact (touches_loadFails ..).mono (by decide) | dsimp only | split

theorem touches_discardQueued (t : Nat) (x0 : Nat) :
    (discardQueued t x0).touches [.mem, .xp, .io, .caps, .parts, .banks, .stop, .recd, .icu] := by
  induction x0 with
  | zero => exact touches_done
  | succ n ih =>
    unfold discardQueued
    repeat' first
      | with_reducible exact ih | with_reducible exact touches_nil | with_reducible refine touches_cons ?_ ?_
      | with_reducible refine touches_ask fun _ => ?_ | with_reducible exact touches_done
      | with_reducible exact (touches_Cmd_reject ..).mono (by decide)
      | with_reducible refine touches_takeCmd (by decide) (fun _ => ?_) | dsimp only | split

theorem touches_setLayout (a : List Byte) :
    (setLayout a).touches [.io] := by
  unfold setLayout
  repeat' first
    | with_reducible exact touches_nil | with_reducible refine touches_cons ?_ ?_
    | with_reducible refine touches_forEach fun _ => ?_ | with_reducible exact (touches_ioSet ..).mono (by decide)
    | with_reducible exact (touches_setFld ..).mono (by decide)

theorem touches_linkOff (l : Nat) :
    (linkOff l).touches [.io, .links, .parts, .stop, .recd, .icu] := by
  unfold linkOff
  repeat' first
    | with_reducible exact touches_nil | with_reducible refine touches_cons ?_ ?_
    | with_reducible exact (touches_modLink ..).mono (by decide)
    | with_reducible exact (touches_setLinkState ..).mono (by decide)

theorem touches_debugRecord (event ports h r : Nat) :
    (debugRecord event ports h r).touches [.recd] := by
  unfold debugRecord
  repeat' first
    | with_reducible exact (touches_offer ..).mono (by decide)

/-! ### Machine/Power.lean -/

theorem touches_deviceReset :
    (deviceReset).touches [.mem, .xp, .io, .shadow, .caps, .regs, .toks, .beat, .harts, .links, .bridges, .parts, .banks, .fuses, .job, .stop, .recd, .icu, .dbg, .pwr, .out, .free] := fun s =>
  ⟨fun p hp => by cases p <;> simp at hp, by simp⟩

theorem touches_powerOff (lock : Bool) :
    (powerOff lock).touches [.mem, .xp, .io, .shadow, .caps, .regs, .toks, .beat, .harts, .links, .bridges, .parts, .banks, .fuses, .job, .stop, .recd, .icu, .dbg, .pwr, .out, .free] := fun s =>
  ⟨fun p hp => by cases p <;> simp at hp, by simp⟩

theorem touches_devrstEffect (v : Reg32) :
    (devrstEffect v).touches [.mem, .xp, .io, .shadow, .caps, .regs, .toks, .beat, .harts, .links, .bridges, .parts, .banks, .fuses, .job, .stop, .recd, .icu, .dbg, .pwr, .out, .free] := fun s =>
  ⟨fun p hp => by cases p <;> simp at hp, by simp⟩

theorem touches_setPhase (phase err unit : Nat) :
    (setPhase phase err unit).touches [.io] := by
  unfold setPhase
  repeat' first
    | with_reducible exact (touches_ioSet ..).mono (by decide)

theorem touches_bootGoEffect (v : Reg32) :
    (bootGoEffect v).touches [.io, .parts, .stop, .recd, .icu, .pwr] := by
  unfold bootGoEffect
  repeat' first
    | with_reducible exact touches_nil | with_reducible refine touches_cons ?_ ?_
    | with_reducible refine touches_ask fun _ => ?_ | with_reducible refine touches_forEach fun _ => ?_
    | with_reducible exact (touches_modPwr ..).mono (by decide)
    | with_reducible exact (touches_report ..).mono (by decide)
    | with_reducible exact (touches_setMeasure ..).mono (by decide)
    | with_reducible exact (touches_setPhase ..).mono (by decide) | dsimp only | split

/-! ### Machine/Io.lean -/

theorem touches_readEffect (a : Nat) :
    (readEffect a).touches [.mem, .xp, .io, .caps, .beat, .parts, .stop, .recd, .icu, .free] := by
  unfold readEffect
  repeat' first
    | with_reducible exact touches_nil | with_reducible refine touches_cons ?_ ?_
    | with_reducible refine touches_ask fun _ => ?_ | with_reducible exact touches_done
    | with_reducible refine touches_onlyIf ?_ | with_reducible exact (touches_modBeat ..).mono (by decide)
    | with_reducible exact (touches_setFld ..).mono (by decide)
    | with_reducible exact (touches_touch ..).mono (by decide)
    | with_reducible exact (touches_claimEffect ..).mono (by decide)
    | with_reducible exact (touches_rddataEffect ..).mono (by decide)
    | with_reducible exact (touches_sprddataEffect ..).mono (by decide)
    | with_reducible exact (touches_snpdataEffect ..).mono (by decide) | dsimp only | split

theorem touches_writeFields (a : Nat) (r : RegRow) (v : Reg32) :
    (writeFields a r v).touches [.io, .shadow] := by
  unfold writeFields
  repeat' first
    | with_reducible exact touches_nil | with_reducible refine touches_cons ?_ ?_
    | with_reducible refine touches_ask fun _ => ?_ | with_reducible refine touches_onlyIf ?_
    | with_reducible exact (touches_ioSet ..).mono (by decide)
    | with_reducible exact (touches_eff_shadow ..).mono (by decide)

theorem touches_takeWrite (a : Nat) (r : RegRow) (v : Reg32) :
    (takeWrite a r v).touches [.io, .shadow, .harts] := by
  unfold takeWrite
  repeat' first
    | with_reducible refine touches_ask fun _ => ?_ | with_reducible exact (touches_modHart ..).mono (by decide)
    | with_reducible exact (touches_writeFields ..).mono (by decide) | dsimp only | split

theorem touches_applyPage (page : Nat) :
    (applyPage page).touches [.io, .shadow] := by
  unfold applyPage
  repeat' first
    | with_reducible refine touches_ask fun _ => ?_ | with_reducible refine touches_forEach fun _ => ?_
    | with_reducible exact (touches_applyShadow ..).mono (by decide)

theorem touches_clearedRecord (a : Nat) (v : Reg32) :
    (clearedRecord a v).touches [.io] := by
  unfold clearedRecord
  repeat' first
    | with_reducible exact touches_nil | with_reducible refine touches_cons ?_ ?_
    | with_reducible refine touches_ask fun _ => ?_ | with_reducible exact touches_done
    | with_reducible refine touches_onlyIf ?_ | with_reducible exact (touches_ioSet ..).mono (by decide) | dsimp only
    | split

theorem touches_icuAgain (p : Nat) :
    (icuAgain p).touches [.io, .parts] := by
  unfold icuAgain
  repeat' first
    | with_reducible refine touches_ask fun _ => ?_ | with_reducible refine touches_onlyIf ?_
    | with_reducible exact (touches_hpIrq ..).mono (by decide)

theorem touches_writeEffect (g : Agent) (a : Nat) (v : Reg32) :
    (writeEffect g a v).touches [.mem, .xp, .io, .shadow, .caps, .regs, .toks, .beat, .harts, .links, .bridges, .parts, .banks, .fuses, .job, .stop, .recd, .icu, .dbg, .pwr, .out, .free] := fun s =>
  ⟨fun p hp => by cases p <;> simp at hp, by simp⟩

theorem touches_regWrite (g : Agent) (a : Nat) (v : Reg32) :
    (regWrite g a v).touches [.mem, .xp, .io, .shadow, .caps, .regs, .toks, .beat, .harts, .links, .bridges, .parts, .banks, .fuses, .job, .stop, .recd, .icu, .dbg, .pwr, .out, .free] := fun s =>
  ⟨fun p hp => by cases p <;> simp at hp, by simp⟩

theorem touches_wprot (g : Agent) (a : Nat) :
    (wprot g a).touches [.io, .parts, .stop, .recd, .icu] := by
  unfold wprot
  repeat' first
    | with_reducible exact (touches_report ..).mono (by decide)

theorem touches_ioWrite (g : Agent) (a : Nat) (v : Reg32) :
    (ioWrite g a v).touches [.mem, .xp, .io, .shadow, .caps, .regs, .toks, .beat, .harts, .links, .bridges, .parts, .banks, .fuses, .job, .stop, .recd, .icu, .dbg, .pwr, .out, .free] := fun s =>
  ⟨fun p hp => by cases p <;> simp at hp, by simp⟩

/-! ### Machine/Bundle.lean -/

theorem touches_extendSecs (i : Nat) (ss : List BootSec) (types : List Nat) :
    (extendSecs i ss types).touches [.io] := by
  unfold extendSecs
  repeat' first
    | with_reducible refine touches_onlyIf ?_ | with_reducible exact (touches_extendM ..).mono (by decide)

theorem touches_loadCaller (ss : List BootSec) (n : Nat) :
    (loadCaller ss n).touches [.mem, .xp, .io, .shadow, .caps, .harts] := by
  unfold loadCaller
  repeat' first
    | with_reducible exact touches_nil | with_reducible refine touches_cons ?_ ?_
    | with_reducible refine touches_ask fun _ => ?_ | with_reducible refine touches_forEach fun _ => ?_
    | with_reducible exact (touches_modHart ..).mono (by decide)
    | with_reducible exact (touches_setCreg ..).mono (by decide)
    | with_reducible exact (touches_setStore ..).mono (by decide)
    | with_reducible exact (touches_loadBlocks ..).mono (by decide)
    | with_reducible exact (touches_loadProgram ..).mono (by decide)
    | with_reducible exact (touches_ioDirect ..).mono (by decide)

theorem touches_bootLayout (ss : List BootSec) :
    (bootLayout ss).touches [.io] := by
  unfold bootLayout
  repeat' first
    | with_reducible exact touches_nil | with_reducible refine touches_cons ?_ ?_
    | with_reducible refine touches_forEach fun _ => ?_ | with_reducible exact (touches_setFld ..).mono (by decide)
    | with_reducible exact (touches_setLayout ..).mono (by decide) | dsimp only | split

/-! ### Machine/Debug.lean -/

theorem touches_dbgRespond (p : DbgPort) (status : Nat) (data : Option Nat) :
    (dbgRespond p status data).touches [.io, .dbg, .free] := by
  unfold dbgRespond
  repeat' first
    | with_reducible exact touches_nil | with_reducible refine touches_cons ?_ ?_
    | with_reducible refine touches_ask fun _ => ?_ | with_reducible refine touches_forEach fun _ => ?_
    | with_reducible refine touches_onlyIf ?_ | with_reducible exact (touches_ioSet ..).mono (by decide)
    | with_reducible exact (touches_modDbg ..).mono (by decide)
    | with_reducible exact (touches_useFree ..).mono (by decide) | dsimp only | split

theorem touches_taint :
    (taint).touches [.io] := by
  unfold taint
  repeat' first
    | with_reducible refine touches_ask fun _ => ?_ | with_reducible refine touches_onlyIf ?_
    | with_reducible exact (touches_setFld ..).mono (by decide)

theorem touches_unhalt (u how : Nat) :
    (unhalt u how).touches [.harts] := by
  unfold unhalt
  repeat' first
    | with_reducible refine touches_ask fun _ => ?_ | with_reducible exact (touches_modHart ..).mono (by decide)

/-! ### Machine/RegCmd.lean -/

theorem touches_ioStore (g : Agent) (a : Nat) (v : Reg32) :
    (ioStore g a v).touches [.mem, .xp, .io, .shadow, .caps, .regs, .toks, .beat, .harts, .links, .bridges, .parts, .banks, .fuses, .job, .stop, .recd, .icu, .dbg, .pwr, .out, .free] := fun s =>
  ⟨fun p hp => by cases p <;> simp at hp, by simp⟩

theorem touches_ioAccess {ps : List Piece} {u : Nat} {f : S2I} {k : Nat → Prog}
    (hs : ∀ p ∈ ([.mem, .xp, .io, .shadow, .caps, .regs, .toks, .beat, .harts, .links, .bridges, .parts, .banks, .fuses, .job, .stop, .recd, .icu, .dbg, .pwr, .out, .free] : List Piece), p ∈ ps)
    (hk : ∀ a0, (k a0).touches ps) : (ioAccess u f k).touches ps := by
  unfold ioAccess
  repeat' first
    | with_reducible exact hk _ | with_reducible refine touches_ask fun _ => ?_
    | with_reducible refine touches_capUse (fun p hp => hs p (by revert p; decide)) ?_
    | with_reducible exact (touches_raise ..).mono (fun p hp => hs p (by revert p; decide)) | dsimp only | split

theorem touches_arrive (c : Nat) :
    (arrive c).touches [.io] := by
  unfold arrive
  repeat' first
    | with_reducible exact (touches_setMask ..).mono (by decide)

/-! ### Machine/HostAcc.lean -/

theorem touches_hostAnswer (p a n : Nat) :
    (hostAnswer p a n).touches [.out] := by
  unfold hostAnswer
  repeat' first
    | with_reducible refine touches_ask fun _ => ?_ | with_reducible exact (touches_answer ..).mono (by decide)
    | with_reducible exact (touches_answerPoison ..).mono (by decide) | dsimp only | split

theorem touches_hostStore (p a : Nat) (bs : List Byte) :
    (hostStore p a bs).touches [.mem, .xp, .io, .caps, .parts, .banks, .stop, .recd, .icu] := by
  unfold hostStore
  repeat' first
    | with_reducible refine touches_forEach fun _ => ?_
    | with_reducible exact (touches_storeGrain ..).mono (by decide)

theorem touches_bar0Read (a n : Nat) :
    (bar0Read a n).touches [.mem, .xp, .io, .caps, .beat, .parts, .stop, .recd, .icu, .out, .free] := by
  unfold bar0Read
  repeat' first
    | with_reducible exact touches_nil | with_reducible refine touches_cons ?_ ?_
    | with_reducible refine touches_ask fun _ => ?_ | with_reducible refine touches_forEach fun _ => ?_
    | with_reducible exact (touches_answer ..).mono (by decide)
    | with_reducible exact (touches_readEffect ..).mono (by decide) | split

theorem touches_bar0Write (p : Fin 4) (a : Nat) (bs : List Byte) :
    (bar0Write p a bs).touches [.mem, .xp, .io, .shadow, .caps, .regs, .toks, .beat, .harts, .links, .bridges, .parts, .banks, .fuses, .job, .stop, .recd, .icu, .dbg, .pwr, .out, .free] := fun s =>
  ⟨fun p hp => by cases p <;> simp at hp, by simp⟩

theorem touches_bar2Read (p : Fin 4) (a n : Nat) :
    (bar2Read p a n).touches [.mem, .xp, .io, .caps, .parts, .banks, .stop, .recd, .icu, .out] := by
  unfold bar2Read
  repeat' first
    | with_reducible exact touches_nil | with_reducible refine touches_cons ?_ ?_
    | with_reducible refine touches_ask fun _ => ?_ | with_reducible exact (touches_answer ..).mono (by decide)
    | with_reducible exact (touches_bankRange ..).mono (by decide)
    | with_reducible exact (touches_touch ..).mono (by decide)
    | with_reducible exact (touches_hostAnswer ..).mono (by decide) | dsimp only | split

end Sys2Proof.Machine
end

