-- ==== Sys2Proof/Laws/Memory.lean ====
section
/-! SUPPORT. Reads after writes: what a whole-block write of a protected SRAM leaves (R419-R423), and that it leaves every
other byte as it was. -/
namespace Sys2Proof.Machine

variable {s t : State}

theorem mem_range {lo n x : Nat} : x ∈ range lo n ↔ lo ≤ x ∧ x < lo + n := by
  induction n generalizing lo with
  | zero => simp [range]
  | succ n ih => simp only [range, List.mem_cons, ih]; omega

theorem length_range (lo n : Nat) : (range lo n).length = n := by
  induction n generalizing lo with
  | zero => rfl
  | succ n ih => simp [range, ih]

/-- A read of a block depends on its bytes, its check bits and the capabilities alone. -/
theorem State.blkVal_congr {k : Nat} (hb : ∀ i, i < 8 → t.byte (8 * k + i) = s.byte (8 * k + i))
    (hx : Tab.get (fun _ => 0) t.xp k = Tab.get (fun _ => 0) s.xp k) (hc : t.caps = s.caps) :
    t.blkVal k = s.blkVal k ∧ t.blkBad k = s.blkBad k := by
  have hd : t.blkData k = s.blkData k := by
    unfold State.blkData
    rw [hc]
    split <;> [rfl; skip]
    congr 1
    apply List.map_congr_left
    intro x hx
    obtain ⟨h1, h2⟩ := mem_range.1 hx
    have := hb (x - 8 * k) (by omega)
    rwa [show 8 * k + (x - 8 * k) = x by omega] at this
  have hk : t.chk k = s.chk k := by unfold State.chk; rw [hd, hx]
  have hcl : t.blkClass k = s.blkClass k := by unfold State.blkClass State.syndromes; rw [hk, hd]
  constructor
  · unfold State.blkVal State.syndromes; rw [hk, hd, hcl]
  · unfold State.blkBad; rw [hk, hcl]

/-- A byte that a read returns depends on the bytes and check bits of its block. -/
theorem State.rdByte_congr {a : Nat} (hb : ∀ i, i < 8 → t.byte (8 * (a / 8) + i) = s.byte (8 * (a / 8) + i))
    (hx : Tab.get (fun _ => 0) t.xp (a / 8) = Tab.get (fun _ => 0) s.xp (a / 8)) (hc : t.caps = s.caps) :
    t.rdByte a = s.rdByte a := by
  unfold State.rdByte; rw [(State.blkVal_congr hb hx hc).1]

theorem State.rdByte_of_same (hm : t.mem = s.mem) (hx : t.xp = s.xp) (hc : t.caps = s.caps) (a : Nat) :
    t.rdByte a = s.rdByte a :=
  State.rdByte_congr (fun _ _ => by unfold State.byte; rw [hm]) (by rw [hx]) hc

/-! ### Setting bytes -/

theorem setBytes_byte (h : s.canonical = true) (bs : List Byte) (a x : Nat) :
    ((setBytes a bs).run s).byte x = if a ≤ x ∧ x < a + bs.length then bs.getD (x - a) 0 else s.byte x := by
  induction bs generalizing a s with
  | nil => simp [setBytes]
  | cons b bs ih =>
    rw [setBytes, Prog.run_andThen, Eff.run_prog, ih (Eff.apply_canonical _ _ h), State.byte_mem h]
    simp only [List.length_cons]
    by_cases h1 : a + 1 ≤ x ∧ x < a + 1 + bs.length
    · rw [if_pos h1, if_pos (by omega), show x - a = (x - (a + 1)) + 1 by omega]; rfl
    · rw [if_neg h1]
      by_cases h2 : x = a
      · subst h2; simp
      · rw [if_neg h2, if_neg (by omega)]

theorem only_setBytes (a : Nat) (bs : List Byte) : Only [.mem] s ((setBytes a bs).run s) := by
  simpa using touches_setBytes a bs s

/-- The bytes of block `k` when they are `bs`. -/
theorem State.blkData_of_bytes {k : Nat} {bs : List Byte} (hn : ∀ u b, sramOf (8 * k) ≠ some (0xA, u, b))
    (hl : bs.length = 8) (hb : ∀ i, i < 8 → s.byte (8 * k + i) = bs.getD i 0) : s.blkData k = ofBytes bs := by
  have hm : (range (8 * k) 8).map s.byte = bs := by
    apply List.ext_getElem
    · simp [length_range, hl]
    · intro i h1 h2
      have hi : i < 8 := by omega
      have hr : ∀ (n lo i : Nat) (h : i < (range lo n).length), (range lo n)[i] = lo + i := by
        intro n
        induction n with
        | zero => intro lo i h; simp [range] at h
        | succ n ih =>
          intro lo i h
          cases i with
          | zero => simp [range]
          | succ i => simp only [range, List.getElem_cons_succ]; rw [ih]; omega
      simp only [List.getElem_map, hr]
      rw [hb i hi, List.getD_eq_getElem _ _ h2]
  unfold State.blkData
  split
  · exact absurd ‹_› (hn _ _)
  · rw [hm]

/-- The check bits of an ordinary write make the block read as it stands (R419-R421). -/
theorem blkVal_freshChk (h : s.canonical = true) (k : Nat) :
    ((freshChk k (s.blkData k)).run s).blkVal k = s.blkData k ∧ ((freshChk k (s.blkData k)).run s).blkBad k = false := by
  have hx : Tab.wf (fun _ => 0) s.xp = true := (State.canonical_iff.1 h).2.1
  have key : ∀ v : BitVec 19, (v = 0 ∨ (v = BitVec.ofNat 19 (2 ^ 18 + 3 * 2 ^ 16) ∧ s.blkData k = 0)) →
      ((Eff.xp k v).apply s).blkVal k = s.blkData k ∧ ((Eff.xp k v).apply s).blkBad k = false := by
    intro v hv
    have hd : ((Eff.xp k v).apply s).blkData k = s.blkData k := by
      unfold State.blkData; simp only [Eff.xp_caps]; rfl
    have hc : ((Eff.xp k v).apply s).chk k =
        (if v = 0 ∧ s.blkData k = 0 then { vs := 0, col := 0, row := 0 }
         else { vs := 3, col := colPar (s.blkData k), row := rowPar (s.blkData k) } : Chk) := by
      unfold State.chk
      rw [hd]
      simp only [Eff.xp_xp, Tab.get_put_same hx]
      rcases hv with rfl | ⟨rfl, h0⟩
      · by_cases h0 : s.blkData k = 0
        · simp [h0, bitAt]
        · simp [h0, bitAt]
      · rw [h0]; decide
    have hcl : ((Eff.xp k v).apply s).blkClass k = 0 := by
      unfold State.blkClass State.syndromes
      rw [hc, hd]
      split <;> simp [bitsSet, bitAt, range]
    constructor
    · unfold State.blkVal
      rw [hd, hcl, hc]
      split <;> simp_all
    · unfold State.blkBad
      rw [hcl, hc]
      split <;> simp
  unfold freshChk
  split
  · exact key _ (.inr ⟨rfl, by tauto⟩)
  · exact key _ (.inl rfl)

/-- A block with the check bits of an ordinary write is clean and reads as it stands (R419-R421). -/
theorem State.clean_of_xp {k : Nat} (h : Tab.get (fun _ => 0) s.xp k = 0) :
    s.clean k = true ∧ s.blkBad k = false ∧ s.blkVal k = s.blkData k := by
  have hc : s.chk k = (if s.blkData k = 0 then { vs := 0, col := 0, row := 0 }
      else { vs := 3, col := colPar (s.blkData k), row := rowPar (s.blkData k) } : Chk) := by
    unfold State.chk; rw [h]; simp [bitAt]
  have hcl : s.blkClass k = 0 := by
    unfold State.blkClass State.syndromes
    rw [hc]
    split <;> simp [bitsSet, bitAt, range]
  have hb : s.blkBad k = false := by
    unfold State.blkBad; rw [hcl, hc]; split <;> simp
  refine ⟨by unfold State.clean; rw [hcl, hb]; rfl, hb, ?_⟩
  unfold State.blkVal
  rw [hcl, hc]
  split <;> simp_all

/-- With the check bits of ordinary writes everywhere, nothing is damaged. -/
theorem State.undamaged_of_xp (h : s.xp = []) : s.undamaged := fun k =>
  (State.clean_of_xp (by rw [h]; rfl)).1

/-! ### Whole-block writes -/

theorem plainBlock_iff {k : Nat} : plainBlock k = true ↔ ∃ m u b, sramOf (8 * k) = some (m, u, b) ∧ m ≠ 0xA := by
  unfold plainBlock
  split <;> simp_all

theorem bankOf_of_sram {a : Nat} {x : Nat × Nat × Nat} (h : sramOf a = some x) : bankOf a = none := by
  unfold sramOf at h
  unfold bankOf
  split at h <;> simp_all

theorem only_freshChk (k v : Nat) : Only [.xp] s ((freshChk k v).run s) := touches_freshChk k v s

theorem xp_freshChk (h : s.canonical = true) (k v j : Nat) (hj : j ≠ k) :
    Tab.get (fun _ => 0) ((freshChk k v).run s).xp j = Tab.get (fun _ => 0) s.xp j := by
  have hx : Tab.wf (fun _ => 0) s.xp = true := (State.canonical_iff.1 h).2.1
  unfold freshChk setChk
  split <;> (simp only [Eff.run_prog, Eff.xp_xp]; exact Tab.get_put_ne hx hj)

/-- What a write of a whole plain block leaves: the block reads as the bytes written, and every other block as before. -/
theorem writePiece_block (h : s.canonical = true) {k : Nat} (hk : plainBlock k = true) {bs : List Byte}
    (hl : bs.length = 8) :
    let w := (writePiece (8 * k) bs).run s
    w.blkVal k = ofBytes bs ∧ w.blkBad k = false ∧
      (∀ j, j ≠ k → w.blkVal j = s.blkVal j ∧ w.blkBad j = s.blkBad j) ∧ w.caps = s.caps := by
  obtain ⟨m, u, b, hs, hm⟩ := plainBlock_iff.1 hk
  have hn : ∀ u b, sramOf (8 * k) ≠ some (0xA, u, b) := by rintro u b e; rw [hs] at e; cases e; exact hm rfl
  have hsb : ∀ s : State, (setBlk k 0).run s = (forEach (range 0 8) fun i =>
      (Eff.mem (8 * k + i) (BitVec.ofNat 8 (0 / 256 ^ i))).prog).run s := by
    intro s; unfold setBlk; rw [hs]; split
    · rename_i e; cases e; exact absurd rfl hm
    · rfl
  obtain ⟨w0, hw0, hw0c, hw0m, hw0x⟩ : ∃ w0, w0 = (onlyIf ((s.chk k).vs = 0) (setBlk k 0)).run s ∧ w0.caps = s.caps ∧
      (∀ x, ¬(8 * k ≤ x ∧ x < 8 * k + 8) → w0.byte x = s.byte x) ∧ w0.xp = s.xp := by
    refine ⟨_, rfl, ?_, ?_, ?_⟩ <;> by_cases hv : (s.chk k).vs = 0
    all_goals simp only [hv, run_onlyIf_pos, run_onlyIf_neg, not_false_eq_true, implies_true]
    · rw [hsb]; simp [range]
    · intro x hx
      rw [hsb]
      have hc1 : ∀ (e : Eff) (s : State), s.canonical = true → (e.apply s).canonical = true := Eff.apply_canonical
      simp only [range, run_forEach_cons, run_forEach_nil, Eff.run_prog]
      iterate 8 rw [State.byte_mem (by repeat first | exact h | apply hc1), if_neg (by omega)]
    · rw [hsb]; simp [range]
  have hw0h : w0.canonical = true := by rw [hw0]; exact Prog.run_canonical _ h
  obtain ⟨w1, hw1, hw1h⟩ : ∃ w1, w1 = (setBytes (8 * k) bs).run w0 ∧ w1.canonical = true :=
    ⟨_, rfl, Prog.run_canonical _ hw0h⟩
  have ho1 : Only [.mem] w0 w1 := by rw [hw1]; exact only_setBytes _ _
  have hc1 : w1.caps = w0.caps := ho1.1 .caps (by decide)
  have hx1 : w1.xp = w0.xp := ho1.1 .xp (by decide)
  have hd : w1.blkData k = ofBytes bs := by
    refine State.blkData_of_bytes hn hl fun i hi => ?_
    rw [hw1, setBytes_byte hw0h, if_pos (by omega)]; congr 1; omega
  have hrun : (writePiece (8 * k) bs).run s = (freshChk k (w1.blkData k)).run w1 := by
    simp only [writePiece, Prog.run_ask, bankOf_of_sram hs, hs, run_block_cons, run_block_nil, hl,
      show 8 * k / 8 = k by omega]
    simp only [Nat.lt_irrefl, run_onlyIf_neg, not_false_eq_true, Prog.run_ask, false_and, if_false, run_block_cons,
      run_block_nil, ← hw0, ← hw1]
  have hfr := blkVal_freshChk hw1h k
  have hof : Only [.xp] w1 ((freshChk k (w1.blkData k)).run w1) := only_freshChk _ _
  intro w
  have hw : w = (freshChk k (w1.blkData k)).run w1 := hrun
  refine ⟨by rw [hw, hfr.1, hd], by rw [hw]; exact hfr.2, fun j hj => ?_, ?_⟩
  · refine State.blkVal_congr (fun i hi => ?_) ?_ ?_
    · rw [hw]
      have : ((freshChk k (w1.blkData k)).run w1).byte (8 * j + i) = w1.byte (8 * j + i) :=
        State.byte_congr (hof.1 .mem (by decide)) _
      rw [this, hw1, setBytes_byte hw0h, if_neg (by omega), hw0m _ (by omega)]
    · rw [hw, xp_freshChk hw1h _ _ _ hj, hx1, hw0x]
    · rw [hw, show ((freshChk k (w1.blkData k)).run w1).caps = w1.caps from hof.1 .caps (by decide), hc1, hw0c]
  · rw [hw, show ((freshChk k (w1.blkData k)).run w1).caps = w1.caps from hof.1 .caps (by decide), hc1, hw0c]

/-! ### Runs of whole blocks -/

theorem ofBytes_byte (bs : List Byte) (i : Nat) : BitVec.ofNat 8 (ofBytes bs / 2 ^ (8 * i)) = bs.getD i 0 := by
  induction bs generalizing i with
  | nil => simp [ofBytes]
  | cons b bs ih =>
    cases i with
    | zero =>
      apply BitVec.eq_of_toNat_eq
      simp only [ofBytes, Nat.mul_zero, Nat.pow_zero, Nat.div_one, BitVec.toNat_ofNat, List.getD_cons_zero]
      have := b.isLt
      omega
    | succ i =>
      rw [List.getD_cons_succ, ← ih, ofBytes, show 8 * (i + 1) = 8 + 8 * i by omega, Nat.pow_add, ← Nat.div_div_eq_div_mul]
      congr 2
      have := b.isLt
      omega

theorem grain_of_sram {a : Nat} {x : Nat × Nat × Nat} (h : sramOf a = some x) : grain a = 8 := by
  unfold sramOf at h
  unfold grain
  split at h <;> simp_all

theorem pieces_blocks {f k n : Nat} (hf : n ≤ f) (hk : ∀ i, i < n → plainBlock (k + i) = true) :
    pieces f (8 * k) (8 * n) = (range k n).map fun j => (8 * j, 8) := by
  induction n generalizing f k with
  | zero => cases f <;> simp [pieces, range]
  | succ n ih =>
    cases f with
    | zero => omega
    | succ f =>
      obtain ⟨m, u, b, hs, -⟩ := plainBlock_iff.1 (hk 0 (by omega))
      simp only [Nat.add_zero] at hs
      have e1 : min (8 * (n + 1)) (8 - 8 * k % 8) = 8 := by omega
      simp only [pieces, grain_of_sram hs, e1, range, List.map_cons]
      rw [if_neg (by omega), show 8 * k + 8 = 8 * (k + 1) by omega, show 8 * (n + 1) - 8 = 8 * n by omega,
        ih (by omega) fun i hi => by have := hk (i + 1) (by omega); rwa [show k + (i + 1) = k + 1 + i by omega] at this]

/-- What a write of whole plain blocks leaves: the bytes written read back, and every other byte reads as before. -/
theorem writeAt_blocks (h : s.canonical = true) {k n : Nat} {bs : List Byte} (hl : bs.length = 8 * n)
    (hk : ∀ i, i < n → plainBlock (k + i) = true) :
    let w := (writeAt (8 * k) bs).run s
    (∀ x, w.rdByte x = if 8 * k ≤ x ∧ x < 8 * k + bs.length then bs.getD (x - 8 * k) 0 else s.rdByte x) ∧
      (∀ j, ¬(k ≤ j ∧ j < k + n) → w.blkVal j = s.blkVal j ∧ w.blkBad j = s.blkBad j) ∧ w.caps = s.caps := by
  have gen : ∀ (n i : Nat) (s : State), s.canonical = true → 8 * (i + n) ≤ bs.length →
      (∀ j, j < n → plainBlock (k + i + j) = true) →
      let w := (forEach ((range (k + i) n).map fun j => (8 * j, 8))
        fun (b, m) => writePiece b ((bs.drop (b - 8 * k)).take m)).run s
      (∀ j, ¬(k + i ≤ j ∧ j < k + i + n) → w.blkVal j = s.blkVal j ∧ w.blkBad j = s.blkBad j) ∧
        (∀ j, j < n → w.blkVal (k + i + j) = ofBytes ((bs.drop (8 * (i + j))).take 8)) ∧ w.caps = s.caps := by
    intro n
    induction n with
    | zero => intro i s _ _ _; exact ⟨fun _ _ => ⟨rfl, rfl⟩, fun j hj => by omega, rfl⟩
    | succ n ih =>
      intro i s hs hle hp
      have hb : ((bs.drop (8 * i)).take 8).length = 8 := by simp; omega
      have h1 := writePiece_block hs (k := k + i) (by simpa using hp 0 (by omega)) hb
      have h2 := ih (i + 1) ((writePiece (8 * (k + i)) ((bs.drop (8 * i)).take 8)).run s) (Prog.run_canonical _ hs)
        (by omega) (fun j hj => by have := hp (j + 1) (by omega); rwa [show k + i + (j + 1) = k + (i + 1) + j by omega] at this)
      simp only [range, List.map_cons, run_forEach_cons, show 8 * (k + i) - 8 * k = 8 * i by omega]
      rw [show k + i + 1 = k + (i + 1) by omega]
      refine ⟨fun j hj => ?_, fun j hj => ?_, h2.2.2.trans h1.2.2.2⟩
      · have a := h2.1 j (by omega)
        have b := h1.2.2.1 j (by omega)
        exact ⟨a.1.trans b.1, a.2.trans b.2⟩
      · cases j with
        | zero =>
          rw [(h2.1 (k + i + 0) (by omega)).1]
          exact h1.1
        | succ j =>
          rw [show k + i + (j + 1) = k + (i + 1) + j by omega, h2.2.1 j (by omega), show i + 1 + j = i + (j + 1) by omega]
  have hp : pieces bs.length (8 * k) bs.length = (range k n).map fun j => (8 * j, 8) := by
    rw [hl]; exact pieces_blocks (by omega) hk
  have g := gen n 0 s h (by omega) (by simpa using hk)
  simp only [Nat.add_zero, Nat.zero_add] at g
  intro w
  have hw : w = (forEach ((range k n).map fun j => (8 * j, 8))
      fun (b, m) => writePiece b ((bs.drop (b - 8 * k)).take m)).run s := by
    show (writeAt (8 * k) bs).run s = _
    unfold writeAt; rw [hp]
  rw [hw]
  refine ⟨fun x => ?_, g.1, g.2.2⟩
  unfold State.rdByte
  by_cases hx : 8 * k ≤ x ∧ x < 8 * k + bs.length
  · rw [if_pos hx]
    have hj : x / 8 = k + (x / 8 - k) := by omega
    rw [hj, g.2.1 (x / 8 - k) (by omega), ofBytes_byte]
    simp only [List.getD_eq_getElem?_getD]
    rw [List.getElem?_take, if_pos (by omega), List.getElem?_drop]
    congr 2
    omega
  · rw [if_neg hx, (g.1 (x / 8) (by omega)).1]

end Sys2Proof.Machine
end

