-- ==== Sys2Proof/Laws/PerInstr.lean ====
section
/-! SUPPORT. What holds of the operands of every command, one lemma per constructor: a command of a unit names one of the
units that R446 numbers. -/
namespace Sys2Proof.Laws.Fields

/-- A unit that the command names has a number below 176 (R446). -/
def Statement (i : Instr) : Prop := ∀ u, i.unit = some u → u.num < 176

theorem num_lt (u : UnitId) : u.num < 176 := by
  cases u <;> simp only [UnitId.num] <;> omega

theorem nop (u : UnitId) (f : S1) : Statement (.nop u f) := fun x _ => num_lt x
theorem waittok (u : UnitId) (f : S1) : Statement (.waittok u f) := fun x _ => num_lt x
theorem waittokN (u : UnitId) (f : S2T) : Statement (.waittokN u f) := fun x _ => num_lt x
theorem tokenWaitSatisfied (u : UnitId) : Statement (.tokenWaitSatisfied u) := fun x _ => num_lt x
theorem tokenTimeout (c : Fin 64) : Statement (.tokenTimeout c) := fun u _ => num_lt u
theorem sigtok (u : UnitId) (f : S1) : Statement (.sigtok u f) := fun x _ => num_lt x
theorem sigtokR (u : UnitId) (f : S2T) : Statement (.sigtokR u f) := fun x _ => num_lt x
theorem sigtokRelease (u : UnitId) : Statement (.sigtokRelease u) := fun x _ => num_lt x
theorem fence (u : UnitId) (f : S1) : Statement (.fence u f) := fun x _ => num_lt x
theorem lfence (u : UnitId) (f : S1) : Statement (.lfence u f) := fun x _ => num_lt x
theorem ret (u : UnitId) (f : S1) : Statement (.ret u f) := fun x _ => num_lt x
theorem eret (u : UnitId) (f : S1) : Statement (.eret u f) := fun x _ => num_lt x
theorem cinv (u : UnitId) (f : S1) : Statement (.cinv u f) := fun x _ => num_lt x
theorem alu (u : UnitId) (f : S2R) : Statement (.alu u f) := fun x _ => num_lt x
theorem addi (u : UnitId) (f : S2I) : Statement (.addi u f) := fun x _ => num_lt x
theorem andi (u : UnitId) (f : S2I) : Statement (.andi u f) := fun x _ => num_lt x
theorem ori (u : UnitId) (f : S2I) : Statement (.ori u f) := fun x _ => num_lt x
theorem xori (u : UnitId) (f : S2I) : Statement (.xori u f) := fun x _ => num_lt x
theorem shli (u : UnitId) (f : S2I) : Statement (.shli u f) := fun x _ => num_lt x
theorem shri (u : UnitId) (f : S2I) : Statement (.shri u f) := fun x _ => num_lt x
theorem srai (u : UnitId) (f : S2I) : Statement (.srai u f) := fun x _ => num_lt x
theorem ld (u : UnitId) (sz : LSize) (f : S2I) : Statement (.ld u sz f) := fun x _ => num_lt x
theorem ldu (u : UnitId) (sz : LSize) (f : S2I) : Statement (.ldu u sz f) := fun x _ => num_lt x
theorem st (u : UnitId) (sz : LSize) (f : S2I) : Statement (.st u sz f) := fun x _ => num_lt x
theorem inp (u : UnitId) (f : S2I) : Statement (.inp u f) := fun x _ => num_lt x
theorem outp (u : UnitId) (f : S2I) : Statement (.outp u f) := fun x _ => num_lt x
theorem br (u : UnitId) (f : S2B) : Statement (.br u f) := fun x _ => num_lt x
theorem brLong (u : UnitId) (f : S4B) : Statement (.brLong u f) := fun x _ => num_lt x
theorem j (u : UnitId) (f : S2J) : Statement (.j u f) := fun x _ => num_lt x
theorem call (u : UnitId) (f : S2J) : Statement (.call u f) := fun x _ => num_lt x
theorem loop (u : UnitId) (f : S2L) : Statement (.loop u f) := fun x _ => num_lt x
theorem mfsr (u : UnitId) (f : S2S) : Statement (.mfsr u f) := fun x _ => num_lt x
theorem mtsr (u : UnitId) (f : S2S) : Statement (.mtsr u f) := fun x _ => num_lt x
theorem li (u : UnitId) (f : S4I) : Statement (.li u f) := fun x _ => num_lt x
theorem pld (u : UnitId) (f : S4P) : Statement (.pld u f) := fun x _ => num_lt x
theorem pst (u : UnitId) (f : S4P) : Statement (.pst u f) := fun x _ => num_lt x
theorem loadDataArrival (u : UnitId) (ecc : Ecc) : Statement (.loadDataArrival u ecc) := fun x _ => num_lt x
theorem mergingBufferDrain (u : UnitId) : Statement (.mergingBufferDrain u) := fun x _ => num_lt x
theorem tld (u : UnitId) (f : S4U) : Statement (.tld u f) := fun x _ => num_lt x
theorem tst (u : UnitId) (f : S4U) : Statement (.tst u f) := fun x _ => num_lt x
theorem tzero (u : UnitId) (f : S4U) : Statement (.tzero u f) := fun x _ => num_lt x
theorem trel (u : UnitId) (f : S4U) : Statement (.trel u f) := fun x _ => num_lt x
theorem tsave (u : UnitId) (f : S4U) : Statement (.tsave u f) := fun x _ => num_lt x
theorem trestore (u : UnitId) (f : S4U) : Statement (.trestore u f) := fun x _ => num_lt x
theorem tileRowArrival (c : Fin 64) (ecc : Ecc) : Statement (.tileRowArrival c ecc) := fun u _ => num_lt u
theorem mseat (u : UnitId) (f : S4U) : Statement (.mseat u f) := fun x _ => num_lt x
theorem mma (u : UnitId) (f : S4U) : Statement (.mma u f) := fun x _ => num_lt x
theorem mmaf (u : UnitId) (f : S4U) : Statement (.mmaf u f) := fun x _ => num_lt x
theorem mzero (u : UnitId) (f : S4U) : Statement (.mzero u f) := fun x _ => num_lt x
theorem manchor (u : UnitId) (f : S4U) : Statement (.manchor u f) := fun x _ => num_lt x
theorem mdrain (u : UnitId) (f : S4U) : Statement (.mdrain u f) := fun x _ => num_lt x
theorem mwait (u : UnitId) (f : S4U) : Statement (.mwait u f) := fun x _ => num_lt x
theorem arrayInstructionStart (c : Fin 64) : Statement (.arrayInstructionStart c) := fun u _ => num_lt u
theorem arrayInstructionComplete (c : Fin 64) (k : Nat) : Statement (.arrayInstructionComplete c k) := fun u _ => num_lt u
theorem vsetl (u : UnitId) (f : S2I) : Statement (.vsetl u f) := fun x _ => num_lt x
theorem vectorInteger (u : UnitId) (f : S2V) : Statement (.vectorInteger u f) := fun x _ => num_lt x
theorem vectorFloat (u : UnitId) (f : S2V) : Statement (.vectorFloat u f) := fun x _ => num_lt x
theorem vectorFma (u : UnitId) (f : S2V) : Statement (.vectorFma u f) := fun x _ => num_lt x
theorem vectorFunction (u : UnitId) (f : S2V) : Statement (.vectorFunction u f) := fun x _ => num_lt x
theorem vectorCompare (u : UnitId) (f : S2V) : Statement (.vectorCompare u f) := fun x _ => num_lt x
theorem vectorMaskOp (u : UnitId) (f : S2V) : Statement (.vectorMaskOp u f) := fun x _ => num_lt x
theorem vectorReduction (u : UnitId) (f : S2V) : Statement (.vectorReduction u f) := fun x _ => num_lt x
theorem vcvt (u : UnitId) (f : S2V) : Statement (.vcvt u f) := fun x _ => num_lt x
theorem vmv (u : UnitId) (f : S2V) : Statement (.vmv u f) := fun x _ => num_lt x
theorem vbcast (u : UnitId) (f : S2V) : Statement (.vbcast u f) := fun x _ => num_lt x
theorem vmvx (u : UnitId) (f : S2V) : Statement (.vmvx u f) := fun x _ => num_lt x
theorem vins (u : UnitId) (f : S2V) : Statement (.vins u f) := fun x _ => num_lt x
theorem vmpop (u : UnitId) (f : S2V) : Statement (.vmpop u f) := fun x _ => num_lt x
theorem vld (u : UnitId) (f : S4V) : Statement (.vld u f) := fun x _ => num_lt x
theorem vlds (u : UnitId) (f : S4V) : Statement (.vlds u f) := fun x _ => num_lt x
theorem vldff (u : UnitId) (f : S4V) : Statement (.vldff u f) := fun x _ => num_lt x
theorem vgth (u : UnitId) (f : S4V) : Statement (.vgth u f) := fun x _ => num_lt x
theorem vgthff (u : UnitId) (f : S4V) : Statement (.vgthff u f) := fun x _ => num_lt x
theorem vst (u : UnitId) (f : S4V) : Statement (.vst u f) := fun x _ => num_lt x
theorem vsct (u : UnitId) (f : S4V) : Statement (.vsct u f) := fun x _ => num_lt x
theorem vmld (u : UnitId) (f : S4V) : Statement (.vmld u f) := fun x _ => num_lt x
theorem vmst (u : UnitId) (f : S4V) : Statement (.vmst u f) := fun x _ => num_lt x
theorem tbrow (u : UnitId) (f : S4U) : Statement (.tbrow u f) := fun x _ => num_lt x
theorem tbcol (u : UnitId) (f : S4U) : Statement (.tbcol u f) := fun x _ => num_lt x
theorem updMom (u : UnitId) (f : S4U) : Statement (.updMom u f) := fun x _ => num_lt x
theorem updWgt (u : UnitId) (f : S4U) : Statement (.updWgt u f) := fun x _ => num_lt x
theorem updRow (u : UnitId) (f : S4U) : Statement (.updRow u f) := fun x _ => num_lt x
theorem updStart (c : Fin 64) : Statement (.updStart c) := fun u _ => num_lt u
theorem sq (u : UnitId) (f : S4U) : Statement (.sq u f) := fun x _ => num_lt x
theorem transferStart (c : Fin 64) : Statement (.transferStart c) := fun u _ => num_lt u
theorem streamerRequest (c : Fin 64) (k : Nat) (ecc : Ecc) : Statement (.streamerRequest c k ecc) := fun u _ => num_lt u
theorem transferComplete (c : Fin 64) (k : Nat) : Statement (.transferComplete c k) := fun u _ => num_lt u
theorem cmov (u : UnitId) (f : S2C) : Statement (.cmov u f) := fun x _ => num_lt x
theorem cnull (u : UnitId) (f : S2C) : Statement (.cnull u f) := fun x _ => num_lt x
theorem cnarrow (u : UnitId) (f : S2C) : Statement (.cnarrow u f) := fun x _ => num_lt x
theorem cperm (u : UnitId) (f : S2C) : Statement (.cperm u f) := fun x _ => num_lt x
theorem cget (u : UnitId) (f : S2C) : Statement (.cget u f) := fun x _ => num_lt x
theorem clds (u : UnitId) (f : S2C) : Statement (.clds u f) := fun x _ => num_lt x
theorem csts (u : UnitId) (f : S2C) : Statement (.csts u f) := fun x _ => num_lt x
theorem cclrs (u : UnitId) (f : S2C) : Statement (.cclrs u f) := fun x _ => num_lt x
theorem cmint (u : UnitId) (f : S2C) : Statement (.cmint u f) := fun x _ => num_lt x
theorem wesp (u : UnitId) (f : S2C) : Statement (.wesp u f) := fun x _ => num_lt x
theorem ccall (u : UnitId) (f : S2C) : Statement (.ccall u f) := fun x _ => num_lt x
theorem larm (u : UnitId) (f : S4Q) : Statement (.larm u f) := fun x _ => num_lt x
theorem lwaitb (u : UnitId) (f : S4Q) : Statement (.lwaitb u f) := fun x _ => num_lt x
theorem lwaitbComplete (l : Fin 48) : Statement (.lwaitbComplete l) := fun u _ => num_lt u
theorem beput (u : UnitId) (f : S4Q) : Statement (.beput u f) := fun x _ => num_lt x
theorem icuArbitration : Statement (.icuArbitration) := fun u _ => num_lt u
theorem interruptEntry (n : Fin 4) : Statement (.interruptEntry n) := fun u _ => num_lt u
theorem eoi (a : Agent) (v : Reg32) : Statement (.eoi a v) := fun u _ => num_lt u
theorem swset (a : Agent) (v : Reg32) : Statement (.swset a v) := fun u _ => num_lt u
theorem glitchFilterChange (p : FilterPin) (level : Bool) : Statement (.glitchFilterChange p level) := fun u _ => num_lt u
theorem jobStartBeat : Statement (.jobStartBeat) := fun u _ => num_lt u
theorem outcomeBeat : Statement (.outcomeBeat) := fun u _ => num_lt u
theorem commitBeat : Statement (.commitBeat) := fun u _ => num_lt u
theorem cmtwait (u : UnitId) (f : S2I) : Statement (.cmtwait u f) := fun x _ => num_lt x
theorem stepScalarsReady : Statement (.stepScalarsReady) := fun u _ => num_lt u
theorem prereport (a : Agent) (v : Reg32) : Statement (.prereport a v) := fun u _ => num_lt u
theorem stop : Statement (.stop) := fun u _ => num_lt u
theorem stopReceived (l : Fin 48) : Statement (.stopReceived l) := fun u _ => num_lt u
theorem jobIrqDeadline : Statement (.jobIrqDeadline) := fun u _ => num_lt u
theorem beatEvaluation : Statement (.beatEvaluation) := fun u _ => num_lt u
theorem slot0HeaderReceived (l : Fin 48) (h : Slot0Hdr) : Statement (.slot0HeaderReceived l h) := fun u _ => num_lt u
theorem holdoverStart : Statement (.holdoverStart) := fun u _ => num_lt u
theorem holdoverTimeout : Statement (.holdoverTimeout) := fun u _ => num_lt u
theorem refLost : Statement (.refLost) := fun u _ => num_lt u
theorem refReturn : Statement (.refReturn) := fun u _ => num_lt u
theorem beatChainInput (count : BitVec 48) : Statement (.beatChainInput count) := fun u _ => num_lt u
theorem laneLock (l : Fin 48) : Statement (.laneLock l) := fun u _ => num_lt u
theorem trainFail (l : Fin 48) : Statement (.trainFail l) := fun u _ => num_lt u
theorem laneLockLoss (l : Fin 48) : Statement (.laneLockLoss l) := fun u _ => num_lt u
theorem idRecordReceived (l : Fin 48) (r : IdRecord) : Statement (.idRecordReceived l r) := fun u _ => num_lt u
theorem slotStart (l : Fin 48) : Statement (.slotStart l) := fun u _ => num_lt u
theorem slotHeaderReceived (l : Fin 48) (h : SlotHdr) : Statement (.slotHeaderReceived l h) := fun u _ => num_lt u
theorem slotReceiveComplete (l : Fin 48) (payload : List Byte) : Statement (.slotReceiveComplete l payload) := fun u _ => num_lt u
theorem flitError (l : Fin 48) (touchesScheduled : Bool) (e : FlitErr) : Statement (.flitError l touchesScheduled e) := fun u _ => num_lt u
theorem bePacketForward (l : Fin 48) (vc : Bool) : Statement (.bePacketForward l vc) := fun u _ => num_lt u
theorem bePacketDelivery (l : Fin 48) (p : BePacket) : Statement (.bePacketDelivery l p) := fun u _ => num_lt u
theorem beAcknowledgement (a : BeAck) : Statement (.beAcknowledgement a) := fun u _ => num_lt u
theorem bowSeal : Statement (.bowSeal) := fun u _ => num_lt u
theorem bowReceive (l : Fin 48) (payload : List Byte) : Statement (.bowReceive l payload) := fun u _ => num_lt u
theorem bowSettle : Statement (.bowSettle) := fun u _ => num_lt u
theorem reelReceive (l : Fin 48) (payload : List Byte) : Statement (.reelReceive l payload) := fun u _ => num_lt u
theorem bridgeWindowOpen (n : Fin 8) : Statement (.bridgeWindowOpen n) := fun u _ => num_lt u
theorem bridgeDataFrame (n : Fin 8) (fr : BridgeFrame) : Statement (.bridgeDataFrame n fr) := fun u _ => num_lt u
theorem bridgeCreditFrame (n : Fin 8) (fr : BridgeFrame) : Statement (.bridgeCreditFrame n fr) := fun u _ => num_lt u
theorem bridgeNakFrame (n : Fin 8) (fr : BridgeFrame) : Statement (.bridgeNakFrame n fr) := fun u _ => num_lt u
theorem bridgeFrameCrcFail (n : Fin 8) : Statement (.bridgeFrameCrcFail n) := fun u _ => num_lt u
theorem bridgeStopFrame (n : Fin 8) (fr : BridgeFrame) : Statement (.bridgeStopFrame n fr) := fun u _ => num_lt u
theorem bridgeStopAckFrame (n : Fin 8) (fr : BridgeFrame) : Statement (.bridgeStopAckFrame n fr) := fun u _ => num_lt u
theorem bridgeStopRepeat (n : Fin 8) : Statement (.bridgeStopRepeat n) := fun u _ => num_lt u
theorem bridgeWindowEnd (n : Fin 8) : Statement (.bridgeWindowEnd n) := fun u _ => num_lt u
theorem bridgeScanDone (n : Fin 8) : Statement (.bridgeScanDone n) := fun u _ => num_lt u
theorem bridgeConversion (n : Fin 8) : Statement (.bridgeConversion n) := fun u _ => num_lt u
theorem bridgeReturnStart (n : Fin 8) : Statement (.bridgeReturnStart n) := fun u _ => num_lt u
theorem bankAdmission (b : BankId) : Statement (.bankAdmission b) := fun u _ => num_lt u
theorem bankTurn (b : BankId) (ecc : Ecc) : Statement (.bankTurn b ecc) := fun u _ => num_lt u
theorem scrub (addr : BitVec 44) (ecc : Ecc) : Statement (.scrub addr ecc) := fun u _ => num_lt u
theorem cxlMemAccess (p : Fin 4) (dpa : Nat) (op : MemOp) : Statement (.cxlMemAccess p dpa op) := fun u _ => num_lt u
theorem cxlLinkReset (p : Fin 4) : Statement (.cxlLinkReset p) := fun u _ => num_lt u
theorem registerWrite (a : Agent) (off : BitVec 24) (v : Reg32) : Statement (.registerWrite a off v) := fun u _ => num_lt u
theorem commit (a : Agent) (page : BitVec 12) (v : Reg32) : Statement (.commit a page v) := fun u _ => num_lt u
theorem cntLoRead (a : Agent) : Statement (.cntLoRead a) := fun u _ => num_lt u
theorem doorbell (p : Fin 4) (v : Reg32) : Statement (.doorbell p v) := fun u _ => num_lt u
theorem mback (p : Fin 4) (v : Reg32) : Statement (.mback p v) := fun u _ => num_lt u
theorem mailboxSlotWrite (p : Fin 4) (off : BitVec 19) (data : List Byte) : Statement (.mailboxSlotWrite p off data) := fun u _ => num_lt u
theorem mailboxNop (p : Fin 4) : Statement (.mailboxNop p) := fun u _ => num_lt u
theorem status (p : Fin 4) : Statement (.status p) := fun u _ => num_lt u
theorem attest (p : Fin 4) : Statement (.attest p) := fun u _ => num_lt u
theorem attestDone (p : Fin 4) : Statement (.attestDone p) := fun u _ => num_lt u
theorem jobLoad (p : Fin 4) : Statement (.jobLoad p) := fun u _ => num_lt u
theorem figureFetchDone (p : Fin 4) : Statement (.figureFetchDone p) := fun u _ => num_lt u
theorem jobStart (p : Fin 4) : Statement (.jobStart p) := fun u _ => num_lt u
theorem jobAbort (p : Fin 4) : Statement (.jobAbort p) := fun u _ => num_lt u
theorem resetPartition (p : Fin 4) : Statement (.resetPartition p) := fun u _ => num_lt u
theorem partitionAssign (p : Fin 4) : Statement (.partitionAssign p) := fun u _ => num_lt u
theorem setCoordinate (p : Fin 4) : Statement (.setCoordinate p) := fun u _ => num_lt u
theorem linkEnable (p : Fin 4) : Statement (.linkEnable p) := fun u _ => num_lt u
theorem linkPersonality (p : Fin 4) : Statement (.linkPersonality p) := fun u _ => num_lt u
theorem keyInstall (p : Fin 4) : Statement (.keyInstall p) := fun u _ => num_lt u
theorem keyInstallDone (p : Fin 4) : Statement (.keyInstallDone p) := fun u _ => num_lt u
theorem debugUnlock (p : Fin 4) : Statement (.debugUnlock p) := fun u _ => num_lt u
theorem fuseProgram (p : Fin 4) : Statement (.fuseProgram p) := fun u _ => num_lt u
theorem fuseProgramDone (p : Fin 4) (readBackOk : Bool) : Statement (.fuseProgramDone p readBackOk) := fun u _ => num_lt u
theorem freeze (p : Fin 4) : Statement (.freeze p) := fun u _ => num_lt u
theorem thaw (p : Fin 4) : Statement (.thaw p) := fun u _ => num_lt u
theorem inputRise : Statement (.inputRise) := fun u _ => num_lt u
theorem inputRange (mv : BitVec 16) : Statement (.inputRange mv) := fun u _ => num_lt u
theorem inputLoss (mv : BitVec 16) : Statement (.inputLoss mv) := fun u _ => num_lt u
theorem railFault : Statement (.railFault) := fun u _ => num_lt u
theorem pwrOk (strap : BitVec 2) : Statement (.pwrOk strap) := fun u _ => num_lt u
theorem devrst (a : Agent) (v : Reg32) : Statement (.devrst a v) := fun u _ => num_lt u
theorem fuseLoad : Statement (.fuseLoad) := fun u _ => num_lt u
theorem pwrSample (tj : BitVec 12) (iin : BitVec 16) : Statement (.pwrSample tj iin) := fun u _ => num_lt u
theorem bootGo (a : Agent) (v : Reg32) : Statement (.bootGo a v) := fun u _ => num_lt u
theorem bundleVerify : Statement (.bundleVerify) := fun u _ => num_lt u
theorem dramTrainingDone (badStack : Option (Fin 16)) (badFmc : Option (Fin 16)) : Statement (.dramTrainingDone badStack badFmc) := fun u _ => num_lt u
theorem claim (a : Agent) : Statement (.claim a) := fun u _ => num_lt u
theorem done (a : Agent) (v : Reg32) : Statement (.done a v) := fun u _ => num_lt u
theorem xptestWrite (a : Agent) (v : Reg32) : Statement (.xptestWrite a v) := fun u _ => num_lt u
theorem xptestRead (a : Agent) (v : Reg32) : Statement (.xptestRead a v) := fun u _ => num_lt u
theorem callerWdog (n : Fin 4) : Statement (.callerWdog n) := fun u _ => num_lt u
theorem wdkick (a : Agent) (n : Fin 4) (v : Reg32) : Statement (.wdkick a n v) := fun u _ => num_lt u
theorem recpost (a : Agent) (c : Fin 64) (v : Reg32) : Statement (.recpost a c v) := fun u _ => num_lt u
theorem post (a : Agent) (v : Reg32) : Statement (.post a v) := fun u _ => num_lt u
theorem recordAdmission : Statement (.recordAdmission) := fun u _ => num_lt u
theorem spill : Statement (.spill) := fun u _ => num_lt u
theorem rateLimitRefill : Statement (.rateLimitRefill) := fun u _ => num_lt u
theorem rddata (a : Agent) : Statement (.rddata a) := fun u _ => num_lt u
theorem sprddata (a : Agent) : Statement (.sprddata a) := fun u _ => num_lt u
theorem snpdata (a : Agent) : Statement (.snpdata a) := fun u _ => num_lt u
theorem pmdata (a : Agent) : Statement (.pmdata a) := fun u _ => num_lt u
theorem snapTrigFire (a : Agent) (page : BitVec 12) (v : Reg32) : Statement (.snapTrigFire a page v) := fun u _ => num_lt u
theorem snapshot (page : BitVec 12) : Statement (.snapshot page) := fun u _ => num_lt u
theorem dbgNop (p : DbgPort) (w : DbgWord) : Statement (.dbgNop p w) := fun u _ => num_lt u
theorem halt (p : DbgPort) (w : DbgWord) : Statement (.halt p w) := fun u _ => num_lt u
theorem resume (p : DbgPort) (w : DbgWord) : Statement (.resume p w) := fun u _ => num_lt u
theorem step (p : DbgPort) (w : DbgWord) : Statement (.step p w) := fun u _ => num_lt u
theorem rdreg (p : DbgPort) (w : DbgWord) : Statement (.rdreg p w) := fun u _ => num_lt u
theorem wrreg (p : DbgPort) (w : DbgWord) : Statement (.wrreg p w) := fun u _ => num_lt u
theorem rdp (p : DbgPort) (w : DbgWord) : Statement (.rdp p w) := fun u _ => num_lt u
theorem wrp (p : DbgPort) (w : DbgWord) : Statement (.wrp p w) := fun u _ => num_lt u
theorem rdd (p : DbgPort) (w : DbgWord) : Statement (.rdd p w) := fun u _ => num_lt u
theorem wrd (p : DbgPort) (w : DbgWord) : Statement (.wrd p w) := fun u _ => num_lt u
theorem rdio (p : DbgPort) (w : DbgWord) : Statement (.rdio p w) := fun u _ => num_lt u
theorem wrio (p : DbgPort) (w : DbgWord) : Statement (.wrio p w) := fun u _ => num_lt u
theorem setbp (p : DbgPort) (w : DbgWord) : Statement (.setbp p w) := fun u _ => num_lt u
theorem setwp (p : DbgPort) (w : DbgWord) : Statement (.setwp p w) := fun u _ => num_lt u
theorem syshalt (p : DbgPort) (w : DbgWord) : Statement (.syshalt p w) := fun u _ => num_lt u
theorem sysresume (p : DbgPort) (w : DbgWord) : Statement (.sysresume p w) := fun u _ => num_lt u
theorem rdstate (p : DbgPort) (w : DbgWord) : Statement (.rdstate p w) := fun u _ => num_lt u
theorem haltReceived (l : Fin 48) (h : BitVec 48) (r : BitVec 48) : Statement (.haltReceived l h r) := fun u _ => num_lt u
theorem syshaltBeat : Statement (.syshaltBeat) := fun u _ => num_lt u
theorem sysresumeBeat : Statement (.sysresumeBeat) := fun u _ => num_lt u
theorem tapReset : Statement (.tapReset) := fun u _ => num_lt u
theorem extest (pins : BitVec 32) : Statement (.extest pins) := fun u _ => num_lt u
theorem idcode : Statement (.idcode) := fun u _ => num_lt u
theorem samplePreload (pins : BitVec 32) : Statement (.samplePreload pins) := fun u _ => num_lt u
theorem bypass (ir : BitVec 8) : Statement (.bypass ir) := fun u _ => num_lt u
theorem smbusBlockWrite (data : List Byte) (pec : Option Byte) : Statement (.smbusBlockWrite data pec) := fun u _ => num_lt u
theorem smbusBlockRead : Statement (.smbusBlockRead) := fun u _ => num_lt u
theorem alertResponse : Statement (.alertResponse) := fun u _ => num_lt u
theorem mchFrame (data : List Byte) : Statement (.mchFrame data) := fun u _ => num_lt u
theorem stepStart : Statement (.stepStart) := fun u _ => num_lt u
theorem badOpcode (p : Fin 4) : Statement (.badOpcode p) := fun u _ => num_lt u
theorem undefinedInstruction (u : UnitId) (w : BitVec 56) : Statement (.undefinedInstruction u w) := fun x _ => num_lt x
theorem vectorDataArrival (c : Fin 64) (ecc : Ecc) : Statement (.vectorDataArrival c ecc) := fun u _ => num_lt u
theorem prefetchFill (c : Fin 64) (ecc : Ecc) : Statement (.prefetchFill c ecc) := fun u _ => num_lt u
theorem seqWaittokTimeout (l : Fin 48) : Statement (.seqWaittokTimeout l) := fun u _ => num_lt u
theorem deviceResetAfterStop : Statement (.deviceResetAfterStop) := fun u _ => num_lt u
theorem receiveSlotPasses (l : Fin 48) : Statement (.receiveSlotPasses l) := fun u _ => num_lt u
theorem cxlLinkUp (p : Fin 4) : Statement (.cxlLinkUp p) := fun u _ => num_lt u

end Sys2Proof.Laws.Fields
end

