-- ==== Sys2Proof/Tests/Slice0.lean ====
section
/-! SUPPORT. Tests: small states that meet the hypotheses of the statements, each with what one command makes of it by the
spec's rules, and one ill-formed command for each check of WellFormed. -/
namespace Sys2Proof.Tests
open Sys2Proof Sys2Proof.Machine
set_option Elab.async false

/-! ### Helpers -/

/-- The state that a few effects leave of the state after reset. -/
def mk (ps : List Prog) : State := (block ps).run State.reset

/-- The next state of a command meets `p`. -/
def after (o : Out) (p : State → Bool) : Bool :=
  match o with
  | .next t => p t
  | _ => false

/-- The next state of a command. -/
def next (o : Out) : State :=
  match o with
  | .next t => t
  | _ => State.reset

/-- A command answers this very state. -/
def stays (o : Out) (s : State) : Bool := after o fun t => t = s

/-- Nothing but the pieces `ps` differs. -/
def keeps (ps : List Piece) (s t : State) : Bool :=
  (ps.contains .mem || t.mem = s.mem) && (ps.contains .xp || t.xp = s.xp) && (ps.contains .io || t.io = s.io)
    && (ps.contains .shadow || t.shadow = s.shadow) && (ps.contains .caps || t.caps = s.caps)
    && (ps.contains .regs || t.regs = s.regs) && (ps.contains .toks || t.toks = s.toks)
    && (ps.contains .beat || t.dev.beat = s.dev.beat) && (ps.contains .harts || t.dev.harts = s.dev.harts)
    && (ps.contains .links || t.dev.links = s.dev.links) && (ps.contains .bridges || t.dev.bridges = s.dev.bridges)
    && (ps.contains .parts || t.dev.parts = s.dev.parts) && (ps.contains .banks || t.dev.banks = s.dev.banks)
    && (ps.contains .fuses || t.dev.fuses = s.dev.fuses) && (ps.contains .job || t.dev.job = s.dev.job)
    && (ps.contains .stop || t.dev.stop = s.dev.stop) && (ps.contains .recd || t.dev.recd = s.dev.recd)
    && (ps.contains .icu || t.dev.icu = s.dev.icu) && (ps.contains .dbg || t.dev.dbg = s.dev.dbg)
    && (ps.contains .pwr || t.dev.pwr = s.dev.pwr)
    && (ps.contains .out || (t.dev.readData = s.dev.readData && t.dev.readPoison = s.dev.readPoison
          && t.dev.lastOut = s.dev.lastOut))
    && (ps.contains .free || t.dev.free = s.dev.free) && t.pending = s.pending

/-- The error of page `page` stands in ERR_STAT and is the last record offered. -/
def told (s t : State) (page : Nat) (e : ErrCode) : Bool :=
  t.fld (ioa page 0x14) 15 0 = e.code && t.dev.recd.offers.length = s.dev.recd.offers.length + 1
    && (match t.dev.recd.offers.getLast? with | some o => o.page = page && o.code = e.code | none => false)

/-- Nothing of a state is damaged whose check bits are those of ordinary writes. -/
theorem sound {s : State} (h : s.xp = []) : s.undamaged := State.undamaged_of_xp h

/-- A cached leaf that maps the GiB of the stage memories onto itself (R166, R168). -/
def leafS : TlbEntry := { page := 2048, level := 2, entry := 0x2000000000F }

/-- Unit `u` runs at PC 0x10 with a PROGRAM capability in c15. -/
def running (u : Nat) (ps : List Prog) : State :=
  mk ([modHart u fun h => { h with run := true, pc := 0x10 },
       (Eff.cap (u * 512 + 15) (mkCap 0 otProgram 7 0x2000 0)).prog] ++ ps)

/-- A form S4-U of the given shape; `o` holds bits 37:14 in their places (R45, R49). -/
def u4 (rows rb o : Nat) : S4U :=
  ⟨BitVec.ofNat 7 (rows - 1), BitVec.ofNat 4 (rb / 16 - 1), false, 0, BitVec.ofNat 24 (o / 2 ^ 14), 0⟩

/-- A cached leaf that maps the first GiB of stacked memory onto itself. -/
def leafD : TlbEntry := { page := 0, level := 2, entry := 0x0F }

/-- Translation tables at the root 0 that map the first GiB of the stage memories onto itself (R165, R166). -/
def ptt : Prog := block [writeAt 32 (toBytes 8 0x1001), writeAt 0x1000 (toBytes 8 0x2000000000F)]

/-! ### Scalar instructions, tokens and capabilities -/

/-- Core 0 with 7 in s3 and -2 in s5. -/
def coreA : State := running 0 [setReg 0 3 7, setReg 0 5 (BitVec.ofInt 64 (-2))]

/-- R47: SUB, 7 - (-2) = 9 in s4. -/
theorem test_alu_sub :
    coreA.Inv ∧ coreA.issues 0 2 = true ∧
      after (exec (.alu (.core 0) ⟨5, 3, 1, 4, false⟩) coreA) (fun t =>
        t.reg 0 4 = 9 && (t.hart 0).pc = 0x12 && keeps [.regs, .harts] coreA t) = true := by
  unfold State.Inv; decide +kernel

/-- R45: W = 1 works on bits 31:0 and sign-extends: 7 - (2^32 - 2) = 9 in 32 bits; a write to s0 is discarded (R50). -/
theorem test_alu_word_s0 :
    after (exec (.alu (.core 0) ⟨3, 5, 7, 6, true⟩) coreA) (fun t => t.reg 0 6 = BitVec.ofInt 64 (-1)) = true ∧
      after (exec (.alu (.core 0) ⟨5, 3, 0, 0, false⟩) coreA) (fun t => t.reg 0 0 = 0 && t.regs = coreA.regs) = true := by
  decide +kernel

/-- R47: ADDI with the most negative immediate, SHLI by 63, LI with SUB 1, and NOP. -/
theorem test_immediates :
    coreA.issues 0 4 = true ∧ coreA.issues 0 1 = true ∧
      after (exec (.addi (.core 0) ⟨0x200, 3, 4⟩) coreA) (fun t => t.reg 0 4 = BitVec.ofInt 64 (7 - 512)) = true ∧
      after (exec (.andi (.core 0) ⟨0x3FE, 3, 4⟩) coreA) (fun t => t.reg 0 4 = 6) = true ∧
      after (exec (.ori (.core 0) ⟨8, 3, 4⟩) coreA) (fun t => t.reg 0 4 = 15) = true ∧
      after (exec (.xori (.core 0) ⟨0x3FF, 3, 4⟩) coreA) (fun t => t.reg 0 4 = BitVec.ofInt 64 (-8)) = true ∧
      after (exec (.shli (.core 0) ⟨63, 3, 4⟩) coreA) (fun t => t.reg 0 4 = BitVec.ofNat 64 (2 ^ 63)) = true ∧
      after (exec (.shri (.core 0) ⟨1, 5, 4⟩) coreA) (fun t => t.reg 0 4 = BitVec.ofNat 64 (2 ^ 63 - 1)) = true ∧
      after (exec (.srai (.core 0) ⟨1, 5, 4⟩) coreA) (fun t => t.reg 0 4 = BitVec.ofInt 64 (-1)) = true ∧
      after (exec (.li (.core 0) ⟨3, 0, 0x80000000, 0⟩) coreA) (fun t =>
        t.reg 0 3 = BitVec.ofInt 64 (-2147483648) && (t.hart 0).pc = 0x14) = true ∧
      after (exec (.li (.core 0) ⟨3, 0, 1, 1⟩) coreA) (fun t => t.reg 0 3 = BitVec.ofNat 64 (2 ^ 32 + 7)) = true ∧
      after (exec (.nop (.core 0) ⟨0⟩) coreA) (fun t => (t.hart 0).pc = 0x11 && keeps [.harts] coreA t) = true := by
  decide +kernel

/-- R47: branches taken and not taken; CALL writes the next address to s31, and RET goes to s31. -/
theorem test_branches :
      after (exec (.br (.core 0) ⟨0xFFE, 5, 2⟩) coreA) (fun t => (t.hart 0).pc = 0x0E) = true ∧
      after (exec (.br (.core 0) ⟨0xFFE, 3, 2⟩) coreA) (fun t => (t.hart 0).pc = 0x12) = true ∧
      after (exec (.brLong (.core 0) ⟨3, 5, 4, 0x100, 0, 0⟩) coreA) (fun t => (t.hart 0).pc = 0x110) = true ∧
      after (exec (.brLong (.core 0) ⟨3, 5, 2, 0x100, 0, 0⟩) coreA) (fun t => (t.hart 0).pc = 0x14) = true ∧
      after (exec (.j (.core 0) ⟨0xFFFF0⟩) coreA) (fun t => (t.hart 0).pc = 0) = true ∧
      after (exec (.call (.core 0) ⟨0x20⟩) coreA) (fun t => (t.hart 0).pc = 0x30 && t.reg 0 31 = 0x12) = true ∧
      after (exec (.ret (.core 0) ⟨0⟩) (running 0 [setReg 0 31 0x40])) (fun t => (t.hart 0).pc = 0x40) = true := by
  decide +kernel

/-- The conditions of those branches. -/
theorem test_branch_conditions :
    shortCond 2 (coreA.reg 0 5) ∧ ¬shortCond 2 (coreA.reg 0 3) ∧ longCond 4 (coreA.reg 0 3) (coreA.reg 0 5) ∧
      ¬longCond 3 (coreA.reg 0 5) (coreA.reg 0 3) := by
  refine ⟨?_, ?_, ?_, ?_⟩
  · exact (by decide +kernel : (coreA.reg 0 5).slt 0 = true)
  · exact (by decide +kernel : ¬(coreA.reg 0 3).slt 0 = true)
  · exact (by decide +kernel : (coreA.reg 0 3).ult (coreA.reg 0 5) = true)
  · exact (by decide +kernel : ¬¬(coreA.reg 0 5).slt (coreA.reg 0 3) = true)

/-- R60: LOOP with 7 in s3 opens level 0 over four syllables; with 0 in s2 it skips them. R51: MTSR and MFSR of LS0. -/
theorem test_loop_sr :
    after (exec (.loop (.core 0) ⟨4, 3, 0⟩) coreA) (fun t =>
        (t.hart 0).ld = 1 && (t.hart 0).lsv 0 = 0x12 && (t.hart 0).lev 0 = 0x16 && (t.hart 0).lcv 0 = 7
          && (t.hart 0).pc = 0x12) = true ∧
      after (exec (.loop (.core 0) ⟨4, 2, 0⟩) coreA) (fun t => (t.hart 0).ld = 0 && (t.hart 0).pc = 0x16) = true ∧
      coreA.readSr 0 0x10 = some 0x8000 ∧ coreA.vecBusy 0 = false ∧ srWritable 0 0x10 = true ∧ srValueOk 0x10 7 = true ∧
      after (exec (.mfsr (.core 0) ⟨0x10, 0, 4, 0⟩) coreA) (fun t => t.reg 0 4 = 0x8000) = true ∧
      after (exec (.mtsr (.core 0) ⟨0x10, 0, 3, 0⟩) coreA) (fun t => (t.hart 0).vl = 7) = true := by
  decide +kernel

/-- A level that ends at 0x12 with count 2, and with count 1. -/
def loopH (c : Nat) : Hart := { pc := 0x10, ls := [(0, 8)], le := [(0, 0x12)], lc := [(0, BitVec.ofNat 32 c)], ld := 1 }

/-- R61: at the end of the body the count falls and the PC returns, or the level closes. R62: a target outside closes it. -/
theorem test_loop_end :
    (loopH 2).lev 0 = 0x12 ∧ (loopH 2).lcv 0 = 2 ∧ (seqPc 0 2 (loopH 2)).pc = 8 ∧ (seqPc 0 2 (loopH 2)).lcv 0 = 1 ∧
      (loopH 1).lcv 0 = 1 ∧ (seqPc 0 2 (loopH 1)).pc = 0x12 ∧ (seqPc 0 2 (loopH 1)).ld = 0 ∧
      (seqPc 0 1 (loopH 2)).pc = 0x11 ∧ (jumpPc 0 0x20 (loopH 2)).ld = 0 ∧ (jumpPc 0 9 (loopH 2)).ld = 1 := by
  decide +kernel

/-- Core 0 with 2 in token 3. -/
def coreT : State := running 0 [setTok 0 3 2, setReg 0 3 1]

/-- R66-R68: waits that are met and not met, and signals. -/
theorem test_tokens :
    coreT.Inv ∧ coreT.issues 0 1 = true ∧ coreT.issues 0 2 = true ∧ tokOk 0 3 = true ∧ (coreT.hart 0).mbuf = [] ∧
      after (exec (.waittok (.core 0) ⟨3⟩) coreT) (fun t => t.tok 0 3 = 1 && (t.hart 0).pc = 0x11) = true ∧
      after (exec (.waittok (.core 0) ⟨4⟩) coreT) (fun t => (t.hart 0).wait.isSome && (t.hart 0).pc = 0x10) = true ∧
      after (exec (.waittokN (.core 0) ⟨3, 2, 0, 0, 0⟩) coreT) (fun t => t.tok 0 3 = 0 && (t.hart 0).pc = 0x12) = true ∧
      after (exec (.waittokN (.core 0) ⟨3, 3, 0, 0, 0⟩) coreT) (fun t => (t.hart 0).wait.isSome) = true ∧
      after (exec (.sigtok (.core 0) ⟨3⟩) coreT) (fun t => (t.hart 0).rels = [⟨0, 3, 1⟩]) = true ∧
      after (exec (.sigtokR (.core 0) ⟨3, 15, 0, 3, 0⟩) coreT) (fun t => (t.hart 0).rels = [⟨1, 3, 15⟩]) = true := by
  unfold State.Inv; decide +kernel

/-- R68: a release of 13 brings token 3 to 15. R67: a wait that its token now satisfies ends. -/
theorem test_token_events :
    (running 0 []).postsDone 0 = true ∧
      after (exec (.sigtokRelease (.core 0)) (running 0 [setTok 0 3 2, modHart 0 fun h => { h with rels := [⟨0, 3, 13⟩] }]))
        (fun t => t.tok 0 3 = 15 && (t.hart 0).rels = []) = true ∧
      (let s := running 0 [setTok 0 3 1, modHart 0 fun h => { h with wait := some ⟨3, 1, 0, .waittok (.core 0) ⟨3⟩⟩ }]
       ((modHart 0 fun h => { h with wait := none }).run s).issues 0 1 = true ∧
       after (exec (.tokenWaitSatisfied (.core 0)) s) (fun t =>
        t.tok 0 3 = 0 && (t.hart 0).wait = none && (t.hart 0).pc = 0x11) = true) := by
  decide +kernel

/-- Core 0 with a SYSTEM data capability in c4, a Store capability in c5, the range 0x1000, 0x100 in s6 and s7, and the
fields of a minted capability in s9. -/
def coreC : State :=
  running 0
    [setCreg 0 4 (mkCap 0 otData (pR + pW + pSys) 0x10000 0), setCreg 0 5 (mkCap 0 otStore 3 256 0),
     setReg 0 6 0x1000, setReg 0 7 0x100, setReg 0 8 0x2000, setReg 0 9 (BitVec.ofNat 64 (2 ^ 45 + 64)), setReg 0 10 16,
     setStore 0 16 (mkCap 0 otData 1 8 8)]

/-- R377-R379: the instructions on capability registers. -/
theorem test_capabilities :
    coreC.Inv ∧ coreC.issues 0 2 = true ∧ coreC.capsClean 0 [capIx 4] = true ∧
      after (exec (.cmov (.core 0) ⟨0, 6, 4, 0, 0, 0⟩) coreC) (fun t => t.creg 0 6 = coreC.creg 0 4) = true ∧
      after (exec (.cnull (.core 0) ⟨0, 4, 0, 0, 1, 0⟩) coreC) (fun t => t.creg 0 4 = 0) = true ∧
      after (exec (.cnarrow (.core 0) ⟨6, 6, 4, 0, 0, 0⟩) coreC) (fun t =>
        (t.creg 0 6).base = 0x1000 && (t.creg 0 6).len = 0x100 && (t.creg 0 6).valid) = true ∧
      after (exec (.cperm (.core 0) ⟨10, 6, 4, 0, 0, 0⟩) coreC) (fun t => (t.creg 0 6).perm = pSys) = true ∧
      coreC.mayEnter 0 0 0 = true ∧
      after (exec (.cmint (.core 0) ⟨8, 6, 4, 0, 0, 0⟩) coreC) (fun t =>
        (t.creg 0 6).base = 0x2000 && (t.creg 0 6).len = 64 && (t.creg 0 6).perm = 1 && (t.creg 0 6).otype = 0) = true ∧
      after (exec (.cget (.core 0) ⟨20, 0, 4, 0, 1, 0⟩) coreC) (fun t => t.reg 0 20 = 0x10000) = true ∧
      after (exec (.wesp (.core 0) ⟨6, 0, 4, 0, 1, 0⟩) coreC) (fun t => (t.hart 0).esp = 0x1000) = true := by
  unfold State.Inv; decide +kernel

/-- R373, R378: entry 16 of the Store is loaded, written and cleared. -/
theorem test_store :
    coreC.capsClean 0 [capIx 5] = true ∧ coreC.capsClean 0 [16] = true ∧
      after (exec (.clds (.core 0) ⟨10, 6, 5, 0, 0, 0⟩) coreC) (fun t => (t.creg 0 6).base = 8 && (t.creg 0 6).valid) = true ∧
      after (exec (.csts (.core 0) ⟨10, 4, 5, 0, 1, 0⟩) coreC) (fun t => t.store 0 16 = coreC.creg 0 4) = true ∧
      after (exec (.cclrs (.core 0) ⟨10, 0, 5, 0, 2, 0⟩) coreC) (fun t => t.store 0 16 = 0) = true := by
  decide +kernel

/-- Core 0 with an ENTRY and a RETURN capability of its own domain in c6 and c7. -/
def coreX : State :=
  running 0 [setCreg 0 6 (mkCap 0 otEntry pX 0x100 0x80), setCreg 0 7 (mkCap 0 otReturn pX 0x100 0), setReg 0 31 0x40]

/-- R380: CCALL goes to the entry's base and back to s31. -/
theorem test_ccall :
    coreX.Inv ∧ coreX.issues 0 2 = true ∧ coreX.capsClean 0 [capIx 6, capIx 7, capIx 15] = true ∧
      coreX.capsClean 0 [coreX.home 0 0] = true ∧
      after (exec (.ccall (.core 0) ⟨0, 6, 0, 0, 0, 0⟩) coreX) (fun t =>
        (t.hart 0).pc = 0x80 && t.reg 0 31 = 0x12 && (t.creg 0 13).otype = otReturn && (t.creg 0 15).base = 0x80) = true ∧
      after (exec (.ccall (.core 0) ⟨0, 7, 0, 0, 0, 0⟩) coreX) (fun t =>
        (t.hart 0).pc = 0x40 && t.creg 0 13 = 0 && (t.creg 0 15).otype = otProgram) = true := by
  unfold State.Inv; decide +kernel

/-- Core 0 can enter its handler at 0x200: Store entry 14 covers its stage memory and 15 names the handler. -/
def coreE (ps : List Prog) : State :=
  running 0
    ([setStore 0 14 (mkCap 0 otData 3 0x1000 0x20000000000), setStore 0 15 (mkCap 0 otProgram 7 0x2000 0x200),
      modHart 0 fun h => { h with esp := 0x1000, tlb := [leafS] }] ++ ps)

/-- The frame of `coreE` lies in its own stage memory. -/
theorem test_can_enter : (coreE []).Inv ∧ (coreE []).issues 0 1 = true ∧ canEnter (coreE []) 0 0x20000000FC0 := by
  unfold State.Inv canEnter; decide +kernel

/-- R46, R382: an opcode that no table assigns enters the handler with cause 0x01; a sequencer stops. -/
theorem test_illegal :
    assigned 0x400 = false ∧
      after (exec (.undefinedInstruction (.core 0) 0x400) (coreE [])) (fun t =>
        (t.hart 0).pc = 0x200 && (t.hart 0).capdepth = 1 && t.rdByte 0x20000000FC7 = 1
          && bits (t.rdNat 0x20000000FC0 8) 17 0 = 0x10) = true ∧
      (let s := mk [modHart 130 fun h => { h with run := true }]
       s.issues 130 (lengthOf 0x400) = true ∧
        after (exec (.undefinedInstruction (.seq 2) 0x400) s) (fun t =>
          !(t.hart 130).run && told s t 0x82 .seqFault) = true) := by
  decide +kernel

/-- R63: at depth 4, LOOP with 7 in s3 enters the handler with cause 0x0A, or stops a sequencer; with 0 in s2 it skips. -/
theorem test_loop_nest :
    let d : Prog := modHart 0 fun h => { h with ld := 4 }
    let s := coreE [d, setReg 0 3 7]
    let q := mk [modHart 130 fun h => { h with run := true, ld := 4 }, setReg 130 3 7]
    s.Inv ∧ s.issues 0 2 = true ∧ canEnter s 0 0x20000000FC0 ∧
      after (exec (.loop (.core 0) ⟨4, 3, 0⟩) s) (fun t =>
        (t.hart 0).pc = 0x200 && (t.hart 0).capdepth = 1 && t.rdByte 0x20000000FC7 = 0x0A) = true ∧
      after (exec (.loop (.core 0) ⟨4, 2, 0⟩) s) (fun t => (t.hart 0).capdepth = 0 && (t.hart 0).run) = true ∧
      q.Inv ∧ q.issues 130 2 = true ∧
      after (exec (.loop (.seq 2) ⟨4, 3, 0⟩) q) (fun t => !(t.hart 130).run && told q t 0x82 .seqFault) = true := by
  unfold State.Inv canEnter; decide +kernel

/-- Core 0 waits for token 3 with a limit of 10 ac. -/
def coreW : State :=
  coreE [ioSet (ioa 0x20 0x108) 10, modHart 0 fun h => { h with wait := some ⟨3, 1, 0, .waittok (.core 0) ⟨3⟩⟩ }]

/-- R69: the wait's limit has passed. -/
theorem test_timeout :
    coreW.Inv ∧ (coreW.hart 0).quiet = true ∧ coreW.tok 0 3 < 1 ∧ canEnter coreW 0 0x20000000FC0 ∧
      after (exec (.tokenTimeout 0) coreW) (fun t =>
        (t.hart 0).pc = 0x200 && (t.hart 0).wait = none && t.rdByte 0x20000000FC7 = 0x0E && 55 ≤ t.dev.beat.time) = true := by
  unfold State.Inv canEnter; decide +kernel

/-! ### Loads, stores and control of a unit -/

/-- Core 0 with its stage memory in c1, whose first bytes are 0xF1 0x02 …, the stage address in s3, 0x1122334455667788 in
s4 and register pages in c2. -/
def coreM (ps : List Prog) : State :=
  running 0
    ([setCreg 0 1 (mkCap 0 otData (pR + pW) 0x40000000 0x20000000000), setCreg 0 2 (mkCap 0 otIo (pIo + pSys) 0x1000000 0),
      modHart 0 fun h => { h with tlb := [leafS] }, setReg 0 3 0x20000000000, setReg 0 4 0x1122334455667788,
      writeAt 0x20000000000 [0xF1, 2, 3, 4, 5, 6, 7, 8]] ++ ps)

/-- The shadow of s9 that a load of `n` bytes at `a` opens. -/
def sh9 (v : Word) (arr : Bool) (a : Nat) (fill : Option Nat) (n : Nat) : Shadow :=
  { rd := 9, left := 3, data := v, arrived := arr, pc := 0x10, addr := BitVec.ofNat 64 a, phys := a, commit := false, fill := fill,
    bytes := n, signed := true, stamp := 1 }

/-- R52, R55: LD sign-extends, LDU does not; the shadow has three instructions to go. -/
theorem test_ld :
    (coreM []).Inv ∧ (coreM []).issues 0 2 = true ∧ ((coreM []).hart 0).bare = true ∧
      (coreM []).reaches 0 0x20000000000 1 false 0x20000000000 ∧ cachedTier 0x20000000000 = false ∧
      (coreM []).clean (0x20000000000 / 8) = true ∧ (coreM []).memWaits 0 0x20000000000 1 false = false ∧
      after (exec (.ld (.core 0) .b ⟨0, 3, 9⟩) (coreM [])) (fun t =>
        (t.hart 0).shadows = [sh9 (BitVec.ofInt 64 (-15)) true 0x20000000000 none 1]
          && keeps [.harts] (coreM []) t) = true ∧
      after (exec (.ldu (.core 0) .w ⟨0, 3, 9⟩) (coreM [])) (fun t =>
        (t.hart 0).shadows.map Shadow.data = [0x040302F1]) = true := by
  unfold State.Inv State.reaches; decide +kernel

/-- R52, R184: a load of stacked memory that misses will fill a line. -/
theorem test_ld_stacked :
    let s := coreM [setCreg 0 1 (mkCap 0 otData 3 0x1000 0), modHart 0 fun h => { h with tlb := [leafD] }]
    s.reaches 0 0x40 8 false 0x40 ∧ cachedTier 0x40 = true ∧ s.poisonIn 0x40 8 = none ∧
      s.memWaits 0 0x40 8 false = false ∧ (s.bankWaits fun r => r.page = unitPage 0) = false ∧ (s.hart 0).dets = [] ∧
      after (exec (.ld (.core 0) .d ⟨0x40, 0, 9⟩) s) (fun t =>
        (t.hart 0).shadows = [sh9 0 false 0x40 (some 0x40) 8] && keeps [.harts, .banks] s t) = true := by
  unfold State.reaches; decide +kernel

/-- R284: a sequencer's load and store reach its own memory. -/
theorem test_seq_memory :
    let s := mk [modHart 128 fun h => { h with run := true }, setReg 128 3 0xFFF8, setReg 128 4 0x55]
    s.issues 128 2 = true ∧ s.clean (seqMem 0 0xFFF8 / 8) = true ∧
      after (exec (.st (.seq 0) .d ⟨0, 3, 4⟩) s) (fun t => t.rdNat (seqMem 0 0xFFF8) 8 = 0x55) = true ∧
      after (exec (.ld (.seq 0) .d ⟨0, 3, 4⟩) s) (fun t => (t.hart 128).shadows.map Shadow.arrived = [true]) = true := by
  decide +kernel

/-- A shadow of s9 with `l` instructions to go. -/
def shadowS (l : Nat) (arr : Bool) : State :=
  running 0 [modHart 0 fun h => { h with shadows :=
    [{ rd := 9, left := l, data := 77, arrived := arr, pc := 8, addr := 0, phys := 0, commit := false, fill := none }] }]

/-- R55: the shadow counts down, lands at the third boundary, or holds the core until its data arrives. -/
theorem test_shadow :
    (shadowS 2 true).Inv ∧ (shadowS 2 true).canIssue 0 1 = true ∧ (shadowS 0 false).readHeld 0 0 = false ∧
      after (exec (.nop (.core 0) ⟨0⟩) (shadowS 2 true)) (fun t => (t.hart 0).shadows.map Shadow.left = [1]) = true ∧
      after (exec (.nop (.core 0) ⟨0⟩) (shadowS 1 true)) (fun t => t.reg 0 9 = 77 && (t.hart 0).shadows = []) = true ∧
      after (exec (.nop (.core 0) ⟨0⟩) (shadowS 1 false)) (fun t =>
        (t.hart 0).shadows.map Shadow.left = [0] && t.reg 0 9 = 0) = true ∧
      stays (exec (.nop (.core 0) ⟨0⟩) (shadowS 0 false)) (shadowS 0 false) = true ∧
      after (exec (.loadDataArrival (.core 0) .clean) (shadowS 0 false)) (fun t =>
        t.reg 0 9 = 77 && (t.hart 0).shadows = []) = true ∧
      after (exec (.loadDataArrival (.core 0) .clean) (shadowS 3 false)) (fun t =>
        (t.hart 0).shadows.map Shadow.arrived = [true]) = true := by
  unfold State.Inv; decide +kernel

/-- R185: a store takes an entry of the merging buffer; MERGING_BUFFER_DRAIN writes it at the latest 32 ac later. -/
theorem test_st :
    (coreM []).reaches 0 0x20000000000 4 true 0x20000000000 ∧ (coreM []).memWaits 0 0x20000000000 4 true = false ∧
      after (exec (.st (.core 0) .w ⟨0, 3, 4⟩) (coreM [])) (fun t =>
        (t.hart 0).mbByte 0x20000000001 = some 0x77 && t.mem = (coreM []).mem) = true ∧
      (let e : MbEntry := ⟨0x20000000040, 0x20000000040, (range 0 8).map fun i => (8 + i, BitVec.ofNat 8 (i + 1)), 7, 0⟩
       let s := coreM [modHart 0 fun h => { h with mbuf := [e] }]
       ((range (e.line / 8) 8).all plainBlock) = true ∧ s.durable (e.va.toNat + 8) 1 = false ∧
        after (exec (.mergingBufferDrain (.core 0)) s) (fun t =>
          t.rdNat 0x20000000048 8 = 0x0807060504030201 && (t.hart 0).mbuf = [] && t.dev.beat.time = 167) = true) := by
  unfold State.reaches; decide +kernel

/-- R54: PLD and PST of the four syllables at 5, which lie in two blocks. -/
theorem test_pld_pst :
    let s := coreM [setCreg 0 4 (mkCap 0 otProgram 3 0x2000 0), setReg 0 3 5, pmWrite 0 4 5 0x123456789ABCD]
    s.issues 0 4 = true ∧ s.capsClean 0 [capIx 4] = true ∧
      ((range 0 4).all fun i => s.clean (pmAddr 0 ((5 + i) % pmSize 0) / 8)) = true ∧
      after (exec (.pld (.core 0) ⟨9, 3, 4, 0, 0, 0⟩) s) (fun t =>
        (t.hart 0).shadows.map Shadow.data = [0x123456789ABCD]) = true ∧
      after (exec (.pst (.core 0) ⟨4, 3, 4, 1, 0, 0⟩) s) (fun t => t.pldWord 0 6 = 0x22334455667788) = true := by
  decide +kernel

/-- A queued array instruction, a vector load on its way, and a fill in flight. -/
def idleOp : QOp := { instr := .mwait (.core 0) (u4 1 16 0), vals := [], vl := 0, pc := 0, tile := none, aux := [] }
def busyA : State := coreM [modHart 0 fun h => { h with vq := [idleOp] }]
def busyL : State := coreM [modHart 0 fun h => { h with vloads := [idleOp] }]
def busyF : State := coreM [modHart 0 fun h => { h with fills := [(0x40, 0x40)] }]

/-- R71, R72: fences complete, LFENCE waits for the units, and the unlocked ways are invalidated. -/
theorem test_fences :
    let c := coreM [modHart 0 fun h => { h with cache := [(3, some ⟨0x40, 0⟩)] }]
    let d := (drainAll 0).run c
    c.Inv ∧ c.issues 0 1 = true ∧ (c.hart 0).mbuf = [] ∧ (d.hart 0).quiet = true ∧ d.loadsBack 0 = true ∧
      d.storesVisible 0 = true ∧ d.unitsIdle 0 = true ∧ (d.hart 0).dcctl = none ∧ (c.hart 0).filling = false ∧
      after (exec (.fence (.core 0) ⟨0⟩) c) (fun t => (t.hart 0).pc = 0x11 && (t.hart 0).cache = (c.hart 0).cache) = true ∧
      after (exec (.lfence (.core 0) ⟨0⟩) c) (fun t => (t.hart 0).pc = 0x11 && (t.hart 0).cache = []) = true ∧
      after (exec (.cinv (.core 0) ⟨0⟩) c) (fun t => (t.hart 0).pc = 0x11 && (t.hart 0).cache = []) = true := by
  unfold State.Inv; decide +kernel

/-- R71, R72, R187: a fence that must wait drains and stays; CINV waits for a fill. -/
theorem test_fences_wait :
    busyA.issues 0 1 = true ∧ ((drainAll 0).run busyA).unitsIdle 0 = false ∧ ((drainAll 0).run busyA).loadsBack 0 = true ∧
      ((drainAll 0).run busyL).loadsBack 0 = false ∧ busyL.issues 0 1 = true ∧ (busyF.hart 0).filling = true ∧
      stays (exec (.lfence (.core 0) ⟨0⟩) busyA) ((drainAll 0).run busyA) = true ∧
      stays (exec (.fence (.core 0) ⟨0⟩) busyL) ((drainAll 0).run busyL) = true ∧
      stays (exec (.cinv (.core 0) ⟨0⟩) busyF) busyF = true := by
  decide +kernel

/-- Core 0 in its handler, after an illegal instruction at 0x10. -/
def coreH : State := next (exec (.undefinedInstruction (.core 0) 0x400) (coreE []))

/-- R386: ERET returns to the interrupted instruction. -/
theorem test_eret :
    let a := (coreH.creg 0 14).base + (coreH.hart 0).esp.toNat
    coreH.Inv ∧ coreH.issues 0 1 = true ∧ 0 < (coreH.hart 0).capdepth ∧ coreH.capsClean 0 [capIx 14, capIx 15] = true ∧
      coreH.lands 0 a 64 true false 0x20000000FC0 ∧ coreH.plain 0x20000000FC0 64 = true ∧
      (match coreH.eretFrame 0 a with
       | some fr => frameFld fr 0 63 56 = 1 && (coreH.eretCaps 0 fr).isSome
       | none => false) = true ∧
      after (exec (.eret (.core 0) ⟨0⟩) coreH) (fun t =>
        (t.hart 0).pc = 0x10 && (t.hart 0).capdepth = 0 && (t.hart 0).esp = 0x1000
          && t.creg 0 15 = (coreE []).creg 0 15) = true := by
  unfold State.Inv State.lands; decide +kernel

/-- R53: IN of TOKWDOG of core 1, and OUT to its RECADDR, whose field is of class L. -/
theorem test_in_out :
    let s := coreM [setReg 0 3 (BitVec.ofNat 64 (ioa 0x21 0x108)), ioSet (ioa 0x21 0x108) 0xAA]
    s.issues 0 2 = true ∧ s.capsClean 0 [capIx 2] = true ∧ (s.creg 0 2).authOk otIo (ioPerm (ioa 0x21 0x108)) = true ∧
      ((regAt (ioa 0x21 0x108)).any fun r => r.flds.all fun f => f.cls = .h || f.cls = .l) = true ∧
      after (exec (.inp (.core 0) ⟨0, 3, 9⟩) s) (fun t => (t.hart 0).shadows.map Shadow.data = [0xAA]) = true ∧
      ((regAt (ioa 0x21 0x150)).any fun r => r.mask .h = 0 && r.flds.all fun f => f.cls = .h || f.cls = .l) = true ∧
      after (exec (.outp (.core 0) ⟨0x48, 3, 4⟩) s) (fun t => t.ioVal (ioa 0x21 0x150) = 0x00067788) = true := by
  decide +kernel

/-- R219: an IN from UPD.CMTWAIT marks the core arrived, and waits. -/
theorem test_cmtwait :
    let s := coreM [setReg 0 3 0xD0110]
    s.issues 0 2 = true ∧ (s.creg 0 2).authOk otIo (ioPerm 0xD0110) = true ∧
      after (exec (.cmtwait (.core 0) ⟨0, 3, 9⟩) s) (fun t =>
        t.fld (ioa 0xD0 0x114) 0 0 = 1 && (t.hart 0).shadows.map Shadow.arrived = [false]
          && (t.hart 0).shadows.map Shadow.commit = [true]) = true := by
  decide +kernel

/-! ### Tiles and the array -/

/-- Core 0 with its stage address in s3, a pitch of 32 in s4, tile 2 tagged with two rows of 16 bytes, and bytes in both. -/
def coreT2 (ps : List Prog) : State :=
  running 0
    ([setCreg 0 1 (mkCap 0 otData (pR + pW + pFold) 0x40000000 0x20000000000), setReg 0 3 0x20000000000, setReg 0 4 32,
      modHart 0 fun h => { h with tlb := [leafS], tags := [(2, some ⟨2, 16, 1⟩)] },
      writeAt 0x20000000020 [1, 2, 3, 4, 5, 6, 7, 8], writeAt (tileAddr 0 2 1 0) [9, 8, 7, 6, 5, 4, 3, 2]] ++ ps)

/-- TLD of tile 1, and TST of tile 2: base s3, pitch s4. -/
def tldF : S4U := u4 2 16 (1 * 2 ^ 35 + 3 * 2 ^ 30 + 4 * 2 ^ 25 + 1 * 2 ^ 21)
def tstF : S4U := u4 2 16 (2 * 2 ^ 35 + 3 * 2 ^ 30 + 4 * 2 ^ 25)

/-- R83, R84: the rows of TLD and TST land in plain memory. -/
theorem test_tile_hypotheses :
    let s := coreT2 []
    s.Inv ∧ s.issues 0 4 = true ∧ s.waitOver 0 tldF.wte tldF.wtok ∧ (s.hart 0).bare = true ∧ s.capsClean 0 [capIx 1] = true ∧
      (s.hart 0).tprog = 0 ∧ s.tilesFree 0 [] [1] (s.nextStamp 0) = true ∧ s.tilesFree 0 [2] [] (s.nextStamp 0) = true ∧
      s.rowsWait 0 false (s.rowList 0 tldF) = false ∧ s.rowsWait 0 true (s.rowList 0 tstF) = false ∧
      s.shapeOk 0 2 2 16 = true := by
  unfold State.Inv State.waitOver; decide +kernel

/-- R83, R84: the rows that both name. -/
theorem test_tile_rows :
    let s := coreT2 []
    s.rowsLand 0 false (s.rowList 0 tldF) id ∧ ((s.rowList 0 tldF).all fun x => region x.1 = .stage 0) = true ∧ s.shapeOk 0 2 2 16 = true ∧ s.rowsLand 0 true (s.rowList 0 tstF) id ∧ apart (s.rowList 0 tstF) id ∧
      ((range 0 2).all fun r => s.plain (tileAddr 0 2 r 0) 16) = true := by
  unfold State.rowsLand State.lands apart; decide +kernel

/-- R83, R84: the second row of each moves. -/
theorem test_tld_tst :
    after (exec (.tld (.core 0) tldF) (coreT2 [])) (fun t =>
        t.rdNat (tileAddr 0 1 1 0) 8 = 0x0807060504030201 && t.tag 0 1 = some ⟨2, 16, 1⟩ && (t.hart 0).pc = 0x14) = true ∧
      after (exec (.tst (.core 0) tstF) (coreT2 [])) (fun t => t.rdNat 0x20000000020 8 = 0x0203040506070809) = true := by
  decide +kernel

/-- R85, R97, R86: TZERO, TREL of tile 2, and the arrival of a row. -/
theorem test_tzero_trel :
    let z := u4 2 16 (2 * 2 ^ 35 + 1 * 2 ^ 21)
    let r := u4 1 16 (4 * 2 ^ 30)
    let row : RowOp :=
      { tile := 5, row := 3, phys := [(0x20000000000, 16)], bytes := [1, 2, 3, 4, 5, 6, 7, 8], own := [], bad := [], stamp := 0, pc := 0 }
    let s := coreT2 [modHart 0 fun h => { h with tileRows := [row] }]
    s.issues 0 4 = true ∧ uf z 34 25 = 0 ∧ uf r 37 30 = 4 ∧ s.tilesFree 0 [] [2] (s.nextStamp 0) = true ∧
      bitsSet 8 (uf r 37 30) = [2] ∧ s.rowHeld 0 row = false ∧ (s.hart 0).tq = [] ∧ (s.hart 0).vq = [] ∧
      Tab.wf (fun _ => none) (s.hart 0).tags = true ∧
      after (exec (.tzero (.core 0) z) s) (fun t => t.rdNat (tileAddr 0 2 1 0) 8 = 0) = true ∧
      after (exec (.trel (.core 0) r) s) (fun t => t.tag 0 2 = none) = true ∧
      after (exec (.tileRowArrival 0 .clean) s) (fun t =>
        (t.hart 0).tileRows = [] && t.rdNat (tileAddr 0 5 3 0) 8 = 0x0807060504030201) = true := by
  decide +kernel

/-- The forms of TSAVE and TRESTORE with base s3. -/
def saveF : S4U := u4 1 16 (3 * 2 ^ 30)

/-- The save area of `coreT2` lies in plain memory. -/
theorem test_save_hypotheses :
    let s := coreT2 []
    let area := (0x20000000000, 64) :: (saveRows (s.liveTiles 0) 64).map fun x => ((0x20000000000 + x.2.2.2) % 2 ^ 64, x.2.2.1)
    saveLegal saveF = true ∧ s.tilesFree 0 [2] [] (s.nextStamp 0) = true ∧ s.rowsWait 0 true area = false ∧
      (s.hart 0).tprog = 0 ∧ s.rowsLand 0 true area id ∧ apart area id ∧
      ((saveRows (s.liveTiles 0) 64).all fun x => s.plain (tileAddr 0 x.1 x.2.1 0) x.2.2.1) = true := by
  unfold State.rowsLand State.lands apart; decide +kernel

/-- R98: the header names tile 2, and TRESTORE brings it back. -/
theorem test_tsave_trestore :
    let t := next (exec (.tsave (.core 0) saveF) (coreT2 []))
    let s := (block [modHart 0 fun h => { h with tags := [], pc := 0x10 }, clearAt (tileAddr 0 2 0 0) 0x8000]).run t
    t.rdNat 0x20000000000 8 = 0x104 ∧ t.rdNat 0x20000000050 8 = 0x0203040506070809 ∧ s.issues 0 4 = true ∧
      s.tilesFree 0 [] (range 0 8) (s.nextStamp 0) = true ∧ s.rowsWait 0 false [(0x20000000000, 64 + 8 * 128 * 256)] = false ∧
      headerTags (s.rd 0x20000000000 64) = some [(2, ⟨2, 16, 1⟩)] ∧
      after (exec (.trestore (.core 0) saveF) s) (fun t =>
        t.tag 0 2 = some ⟨2, 16, 1⟩ && t.rdNat (tileAddr 0 2 1 0) 8 = 0x0203040506070809) = true := by
  decide +kernel

/-- MSEAT of tile 2 into bank 0; MZERO, MANCHOR and MWAIT of narrow accumulator 3 or wide accumulator 1; MMA with seat 0,
base s3 and word s5; MDRAIN to FP32 at s3 with the pitch of s6. -/
def mseatF : S4U := u4 2 16 (2 * 2 ^ 35)
def mzeroF (aw acc : Nat) : S4U := u4 1 16 (aw * 2 ^ 37 + acc * 2 ^ 33)
def manchorF : S4U := u4 1 16 (2 ^ 37 + 1 * 2 ^ 33 + 7 * 2 ^ 28)
def mwaitF : S4U := u4 1 16 (2 ^ 37)
def mmaF : S4U := u4 1 16 (3 * 2 ^ 26 + 5 * 2 ^ 21)
def mdrainF : S4U := u4 1 16 (3 * 2 ^ 22 + 6 * 2 ^ 17)

/-- Core 0 with a seated row of sixteen ones in E4M3, a panel whose column 0 holds sixteen ones, wide pair 1, and an anchor
in s7. -/
def coreArr (ps : List Prog) : State :=
  coreT2
    ([modHart 0 fun h => { h with seats := [(0, some ⟨1, 16, 1⟩)], modes := 2 }, setReg 0 5 1, setReg 0 6 16, setReg 0 7 5,
      writeAt (seatAddr 0 0 0 0) (List.replicate 16 0x38),
      forEach (range 0 16) fun j => writeAt (0x20000000000 + panelOff j 0) [0x38]] ++ ps)

/-- R118: the array instructions pass their checks and join the queue. -/
theorem test_array_queue :
    let s := coreArr []
    s.Inv ∧ s.issues 0 4 = true ∧ s.shapeOk 0 2 2 16 = true ∧ (geom 1 16).isSome = true ∧
      s.seat 0 0 = some ⟨1, 16, 1⟩ ∧ weightFmt 1 false = some 1 ∧ s.modeOk 0 false 0 = true ∧ s.modeOk 0 true 1 = true ∧
      s.capsClean 0 [capIx 1] = true ∧ (s.creg 0 1).within 0x20000000000 2048 = true ∧
      s.ownStage 0 0x20000000000 2048 false = none ∧
      ((pagePieces 2 0x20000000000 2048).all fun p => s.tlbAfter 64 (s.hart 0).tlb p.1 = (s.hart 0).tlb) = true ∧
      after (exec (.mseat (.core 0) mseatF) s) (fun t => t.seat 0 0 = some ⟨2, 16, 1⟩ && (t.hart 0).aq.length = 1) = true ∧
      after (exec (.mma (.core 0) mmaF) s) (fun t => (t.hart 0).aq.map QOp.aux = [[1, 1, 16]]) = true ∧
      after (exec (.mzero (.core 0) (mzeroF 1 2)) s) (fun t => (t.hart 0).modes = 6 && (t.hart 0).aq.length = 1) = true ∧
      after (exec (.mzero (.core 0) (mzeroF 0 3)) s) (fun t => (t.hart 0).modes = 0) = true ∧
      after (exec (.manchor (.core 0) manchorF) s) (fun t => (t.hart 0).aq.map QOp.vals = [[5]]) = true ∧
      after (exec (.mwait (.core 0) mwaitF) s) (fun t => (t.hart 0).pc = 0x14 && !(t.hart 0).mwait) = true := by
  unfold State.Inv; decide +kernel

/-- A queued instruction with its captured values and checked numbers. -/
def qop (i : Instr) (vals : List Word) (aux : List Int) : QOp :=
  { instr := i, vals := vals, vl := 0x8000, pc := 0, tile := none, aux := aux }

/-- R122: MWAIT ALL waits while the queue holds an instruction; R125: MDRAIN joins it. -/
theorem test_mwait_mdrain :
    let q := qop (.mzero (.core 0) (mzeroF 0 3)) [] []
    let s := coreArr [modHart 0 fun h => { h with aq := [q] }]
    let d := drainOf mdrainF (s.reg 0 3) (s.reg 0 6)
    s.issues 0 4 = true ∧ mwaitMet mwaitF ((s.hart 0).arun ++ (s.hart 0).aq) = false ∧ d.opitch = 16 ∧
      s.ownStage 0 0x20000000000 16 true = none ∧ (s.creg 0 1).within 0x20000000000 16 = true ∧
      after (exec (.mwait (.core 0) mwaitF) s) (fun t => (t.hart 0).mwait && (t.hart 0).pc = 0x10) = true ∧
      after (exec (.mdrain (.core 0) mdrainF) s) (fun t => (t.hart 0).aq.length = 2 && (t.hart 0).pc = 0x14) = true := by
  decide +kernel

/-- A descriptor of MMAF at 0x20000010000: one element of E4M3, its operands beside it. -/
def foldS : State :=
  coreArr
    [modHart 0 fun h => { h with modes := 0xC0 }, setReg 0 8 0x20000010000, setReg 0 9 0x20000020000,
     writeAt 0x20000010000 (toBytes 8 (2 ^ 30) ++ toBytes 8 0x20000010040 ++ toBytes 8 0x20000010050 ++ toBytes 8 0x20000010060)]

/-- R129: MMAF of c1, descriptor s8 and scratch s9. -/
theorem test_mmaf :
    let f := u4 1 16 (1 * 2 ^ 34 + 8 * 2 ^ 29 + 9 * 2 ^ 24)
    foldS.issues 0 4 = true ∧ foldS.mmafAuth 0 (foldS.creg 0 1) 0x20000010000 0x20000020000 = none ∧
      foldS.pagesAt 0 0x20000010000 64 = [0x20000010000] ∧ foldS.wideMode 0 6 = true ∧ foldS.wideMode 0 7 = true ∧ foldS.plain 0x20000010000 64 = true ∧
      ((foldOf (foldS.rd 0x20000010000 64)).any fun x => x.extents.all fun e => (foldS.creg 0 1).within e.1 e.2) = true ∧
      after (exec (.mmaf (.core 0) f) foldS) (fun t =>
        (t.hart 0).seats = [] && (t.hart 0).aq.length = 1 && (t.hart 0).pc = 0x14) = true := by
  decide +kernel

/-- The head of core 0's array queue may start (R120, R121). -/
def headMay (s : State) : Bool :=
  match (s.hart 0).aq with
  | q :: _ => s.mayStart 0 q (s.hart 0).arun
  | [] => false

/-- A queue whose head is the given instruction. -/
def headS (i : Instr) (vals : List Word) (ps : List Prog) : State :=
  coreArr (ps ++ [modHart 0 fun h => { h with aq := [qop i vals []] }])

/-- R105: MSEAT copies the rows of tile 2 into bank 0. -/
theorem test_start_mseat :
    let a := headS (.mseat (.core 0) mseatF) [] []
    headMay a = true ∧ after (exec (.arrayInstructionStart 0) a) (fun t =>
      t.rdNat (seatAddr 0 0 1 0) 8 = 0x0203040506070809 && (t.hart 0).arun.length = 1 && (t.hart 0).aq = []) = true := by
  decide +kernel

/-- R115: MZERO zeroes narrow accumulator 3. -/
theorem test_start_mzero :
    let z := headS (.mzero (.core 0) (mzeroF 0 3)) [] [accPut 0 false 3 127 127 ⟨-5, 0, false⟩]
    headMay z = true ∧ (z.accGet 0 false 3 127 127).v = -5 ∧
      after (exec (.arrayInstructionStart 0) z) (fun t => (t.accGet 0 false 3 127 127).v = 0) = true := by
  decide +kernel

/-- R117: MANCHOR may start. -/
theorem test_start_manchor : headMay (headS (.manchor (.core 0) manchorF) [0x3FF] []) = true := by decide +kernel

/-- An MMA of one column that streams. -/
def mmaS : State :=
  coreArr [modHart 0 fun h => { h with arun :=
    [{ qop (.mma (.core 0) mmaF) [0x20000000000, 1, 0] [1, 1, 16] with phys := [0x20000000000] }] }]

/-- R30, R119: the hypotheses of an MMA's completion. -/
theorem test_mma_complete :
    mmaS.undamaged ∧ mmaS.Inv ∧ geom 1 (rbOf mmaF) = some ⟨16, 16, 1, false⟩ ∧ panelBytes ⟨16, 16, 1, false⟩ = 2048 ∧
      ((range 0 2048).all fun o => region (pageByte 0x20000000000 [0x20000000000] o) = .stage 0) = true ∧
      (mmaS.hart 0).aq = [] ∧ (mmaS.hart 0).mwait = false :=
  ⟨sound (by decide +kernel), by unfold State.Inv; decide +kernel⟩

/-- An MDRAIN of accumulator 0, whose first element is 16 in units of 2^-18, at the head of the queue. -/
def drainS : State :=
  headS (.mdrain (.core 0) mdrainF) [0x20000000000, 16] [accPut 0 false 0 0 0 ⟨16 * 2 ^ 18, 0, false⟩]

/-- R35-R38, R125: it drains as the FP32 number 16, and completes. -/
theorem test_drain :
    headMay drainS = true ∧ drainS.plain 0x20000000000 16 = true ∧ drainS.durable 0x20000000000 16 = false ∧
      after (exec (.arrayInstructionStart 0) drainS) (fun x => x.rdNat 0x20000000000 8 = 0x41800000) = true ∧
      after (exec (.arrayInstructionComplete 0 0) (next (exec (.arrayInstructionStart 0) drainS))) (fun x =>
        (x.hart 0).arun = []) = true := by decide +kernel

/-- The drain's row lands in the core's stage memory. -/
theorem test_drain_lands : drainS.lands 0 0x20000000000 16 false true 0x20000000000 := by
  unfold State.lands; decide +kernel

/-! ### Numbers and the vector unit -/

/-- R32, R33: contributions 2^30 · 3 and -1 in a window of 37 bits anchored at 2^-18 in either order. -/
theorem test_accumulation :
    ([(0, 3, 0), (0, -1, -18)] : List (Nat × Int × Int)).foldl (fun (x : Acc) c => x.add c 37 (-18)) ⟨0, 0, false⟩ = ⟨786431, 0, false⟩ ∧
      ([(0, -1, -18), (0, 3, 0)] : List (Nat × Int × Int)).foldl (fun (x : Acc) c => x.add c 37 (-18)) ⟨0, 0, false⟩ = ⟨786431, 0, false⟩ ∧
      ([(3, 0), (-1, -18)] : List (Int × Int)).map (fun c => (c.1 * 2 ^ (c.2 - -18 : Int).toNat).natAbs) = [786432, 1] := by
  decide +kernel

/-- R20, R35: 448 is the largest E4M3 number and keeps its code; 0.1 in FP32 rounds to BF16 as 0x3DCD. -/
theorem test_conversions :
    decodeFmt .e4m3 0x7E ≠ .nan ∧ (roundTo pE4m3 (decodeFmt .e4m3 0x7E)).1 = 0x7E ∧
      (roundTo pBf16 (decodeFmt .fp32 0x3DCCCCCD)).1 = 0x3DCD ∧ (roundTo pFp32 (Acc.num ⟨0, 2, false⟩ 0)).1 = 0xFF800000 := by
  decide +kernel

/-- R143: 8-bit elements: the signed maximum of -1 and 1 is 1, the unsigned one 0xFF. -/
theorem test_vint : vInt 8 4 0xFF 1 = 1 ∧ vInt 8 6 0xFF 1 = 0xFF ∧ vInt 8 12 0x80 1 = 0xC0 := by decide +kernel

/-- Core 0 with two elements of 32 bits: v1 = 1.0, 2.0; v2 = 0.5, 0.5; s3 = 7, s4 = 1. -/
def vecS (ps : List Prog) : State :=
  running 0
    ([modHart 0 fun h => { h with vl := 0x8002 }, setReg 0 3 7, setReg 0 4 1,
      writeAt (vAddr 0 1 0) (toBytes 8 0x400000003F800000), writeAt (vAddr 0 2 0) (toBytes 8 0x3F0000003F000000)] ++ ps)

/-- The two sources v1 and v2, destination v3. -/
def v12 (fn : BitVec 4) : S2V := ⟨2, 1, fn, 3, false⟩

/-- Nothing of the small states of the vector unit is damaged. -/
theorem test_vec_sound : (vecS []).undamaged := sound (by decide +kernel)

/-- R143: 1.0 + 0.5 = 0x3FC00000, 2.0 + 0.5 = 0x40200000; a compare 2.0 < 1.0 … sets bits of mask m3. -/
theorem test_vector_elementwise :
    let s := vecS []
    s.Inv ∧ s.issues 0 2 = true ∧ (s.hart 0).vq = [] ∧ (s.hart 0).vloads = [] ∧ grp3 (v12 0) (s.hart 0).vl = true ∧
      fpOk (s.hart 0).vl = true ∧
      after (exec (.vectorFloat (.core 0) (v12 0)) s) (fun t => t.rdNat (vAddr 0 3 0) 8 = 0x402000003FC00000) = true ∧
      after (exec (.vectorInteger (.core 0) (v12 1)) s) (fun t => t.rdNat (vAddr 0 3 0) 8 = 0x0100000000800000) = true ∧
      after (exec (.vmv (.core 0) ⟨0, 1, 0, 3, false⟩) s) (fun t => t.rdNat (vAddr 0 3 0) 8 = 0x400000003F800000) = true ∧
      after (exec (.vbcast (.core 0) ⟨0, 3, 1, 3, false⟩) s) (fun t => t.rdNat (vAddr 0 3 0) 8 = 0x0000000700000007) = true := by
  unfold State.Inv; decide +kernel

/-- R143, R145: VFNEG of 1.0, and the fused 1.0 · 0.5 + 0, 2.0 · 0.5 + 0. -/
theorem test_vector_functions :
    after (exec (.vectorFma (.core 0) (v12 0)) (vecS [])) (fun t => t.rdNat (vAddr 0 3 0) 8 = 0x3F8000003F000000) = true ∧
      after (exec (.vectorFunction (.core 0) ⟨0, 1, 5, 3, false⟩) (vecS [])) (fun t =>
        t.rdNat (vAddr 0 3 0) 8 ≠ 0 && t.pending = [] && (t.hart 0).pc = 0x12) = true := by
  decide +kernel

/-- R141, R143, R146: a compare into m3, an operation on masks, the sum of v1 (3.0) and a conversion to BF16. -/
theorem test_masks_reductions :
    let s := vecS [writeAt (mAddr 0 1 0) [6], writeAt (mAddr 0 2 0) [3]]
    after (exec (.vectorCompare (.core 0) ⟨2, 1, 2, 3, false⟩) s) (fun t => t.pending = [] && (t.hart 0).pc = 0x12) = true ∧
      after (exec (.vectorReduction (.core 0) ⟨0, 1, 0, 3, false⟩) s) (fun t => t.rdNat (vAddr 0 3 0) 4 = 0x40400000) = true ∧
      after (exec (.vmpop (.core 0) ⟨0, 1, 4, 9, false⟩) s) (fun t => t.reg 0 9 = 1) = true := by
  decide +kernel

/-- R147: the operations on masks. -/
theorem test_mask_ops : (range 0 7).map (fun fn => vMask fn 6 3 % 256) = [2, 7, 5, 4, 249, 255, 0] := by decide +kernel

/-- R147: VCVT of v1 from FP32 to BF16 has an aligned group of half the width. -/
theorem test_vcvt :
    let s := vecS []
    (range 0 12).any (fun fn => (cvtFmts fn).1 = .fp32 && grpOk (s.hart 0).vl (cvtFmts fn).1.width 1
      && grpOk (s.hart 0).vl (cvtFmts fn).2.1.width 4) = false ∧
    (let s := vecS [modHart 0 fun h => { h with vl := 0x18002 }]
     (range 0 12).any (fun fn => (cvtFmts fn).1 = .fp32 && grpOk (s.hart 0).vl (cvtFmts fn).1.width 2
      && grpOk (s.hart 0).vl (cvtFmts fn).2.1.width 4) = true) := by
  decide +kernel

/-- R139, R148: VSETL for 32 bits, VMVX of element 1, VINS into element 1. -/
theorem test_vector_scalar :
    let s := vecS []
    after (exec (.vsetl (.core 0) ⟨2, 3, 9⟩) s) (fun t => t.reg 0 9 = 7 && (t.hart 0).vl = 0x8007) = true ∧
      after (exec (.vmvx (.core 0) ⟨4, 1, 2, 9, false⟩) s) (fun t => t.reg 0 9 = 0x40000000) = true ∧
      after (exec (.vins (.core 0) ⟨4, 3, 3, 3, false⟩) s) (fun t => t.rdNat (vAddr 0 3 0) 8 = 0x0000000700000000) = true := by
  decide +kernel

/-- A tile of FP32: TBROW adds v2 to row 0 of tile 2, in place or into v4. -/
def tbS : State :=
  vecS [modHart 0 fun h => { h with tags := [(2, some ⟨1, 16, 0xC⟩)] }, writeAt (tileAddr 0 2 0 0) (toBytes 8 0x400000003F800000)]

/-- R157: the hypotheses of TBROW and TBCOL, and the sums 1.5 and 2.5. -/
theorem test_tile_broadcast :
    let f := u4 1 16 (2 * 2 ^ 35 + 4 * 2 ^ 30 + 2 * 2 ^ 25 + 1 * 2 ^ 23)
    let d := u4 1 16 (2 * 2 ^ 35 + 2 * 2 ^ 25 + 1 * 2 ^ 23 + 2 ^ 22)
    tbS.issues 0 4 = true ∧ tbLegal f = true ∧ tbLegal d = true ∧ tbS.tag 0 (uf f 37 35) = some ⟨1, 16, 0xC⟩ ∧
      8 * tbSize 0xC = ewOf (tbS.hart 0).vl ∧ grpOk (tbS.hart 0).vl (ewOf (tbS.hart 0).vl) (uf f 29 25) = true ∧
      grpOk (tbS.hart 0).vl (ewOf (tbS.hart 0).vl) (uf f 34 30) = true ∧ rowsOf f * rbOf f ≤ 1024 * gOf (tbS.hart 0).vl ∧
      tbS.tilesFree 0 [2] [2] (tbS.nextStamp 0) = true ∧ (tbS.hart 0).vq = [] ∧ (tbS.hart 0).vloads = [] ∧
      after (exec (.tbrow (.core 0) f) tbS) (fun t => t.rdNat (vAddr 0 4 0) 8 = 0x402000003FC00000) = true ∧
      after (exec (.tbcol (.core 0) d) tbS) (fun t => t.rdNat (tileAddr 0 2 0 0) 8 = 0x402000003FC00000) = true := by
  decide +kernel

/-- Core 0 with its stage memory in c1 and s3, a stride of 8 in s6, and indexes 1, 0 of 16 bits in v5. -/
def vldS : State :=
  vecS
    [setCreg 0 1 (mkCap 0 otData (pR + pW) 0x40000000 0x20000000000), setReg 0 3 0x20000000000, setReg 0 6 8,
     modHart 0 fun h => { h with tlb := [leafS] }, writeAt (vAddr 0 5 0) [1, 0, 0, 0],
     writeAt 0x20000000000 [1, 2, 3, 4, 5, 6, 7, 8, 9, 10, 11, 12]]

/-- A form S4-V with base s3 and register v6. -/
def v4 (rs2 : BitVec 5) : S4V := ⟨6, 3, false, false, 0, rs2, false, 0, 0⟩

/-- R150-R152: the addresses of the elements land in the stage memory. -/
theorem test_vld_hypotheses :
    vldS.Inv ∧ vldS.issues 0 4 = true ∧ (vldS.hart 0).bare = true ∧ (vldS.hart 0).vresume = 0 ∧
      grpOk (vldS.hart 0).vl (ewOf (vldS.hart 0).vl) 6 = true ∧ (vldS.creg 0 1).authOk otData pR = true ∧
      (∀ k ∈ vldS.actives 0 (vldS.hart 0).vl false, let a := vldS.vElemAddr 0 (v4 6) .stride 4 k
        a % 4 = 0 ∧ (vldS.creg 0 1).within a 4 = true ∧ vldS.lands 0 a 4 true false a ∧ region a = .stage 0 ∧
          vldS.tileWaits 0 a 4 = false) ∧ (vldS.hart 0).vloads = [] ∧
      5 * 1024 + lenOf (vldS.hart 0).vl * idxBytes (v4 5) ≤ 32 * 1024 := by
  unfold State.Inv State.lands; decide +kernel

/-- R150: the stores' elements land likewise, apart from each other. -/
theorem test_vst_hypotheses :
    (∀ k ∈ vldS.actives 0 (vldS.hart 0).vl false, let a := vldS.vElemAddr 0 (v4 5) .index 4 k
        a % 4 = 0 ∧ vldS.lands 0 a 4 false true a ∧ vldS.durable a 4 = false ∧
          vldS.tileWaits 0 a 4 = false) ∧
      (vldS.actives 0 (vldS.hart 0).vl false).Pairwise (fun j k =>
        vldS.vElemAddr 0 (v4 5) .index 4 j + 4 ≤ vldS.vElemAddr 0 (v4 5) .index 4 k ∨
          vldS.vElemAddr 0 (v4 5) .index 4 k + 4 ≤ vldS.vElemAddr 0 (v4 5) .index 4 j) := by
  unfold State.lands; decide +kernel

/-- R150: unit, strided and indexed moves. -/
theorem test_vector_moves :
    after (exec (.vld (.core 0) (v4 0)) vldS) (fun t => t.rdNat (vAddr 0 6 0) 8 = 0x0807060504030201) = true ∧
      after (exec (.vlds (.core 0) (v4 6)) vldS) (fun t => t.rdNat (vAddr 0 6 0) 8 = 0x0C0B0A0904030201) = true ∧
      after (exec (.vgth (.core 0) (v4 5)) vldS) (fun t => t.rdNat (vAddr 0 6 0) 8 = 0x0403020108070605) = true ∧
      after (exec (.vgthff (.core 0) (v4 5)) vldS) (fun t => t.rdNat (vAddr 0 6 0) 8 = 0x0403020108070605) = true := by
  decide +kernel

/-- R150: VST of v1, and VSCT of v1 under the indexes 1, 0. -/
theorem test_vector_stores :
    after (exec (.vst (.core 0) ⟨1, 3, false, false, 0, 0, false, 0, 0⟩) vldS) (fun t =>
        t.rdNat 0x20000000000 8 = 0x400000003F800000) = true ∧
      after (exec (.vsct (.core 0) ⟨1, 3, false, false, 0, 5, false, 0, 0⟩) vldS) (fun t =>
        t.rdNat 0x20000000000 8 = 0x3F80000040000000) = true := by
  decide +kernel

/-- R150: VMLD and VMST of m6. -/
theorem test_mask_moves :
    vmaskLegal (.core 0) (v4 0) = true ∧ vldS.tileWaits 0 0x20000000000 1024 = false ∧
      region (0x20000000000 + 1023) = .stage 0 ∧ vldS.lands 0 0x20000000000 1024 true false 0x20000000000 ∧
      vldS.lands 0 0x20000000000 1024 false true 0x20000000000 ∧ vldS.durable 0x20000000000 1024 = false := by
  unfold State.lands; decide +kernel

/-- R159: an arrival writes elements 1 and 0 of v3. -/
theorem test_vector_arrival :
    let q := qop (.vld (.core 0) (v4 0)) [6, 5] [3, 4, 0, 0, 0, 1]
    let s := vecS [modHart 0 fun h => { h with vloads := [q] }]
    q.aux = [(3 : Int), 4, 0, 0] ++ [0, 1] ∧ s.readHeld 0 q.stamp = false ∧ (s.hart 0).tq = [] ∧
      after (exec (.vectorDataArrival 0 .clean) s) (fun t =>
      t.rdNat (vAddr 0 3 0) 8 = 0x0000000500000006 && (t.hart 0).vloads = []) = true := by
  decide +kernel

/-- R188: a fill of stacked memory takes a victim line. -/
theorem test_prefetch_fill :
    let s := vecS [modHart 0 fun h => { h with tlb := [leafD], fills := [(0x40, 0)] }, writeAt 0x40 [9]]
    (match s.tr 0 0x40 true false with | .ok pa => pa = 0x40 | _ => false) = true ∧ s.readHeld 0 0 = false ∧ cachedTier 0x40 = true ∧
      s.cacheHit 0 0x40 = none ∧ s.poisonIn 0x40 64 = none ∧ (s.victim 0 0x40).isSome = true ∧
      after (exec (.prefetchFill 0 .clean) s) (fun t => (t.hart 0).fills = [] && (t.cacheHit 0 0x40).any fun i =>
        t.rdNat (cacheAddr 0 i) 1 = 9) = true := by
  decide +kernel

/-! ### The update recurrence and the Streamer -/

/-- Core 0 with an operand record at s3 = the start of its stage memory, whose operands all stand 0x100 bytes apart;
descriptor 1 is direct with the rate 0.5, descriptor 2 takes FP32 gradients; s5 = 1, s6 = 2 with a row of four elements. -/
def updS (ps : List Prog) : State :=
  running 0
    ([setCreg 0 1 (mkCap 0 otData (pR + pW) 0x40000000 0x20000000000), setReg 0 3 0x20000000000, setReg 0 5 1,
      setReg 0 6 (2 + 4 * 2 ^ 32), modHart 0 fun h => { h with tlb := [leafS], vl := 0x8001 },
      writeAt 0x20000000000 ((range 1 9).flatMap fun k => toBytes 8 (0x20000000000 + 0x100 * k)),
      writeAt (pm 128) (toBytes 8 0x21), writeAt (pm (128 + 56)) (toBytes 4 0x3F000000), writeAt (pm 256) (toBytes 8 1)] ++ ps)

/-- The form with record s3, offset s0, group word s`r3`. -/
def updF (r3 : Nat) : S4U := u4 13 16 (r3 * 2 ^ 33)

/-- The captured arguments of the form. -/
def updA (kind : UKind) (r3 : Nat) : UArgs :=
  { kind := kind, bases := (range 0 8).map fun k => updS [] |>.rdNat (0x20000000000 + 8 * k) 8, r2 := 0,
    r3 := ((updS []).reg 0 r3).toNat, r4 := 0, len := 1 }

/-- R248: the hypotheses of UPD.MOM, UPD.WGT and UPD.ROW. -/
theorem test_upd_hypotheses :
    (updS []).undamaged ∧ (updS []).issues 0 4 = true ∧ ((updS []).hart 0).bare = true ∧ uf (updF 6) 27 14 = 0 ∧
      ((updS []).hart 0).vloads = [] ∧ (updS []).memWaits 0 0x20000000000 64 false = false ∧
      ((updS []).updSpans (updA .wgt 5) ++ (updS []).updSpans (updA .mom 6)).all (fun x => !(updS []).tileWaits 0 x.1 x.2.1) ∧
      ewOf ((updS []).hart 0).vl = 32 ∧ (updS []).ownStage 0 0x20000000000 64 false = none ∧
      (updS []).lands 0 0x20000000000 64 true false 0x20000000000 ∧
      ((updS []).ud 1 0 0 = 1 ∧ (updS []).updErr 0 (updA .wgt 5) = none) ∧
      ((updS []).ud 2 0 0 = 1 ∧ (updS []).updErr 0 (updA .mom 6) = none) ∧
      (updA .row 6).rowLen = 4 ∧ (updS []).ud 2 5 5 = 0 ∧ (updS []).updErr 0 (updA .row 6) = none :=
  ⟨sound (by decide +kernel), by unfold State.lands; decide +kernel⟩

/-- R245: UPD.WGT joins the queue. -/
theorem test_upd_queue :
    after (exec (.updWgt (.core 0) (updF 5)) (updS [])) (fun t =>
      (t.hart 0).vq.map (fun q => updArgs q) = [updA .wgt 5] && (t.hart 0).pc = 0x14) = true := by
  decide +kernel

/-- UPD.WGT of descriptor 1 at the head of the queue, with D = 1.0 and W = 2.0, in a running job. -/
def updRunS (ps : List Prog) : State :=
  updS ([modHart 0 fun h => { h with vq :=
           [{ qop (.updWgt (.core 0) (updF 5)) (((updA .wgt 5).bases ++ [0, 1, 0]).map (BitVec.ofNat 64)) [] with vl := 0x8001 }] },
         ioSet aFig 0xA0000000, writeAt 0x20000000700 (toBytes 4 0x3F800000),
         writeAt 0x20000000500 (toBytes 4 0x40000000)] ++ ps)

/-- R243: the scalars are eta = 0.5 and 1 - lambda eta = 1.0. -/
theorem test_step_scalars :
    (updRunS [modJob fun j => { j with evaluating := some (1, 0) }]).dev.job.evaluating = some (1, 0) ∧
      (updRunS []).dev.pwr.on = true ∧
      after (exec .stepScalarsReady (updRunS [modJob fun j => { j with evaluating := some (1, 0) }])) (fun t =>
        t.scalarFile 1 = [0, 0x3F000000, 0x3F800000, 0x3F800000, 0x3F800000, 0x3F800000]
          && t.fld (ioa 0xD0 0x200) 31 31 = 1) = true := by
  decide +kernel

/-- The window open, with the outcome APPLY or SKIP. -/
def updWin (o : Nat) : State :=
  updRunS
    [setFld aStepStat 25 24 2, setFld aStepStat 27 26 o,
     writeAt (pm (0x301000 + 24)) ([0, 0x3F000000, 0x3F800000, 0, 0, 0].flatMap (toBytes 4))]

/-- R250, R252: the hypotheses: the operands W and D of one element land in the stage memory. -/
theorem test_upd_window :
    let s := updWin 1
    let q := ((s.hart 0).vq.headD (qop .stepScalarsReady [] []))
    s.dev.pwr.on = true ∧ s.dev.stop.active = false ∧ s.window = true ∧ (s.hart 0).vq = [q] ∧ (s.hart 0).vloads = [] ∧ (s.hart 0).tq = [] ∧ isUpd q = true ∧ s.outcome = 1 ∧
      s.updOps (updArgs q) = [4, 6] ∧
      (match s.updPlace 0 (updArgs q) 4 0, s.updPlace 0 (updArgs q) 6 0 with
       | .ok a, .ok b => a = 0x20000000500 && b = 0x20000000700 && s.updSize (updArgs q) 4 = 4 && s.updSize (updArgs q) 6 = 4
       | _, _ => false) = true ∧
      (s.updOut 0 (updArgs q) (s.scalarFile 1) 0).1 = [(4, 0x3FC00000)] ∧ s.updBad (updArgs q) 4 0x3FC00000 = false := by
  decide +kernel

/-- R250: the new weight is 2.0 - 0.5 · 1.0 = 1.5; with SKIP it stays. -/
theorem test_upd_start :
    after (exec (.updStart 0) (updWin 1)) (fun t => t.rdNat 0x20000000500 4 = 0x3FC00000 && (t.hart 0).vq = []) = true ∧
      after (exec (.updStart 0) (updWin 2)) (fun t => t.rdNat 0x20000000500 4 = 0x40000000 && (t.hart 0).vq = []) = true := by
  decide +kernel

/-- A COPY of eight bytes inside core 0's stage memory, its descriptor at s3; token 5 of core 1 counts it. -/
def copyD : List Nat :=
  [2 ^ 38 + 1 * 2 ^ 32 + 5 * 2 ^ 26, 0x20000001000, 0x20000002000, 8 + 2 ^ 16 + 2 ^ 32 + 2 ^ 48, 0, 0, 0, 0]
def sqS (ps : List Prog) : State :=
  running 0
    ([setCreg 0 1 (mkCap 0 otData (pR + pW) 0x40000000 0x20000000000), setReg 0 3 0x20000000000,
      modHart 0 fun h => { h with tlb := [leafS], strmTlb := [leafS] },
      writeAt 0x20000000000 ((copyD.take 4).flatMap (toBytes 8)), writeAt 0x20000001000 [1, 2, 3, 4, 5, 6, 7, 8]] ++ ps)

/-- The transfer of `copyD`, before its walk or with its eight bytes held. -/
def copyX (s : State) (active : Bool) (run : Nat) : XFer :=
  { desc := copyD.map (BitVec.ofNat 64), src := 0x20000001000, dst := 0x20000002000, cs := s.creg 0 1, cd := s.creg 0 1, off := 0,
    srcTile := none, dstTile := none, active := active, run := run, pos := 0, bytes := 8 * run,
    held := if run = 0 then [] else [(0x20000002000, 0x20000002000, [1, 2, 3, 4, 5, 6, 7, 8])], stamp := 1 }

/-- R194: the checks of SQ pass, and the transfer joins the queue. -/
theorem test_sq :
    let s := sqS []
    let f := u4 13 16 (1 * 2 ^ 29 + 1 * 2 ^ 25)
    let x := copyX s false 0
    s.issues 0 4 = true ∧ uf f 24 14 = 0 ∧ s.ownStage 0 0x20000000000 64 false = none ∧
      s.memWaits 0 0x20000000000 64 false = false ∧
      s.lands 0 0x20000000000 64 true false 0x20000000000 ∧ x.valid = true ∧ x.shapeOk none = true ∧
      (match x.capErr 0 with | none => true | some _ => false) = true ∧
      after (exec (.sq (.core 0) f) s) (fun t => (t.hart 0).xq = [x] && (t.hart 0).pc = 0x14) = true := by
  unfold State.lands; decide +kernel

/-- The state of `sqS` with its transfer in the queue. -/
def copyS (active : Bool) (run : Nat) : State := sqS [modHart 0 fun h => { h with xq := [copyX (sqS []) active run] }]

/-- R205, R207, R208: it starts, one request reads its bytes, and it completes, writes them and adds to the token. -/
theorem test_streamer :
    (copyS false 0).storesBefore 0 1 = false ∧ (copyS false 0).tilesFree 0 [] [] 1 = true ∧
      after (exec (.transferStart 0) (copyS false 0)) (fun t => (t.hart 0).xq = [copyX (sqS []) true 0]) = true ∧
      after (exec (.streamerRequest 0 0 .clean) (copyS true 0)) (fun t =>
        t.rdNat 0x20000002000 8 = 0 && (t.hart 0).xq = [copyX (sqS []) true 1]) = true ∧
      (copyS true 1).bankWaits (BReq.ofXfer 0 1) = false ∧ (copyS true 1).plain 0x20000002000 8 = true ∧
      after (exec (.transferComplete 0 0) (copyS true 1)) (fun t =>
        (t.hart 0).xq = [] && t.rdNat 0x20000002000 8 = 0x0807060504030201 && t.tok 1 5 = 1
          && t.pair (ioa (strmPage 0) 0x120) = 8) = true := by
  decide +kernel

/-- R207: the hypotheses of a request. -/
theorem test_streamer_request :
    let s := sqS []
    let x := copyX s true 0
    s.undamaged ∧ x.run < x.runs ∧ x.mode = 0 ∧ x.sk = 0 ∧ x.dk = 0 ∧ (s.hart 0).cache = [] ∧ x.n 0 = 8 ∧
      addrPlus (s.srcRun 0 x x.run) x.pos = 0x20000001000 ∧ addrPlus (x.dstRun x.run) x.pos = 0x20000002000 ∧
      cuts 512 8 0x20000002000 8 = [(0x20000002000, 8)] ∧ pagePieces 2 0x20000002000 8 = [(0x20000002000, 8)] ∧
      (match s.strmRange 0 0x20000001000 8 true false with
       | .ok l => decide (l = [(0x20000001000, 0x20000001000, 8)]) | _ => false) = true ∧
      (match s.strmRange 0 0x20000002000 8 false true with
       | .ok l => decide (l = [(0x20000002000, 0x20000002000, 8)]) | _ => false) = true ∧
      (match s.translate (s.hart 0).strmTlb 0x20000002000 false true with | .ok a => a = 0x20000002000 | _ => false) = true ∧
      s.tlbAfter 128 (s.hart 0).strmTlb 0x20000001000 = (s.hart 0).strmTlb ∧
      s.tlbAfter 128 (s.hart 0).strmTlb 0x20000002000 = (s.hart 0).strmTlb ∧ s.durable 0x20000002000 8 = false :=
  ⟨sound (by decide +kernel), by decide +kernel⟩

/-- R204, R207: a transfer into tile 1 zeroes its rows at its start. -/
theorem test_transfer_tile :
    let x : XFer := { copyX (sqS []) false 0 with dstTile := some 1 }
    let s := sqS [modHart 0 fun h => { h with xq := [x] }, writeAt (tileAddr 0 1 0 0) [9]]
    s.tilesFree 0 [] [1] x.stamp = true ∧
      after (exec (.transferStart 0) s) (fun t => t.rdNat (tileAddr 0 1 0 0) 8 = 0 && (t.hart 0).xq.map XFer.active = [true]) = true := by
  decide +kernel

/-- R210: a source without a translation faults with LOAD_PAGE, and nothing is written where a destination has none. -/
theorem test_streamer_fault :
    let s0 := sqS []
    let x : XFer := { copyX s0 true 0 with src := 0x1000, dst := 0x3000 }
    let s := sqS [modHart 0 fun h => { h with xq := [x] }]
    x.rest 0 = (range 0x3000 8, []) ∧
      after (exec (.streamerRequest 0 0 .clean) s) (fun t =>
        (t.hart 0).xq = [] && t.ioVal (strm 0 0x108) = 0x80000004 && t.dev.free = 0 && told s t 0x100 .strmFault) = true := by
  decide +kernel

/-! ### Sequencers, interrupts and watchdogs -/

/-- The sequencer of link 0 runs; s3 holds `a`. -/
def seqS (a : Nat) (ps : List Prog) : State :=
  mk ([modHart 128 fun h => { h with run := true, pc := 0x10 }, setReg 128 3 (BitVec.ofNat 64 a)] ++ ps)

/-- The form with register s3. -/
def s3Q : S4Q := ⟨3, 0, 0⟩

/-- A receive and a transmit descriptor of kind 0 of beat 5, slot 2, one flit. -/
def dRx : SDesc := ⟨5 * 8 + 2, BitVec.ofNat 64 (2 ^ 63 + 2 ^ 51)⟩
def dTx : SDesc := ⟨5 * 8 + 2, BitVec.ofNat 64 (2 ^ 51)⟩

/-- R288: LARM of either. -/
theorem test_larm :
    let r := seqS 0x100 [writeAt (seqMem 0 0x100) (toBytes 8 42), writeAt (seqMem 0 0x108) (toBytes 8 (2 ^ 63 + 2 ^ 51))]
    let x := seqS 0x100 [writeAt (seqMem 0 0x100) (toBytes 8 42), writeAt (seqMem 0 0x108) (toBytes 8 (2 ^ 51))]
    r.Inv ∧ r.issues 128 4 = true ∧ dRx.valid r.nb = true ∧ r.placed dRx = true ∧ dTx.valid x.nb = true ∧ dRx.rx = true ∧
      352 ≤ x.until dTx.beat (dTx.slot * slotLen) ∧
      after (exec (.larm (.seq 0) s3Q) r) (fun t => (t.link 0).rxq = [dRx] && (t.link 0).lastRx = some 42) = true ∧
      after (exec (.larm (.seq 0) s3Q) x) (fun t => (t.link 0).txq = [dTx] && (t.hart 128).pc = 0x14) = true := by
  unfold State.Inv; decide +kernel

/-- R298: a torus of 2 × 1 × 1 with this device at the origin; link 0 is UP; sixteen bytes at the start of a stage memory. -/
def beS : State :=
  seqS 0x100
    [ptt, ioSet aTsize 0x2000, modLink 0 fun k => { k with st := 3 }, writeAt 0x20000000000 [1, 2, 3, 4, 5, 6, 7, 8],
     writeAt (seqMem 0 0x100) (toBytes 8 0x40), writeAt (seqMem 0 0x108) (toBytes 8 0x20000000000),
     writeAt (seqMem 0 0x110) (toBytes 8 (0x2000 * 2 ^ 24 + 16))]

/-- R296-R298: the checks of BEPUT pass and the packet waits at link 0. -/
theorem test_beput :
    beValid (beS.rd (seqMem 0 0x100) 32) beS = true ∧
      (match beS.figRange 0x20000000000 16 true false with
       | .ok l => decide (l = [(0x20000000000, 0x20000000000, 16)]) | .error _ => false) = true ∧
      beS.poisonIn 0x20000000000 16 = none ∧ beS.beDim 0x2000 = some 0 ∧ beS.beLink 0 (beS.bePlus 0 0x2000) 0 0x2000 = some 0 ∧
      after (exec (.beput (.seq 0) s3Q) beS) (fun t =>
        (t.link 0).hops.length = 1 && (t.link 0).beOut.length = 1 && (t.hart 128).pc = 0x14) = true := by
  decide +kernel

/-- R284: LWAITB of beat 0 goes on, of beat 7 waits until it comes; R285: a token wait of 1,024 bt. -/
theorem test_lwaitb :
    let w := seqS 7 [modLink 0 fun k => { k with lwait := some 7 }]
    let z := seqS 0 [modHart 128 fun h => { h with wait := some ⟨3, 1, 0, .waittok (.seq 0) ⟨3⟩⟩ }]
    after (exec (.lwaitb (.seq 0) s3Q) (seqS 0 [])) (fun t => (t.hart 128).pc = 0x14) = true ∧
      after (exec (.lwaitb (.seq 0) s3Q) (seqS 7 [])) (fun t => (t.link 0).lwait = some 7 && (t.hart 128).pc = 0x10) = true ∧
      (w.hart 128).quiet = true ∧ w.reach 7 = true ∧
      after (exec (.lwaitbComplete 0) w) (fun t =>
        (t.hart 128).pc = 0x14 && (t.link 0).lwait = none && decide (7 * 5632 ≤ t.dev.beat.time)) = true ∧
      z.tok 128 3 < 1 ∧
      after (exec (.seqWaittokTimeout 0) z) (fun t =>
        !(t.hart 128).run && told z t 0x80 .seqFault && decide (1024 * 5632 ≤ t.dev.beat.time)) = true := by
  decide +kernel

/-- Caller core 0 runs with a handler and a stack; source 0xA0 is pending, enabled, of priority 3, for core 0. -/
def icuS (ps : List Prog) : State :=
  running 64
    ([setStore 64 14 (mkCap 0 otData 3 0x1000 0x20000000000), setStore 64 15 (mkCap 0 otProgram 7 0x2000 0x200),
      modHart 64 fun h => { h with esp := 0x1000, tlb := [leafS] }, ioSet (srcAddr 0xA0) 0x503,
      ioSet (ioa 0xD 8) 0, modIcu fun i => { i with pend := BitVec.ofNat 256 (2 ^ 0xA0) }] ++ ps)

/-- R390: source 0xA0 can be delivered, and is. -/
theorem test_icu :
    let s := icuS []
    s.Inv ∧ deliverable s 0xA0 0 ∧ s.fld (ioa 0xD 8) 0 0 = 0 ∧
      (∀ m, 2 ≤ m → m < 256 → s.dev.icu.pend.getLsbD m = true → bits (s.src m) 13 10 ≠ 0) ∧
      after (exec .icuArbitration s) (fun t => (t.hart 64).taken = some 0xA0) = true ∧
      stays (exec .icuArbitration (icuS [setFld (ioa 0xD 8) 0 0 1])) (icuS [setFld (ioa 0xD 8) 0 0 1]) = true := by
  unfold State.Inv deliverable; decide +kernel

/-- R391: the core enters its interrupt vector. -/
theorem test_interrupt_entry :
    let s := icuS [modHart 64 fun h => { h with taken := some 0xA0 }]
    canEnter s 64 0x20000000FC0 ∧ (s.hart 64).quiet = true ∧
      after (exec (.interruptEntry 0) s) (fun t =>
        (t.hart 64).pc = 0x208 && (t.hart 64).insvc = [(0xA0, 3)] && (t.hart 64).esp = 0xFC0
          && !t.dev.icu.pend.getLsbD 0xA0) = true := by
  unfold canEnter; decide +kernel

/-- R392: EOI of the top source, and out of order. -/
theorem test_eoi :
    let s := icuS [modHart 64 fun h => { h with insvc := [(0xA0, 3)] }]
    writable s (.caller 0) (ioa 0xD 0x130) ∧
      after (exec (.eoi (.caller 0) 0xA0) s) (fun t => (t.hart 64).insvc = []) = true ∧
      after (exec (.eoi (.caller 0) 0xA1) s) (fun t => told s t 0xD .icuOrder && t.fld (ioa 0xD 0x158) 7 0 = 0xA1) = true := by
  unfold writable; decide +kernel

/-- R388, R395, R434: SWSET, the pins and the watchdogs. -/
theorem test_swset_pins_wdog :
    let s := icuS [ioSet (srcAddr 0xA1) 0x503, ioSet (ioa (callerPage 0) 0x100) 2, modHart 65 fun h => { h with run := true }]
    writable s (.caller 0) (ioa 0xD 0x154) ∧ writable s (.caller 0) (ioa (callerPage 0) 0x104) ∧
      after (exec (.swset (.caller 0) 0xA1) s) (fun t => t.dev.icu.pend.getLsbD 0xA1) = true ∧
      stays (exec (.swset (.caller 0) 0x10) s) s = true ∧
      after (exec (.glitchFilterChange .therm false) s) (fun t => !t.dev.icu.therm && t.dev.icu.level.getLsbD 0xD) = true ∧
      after (exec (.wdkick (.caller 0) 0 0) (icuS [modHart 64 fun h => { h with wdStart := 9 }])) (fun t =>
        (t.hart 64).wdStart = 0) = true ∧
      after (exec (.callerWdog 0) s) (fun t =>
        (t.hart 64).fatal && told s t (callerPage 0) .callerWdog && decide (11000 ≤ t.dev.beat.time)) = true := by
  unfold writable; decide +kernel

/-! ### The job, the beat and the links -/

/-- A job runs since beat 0 with a step of 40 bt: seal at 10, settle at 20, outcome at 24, commit at 32; NB is 2, the
exponents stand in a stage memory, and host 0 has loaded the figure. -/
def jobS (ps : List Prog) : State :=
  mk ([ptt, ioSet aFig 0xA0000000, ioSet aState 3, setFld aStepStat 25 24 1, ioSet (upd 0x130) 40, ioSet (red 0x100) 10,
       ioSet (red 0x104) 20, ioSet (upd 0x134) 24, ioSet (upd 0x138) 32, ioSet (red 0x108) 0x10002,
       ioSet (red 0x110) 0x200, ioSet (red 0x118) 0x200, writeAt 0x20000000000 [3, 0xFE, 0, 0, 0, 0, 0, 0]] ++ ps)

/-- The accumulator of `jobS`. -/
def bowA : Bow :=
  { stepmin := 0, stepmax := 0, nf := false, fpdis := false, genmask := 1, nfsrc := 0xFFFFFFFF, nb := 2, exps := [3, -2] }

/-- R361, R76: the job starts at its beat with core 3 at its entry. -/
theorem test_job_start_beat :
    let s := jobS [modJob fun j => { j with pending := some 9, stepNo := 4 }, ioSet (ioa (corePage 3) 0x100) 0x400,
      setReg 3 5 7, setStore 3 20 5]
    s.Inv ∧ s.dev.pwr.on = true ∧ s.job = true ∧ s.dev.job.pending = some 9 ∧ s.shadow = [] ∧ s.dev.beat.sub < beatLen ∧
      after (exec .jobStartBeat s) (fun t =>
        (t.hart 3).run && (t.hart 3).pc = 0x400 && t.reg 3 5 = 0 && t.creg 3 4 = 5 && t.dev.job.stepNo = 0
          && (t.hart 130).run && t.dev.job.start = 9 && t.beat = 9) = true := by
  unfold State.Inv; decide +kernel

/-- R333, R309, R307: the step's start and the seal. -/
theorem test_step_start_seal :
    let e := jobS [modJob fun j => { j with edge := 4 }]
    (jobS []).undamaged ∧ e.edgeDue 4 (e.fld (upd 0x130) 23 0) = true ∧
      after (exec .stepStart e) (fun t => t.dev.job.stepNo = 1 && t.dev.job.edge = 0 && decide (40 * 5632 ≤ t.dev.beat.time)) = true ∧
      (jobS []).edgeDue 0 ((jobS []).fld (red 0x100) 23 0) = true ∧
      (match (jobS []).figRange ((jobS []).redAddr 0x10C) (jobS []).nb true false with
       | .ok ps => allStage ps && ps.all fun x => (jobS []).poisonIn x.2.1 x.2.2 = none | .error _ => false) = true ∧
      after (exec .bowSeal (jobS [])) (fun t => t.dev.job.bow = some bowA && t.dev.job.edge = 1) = true := by
  refine ⟨sound (by decide +kernel), ?_⟩; decide +kernel

/-- The job after its seal, with the result of `recs` records arrived. -/
def settleS (ps : List Prog) : State :=
  jobS ([modJob fun j => { j with edge := 1, bow := some bowA }, ioSet (red 0x120) 5, ioSet (red 0x11C) 9] ++ ps)

/-- R313, R314: all records have come, or one is missing. -/
theorem test_settle :
    let s := settleS []
    let m := settleS [setFld (red 0x108) 28 19 1]
    s.edgeDue 1 (s.fld (red 0x104) 23 0) = true ∧
      (match s.figRange (s.redAddr 0x114) 2 false true with
       | .ok l => decide (l = [(s.redAddr 0x114, 0x20000000000, 2)]) | .error _ => false) = true ∧
      after (exec .bowSettle s) (fun t =>
        t.fld aBowres 31 30 = 1 && t.rdNat 0x20000000000 2 = 0xFE03 && t.tok 2 9 = 1 && t.tok 1 9 = 0) = true ∧
      after (exec .bowSettle m) (fun t =>
        t.fld aBowres 31 30 = 3 && t.fld aBowres 29 26 = 1 && t.dev.stop.due = some (bowError 1).code) = true := by
  decide +kernel

/-- R217, R221: the outcome opens the window; the commit counts the step, or stops a job whose core has not arrived. -/
theorem test_outcome_commit :
    let o := settleS [modJob fun j => { j with edge := 2 }, setFld aBowres 31 30 1]
    let g := settleS [modJob fun j => { j with edge := 2 }, setFld aBowres 31 30 1, setGnf 7]
    let c := settleS [modJob fun j => { j with edge := 3 }, setFld aStepStat 25 24 2, setFld aStepStat 27 26 1,
      setPair (upd 0x114) (2 ^ 64 - 1)]
    let c1 := settleS [modJob fun j => { j with edge := 3 }, setFld aStepStat 25 24 2, setFld aStepStat 27 26 1]
    let ce := settleS [modJob fun j => { j with edge := 3 }, setFld aStepStat 25 24 2, setFld aStepStat 27 26 1,
      setPair (upd 0x114) (2 ^ 64 - 1), ioSet (upd 0x148) 1]
    let v := settleS [modJob fun j => { j with edge := 2, evaluating := some (1, 0) }, setFld aBowres 31 30 1]
    o.edgeDue 2 (o.fld (upd 0x134) 23 0) = true ∧
      after (exec .outcomeBeat v) (fun t => t.dev.job.evaluating = none && t.fld (upd 0x200) 31 31 = 1 && t.phase = 2) = true ∧
      after (exec .outcomeBeat o) (fun t => t.phase = 2 && t.outcome = 1) = true ∧
      g.dev.job.gnfSince = true ∧ after (exec .outcomeBeat g) (fun t => told g t 0xC8 .gnfLate && t.phase = 1) = true ∧
      c.edgeDue 3 (c.fld (upd 0x138) 23 0) = true ∧ c.window = true ∧
      after (exec .commitBeat c) (fun t => t.ioVal (upd 0x100) = 1 && t.phase = 1 && t.pair (upd 0x114) = 0) = true ∧
      after (exec .commitBeat c1) (fun t => told c1 t 0xD0 .stepOverrun && t.ioVal (upd 0x100) = 0) = true ∧
      after (exec .commitBeat ce) (fun t => !t.job && t.phase = 0 && t.devState = 2) = true := by
  decide +kernel

/-- R259, R231, R232, R432: PREREPORT in the window; STOP of a job, by its own error and by a neighbour's. -/
theorem test_stop :
    let w := settleS [setFld aStepStat 25 24 2, setFld aStepStat 27 26 1, modHart 64 fun h => { h with run := true }]
    let d := settleS [modStop fun x => { x with due := some 0x1234 }, modHart 3 fun h => { h with run := true }]
    let n := settleS [modLink 5 fun k => { k with st := 3 }]
    let f := settleS [modStop fun x => { x with forceAt := some 44000, parts := 1 }]
    writable w (.caller 0) (upd 0x214) ∧
      after (exec (.prereport (.caller 0) 77) w) (fun t => t.fld (upd 0x20C) 11 0 = 77 && t.fld (upd 0x20C) 31 31 = 1) = true ∧
      after (exec .stop d) (fun t => !t.job && t.phase = 3 && t.devState = 5 && !(t.hart 3).run && t.dev.stop.due = none) = true ∧
      n.jobParts = [0] ∧
      after (exec (.stopReceived 5) n) (fun t => t.dev.stop.active && t.fld (ioa (hpPage 0) 0x120) 1 1 = 1) = true ∧
      after (exec .jobIrqDeadline f) (fun t => decide (44000 ≤ t.dev.beat.time) && t.fld (ioa (hpPage 0) 0x120) 1 1 = 1) = true := by
  unfold writable; decide +kernel

/-- Link 2 is the parent, with sixteen measurements of 20 ps. -/
def beatS (v : Int) (ps : List Prog) : State :=
  mk ([modLink 2 fun k => { k with st := 3, seen := true, plock := true, thetas := List.replicate 16 v },
       setFld aBstat 29 28 0, setFld aBstat 5 0 2] ++ ps)

/-- R270, R271: an evaluation at 20 ps counts as good; a second at 2,000 ps clears LOCK. -/
theorem test_beat_evaluation :
    let g := beatS 20 []
    let b := beatS 2000 [setFld aBstat 31 31 1, modBeat fun x => { x with bad := 1 }]
    g.Inv ∧ g.parent = some 2 ∧ g.ridge = false ∧ trimmed (g.link 2).thetas = 20 ∧
      after (exec .beatEvaluation g) (fun t =>
        t.dev.beat.rate = -5 && t.dev.beat.step = -20 && t.dev.beat.good = 1 && (t.link 2).thetas = []) = true ∧
      after (exec .beatEvaluation b) (fun t => told b t 0xC .beatUnlock && t.fld aBstat 31 31 = 0) = true := by
  unfold State.Inv; decide +kernel

/-- R265, R267, R268, R271, R300, R304: holdover, the reference, the chain and the count. -/
theorem test_beat_sources :
    let p := beatS 20 [modLink 2 fun k => { k with plock := false, phops := 255 }]
    let h := mk [modBeat fun b => { b with hold := some 0 }, setFld aBstat 31 31 1]
    let r := mk [setFld aBeatCfg 0 0 1]
    let c := mk [setFld (ioa 0xA 0x100) 31 31 1, modHart 64 fun x => { x with run := true }, modBeat fun b => { b with count := 0x500000007 }]
    p.parent = some 2 ∧ (p.link 2).holds = false ∧ (∀ m, m < 48 → (p.link m).candidate = false) ∧
      after (exec .holdoverStart p) (fun t => t.parent = none && t.dev.beat.hold = some 0) = true ∧
      after (exec .holdoverTimeout h) (fun t => told h t 0xC .beatUnlock && t.dev.beat.hold = none) = true ∧
      r.ridge = true ∧ r.fld aBeatCfg 1 1 = 0 ∧
      after (exec .refLost r) (fun t => told r t 0xC .refLost && t.dev.beat.refLost) = true ∧
      after (exec .refReturn r) (fun t => keeps [.beat] r t) = true ∧
      c.passing = false ∧ c.ridge = false ∧ c.parent = none ∧
      after (exec (.beatChainInput 77) c) (fun t => t.beat = 77 && t.fld aBstat 28 28 = 1) = true ∧
      after (exec (.cntLoRead (.caller 0)) c) (fun t => t.dev.readData = [7, 0, 0, 0] && t.dev.beat.latch = 5) = true := by
  decide +kernel

/-! ### Headers, links and slots -/

/-- R268, R269: slot-0 headers on link 2: at the Ridge, from the parent, while the count is to be stepped, and from the
first candidate. -/
theorem test_slot0 :
    let h : Slot0Hdr := { beat := 3, lock := true, hops := 1, tstamp := 3 * 1024000, techo := 0, t2 := 3 * 1024000 + 40, t3 := 0 }
    let up := fun ps => mk ([modLink 2 fun k => { k with st := 3 }, modBeat fun b => { b with count := 3 }] ++ ps)
    let r := up [setFld aBeatCfg 0 0 1]
    let p := up [setFld aBstat 5 0 2]
    let e := up [setFld aBstat 5 0 2, modBeat fun b => { b with stepNext := true, count := 0 }]
    (up []).Inv ∧ ((up []).link 2).timed = true ∧ r.ridge = true ∧ delayOf h = 20 ∧ thetaOf h = 20 ∧
      after (exec (.slot0HeaderReceived 2 h) r) (fun t => (t.link 2).thetas = [20] && t.fld (ioa (linkPage 2) 0x108) 31 0 = 20) = true ∧
      p.parent = some 2 ∧ p.nearBeat h 20 = 3 ∧
      after (exec (.slot0HeaderReceived 2 h) p) (fun t => t.parent = some 2 && t.fld aBstat 13 6 = 2) = true ∧
      after (exec (.slot0HeaderReceived 2 h) e) (fun t => t.beat = 3 && t.dev.beat.sub = 0 && !t.dev.beat.stepNext) = true ∧
      (up []).parent = none ∧ (∀ m, m < 48 → m ≠ 2 → ((up []).link m).candidate = false) ∧
      after (exec (.slot0HeaderReceived 2 h) (up [])) (fun t => t.parent = some 2) = true := by
  unfold State.Inv; decide +kernel

/-- Link 2 in state `st`. -/
def linkS (st : Nat) (ps : List Prog) : State := mk ([modLink 2 fun k => { k with st := st }] ++ ps)

/-- R275, R279, R293: training, loss and flit errors. -/
theorem test_link_training :
    let d := linkS 3 [modJob fun j => { j with linkset := 4 }, ioSet aFig 0xA0000000]
    (linkS 1 []).Inv ∧ after (exec (.laneLock 2) (linkS 1 [])) (fun t => (t.link 2).st = 2 && (t.link 2).lanes = 15) = true ∧
      after (exec (.trainFail 2) (linkS 1 [])) (fun t => (t.link 2).st = 7 && told (linkS 1 []) t 0x82 .trainFail) = true ∧
      d.inLinkset 2 = true ∧ after (exec (.laneLockLoss 2) d) (fun t => (t.link 2).st = 1 && told d t 0x82 .linkDown) = true ∧
      after (exec (.laneLockLoss 2) (linkS 2 [])) (fun t => (t.link 2).st = 1) = true ∧
      after (exec (.flitError 2 false .codeword) (linkS 3 [])) (fun t =>
        told (linkS 3 []) t 0x82 .linkReplay && t.fld (ioa 0x82 0x110) 31 0 = 1) = true ∧
      after (exec (.flitError 2 true .crc) (linkS 3 [])) (fun t => told (linkS 3 []) t 0x82 .linkUe) = true ∧
      after (exec (.flitError 2 false .corrected) (linkS 3 [])) (fun t => t.fld (ioa 0x82 0x10C) 31 0 = 1) = true := by
  unfold State.Inv; decide +kernel

/-- R276, R277: the neighbour in + X of a torus of 2 × 1 × 1 is right; another VERSION is not. -/
theorem test_id_record :
    let r : IdRecord := ⟨0, BitVec.ofNat 64 (10 * 2 ^ 56 + 0x2000 * 2 ^ 20 + 0x2000), 7, 1, 0⟩
    let s := linkS 2 [ioSet aTsize 0x2000]
    idBad r = false ∧ idSysid r = s.fld aBeatCfg 31 16 ∧ idTsize r = s.fld aTsize 19 0 ∧ idLink r = wantLink 2 ∧
      (∀ e, e < 3 → e ≠ linkDim 2 → dimBits e (idCoord r) = s.coord e) ∧
      distance (linkPlus 2) (s.coord 0) (dimBits 0 (idCoord r)) (s.size 0) = 1 % s.size 0 ∧ s.loaded = idFig r ∧
      after (exec (.idRecordReceived 2 r) s) (fun t => (t.link 2).st = 3 && t.ioVal (ioa 0x82 0x104) = 0x2000) = true ∧
      idBad { r with w3 := 2 } = true ∧
      after (exec (.idRecordReceived 2 { r with w3 := 2 }) s) (fun t => (t.link 2).st = 6 && told s t 0x82 .nbrMismatch) = true := by
  decide +kernel

/-- A packet of eight bytes for the device at X = `x`. -/
def packet (x : Nat) : BePacket :=
  { daddr := 0x20000000040, src := 0x2000, dest := BitVec.ofNat 20 (x * 0x2000), seqNo := 5, inject := 1,
    data := [1, 2, 3, 4, 5, 6, 7, 8] }

/-- R295-R298: a packet goes on, arrives, is passed on, and is acknowledged. -/
theorem test_best_effort :
    let h : BeHop := ⟨false, packet 1⟩
    let f := linkS 3 [modLink 2 fun k => { k with hops := [h] }]
    let d := linkS 3 [ptt, ioSet aTsize 0x2000]
    let a := linkS 3 [modLink 2 fun k => { k with beOut := [⟨4, 0x2000, true, 6⟩] }]
    beFirst false (f.link 2).hops = some h ∧
      after (exec (.bePacketForward 2 false) f) (fun t => (t.link 2).hops = [] && t.dev.lastOut ≠ []) = true ∧
      (packet 0).dest.toNat = d.coordWord ∧
      (match d.figRange 0x20000000040 8 false true with
       | .ok l => decide (l = [(0x20000000040, 0x20000000040, 8)]) | .error _ => false) = true ∧
      allStage [(0x20000000040, 0x20000000040, 8)] = true ∧ d.durable 0x20000000040 8 = false ∧
      after (exec (.bePacketDelivery 2 (packet 0)) d) (fun t =>
        t.rdNat 0x20000000040 8 = 0x0807060504030201 && t.dev.lastOut = toBytes 8 5) = true ∧
      d.beDim 0x2000 = some 0 ∧ d.beLink 0 (d.bePlus 0 0x2000) 0x2000 0x2000 = some 2 ∧
      after (exec (.bePacketDelivery 2 (packet 1)) d) (fun t => (t.link 2).hops.map BeHop.pkt = [packet 1]) = true ∧
      after (exec (.beAcknowledgement ⟨2, 4⟩) a) (fun t => (t.link 2).beOut = [] && t.tok 130 6 = 1) = true := by
  decide +kernel

/-- Best-effort data lands in sound memory. -/
theorem test_best_effort_sound : (linkS 3 [ptt, ioSet aTsize 0x2000]).undamaged := sound (by decide +kernel)

/-- R280, R290, R291: link 2 UP with a descriptor of beat 5, slot 2 in its transmit or its receive queue. -/
def txS (ps : List Prog) : State :=
  linkS 3 ([modLink 2 fun k => { k with txq := [dTx2], lastSlot := some 41 },
    modBeat fun b => { b with count := 5, sub := 2 * slotLen }] ++ ps)
where dTx2 : SDesc := ⟨5 * 8 + 2, BitVec.ofNat 64 (2 ^ 51)⟩
def rxS (kind : Nat) (ps : List Prog) : State :=
  linkS 3 ([modLink 2 fun k => { k with rxq := [⟨5 * 8 + 2, BitVec.ofNat 64 (2 ^ 63 + kind * 2 ^ 60 + 2 ^ 51)⟩] }] ++ ps)

/-- R290: a ready image leaves; one that is not filled is a SLOT_MISS; an idle link sends its header. -/
theorem test_slot_start :
    let k := txS [modLink 2 fun k => { k with tx := Tab.insert 0 { fill := 256 } k.tx }, writeAt (txAddr 2 0) [1, 2, 3, 4, 5, 6, 7, 8]]
    let u := txS []
    let m := linkS 3 [modLink 2 fun k => { k with txq := [⟨1, BitVec.ofNat 64 (2 ^ 51)⟩] }, modBeat fun b => { b with count := 5 }]
    k.undamaged ∧ ((k.link 2).txq.all fun d => d.at k = k.nextSlot 2 && d.kind = 0 && ((k.link 2).txi d.img).fill = d.nflit * 256) = true ∧
      after (exec (.slotStart 2) (linkS 3 [])) (fun t => t.dev.lastOut.length = 32 && bytesAt t.dev.lastOut 0 2 = 0x5A3C) = true ∧
      after (exec (.slotStart 2) u) (fun t => told u t 0x82 .slotMiss && (t.link 2).txq = [] && (t.link 2).quiet) = true ∧
      after (exec (.slotStart 2) m) (fun t => told m t 0x82 .slotMiss && (t.link 2).txq = [] && (t.link 2).lastSlot = some 40) = true := by
  refine ⟨sound (by decide +kernel), ?_⟩; decide +kernel

/-- R290: what leaves begins with the header of beat 5. -/
theorem test_slot_sent :
    after (exec (.slotStart 2)
        (txS [modLink 2 fun k => { k with tx := Tab.insert 0 { fill := 256 } k.tx }, writeAt (txAddr 2 0) [1, 2, 3, 4, 5, 6, 7, 8]]))
      (fun t => (t.link 2).txq = [] && bytesAt t.dev.lastOut 2 6 = 5) = true := by
  decide +kernel

/-- R291: the header of the first receive; a header that none awaits; a slot that passes. -/
theorem test_slot_header :
    let h : SlotHdr := { beat := 5, slot := 2, nflit := 1, stream := 0 }
    after (exec (.slotHeaderReceived 2 h) (rxS 0 [])) (fun t => (t.link 2).rxq = [] && (t.link 2).cur.isSome) = true ∧
      after (exec (.slotHeaderReceived 2 h) (linkS 3 [])) (fun t => told (linkS 3 []) t 0x82 .slotUnexpected) = true ∧
      ((rxS 0 []).link 2).rxq.all (fun d => (rxS 0 []).reach d.beat) = true ∧
      after (exec (.receiveSlotPasses 2) (rxS 0 [])) (fun t => told (rxS 0 []) t 0x82 .slotEmpty && (t.link 2).rxq = []) = true := by
  decide +kernel

/-- A link in the middle of a receive of `kind` with RPAR `par`. -/
def curS (kind par : Nat) (ps : List Prog) : State :=
  linkS 3 ([modLink 2 fun k => { k with cur := some ⟨5 * 8 + 2, BitVec.ofNat 64 (2 ^ 63 + kind * 2 ^ 60 + 2 ^ 51 + par)⟩ }] ++ ps)

/-- Four bytes and zeros up to 256. -/
def img256 : List Byte := [1, 2, 3, 4] ++ List.replicate 252 0

/-- R291: the payload stands in the image. -/
theorem test_slot_receive :
    after (exec (.slotReceiveComplete 2 img256) (curS 0 0 [])) (fun t =>
      t.rdNat (rxAddr 2 0) 4 = 0x04030201 && (t.link 2).cur = none && ((t.link 2).rxi 0).st = 2) = true := by
  decide +kernel

/-- A Bow record of step 0 with the exponents 5 and -3. -/
def bowBytes : List Byte := List.replicate 17 0 ++ [1, 2, 0] ++ List.replicate 44 0 ++ [5, 0xFD] ++ List.replicate 190 0

/-- R311: the record joins the accumulator: the greater exponents. -/
theorem test_bow_receive :
    let a : Bow :=
      { stepmin := 0, stepmax := 0, nf := false, fpdis := false, genmask := 1, nfsrc := 0xFFFFFFFF, nb := 2, exps := [3, -2] }
    let s := curS 1 0 [modJob fun j => { j with bow := some a }]
    bowBad 2 bowBytes = false ∧
      after (exec (.bowReceive 2 bowBytes) s) (fun t =>
        t.fld aBowres 19 10 = 1 && t.dev.job.bow.any fun a => a.exps = [5, -2] && a.genmask = 1 && !a.fpdis) = true := by
  decide +kernel

/-! ### Reels, bridges, banks, registers and mailboxes -/

/-- R321: the payload of 40-bit elements stands in the image; with LADD it is added to a transmit image. -/
theorem test_reel_receive :
    let a := curS 2 0 []
    let b := curS 2 (2 ^ 29) [writeAt (txAddr 2 0) [1, 0, 0, 0, 0, 0, 0, 0]]
    ((a.link 2).cur.all fun d => d.kind = 2 && d.par 29 29 = 0 && d.par 24 24 = 0 && d.nflit = 1) = true ∧
      ((b.link 2).cur.all fun d => d.kind = 2 && d.par 29 29 = 1 && d.par 28 28 = 0 && d.par 27 25 = 0) = true ∧
      after (exec (.reelReceive 2 img256) a) (fun t => (t.link 2).cur = none && ((t.link 2).rxi 0).st = 2) = true ∧
      after (exec (.reelReceive 2 img256) b) (fun t => (t.link 2).cur = none && ((t.link 2).txi 0).fill = 0) = true := by
  decide +kernel

/-- Bridge 0 of generation 1 on link 2, in a job; its result of two elements at the start of a stage memory. -/
def brS (ps : List Prog) : State :=
  jobS ([ioSet (brReg 0 0) 0xA1000000, ioSet (brReg 0 0xC) 2, modLink 2 fun k => { k with st := 3, pers := 1 },
         ioSet (brReg 0 0x14) 0x200, ioSet (brReg 0 0x18) 0x100, ioSet (brReg 0 0x1C) 0x200] ++ ps)

/-- A frame of type `typ`. -/
def frameT (typ : BitVec 8) (payload : List Byte) : BridgeFrame :=
  { typ := typ, gen := 1, len := BitVec.ofNat 16 payload.length, step := 0, offset := 0, scale := 0x3F800000, credits := 3,
    outc := 0, payload := payload }

/-- R324: the window opens; R324, R325: a frame lands or is refused. -/
theorem test_bridge_window :
    let o := brS [modBridge 0 fun b => { b with closed := false, credit := 64 }]
    (brS []).brLive 0 = true ∧ (brS []).edgeDue 0 ((brS []).fld (brReg 0 4) 23 0) = true ∧ ((brS []).bridge 0).closed = true ∧
      after (exec (.bridgeWindowOpen 0) (brS [])) (fun t => !(t.bridge 0).closed && (t.bridge 0).credit = 64) = true ∧
      o.frameRefused 0 (frameT 1 [1, 2]) = false ∧ (brS []).frameRefused 0 (frameT 1 [1, 2]) = true ∧
      (match o.figRange 0x20000000000 2 false true with
       | .ok l => decide (l = [(0x20000000000, 0x20000000000, 2)]) | .error _ => false) = true ∧
      after (exec (.bridgeDataFrame 0 (frameT 1 [1, 2])) o) (fun t =>
        t.rdNat 0x20000000000 2 = 0x201 && (t.bridge 0).got = [(0, 2)] && (t.bridge 0).steps = some (0, 0, 0)) = true ∧
      after (exec (.bridgeDataFrame 0 (frameT 1 [1, 2])) (brS [])) (fun t => told (brS []) t 0xC8 .bridgeFormat) = true := by
  decide +kernel

/-- R323, R328, R329: credits, NAK, STOP and its acknowledgement, a CRC failure and the repeat of a STOP. -/
theorem test_bridge_frames :
    let p := brS [modBridge 0 fun b => { b with stopping := true }]
    after (exec (.bridgeCreditFrame 0 (frameT 3 [])) (brS [])) (fun t => (t.bridge 0).grant = 3) = true ∧
      after (exec (.bridgeNakFrame 0 (frameT 4 [])) (brS [])) (fun t => told (brS []) t 0xC8 .bridgeRetry) = true ∧
      after (exec (.bridgeStopFrame 0 (frameT 2 [])) (brS [])) (fun t =>
        told (brS []) t 0xC8 .bridgeStop && t.fld (brReg 0 0x34) 27 27 = 1) = true ∧
      after (exec (.bridgeStopAckFrame 0 (frameT 5 [])) p) (fun t => !(t.bridge 0).stopping) = true ∧
      after (exec (.bridgeFrameCrcFail 0) (brS [])) (fun t => told (brS []) t 0xC8 .bridgeRetry) = true ∧
      (brS []).brOn 0 = true ∧
      after (exec (.bridgeStopRepeat 0) p) (fun t => t.dev.lastOut.take 2 = [2, 1]) = true := by
  decide +kernel

/-- R326-R328: the window's end, the scan, the conversion and the return. -/
theorem test_bridge_result :
    let e := brS [modBridge 0 fun b => { b with closed := false, got := [(0, 4)] }]
    let m := brS [modBridge 0 fun b => { b with closed := false }]
    let sc := brS [modBridge 0 fun b => { b with scanning := true }]
    let cv := brS [modBridge 0 fun b => { b with converting := true }, modJob fun j => { j with bow := some bowA }]
    (e.bridge 0).have = 2 * e.brCount 0 ∧
      after (exec (.bridgeWindowEnd 0) e) (fun t => (t.bridge 0).scanning && (t.bridge 0).closed) = true ∧
      after (exec (.bridgeWindowEnd 0) m) (fun t => told m t 0xC8 .bridgeWindow) = true ∧
      after (exec (.bridgeScanDone 0) sc) (fun t => !(t.bridge 0).scanning && t.fld (brReg 0 0x34) 29 29 = 1) = true ∧
      (match cv.figRange 0x20000000100 4 false true with
       | .ok l => decide (l = [(0x20000000100, 0x20000000100, 4)]) | .error _ => false) = true ∧
      after (exec (.bridgeConversion 0) cv) (fun t => !(t.bridge 0).converting && t.fld (brReg 0 0x34) 28 28 = 1) = true ∧
      after (exec (.bridgeReturnStart 0) (brS [])) (fun t => (t.bridge 0).ret = some 0) = true := by
  decide +kernel

/-- A request of a bank. -/
def bq (page addr row : Nat) (write : Bool) (since : Option Nat) : BReq :=
  { page := page, addr := addr, row := row, write := write, passes := 0, promoted := false, since := since,
    data := if write then (range 0 32).map fun i => (addr + i, BitVec.ofNat 8 (i + 1)) else [] }

/-- Two requests of stacked memory at bank 0, the second of the open row; two presented and one not yet presented wait. -/
def bankS (ps : List Prog) : State :=
  mk ([modBank 0 fun _ =>
         { queue := [bq 0x20 0 1 false none, bq 0x20 32 2 false none], openRow := some 2,
           waiting := [bq 0x22 96 3 false none, bq 0x23 64 3 true (some 4), bq 0x21 64 3 true (some 4)] }] ++ ps)

/-- R172-R174: the waiting request is admitted, and the open-row hit is served first. -/
theorem test_bank :
    (bankS []).Inv ∧ bankNum (.stacked 0 0 0) = 0 ∧
      after (exec (.bankAdmission (.stacked 0 0 0)) (bankS [])) (fun t =>
        (t.bank 0).queue.map BReq.page = [0x20, 0x20, 0x21] && (t.bank 0).waiting.length = 2
          && t.rdNat 64 8 = 0x0807060504030201) = true ∧
      after (exec (.bankTurn (.stacked 0 0 0) .clean) (bankS [])) (fun t => (t.bank 0).queue.map BReq.row = [1]) = true := by
  unfold State.Inv; decide +kernel

/-- R177, R178, R181: a scrub of stacked memory. -/
theorem test_scrub :
    let s := mk [setFld (ioa (clusPage 0) 0x100) 7 0 1]
    bankOf 0x40 = some (0, 0, clusPage 0, 0, 0) ∧ s.disabled 0x40 = false ∧ stays (exec (.scrub 0x45 .clean) s) s = true ∧
      after (exec (.scrub 0x45 (.corrected 9)) s) (fun t => told s t (clusPage 0) .memCe && t.mem = s.mem) = true ∧
      after (exec (.scrub 0x45 .uncorrectable) s) (fun t => told s t (clusPage 0) .memUe && t.poisoned 0x47) = true := by
  decide +kernel

/-- Host 0 has the first GiB of stacked memory, with all rights; Caller core 0 runs. -/
def hostS (ps : List Prog) : State :=
  mk ([setFld (ioa 1 0x100) 3 0 15, ioSet (ioa 1 0x134) 1, setFld (ioa 8 0x100) 31 28 5, ioSet aState 2,
       modHart 64 fun h => { h with run := true }, writeAt 0x40 [1, 2, 3, 4, 5, 6, 7, 8]] ++ ps)

/-- R339, R404: reads and writes of host 0, in and out of its ranges, and of the BOOT window in WAIT. -/
theorem test_host_memory :
    let w := hostS [setFld (ioa 8 0x100) 31 28 1, writeAt bootBase [9, 8, 7, 6, 5, 4, 3, 2]]
    (hostS []).present 0 = true ∧ (hostS []).hdmAt 0 0x40 8 = some 0x40 ∧ (hostS []).hdmAt 0 0x40000000 8 = none ∧
      (∀ x, 0x40 ≤ x → x < 0x40 + 8 → Tab.get (fun _ => 0) (hostS []).xp (x / 8) = 0 ∧ (hostS []).disabled x = false) ∧
      after (exec (.cxlMemAccess 0 0x40 (.read 8)) (hostS [])) (fun t => t.dev.readData = [1, 2, 3, 4, 5, 6, 7, 8]) = true ∧
      after (exec (.cxlMemAccess 0 0x40000000 (.read 8)) (hostS [])) (fun t => t.dev.readPoison) = true ∧
      after (exec (.cxlMemAccess 0 0x48 (.write [5, 6])) (hostS [])) (fun t => t.rdNat 0x48 2 = 0x605) = true ∧
      after (exec (.cxlMemAccess 0 0x40000000 (.write [5])) (hostS [])) (fun t => told (hostS []) t 1 .hostMemRange) = true ∧
      w.bootOpen = true ∧ after (exec (.cxlMemAccess 0 0 (.bootRead 8)) w) (fun t => t.dev.readData.take 2 = [9, 8]) = true ∧
      after (exec (.cxlMemAccess 0 0 (.bootWrite [4])) w) (fun t => t.rdNat bootBase 1 = 4) = true ∧
      after (exec (.cxlMemAccess 0 0 (.bootRead 1)) (hostS [])) (fun t => t.dev.readData = [0]) = true ∧
      stays (exec (.cxlMemAccess 0 0 (.bootWrite [4])) (hostS [])) (hostS []) = true ∧
      ((hostS []).bankWaits fun q => q.page = hpPage 0) = false ∧ barAligned 2 4 = false ∧
      after (exec (.cxlMemAccess 0 0x20108 (.bar0Read 4)) (hostS [ioSet (ioa 0x20 0x108) 7])) (fun t => t.dev.readData = [7, 0, 0, 0]) = true ∧
      after (exec (.cxlMemAccess 0 2 (.bar0Read 4)) (hostS [])) (fun t => t.dev.readData = []) = true ∧
      after (exec (.cxlMemAccess 0 4 (.bar2Read 4)) (hostS [setSlot 0 1 3])) (fun t => t.dev.readData = [0x30, 0, 0, 0]) = true := by
  decide +kernel

/-- R336, R341: the lanes of host 0 reset and come up, with message 3 pending. -/
theorem test_cxl_lanes :
    let s := hostS [modPart 0 fun x => { x with pba := 8 }]
    after (exec (.cxlLinkReset 0) s) (fun t => !(t.part 0).cxlUp) = true ∧
      after (exec (.cxlLinkUp 0) s) (fun t => (t.part 0).cxlUp && (t.part 0).msix = [3] && (t.part 0).pba = 0) = true := by
  decide +kernel

/-- R3, R4, R344: a register of the core page, while core 0 is idle and while it runs; COMMIT. -/
theorem test_registers :
    let s := hostS []
    let r := hostS [modHart 0 fun h => { h with run := true }]
    let k := hostS [(Eff.shadow (ioa 0x20 0x108) 0xFFFFFFFF00000055).prog]
    writable s (.caller 0) (ioa 0x20 0x108) ∧ s.running 0x20 = false ∧ r.running 0x20 = true ∧
      after (exec (.registerWrite (.caller 0) (BitVec.ofNat 24 (ioa 0x20 0x108)) 77) s) (fun t => t.ioVal (ioa 0x20 0x108) = 77) = true ∧
      after (exec (.registerWrite (.caller 0) (BitVec.ofNat 24 (ioa 0x20 0x100)) 0x400) r) (fun t =>
        t.ioVal (ioa 0x20 0x100) = r.ioVal (ioa 0x20 0x100)) = true ∧
      after (exec (.registerWrite (.caller 0) (BitVec.ofNat 24 (ioa 0x200 0)) 7) s) (fun t => told s t (agentPage (.caller 0)) .ioUnmapped) = true ∧
      after (exec (.commit (.caller 0) 0x20 1) k) (fun t => t.ioVal (ioa 0x20 0x108) = 0x55 && t.shadow = []) = true ∧
      stays (exec (.commit (.caller 0) 0x20 0) k) k = true := by
  unfold writable; decide +kernel

/-- R344: a host without the rights. -/
theorem test_register_denied :
    let s := hostS [setFld (ioa 1 0x100) 3 0 0]
    s.barUp 0 = true ∧ s.mayWrite 0 0xC = false ∧
      after (exec (.registerWrite (.host 0) (BitVec.ofNat 24 (ioa 0xC 0x100)) 77) s) (fun t => told s t 0xC .hostWprot) = true := by
  decide +kernel

/-- R350, R351: the doorbell, the acknowledgement and writes to slot 1 of host 0. -/
theorem test_mailbox_slot :
    let q := hostS [setSlot 0 1 1]
    let d := hostS [setSlot 0 1 3]
    after (exec (.doorbell 0 1) (hostS [])) (fun t => t.mbSlot 0 1 = 1 && (t.part 0).order = [1]) = true ∧
      after (exec (.doorbell 0 1) q) (fun t => told q t 1 .mbProtocol) = true ∧
      after (exec (.mback 0 2) d) (fun t => t.mbSlot 0 1 = 0) = true ∧ Tab.wf (fun _ => 0) (d.part 0).slots = true ∧
      after (exec (.mailboxSlotWrite 0 0x2010 [1, 2, 3, 4]) (hostS [])) (fun t => t.rdNat (slotAddr 0 1 + 0x10) 4 = 0x04030201) = true ∧
      after (exec (.mailboxSlotWrite 0 0x2010 [1, 2, 3, 4]) q) (fun t => told q t 1 .mbProtocol) = true := by
  decide +kernel

/-- R262, R426, R430: CLAIM and DONE of a D record, PMDATA, and the checker's test access to block 5 of core 0's tiles. -/
theorem test_collector :
    let c := hostS [setSlotSt 1 1]
    let d := hostS [setSlotSt 1 2]
    let p := hostS [ioSet (upd 0x220) 8, writeAt (pm 8) [1, 2, 3, 4]]
    let x := hostS [setPair (ioa 0xE 0x1C4) 0x1122334455667788, ioSet (ioa 0xE 0x1CC) 0x20304]
    after (exec (.claim (.caller 0)) c) (fun t => t.dev.readData = [1, 0, 0, 0x80] && t.slotSt 1 = 2) = true ∧
      after (exec (.claim (.caller 0)) (hostS [])) (fun t => t.dev.readData = [0, 0, 0, 0]) = true ∧
      writable d (.caller 0) (ioa 0xE 0x10C) ∧ after (exec (.done (.caller 0) 1) d) (fun t => t.slotSt 1 = 0) = true ∧
      stays (exec (.done (.caller 0) 0) d) d = true ∧
      after (exec (.pmdata (.caller 0)) p) (fun t => t.dev.readData = [1, 2, 3, 4] && t.fld (upd 0x220) 21 2 = 3) = true ∧
      writable x (.caller 0) (ioa 0xE 0x1C0) ∧ 5 < xpBlocks 5 0 ∧
      after (exec (.xptestWrite (.caller 0) 0x45000005) x) (fun t =>
        t.blkData (xpAddr 5 0 5 / 8) = 0x1122334455667788 && (t.chk (xpAddr 5 0 5 / 8)).col = 3) = true ∧
      after (exec (.xptestRead (.caller 0) 0x85000005) x) (fun t => t.pair (ioa 0xE 0x1C4) = 0) = true ∧
      after (exec (.xptestWrite (.caller 0) 0x45010000) x) (fun t => told x t 0xE .hostWprot) = true := by
  unfold writable; decide +kernel

/-! ### Commands of the hosts -/

/-- Slot 1 of host 0 holds a command with opcode `op`, ARGLEN `n` and the arguments `args`, each at its offset; the key is
32 zeros, the counter 1 and the TAG `tag`. -/
def cmdS (op n : Nat) (args : List (Nat × List Byte)) (tag : List Byte) (ps : List Prog) : State :=
  hostS
    ([modPart 0 fun x => { x with order := [1], key := some (List.replicate 32 0) }, setSlot 0 1 1,
      writeAt (slotAddr 0 1) (toBytes 2 op ++ toBytes 2 n), writeAt (slotAddr 0 1 + 8) [1], writeAt (slotAddr 0 1 + 16) tag,
      forEach args fun x => writeAt (slotAddr 0 1 + 0x40 + x.1) x.2] ++ ps)

/-- The TAG that the key gives (R354). -/
def tagOf (s : State) : List Byte := kmac256 (List.replicate 32 0) (s.tagMessage 0 1) 16 "QZG1-CMD"

/-- A command in slot 1 of host 0 is offered when its gates pass and no check bit is out of the ordinary. -/
theorem offered_of {s : State} {op : Nat} {r : CmdRow} (hx : s.xp = []) (hr : cmdRow op = some r)
    (hg : (s.dev.pwr.on && s.nextCmd 0 = some 1 && s.opcode 0 1 = op && s.headerOk 0 1 && s.gateA 0 1 r = none
      && s.gateB 0 1 r = none && s.ioVal (ioa (hpPage 0) 0x118) = 0) = true)
    (hd : ((range 0 0x400).all fun k => !s.disabled (slotAddr 0 1 + 0xC00 + k)) = true)
    (hj : ((range 0 64).all fun k => !s.disabled (journalAddr 0 0 + k)) = true) : offered s 0 1 op := by
  simp only [Bool.and_eq_true, decide_eq_true_eq] at hg
  obtain ⟨⟨⟨⟨⟨⟨h1, h2⟩, h3⟩, h4⟩, h5⟩, h6⟩, h7⟩ := hg
  have area {a n : Nat} (h : ((range 0 n).all fun k => !s.disabled (a + k)) = true) : ordinary s a n := by
    intro x hl hu
    refine ⟨by rw [hx]; rfl, ?_⟩
    have := List.all_eq_true.mp h (x - a) (mem_range.mpr (by omega))
    rw [Nat.add_sub_cancel' hl] at this
    simpa using this
  exact ⟨h1, by decide, h2, h3, h4, ⟨r, hr, h5, h6⟩, area hd, by rw [h7]; exact area hj⟩

/-- R356, R357: NOP and STATUS are offered, and end. -/
theorem test_offered : offered (cmdS 1 0 [] [] []) 0 1 1 ∧ offered (cmdS 2 0 [] [] []) 0 1 2 :=
  ⟨offered_of (r := ⟨[], 0, false⟩) (by decide +kernel) rfl (by decide +kernel) (by decide +kernel) (by decide +kernel),
   offered_of (r := ⟨[], 0, false⟩) (by decide +kernel) rfl (by decide +kernel) (by decide +kernel) (by decide +kernel)⟩

/-- R356, R357: NOP and STATUS end. -/
theorem test_plain_commands :
    after (exec (.mailboxNop 0) (cmdS 1 0 [] [] [])) (fun t => t.mbSlot 0 1 = 3 && (t.part 0).order = []) = true ∧
      after (exec (.status 0) (cmdS 2 0 [] [] [])) (fun t => t.mbSlot 0 1 = 3) = true := by
  decide +kernel

/-- R357: an unassigned opcode ends too, and takes a journal number. -/
theorem test_bad_opcode :
    cmdRow 0x7777 = none ∧
      after (exec (.badOpcode 0) (cmdS 0x7777 0 [] [] [])) (fun t =>
        t.mbSlot 0 1 = 3 && (t.part 0).order = [] && t.ioVal (ioa (hpPage 0) 0x118) = 1) = true := by
  decide +kernel

/-- FREEZE with its TAG, frozen or not. -/
def freezeS : State := cmdS 0x140 0 [] [63, 172, 238, 52, 165, 14, 31, 180, 144, 5, 82, 132, 34, 129, 17, 18] []

/-- R354, R356, R442: FREEZE is offered with the right TAG. -/
theorem test_freeze : offered freezeS 0 1 0x140 :=
  offered_of (r := ⟨[0], 0, true⟩) (by decide +kernel) rfl (by decide +kernel) (by decide +kernel) (by decide +kernel)

/-- R442: THAW of a frozen recorder. -/
theorem test_thaw :
    let s := cmdS 0x141 0 [] [42, 217, 153, 141, 84, 203, 18, 195, 168, 117, 122, 31, 109, 20, 124, 247]
      [setFld (ioa 0xF 0x104) 31 31 1]
    s.recFrozen = true ∧ s.dev.recd.heldEnd = 0 ∧ s.xp = [] ∧
      after (exec (.thaw 0) s) (fun t => t.ioVal (ioa 0xF 0x108) = 1) = true := by
  decide +kernel

/-- R358: JOB_LOAD of one byte at 0. -/
theorem test_job_load :
    let s := cmdS 0x101 48 [(8, [1])] [245, 103, 96, 209, 96, 100, 108, 15, 136, 199, 252, 9, 199, 138, 118, 39] []
    s.xp = [] ∧ s.arg 0 1 8 8 = 1 ∧ s.job = false ∧ s.loaded = false ∧
      after (exec (.jobLoad 0) s) (fun t =>
        t.dev.job.fetching = some (0, 1)) = true := by
  decide +kernel

/-- R14, R361: JOB_START at beat 200 of a loaded figure. -/
def startS (ps : List Prog) : State :=
  cmdS 0x102 8 [(0, [200])] [125, 181, 177, 189, 17, 170, 218, 62, 16, 100, 139, 169, 128, 1, 47, 29]
    ([ioSet aFig 0x80000000, setFld aBstat 31 31 1, ioSet (upd 0x130) 80, ioSet (red 0x100) 10, ioSet (red 0x104) 20,
      ioSet (upd 0x134) 36, ioSet (upd 0x138) 48] ++ ps)

/-- R361: JOB_START is accepted, or turned away without a figure. -/
theorem test_job_start :
    (startS []).startRefused ⟨0, 1, 0, 0⟩ 200 = none ∧
      after (exec (.jobStart 0) (startS [])) (fun t => t.dev.job.pending = some 200) = true ∧
      (startS [ioSet aFig 0]).startRefused ⟨0, 1, 0, 0⟩ 200 = some 0x12 := by
  decide +kernel

/-- R362: JOB_ABORT of a loaded figure. -/
theorem test_job_abort :
    let s := cmdS 0x103 0 [] [185, 64, 18, 28, 2, 7, 246, 95, 56, 165, 106, 83, 147, 165, 14, 147] [ioSet aFig 0x80000000]
    s.loaded = true ∧ s.owner = 0 ∧ s.job = false ∧
      after (exec (.jobAbort 0) s) (fun t => !t.loaded) = true := by
  decide +kernel

/-- R363: RESET_PARTITION of partition 1, whose PTT register is set. -/
theorem test_reset_partition :
    let s := cmdS 0x110 8 [(0, [1])] [228, 184, 62, 171, 254, 36, 215, 90, 63, 146, 109, 106, 145, 246, 28, 127]
      [modPwr fun x => { x with strap := 1 }, ioSet (ioa (hpPage 1) 0x104) 0x5000]
    s.present 1 = true ∧ s.arg 0 1 0 1 = 1 ∧
      after (exec (.resetPartition 0) s) (fun t => t.ioVal (ioa (hpPage 1) 0x104) = 0) = true := by
  decide +kernel

/-- R338: PARTITION_ASSIGN of all rights and no range to partition 0. -/
theorem test_partition_assign :
    let s := cmdS 0x111 96 [(0, [15])] [136, 144, 76, 136, 70, 130, 191, 249, 53, 140, 11, 123, 107, 115, 9, 61] []
    layoutZero (s.req 0 1 0x40 96) = true ∧ s.layoutOk (s.req 0 1 0x40 96) = true ∧
      after (exec (.partitionAssign 0) s) (fun t => t.ioVal (ioa 1 0x134) = 0) = true := by
  decide +kernel

/-- R278: SET_COORDINATE to the origin of a torus of 2 × 1 × 1. -/
theorem test_set_coordinate :
    let s := cmdS 0x120 8 [(4, [2, 1, 1])] [7, 203, 10, 209, 54, 8, 226, 108, 243, 175, 135, 109, 103, 129, 207, 207] []
    after (exec (.setCoordinate 0) s) (fun t => t.size 0 = 2) = true := by
  decide +kernel

/-- R275: LINK_ENABLE of link 2. -/
theorem test_link_enable :
    let s := cmdS 0x121 16 [(0, [4])] [197, 234, 232, 42, 190, 219, 72, 246, 85, 147, 153, 169, 20, 167, 205, 190] [ioSet aTsize 0x2000]
    s.size (linkDim 2) = 2 ∧ after (exec (.linkEnable 0) s) (fun t => (t.link 2).st = 1) = true := by
  decide +kernel

/-- R274: LINK_PERSONALITY of the DISABLED link 2. -/
theorem test_link_personality :
    let s := cmdS 0x122 8 [(0, [2, 1])] [235, 39, 57, 131, 253, 69, 255, 149, 137, 60, 11, 9, 109, 216, 110, 35] []
    (s.link 2).st = 0 ∧ after (exec (.linkPersonality 0) s) (fun t => (t.link 2).pers = 1) = true := by
  decide +kernel

/-- R415, R451, R416: KEY_INSTALL is accepted; DEBUG_UNLOCK sets the port; FUSE_PROGRAM is turned away while a job runs. -/
theorem test_security_commands :
    let k := cmdS 0x130 48 [] [] []
    let d := cmdS 0x131 8 [(0, [1])] [120, 99, 217, 66, 223, 149, 48, 156, 78, 192, 202, 92, 207, 152, 110, 90] []
    let f := cmdS 0x132 64 [] [208, 57, 62, 74, 233, 94, 1, 92, 231, 8, 125, 224, 195, 182, 94, 173] [ioSet aFig 0xA0000000]
    after (exec (.keyInstall 0) k) (fun t => t.mbSlot 0 1 = 2 && (t.part 0).active.isSome) = true ∧ bitAt d.options 16 = false ∧
      after (exec (.debugUnlock 0) d) (fun t => t.fld (ioa 0x10 0x100) 31 29 = 1) = true ∧
      f.fuseRefused 0 1 = some 0x10 ∧ after (exec (.fuseProgram 0) f) (fun t => t.ctr 0 = 1) = true := by
  decide +kernel

/-- R413: ATTEST is accepted, and fails when its window has gone. -/
theorem test_attest :
    let s := cmdS 0x10 48 [] [] [ioSet (ioa 1 0x10C) 1]
    let d := cmdS 0x10 48 [] [] [modPart 0 fun x => { x with order := [], active := some ⟨1, 0x10, 7, 0⟩ }]
    s.arg 0 1 32 8 + reportLen ≤ s.hwBytes 0 ∧ after (exec (.attest 0) s) (fun t => t.mbSlot 0 1 = 2) = true ∧
      d.hostOk 0 0 reportLen = false ∧
      after (exec (.attestDone 0) d) (fun t =>
        t.mbSlot 0 1 = 3 && (t.part 0).active = none && t.rdNat (slotAddr 0 1 + 0xC00) 4 = 0x320003) = true := by
  decide +kernel

/-- R355, R358, R416: a figure whose digest is wrong, a key blob out of reach, and the end of a fuse program. -/
theorem test_command_ends :
    let a := fun op (ps : List Prog) => cmdS op 48 [] [] ([modPart 0 fun x => { x with order := [], active := some ⟨1, op, 7, 0⟩ }] ++ ps)
    let g := a 0x101 [ptt, modJob fun j => { j with fetching := some (0x20000000000, 8), wantDigest := List.replicate 32 0 }]
    let f := cmdS 0x132 64 [(0, [3]), (8, [5])] [] [modPart 0 fun x => { x with order := [], active := some ⟨1, 0x132, 7, 0⟩ }]
    after (exec (.figureFetchDone 0) g) (fun t =>
        t.mbSlot 0 1 = 3 && !t.loaded && t.rdNat (slotAddr 0 1 + 0xC00) 4 = 0x190003) = true ∧
      after (exec (.keyInstallDone 0) (a 0x130 [])) (fun t => t.mbSlot 0 1 = 3 && t.rdNat (slotAddr 0 1 + 0xC00) 4 = 0x320002) = true ∧
      after (exec (.fuseProgramDone 0 true) f) (fun t => t.mbSlot 0 1 = 3 && t.dev.fuses.svn = 5) = true ∧
      after (exec (.fuseProgramDone 0 false) f) (fun t => t.mbSlot 0 1 = 3 && t.dev.fuses.svn = 0) = true := by
  decide +kernel

/-! ### Power, records and debugging -/

/-- A device without power, or whose rails rise. -/
def offS (rising : Bool) : State := mk [modPwr fun x => { x with on := false, rising := rising }]

/-- R398-R400: the input rises, is out of range, is lost, or a rail fails. -/
theorem test_input :
    (offS false).Inv ∧ after (exec .inputRise (offS false)) (fun t => t.dev.pwr.rising) = true ∧
      after (exec (.inputRange 57000) (mk [])) (fun t => told (mk []) t 0xB .inputRange && t.ioVal (pwr 0x104) = 57000) = true ∧
      stays (exec (.inputRange 48000) (mk [])) (mk []) = true ∧
      after (exec (.inputLoss 59000) (mk [])) (fun t => !t.dev.pwr.on && t.dev.pwr.lockout) = true ∧
      after (exec (.inputLoss 30000) (offS true)) (fun t => !t.dev.pwr.rising) = true ∧
      stays (exec (.inputLoss 48000) (mk [])) (mk []) = true ∧
      after (exec .railFault (mk [])) (fun t => !t.dev.pwr.on && t.dev.pwr.lockout) = true ∧
      after (exec (.pwrOk 1) (offS true)) (fun t => t.dev.pwr.on && t.dev.pwr.strap = 1 && t.devState = 1) = true ∧
      stays (exec (.pwrOk 1) (mk [])) (mk []) = true := by
  unfold State.Inv; decide +kernel

/-- R401: the reset key, with and without a job, and the reset after its STOP. -/
theorem test_reset :
    let c : Prog := modHart 64 fun h => { h with run := true }
    let s := mk [c, ioSet aState 2]
    let j := mk [c, ioSet aFig 0xA0000000]
    let r := mk [modStop fun x => { x with resetAfter := true }, ioSet aState 5]
    writable s (.caller 0) (pwr 0x118) ∧
      after (exec (.devrst (.caller 0) 0x52530001) s) (fun t => t.devState = 1 && !(t.hart 64).run) = true ∧
      after (exec (.devrst (.caller 0) 0x52530001) j) (fun t => told j t 0xB .devReset && t.dev.stop.resetAfter) = true ∧
      stays (exec (.devrst (.caller 0) 7) s) s = true ∧
      after (exec .deviceResetAfterStop r) (fun t => t.devState = 1 && decide (55000 ≤ t.dev.beat.time)) = true := by
  unfold writable; decide +kernel

/-- R402, R403, R411: fuses before their load, and samples of the power controller. -/
theorem test_fuse_load_samples :
    let d := mk [modDev fun d => { d with fuses := { damaged := true } }]
    let h := mk [modPwr fun x => { x with hot := 1 }]
    (mk []).fld (ioa 0xA 0x100) 31 31 = 0 ∧
      d.dev.fuses.damaged = true ∧
      (mk []).dev.fuses.damaged = false ∧
      after (exec (.pwrSample 200 1000) (mk [])) (fun t => t.ioVal (pwr 0x10C) = 200 && t.dev.pwr.hot = 0) = true ∧
      after (exec (.pwrSample 450 1000) h) (fun t => told h t 0xB .tjTrip && t.dev.pwr.hot = 1) = true ∧
      after (exec (.pwrSample 200 50000) (mk [])) (fun t => told (mk []) t 0xB .overcurrent) = true ∧
      after (exec (.pwrSample 473 0) (mk [])) (fun t => !t.dev.pwr.on) = true := by
  decide +kernel

/-- The BOOT page is in phase `ph`; Caller core 0 runs. -/
def bootS (ph : Nat) : State := mk [setFld (ioa 8 0x100) 31 28 ph, modHart 64 fun h => { h with run := true }]

/-- R405, R407, R408: BOOT.GO in WAIT and in DONE, a bundle that is none, and the end of DRAM training. -/
theorem test_boot :
    writable (bootS 1) (.caller 0) (ioa 8 0x104) ∧
      after (exec (.bootGo (.caller 0) 0x1000) (bootS 1)) (fun t => t.bootPhase = 2 && t.dev.pwr.bootLen = 0x1000) = true ∧
      after (exec (.bootGo (.caller 0) 0x1000) (bootS 5)) (fun t => told (bootS 5) t 8 .bootProtocol && t.bootPhase = 5) = true ∧
      bundleFormatOk (bootS 2).bundle = false ∧
      after (exec .bundleVerify (bootS 2)) (fun t => t.bootPhase = 6 && t.fld (ioa 8 0x100) 27 24 = 1) = true ∧
      after (exec (.dramTrainingDone (some 3) none) (bootS 3)) (fun t =>
        t.bootPhase = 6 && t.fld (ioa 8 0x100) 27 24 = 6 && t.fld (ioa 8 0x100) 23 16 = 3) = true ∧
      after (exec (.dramTrainingDone none (some 4)) (bootS 3)) (fun t => t.fld (ioa 8 0x100) 27 24 = 7) = true ∧
      bootRecords (bootSecs (bootS 3).bundle) = [] ∧
      after (exec (.dramTrainingDone none none) (bootS 3)) (fun t => t.bootPhase = 5 && t.devState = 2 && (t.hart 66).run) = true := by
  unfold writable; decide +kernel

/-- A record of code 0x83 with eight bytes is offered. -/
def recS (ps : List Prog) : State :=
  mk ([modRec fun r => { r with offers := [⟨0, 0x83, 0, [1, 2, 3, 4, 5, 6, 7, 8], none⟩] }] ++ ps)

/-- R438-R440, R442: the record joins the ring, or the holding buffer while frozen, or its bucket is empty. -/
theorem test_record :
    let f := recS [setFld (ioa 0xF 0x104) 31 31 1]
    let b := recS [setFld (ioa 0xF (0x400 + 4 * 0x83)) 15 8 1, modRec fun r => { r with spent := Tab.insert 0x83 1 r.spent }]
    (recS []).recFrozen = false ∧ f.recFrozen = true ∧ (recS []).fld (ioa 0xF (0x400 + 4 * 0x83)) 15 8 = 0 ∧
      after (exec .recordAdmission (recS [])) (fun t =>
        t.rdNat ringBase 4 = 0x180083 && t.rdNat (ringBase + 16) 8 = 0x0807060504030201 && t.fld (ioa 0xF 0x10C) 19 0 = 24) = true ∧
      after (exec .recordAdmission f) (fun t => t.rdNat holdBase 4 = 0x180083 && t.dev.recd.heldEnd = 24) = true ∧
      after (exec .recordAdmission b) (fun t => t.dev.recd.offers = [] && Tab.get (fun _ => 0) t.dev.recd.supp 0x83 = 1) = true := by
  decide +kernel

/-- R440, R441: SPILL of 24 bytes, and the refill at the next measure. -/
theorem test_spill_refill :
    let s := mk [modRec fun r => { r with unspilled := [(0, 24)] }, writeAt ringBase [1, 2, 3, 4, 5, 6, 7, 8], setFld (ioa 0xF 0x100) 0 0 1]
    let r := mk [modRec fun r => { r with spent := [(0x83, 5)] }, setFld (ioa 0xF (0x400 + 4 * 0x83)) 7 0 2]
    s.dev.recd.unspilled = [(0, 24)] ∧ s.fld (ioa 0xF 0x100) 0 0 = 1 ∧
      (∀ k, k < 24 → s.disabled (spillBase + k) = false) ∧ s.xp = [] ∧
      after (exec .spill s) (fun t => t.rdNat spillBase 8 = 0x0807060504030201 && t.dev.recd.unspilled = []) = true ∧
      Tab.wf (fun _ => 0) r.dev.recd.spent = true ∧
      after (exec .rateLimitRefill r) (fun t => Tab.get (fun _ => 0) t.dev.recd.spent 0x83 = 3 && t.beat = 1024) = true := by
  decide +kernel

/-- Caller core 0 and core 3 run. -/
def postS (ps : List Prog) : State :=
  mk ([modHart 64 fun h => { h with run := true }, modHart 3 fun h => { h with run := true },
       writeAt (stageBase 3) [1, 2, 3, 4, 5, 6, 7, 8], writeAt (callerBase 0) [8, 7, 6, 5, 4, 3, 2, 1]] ++ ps)

/-- R437, R439: posts with a good and a bad code. -/
theorem test_posts :
    let s := postS []
    writable s (.core 3) (ioa (corePage 3) 0x154) ∧ writable s (.caller 0) (ioa 0xF 0x134) ∧ s.xp = [] ∧
      after (exec (.recpost (.core 3) 3 0x00F00008) s) (fun t =>
        (t.hart 3).posting && t.dev.recd.offers.map Offer.payload = [[1, 2, 3, 4, 5, 6, 7, 8]]) = true ∧
      after (exec (.recpost (.core 3) 3 0x00800008) s) (fun t => told s t (corePage 3) .recBadcode) = true ∧
      after (exec (.post (.caller 0) 0x00C00008) s) (fun t =>
        t.dev.recd.postBusy && t.dev.recd.offers.map Offer.payload = [[8, 7, 6, 5, 4, 3, 2, 1]]) = true ∧
      after (exec (.post (.caller 0) 0x00F00008) s) (fun t => told s t 0xF .recBadcode) = true := by
  unfold writable; decide +kernel

/-- R443: words of the ring, the spill ring and the snapshots. -/
theorem test_record_reads :
    let s := postS [writeAt ringBase [1, 2, 3, 4, 5, 6, 7, 8], writeAt spillBase [5, 6, 7, 8, 5, 6, 7, 8], writeAt snapBase [9, 9, 9, 9, 9, 9, 9, 9]]
    let b := postS [ioSet (ioa 0xF 0x11C) 0xF00000]
    after (exec (.rddata (.caller 0)) s) (fun t => t.dev.readData = [1, 2, 3, 4] && t.fld (ioa 0xF 0x114) 19 2 = 1) = true ∧
      after (exec (.sprddata (.caller 0)) s) (fun t => t.dev.readData = [5, 6, 7, 8]) = true ∧
      spillSize ≤ b.fld (ioa 0xF 0x11C) 23 2 * 4 ∧
      after (exec (.snpdata (.caller 0)) s) (fun t => t.dev.readData = [9, 9, 9, 9] && t.dev.recd.snpWord = 1) = true := by
  decide +kernel

/-- R436, R437: a trigger, and the snapshot that it gives. -/
theorem test_snapshot :
    let s := postS []
    let g := postS [modRec fun r => { r with trigs := [(0x20, 1, 0)] }, ioSet (ioa 0x20 0x20) 0x80000108, ioSet (ioa 0x20 0x108) 77]
    writable s (.caller 0) (ioa 0x20 0x40) ∧ (pageKind 0x20).isSome = true ∧
      after (exec (.snapTrigFire (.caller 0) 0x20 1) s) (fun t => t.dev.recd.trigs = [(0x20, 1, 0)]) = true ∧
      after (exec (.snapshot 0x20) g) (fun t =>
        t.rdNat (snapBase + 0x20 * 2048) 4 = 77 && t.rdNat (snapBase + 0x20 * 2048 + 38) 2 = 0x101 && t.dev.recd.trigs = []) = true := by
  unfold writable; decide +kernel

/-- All ports are unlocked; core 0 is halted with 9 in s5; core 1 runs. -/
def dbgS (ps : List Prog) : State :=
  mk ([ioSet (ioa 0x10 0x100) 0xE0000000, modHart 0 fun h => { h with run := true, halted := true, reason := 1, pc := 0x10 },
       setReg 0 5 9, modHart 1 fun h => { h with run := true }, writeAt 0x40 [1, 2, 3, 4, 5, 6, 7, 8]] ++ ps)

/-- A command word for unit `u`. -/
def dw (u a : Nat) (v : BitVec 64) : DbgWord := { unit := BitVec.ofNat 8 u, addr := BitVec.ofNat 48 a, data := v }

/-- The answer of the TAP port is `v`, with STATUS OK. -/
def yields (t : State) (v : Nat) : Bool := dbgAnswer t .tap % 2 ^ 64 = 0 && dbgAnswer t .tap / 2 ^ 64 = v

/-- Nothing but the port's response differs. -/
def only (s t : State) : Bool := keeps [.io, .dbg, .free] s t

/-- R447: HALT, RESUME, STEP and the registers of a halted core. -/
theorem test_debug_units :
    let s := dbgS []
    s.Inv ∧ s.portLive .tap = true ∧ s.unlocked .tap = true ∧ isUnit 0 = true ∧ isUnit 0x44 = false ∧ s.readSr 0 0 ≠ none ∧
      after (exec (.halt .tap (dw 1 0 0)) s) (fun t => (t.hart 1).halted && (t.hart 1).reason = 1) = true ∧
      after (exec (.halt .tap (dw 0 0 0)) s) (fun t => only s t) = true ∧
      after (exec (.halt .tap (dw 0x44 0 0)) s) (fun t => only s t) = true ∧
      after (exec (.resume .tap (dw 0 0 0)) s) (fun t => !(t.hart 0).halted) = true ∧
      after (exec (.step .tap (dw 0 0 0)) s) (fun t => (t.hart 0).stepping = some 1) = true ∧
      after (exec (.resume .tap (dw 1 0 0)) s) (fun t => only s t) = true ∧
      after (exec (.rdreg .tap (dw 0 5 0)) s) (fun t => yields t 9) = true ∧
      after (exec (.rdreg .tap (dw 0 0x20 0)) s) (fun t => yields t 0x10) = true ∧
      after (exec (.rdreg .tap (dw 0 0x21 0)) s) (fun t => only s t) = true ∧
      after (exec (.wrreg .tap (dw 0 5 77)) s) (fun t => t.reg 0 5 = 77) = true ∧
      after (exec (.wrreg .tap (dw 0 0x20 0x80)) s) (fun t => (t.hart 0).pc = 0x80) = true ∧
      after (exec (.wrreg .tap (dw 0 0 1)) s) (fun t => only s t) = true := by
  unfold State.Inv; decide +kernel

/-- R447, R449: program memory, memory, registers, breakpoints and watchpoints. -/
theorem test_debug_memory :
    let s := dbgS []
    after (exec (.wrp .tap (dw 0 8 0x1122334455667788)) s) (fun t => t.pldWord 0 8 = 0x22334455667788) = true ∧
      after (exec (.rdp .tap (dw 0 8 0)) s) (fun t => yields t 0) = true ∧ s.exists true 0x40 = true ∧
      after (exec (.rdd .tap (dw 0 0x40 0)) s) (fun t => yields t 0x0807060504030201) = true ∧
      after (exec (.wrd .tap (dw 0 0x48 7)) s) (fun t => t.rdNat 0x48 8 = 7) = true ∧
      after (exec (.rdd .tap (dw 0 0x41 0)) s) (fun t => only s t) = true ∧ s.exists true 0x100000000000 = false ∧
      after (exec (.rdio .tap (dw 0 (ioa 0x10 0x100) 0)) s) (fun t => yields t 0xE0000000) = true ∧
      after (exec (.wrio .tap (dw 0 (ioa 0x22 0x108) 5)) s) (fun t => t.ioVal (ioa 0x22 0x108) = 5) = true ∧
      after (exec (.wrio .tap (dw 0 2 5)) s) (fun t => only s t) = true ∧
      after (exec (.setbp .tap (dw 0 1 0x8000000000000040)) s) (fun t =>
        Tab.get (fun _ => 0) (t.hart 0).bps 1 = 0x8000000000000040) = true ∧
      after (exec (.setbp .tap (dw 0x44 1 0)) s) (fun t => only s t) = true ∧
      after (exec (.setwp .tap (dw 0 1 5)) s) (fun t => Tab.get (fun _ => 0) (t.hart 0).wps 1 = 5) = true ∧
      after (exec (.setwp .tap (dw 0x40 1 5)) s) (fun t => only s t) = true := by
  decide +kernel

/-- R450, R453, R454: the words of a unit's state, and the system halt. -/
theorem test_debug_system :
    let s := dbgS [ioSet aFig 0xA0000000, ioSet aState 3, writeAt (vAddr 0 0 8) [1, 2, 3, 4, 5, 6, 7, 8], setCreg 0 1 5]
    let z := dbgS [ioSet aFig 0xA0000000, modDbg fun d => { d with frozen := true, h := some 9 }]
    s.jobOn = true ∧ (∀ n, n < 8 → s.brOn n = false) ∧
      after (exec (.rdstate .tap (dw 0 1 0)) s) (fun t => yields t 0x0807060504030201) = true ∧
      after (exec (.rdstate .tap (dw 0 (5 * 2 ^ 40 + 2) 0)) s) (fun t => yields t 5) = true ∧
      after (exec (.rdstate .tap (dw 0 (2 * 2 ^ 40) 0)) s) (fun t => yields t 0) = true ∧
      after (exec (.rdstate .tap (dw 0 (7 * 2 ^ 40) 0)) s) (fun t => only s t) = true ∧
      after (exec (.rdstate .tap (dw 1 0 0)) s) (fun t => only s t) = true ∧
      after (exec (.syshalt .tap (dw 0xFF 0 100)) s) (fun t => t.dev.dbg.h = some 100) = true ∧
      after (exec (.syshalt .tap (dw 0xFF 0 10)) s) (fun t => only s t) = true ∧
      after (exec (.sysresume .tap (dw 0xFF 0 100)) z) (fun t => t.dev.dbg.r = some 100) = true ∧
      after (exec (.sysresume .tap (dw 0xFF 0 100)) s) (fun t => only s t) = true := by
  decide +kernel

/-- R447, R451, R453, R454: a locked port; HALT in a header; the beats H and R. -/
theorem test_halts :
    let l := mk []
    let j := mk [ioSet aFig 0xA0000000, ioSet aState 3, modLink 2 fun k => { k with st := 3 }, modHart 1 fun h => { h with run := true }]
    let h := (block [modDbg fun d => { d with h := some 100 }]).run j
    let f := (block [modDbg fun d => { d with h := some 100, r := some 200, frozen := true }, modHart 1 fun h =>
      { h with halted := true, reason := 5 }]).run j
    l.portLive .tap = true ∧ l.unlocked .tap = false ∧
      after (exec (.rdreg .tap (dw 0 5 0)) l) (fun t => only l t) = true ∧
      after (exec (.dbgNop .tap (dw 0 0 0)) (dbgS [])) (fun t => t.dev.readData = List.replicate 16 0) = true ∧
      j.jobOn = true ∧ after (exec (.haltReceived 2 100 0) j) (fun t => t.dev.dbg.h = some 100) = true ∧
      after (exec (.haltReceived 2 90 0) h) (fun t => told h t 0x10 .dbgSync) = true ∧
      after (exec (.haltReceived 2 100 300) h) (fun t => t.dev.dbg.r = some 300) = true ∧
      stays (exec (.haltReceived 2 100 0) h) h = true ∧
      after (exec .syshaltBeat h) (fun t => (t.hart 1).halted && (t.hart 1).reason = 5 && t.devState = 4 && t.jobBeat = 100) = true ∧
      after (exec .sysresumeBeat f) (fun t => !(t.hart 1).halted && t.beat = 200 && t.devState = 3) = true := by
  decide +kernel

/-- R445: the TAP. -/
theorem test_tap :
    let s := mk []
    let r := mk [ioSet aState 2]
    s.devState = 1 ∧ after (exec .tapReset s) (fun t => t.dev.dbg.ir = 1) = true ∧
      after (exec .idcode s) (fun t => t.dev.readData = [0xE3, 0x1C, 0, 0x10]) = true ∧
      after (exec (.extest 5) s) (fun t => t.dev.dbg.bscan = 5 && t.dev.dbg.ir = 0) = true ∧
      after (exec (.extest 5) r) (fun t => t.dev.dbg.ir = 0xFF) = true ∧
      after (exec (.samplePreload 5) s) (fun t => t.dev.readData = [5, 0, 0, 0]) = true ∧
      after (exec (.bypass 0x55) s) (fun t => t.dev.dbg.ir = 0xFF) = true ∧ stays (exec (.bypass 0) s) s = true := by
  decide +kernel

/-- The fuses are loaded; the SMBus pointer is at 0x100 of the DEV page. -/
def smbS : State := mk [setFld (ioa 0xA 0x100) 31 31 1, ioSet aState 2, modPwr fun x => { x with smbPtr := 0x100 }]

/-- A frame of the management chain: a read of 0x100 by UID. -/
def mchD : List Byte := [0xA5, 2, 3, 0, 0, 1, 0, 0] ++ List.replicate 12 0

/-- R463, R464: the SMBus target. -/
theorem test_smbus :
    smbS.fuseLoaded = true ∧ readable 0x100 = true ∧ smbS.drivesAlert = false ∧
      after (exec (.smbusBlockWrite [4, 0, 0] none) smbS) (fun t => t.dev.pwr.smbPtr = 4) = true ∧
      stays (exec (.smbusBlockWrite [4, 0] none) smbS) smbS = true ∧
      after (exec .smbusBlockRead smbS) (fun t =>
        t.dev.readData.take 5 = [4] ++ toBytes 4 (smbS.ioRead 0x100) && t.dev.pwr.smbPtr = 0x104) = true ∧
      stays (exec .alertResponse smbS) smbS = true := by
  decide +kernel

/-- R466-R468: the frame is answered, or passed on unread. -/
theorem test_mch :
    let d := mchD ++ toBytes 4 (crc32c mchD).toNat
    d.length = 24 ∧ bytesAt d 0 1 = 0xA5 ∧ (crc32c (d.take 20)).toNat = bytesAt d 20 4 ∧
      after (exec (.mchFrame d) smbS) (fun t => bytesAt t.dev.lastOut 2 2 = 4 && bytesAt t.dev.lastOut 7 1 = 1) = true ∧
      after (exec (.mchFrame d) (offS false)) (fun t => t.dev.lastOut = d) = true ∧
      stays (exec (.mchFrame [1]) smbS) smbS = true := by
  decide +kernel

/-! ### The step and ill-formed commands -/

/-- A step runs the command in front, and idles on an empty queue. -/
theorem test_step :
    after (Machine.step { mk [] with pending := [.tapReset, .idcode] }) (fun t => t.pending = [.idcode]) = true ∧
      after (Machine.step (mk [])) (fun t => t.dev.beat.time = 5 && t.dev.beat.sub = 5) = true ∧
      (mk []).Inv := by
  unfold State.Inv; decide +kernel

/-- R398: without power a command changes nothing. -/
theorem test_unpowered : stays (exec .idcode (offS false)) (offS false) = true := by decide +kernel

/-- R427-R430: a report fills its slot and is offered to the recorder. -/
theorem test_report :
    let s := mk []
    s.claimed = none ∧ s.slotSt 1 = 0 ∧ told s ((report 0xC .beatUnlock 7 9).run s) 0xC .beatUnlock = true := by
  decide +kernel

/-- One ill-formed command for each check of `Instr.wf`, which refuses it. -/
theorem test_ill_formed :
    ([.slotHeaderReceived 0 { beat := 0, slot := 0, nflit := 0, stream := 0 }, .slotReceiveComplete 0 [1],
      .slotReceiveComplete 0 (List.replicate 12544 0), .bePacketDelivery 0 (packet 0), .bowReceive 0 [1], .reelReceive 0 [1],
      .scrub 5 .clean, .cxlMemAccess 0 0 (.read 0), .cxlMemAccess 0 0 (.write []), .registerWrite .debug 2 0,
      .mailboxSlotWrite 0 0x1000 [1, 2, 3], .mailboxSlotWrite 0 0x1001 [1, 2], .bypass 0x20,
      .smbusBlockWrite (List.replicate 256 0) none, .mchFrame [0xA5], .undefinedInstruction (.core 0) 0] : List Instr).all
      (fun c => !c.wf) = true := by
  decide +kernel

/-- The words that the checks let pass. -/
theorem test_well_formed :
    ([.slotReceiveComplete 0 img256, .scrub 0x40 .clean, .cxlMemAccess 0 0 (.read 8), .registerWrite .debug 4 0,
      .mailboxSlotWrite 0 0x1002 [1, 2], .bypass 0x21, .undefinedInstruction (.core 0) 0x400] : List Instr).all Instr.wf = true := by
  decide +kernel

/-- No row of the table gives bits. -/
theorem test_no_table_word : decodeTableWord 16 0 = none ∧ (mk []).withFetchWord 16 0 = mk [] := ⟨rfl, rfl⟩

/-- The words of R46 whose opcode no table assigns. -/
theorem test_unassigned : assigned 0x400 = false ∧ lengthOf 0x400 = 1 ∧ assigned 0 = true := by decide +kernel

/-- A word decodes to this command. -/
def reads (u : UnitId) (w : BitVec 56) (i : Instr) : Bool := decodeWord u w = some i

/-- R45, R47: ADDI s4, s4, 8 has OP6 = 1; R82: the syllables that the spec gives TLD t3, [s8], s9, of 128 rows of 128 bytes
of E4M3; R118: those of its MMA with s10 and s11. -/
theorem test_words_scalar_tile :
    reads (.core 7) 0x111048 (.addi (.core 7) ⟨8, 4, 4⟩) = true ∧
      reads (.core 7) (wordOf 0x2800 0x0880 0x01A1 0x3FB8)
        (.tld (.core 7) (u4 128 128 (3 * 2 ^ 35 + 8 * 2 ^ 30 + 9 * 2 ^ 25 + 1 * 2 ^ 21))) = true ∧
      reads (.core 7) (wordOf 0x2A10 0x2580 0x0002 0x3FB8) (.mma (.core 7) (u4 128 128 (10 * 2 ^ 26 + 11 * 2 ^ 21))) = true := by
  decide +kernel

/-- The syllables that the spec gives VGTH v2, [s8], v6 (R150), SQ with s4, s5, c1 and c2 (R193), UPD.MOM with s4, s5, s6 and
s7 (R245), LARM s3 (R284) and CCALL c4 (R377). -/
theorem test_words_units :
    reads (.core 7) (wordOf 0x2430 0 0x00D0 0x0480) (.vgth (.core 7) ⟨2, 8, false, false, 0, 6, true, 0, 0⟩) = true ∧
      reads (.core 7) (wordOf 0x2C80 0x1000 0x0002 0x0850)
        (.sq (.core 7) ⟨16, 10, false, 0, BitVec.ofNat 24 ((1 * 2 ^ 29 + 2 * 2 ^ 25) / 2 ^ 14), 0⟩) = true ∧
      reads (.core 7) (wordOf 0x2C00 0 0x00C7 0x0850)
        (.updMom (.core 7) ⟨16, 10, false, 0, BitVec.ofNat 24 ((6 * 2 ^ 33 + 7 * 2 ^ 28) / 2 ^ 14), 0⟩) = true ∧
      reads (.seq 5) (wordOf 0x2D00 0 0 0x0600) (.larm (.seq 5) ⟨3, 0, 0⟩) = true ∧
      reads (.core 7) (wordOf 0x1B80 0x0080 0 0) (.ccall (.core 7) ⟨0, 4, 0, 0, 0, 0⟩) = true := by
  decide +kernel

/-- R46: words of one, two and four syllables that no table assigns are no command. -/
theorem test_words_unassigned :
    [(0x400 : BitVec 56), 0x1200, 0x1FC0, 0x2010, 0x3000].map (fun w => (decodeWord (.core 0) w).isSome || assigned w)
      = [false, false, false, false, false] := by
  decide +kernel

end Sys2Proof.Tests
end

section
/-! SUPPORT. Address translation (R165-R168): a walk one level at a time, what it depends on, and that a use of an address
changes the unit's cached entries and its banks' queues alone. -/
namespace Sys2Proof.Machine
variable {s t w : State} {u : Nat}

/-! ### The walk of a table, one level at a time -/

/-- The address of the word that a walk reads at level `l` of the table at `base` (R165). -/
def walkWord (va l base : Nat) : Nat := base + bits va (leafBits l + 8) (leafBits l) % (if l = 3 then 32 else 512) * 8

/-- The base of the next table that entry `e` names (R166). -/
def nextTable (e : Nat) : Nat := bits e 43 12 * 2 ^ 12

/-- What a walk makes of the word at `a` on level `l`, where `next` walks the next table (R165-R168). -/
def State.walkAt (s : State) (l a : Nat) (next : Nat → Except Tr (Nat × Nat)) : Except Tr (Nat × Nat) :=
  if ¬(region a = .stacked ∨ region a = .far) then .error .page
  else if s.poisoned a then .error (.poison a)
  else
    let e := s.rdNat a 8
    if ¬(bitAt e 0 ∧ bits e 63 44 = 0 ∧ bits e 11 5 = 0) then .error .page
    else if bitAt e 1 then (if l = 3 then .error .page else .ok (l, e))
    else next (nextTable e)

theorem State.walk_zero (s : State) (va base : Nat) :
    s.walk va 0 base = s.walkAt 0 (walkWord va 0 base) fun _ => .error .page := rfl

theorem State.walk_succ (s : State) (va l base : Nat) :
    s.walk va (l + 1) base = s.walkAt (l + 1) (walkWord va (l + 1) base) (s.walk va l) := rfl

theorem State.walkAddrs_zero (s : State) (va base : Nat) :
    s.walkAddrs va 0 base =
      let a := walkWord va 0 base
      if ¬(region a = .stacked ∨ region a = .far) then [] else [a] := rfl

theorem State.walkAddrs_succ (s : State) (va l base : Nat) :
    s.walkAddrs va (l + 1) base =
      let a := walkWord va (l + 1) base
      let e := s.rdNat a 8
      if ¬(region a = .stacked ∨ region a = .far) then []
      else if s.poisoned a ∨ ¬bitAt e 0 ∨ bitAt e 1 ∨ bits e 63 44 ≠ 0 ∨ bits e 11 5 ≠ 0 then [a]
      else a :: s.walkAddrs va l (nextTable e) := rfl

/-- A walk that comes past a word read it in DRAM, not poisoned. -/
theorem State.word_of_walkAt {l a : Nat} {next : Nat → Except Tr (Nat × Nat)} {r : Nat × Nat}
    (h : s.walkAt l a next = .ok r) :
    (region a = .stacked ∨ region a = .far) ∧ s.poisoned a = false := by
  unfold State.walkAt at h
  split at h <;> [cases h; split at h]
  · cases h
  · exact ⟨not_not.1 ‹_›, Bool.eq_false_iff.2 ‹_›⟩

/-- A walk that comes past an entry that is no leaf walks the next table. -/
theorem State.next_of_walkAt {l a : Nat} {next : Nat → Except Tr (Nat × Nat)} {r : Nat × Nat}
    (h : s.walkAt l a next = .ok r) (hl : ¬bitAt (s.rdNat a 8) 1) : next (nextTable (s.rdNat a 8)) = .ok r := by
  unfold State.walkAt at h
  split at h <;> [cases h; split at h]
  · cases h
  · simp only [if_neg hl] at h
    split at h <;> [cases h; exact h]

theorem dvd_walkWord {va l base : Nat} (hb : 8 ∣ base) : 8 ∣ walkWord va l base :=
  Dvd.dvd.add hb (Dvd.intro_left _ rfl)

theorem dvd_nextTable (e : Nat) : 8 ∣ nextTable e := Dvd.dvd.mul_left (by decide) _

/-- The words that a walk reads on its way to a leaf stand in DRAM and are not poisoned (R165, R168). -/
theorem State.walkAddrs_of_walk {va l base : Nat} {r : Nat × Nat} (hb : 8 ∣ base) (h : s.walk va l base = .ok r) :
    ∀ a ∈ s.walkAddrs va l base, 8 ∣ a ∧ (region a = .stacked ∨ region a = .far) ∧ s.poisoned a = false := by
  induction l generalizing base with
  | zero =>
    rw [State.walk_zero] at h
    obtain ⟨hr, hp⟩ := State.word_of_walkAt h
    rw [State.walkAddrs_zero]
    dsimp only
    rw [if_neg (not_not.2 hr)]
    intro a ha
    rw [List.mem_singleton.1 ha]
    exact ⟨dvd_walkWord hb, hr, hp⟩
  | succ l ih =>
    rw [State.walk_succ] at h
    obtain ⟨hr, hp⟩ := State.word_of_walkAt h
    have hd : 8 ∣ walkWord va (l + 1) base := dvd_walkWord hb
    rw [State.walkAddrs_succ]
    dsimp only
    rw [if_neg (not_not.2 hr)]
    split
    · intro a ha
      rw [List.mem_singleton.1 ha]; exact ⟨hd, hr, hp⟩
    · have hn := State.next_of_walkAt h (by tauto)
      intro a ha
      rcases List.mem_cons.1 ha with rfl | ha
      · exact ⟨hd, hr, hp⟩
      · exact ih (dvd_nextTable _) hn a ha

theorem State.dvd_pttRoot (s : State) : 8 ∣ s.pttRoot :=
  Dvd.dvd.add (Dvd.dvd.mul_left (by decide) _) (Dvd.dvd.mul_left (by decide) _)

theorem State.disabled_congr (h : t.io = s.io) (a : Nat) : t.disabled a = s.disabled a := by
  unfold State.disabled; simp only [State.ioVal_congr h]

/-! ### Translation depends on the memory, the I/O registers and the unit's cached entries -/

section
variable (h : Only [.harts] s t)
include h

theorem Only.harts_chk (k : Nat) : t.blkData k = s.blkData k ∧ t.chk k = s.chk k := by
  have hb : t.byte = s.byte := funext fun x => State.byte_congr (h.1 .mem (by decide)) x
  have hd : t.blkData k = s.blkData k := by unfold State.blkData; rw [hb, show t.caps = s.caps from h.1 .caps (by decide)]
  exact ⟨hd, by unfold State.chk; rw [hd, show t.xp = s.xp from h.1 .xp (by decide)]⟩

theorem Only.harts_blkClass (k : Nat) : t.blkClass k = s.blkClass k := by
  unfold State.blkClass State.syndromes; rw [(h.harts_chk k).1, (h.harts_chk k).2]

theorem Only.harts_blkBad (k : Nat) : t.blkBad k = s.blkBad k := by
  unfold State.blkBad; rw [(h.harts_chk k).2, h.harts_blkClass]

theorem Only.harts_rdByte (a : Nat) : t.rdByte a = s.rdByte a :=
  State.rdByte_of_same (h.1 .mem (by decide)) (h.1 .xp (by decide)) (h.1 .caps (by decide)) a

theorem Only.harts_capsClean (ixs : List Nat) : t.capsClean u ixs = s.capsClean u ixs := by
  unfold State.capsClean State.clean; simp only [h.harts_blkClass, h.harts_blkBad]

theorem Only.harts_fld (a hi lo : Nat) : t.fld a hi lo = s.fld a hi lo := by
  unfold State.fld; rw [State.ioVal_congr (h.1 .io (by decide))]

theorem Only.harts_poisoned (a : Nat) : t.poisoned a = s.poisoned a := by
  unfold State.poisoned; rw [h.harts_blkBad, State.disabled_congr (h.1 .io (by decide))]

theorem Only.harts_rdNat (a n : Nat) : t.rdNat a n = s.rdNat a n := by
  unfold State.rdNat State.rd; rw [funext h.harts_rdByte]

theorem Only.harts_exists (caller : Bool) (a : Nat) : t.exists caller a = s.exists caller a := by
  unfold State.exists State.hwBytes State.owner; simp only [h.harts_fld]

theorem Only.harts_walkAt (l a : Nat) (next : Nat → Except Tr (Nat × Nat)) : t.walkAt l a next = s.walkAt l a next := by
  unfold State.walkAt; simp only [h.harts_poisoned, h.harts_rdNat]

theorem Only.harts_walk (va l base : Nat) : t.walk va l base = s.walk va l base := by
  induction l generalizing base with
  | zero => rw [State.walk_zero, State.walk_zero, h.harts_walkAt]
  | succ l ih => rw [State.walk_succ, State.walk_succ, h.harts_walkAt, funext ih]

theorem Only.harts_tr (ht : (t.hart u).tlb = (s.hart u).tlb) (va : Nat) (rd wr : Bool) :
    t.tr u va rd wr = s.tr u va rd wr := by
  have hr : t.pttRoot = s.pttRoot := by unfold State.pttRoot State.owner; simp only [h.harts_fld]
  unfold State.tr State.translate
  simp only [ht, h.harts_exists, h.harts_walk, hr]

theorem Only.harts_trRange (ht : (t.hart u).tlb = (s.hart u).tlb) (va n : Nat) (rd wr : Bool) :
    t.trRange u va n rd wr = s.trRange u va n rd wr := by
  unfold State.trRange; simp only [h.harts_tr ht]

end

/-! ### A translation that succeeds -/

/-- A read of a word of a bank that is not disabled has no effect of its own (R182). -/
theorem touch_word {a : Nat} (ha : 8 ∣ a) (hr : region a = .stacked ∨ region a = .far) (hd : s.disabled a = false) :
    (touch a 8).run s = s := by
  have hg : grain a = 32 ∨ grain a = 64 := by unfold grain; rcases hr with h | h <;> simp [h]
  have hp : pieces 8 a 8 = [(a, 8)] := by
    have : min 8 (grain a - a % grain a) = 8 := by rcases hg with h | h <;> rw [h] <;> omega
    simp [pieces, this]
  have hk : ∃ x, bankOf a = some x := by unfold bankOf; rcases hr with h | h <;> simp [h]
  obtain ⟨x, hx⟩ := hk
  simp only [touch, hp, run_forEach_cons, run_forEach_nil, hx, Prog.run_ask, hd]
  simp

/-- The reads of a walk that finds its leaf ask their banks and do nothing else (R168, R174). -/
theorem only_walkReqs {page va : Nat} {r : Nat × Nat} (h : s.walk va 3 s.pttRoot = .ok r) :
    Only [.banks] s ((walkReqs page va).run s) := by
  have words : ∀ (as : List Nat) (t : State), t.io = s.io →
      (∀ a ∈ as, 8 ∣ a ∧ (region a = .stacked ∨ region a = .far) ∧ s.poisoned a = false) →
      Only [.banks] t ((forEach as fun a => block [bankReq page a false, touch a 8]).run t) := by
    intro as
    induction as with
    | nil => exact fun t _ _ => Only.refl _ t
    | cons a as ih =>
      intro t ht hw
      obtain ⟨ha, hr, hp⟩ := hw a List.mem_cons_self
      have hb := touches_bankReq page a false t
      have hio : ((bankReq page a false).run t).io = s.io := (hb.1 .io (by decide)).trans ht
      have hd : ((bankReq page a false).run t).disabled a = false := by
        rw [State.disabled_congr hio]; exact (Bool.or_eq_false_iff.1 hp).2
      simp only [run_forEach_cons, run_block_cons, run_block_nil, touch_word ha hr hd]
      exact hb.trans (ih _ hio fun b hb => hw b (List.mem_cons_of_mem _ hb))
  simp only [walkReqs, Prog.run_ask, run_onlyIf]
  split
  · exact words _ s rfl (State.walkAddrs_of_walk s.dvd_pttRoot h)
  · exact Only.refl _ s

/-- A new entry is cached only when its walk found a leaf (R168). -/
theorem State.walk_of_tlbAfter {cap va : Nat} {l : List TlbEntry} (h : s.tlbAfter cap l va ≠ l) :
    ∃ r, s.walk va 3 s.pttRoot = .ok r := by
  cases e : s.walk va 3 s.pttRoot with
  | ok r => exact ⟨r, rfl⟩
  | error x =>
    refine absurd ?_ h
    unfold State.tlbAfter
    rw [e]
    split <;> [rfl; split]
    · simp_all
    · rfl

/-- A use of an address changes the unit's cached entries and its banks' queues alone (R168). -/
theorem only_trUse (u va : Nat) (s : State) :
    Only [.harts, .banks, .free] s ((trUse u va).run s) ∧
      ∃ l, ((trUse u va).run s).hart u = { s.hart u with tlb := l } := by
  have idle : Only [.harts, .banks, .free] s s ∧ ∃ l, s.hart u = { s.hart u with tlb := l } :=
    ⟨Only.refl _ s, (s.hart u).tlb, rfl⟩
  unfold trUse
  split <;> [exact idle; skip]
  have hw := @State.walk_of_tlbAfter s 64 va (s.hart u).tlb
  rw [Prog.run_ask]
  dsimp only
  generalize s.tlbAfter 64 (s.hart u).tlb va = l at hw ⊢
  rw [run_onlyIf]
  split <;> [skip; exact idle]
  obtain ⟨r, hr⟩ := hw ‹_›
  have hq := only_walkReqs (page := unitPage u) hr
  rw [run_block_cons, run_block_cons, run_block_cons, run_block_nil]
  generalize (walkReqs (unitPage u) va).run s = w at hq ⊢
  have hm := touches_modHart u (fun h => { h with tlb := l }) w
  have hf := touches_onlyIf (c := (s.hart u).tlb.length = 64) touches_useFree
    ((modHart u fun h => { h with tlb := l }).run w)
  refine ⟨((hq.mono (by decide)).trans (hm.mono (by decide))).trans (hf.mono (by decide)), l, ?_⟩
  rw [State.hart_congr (hf.1 .harts (by decide)), State.hart_modHart_same, State.hart_congr (hq.1 .harts (by decide))]

end Sys2Proof.Machine
end

section
/-! SUPPORT. Writes of capabilities (R372, R373): what they leave in the registers and the Store, and that they keep what
every other block reads. -/
namespace Sys2Proof.Machine
variable {s t w : State} {u : Nat}

/-! ### What plain blocks read -/

/-- The bytes are the same, and so are the check bits of every block outside the capabilities. -/
def SamePlain (s t : State) : Prop :=
  t.mem = s.mem ∧ ∀ k, plainBlock k = true → Tab.get (fun _ => 0) t.xp k = Tab.get (fun _ => 0) s.xp k

theorem SamePlain.refl (s : State) : SamePlain s s := ⟨rfl, fun _ _ => rfl⟩

theorem SamePlain.trans (h : SamePlain s t) (k : SamePlain t w) : SamePlain s w :=
  ⟨k.1.trans h.1, fun j hj => (k.2 j hj).trans (h.2 j hj)⟩

theorem SamePlain.of_same (hm : t.mem = s.mem) (hx : t.xp = s.xp) : SamePlain s t := ⟨hm, fun _ _ => by rw [hx]⟩

/-- A plain block reads by its bytes and its check bits, whatever the capabilities are. -/
theorem SamePlain.rdByte (h : SamePlain s t) {a : Nat} (ha : plainBlock (a / 8) = true) : t.rdByte a = s.rdByte a := by
  obtain ⟨m, u, b, hs, hm⟩ := plainBlock_iff.1 ha
  have hd : t.blkData (a / 8) = s.blkData (a / 8) := by
    have hb : t.byte = s.byte := funext fun x => State.byte_congr h.1 x
    unfold State.blkData
    rw [hs, hb]
    split <;> [exact absurd (by simp_all) hm; rfl]
  have hk : t.chk (a / 8) = s.chk (a / 8) := by unfold State.chk; rw [hd, h.2 _ ha]
  unfold State.rdByte State.blkVal State.blkClass State.syndromes
  rw [hk, hd]

/-! ### Capability writes -/

/-- The SRAM of memory identifier `m` holds the bytes above its base (R424). -/
theorem sramOf_internal {a m : Nat} (ha : 2 ^ 48 ≤ a) (hm : (a - 2 ^ 48) / 2 ^ 40 = m) (h1 : 1 ≤ m) (hf : m ≤ 0xF) :
    sramOf a = some (m, a / 2 ^ 24 % 2 ^ 16, a % 2 ^ 24 / 8) := by
  have hr : region a = .internal := by
    unfold region
    iterate 6 rw [if_neg (by omega)]
    rw [if_pos ha]
  simp only [sramOf, hr, hm]
  rw [if_pos ⟨h1, hf⟩]

/-- The blocks of a unit's capabilities are not plain. -/
theorem plainBlock_capBlock {ix : Nat} (hu : u < 128) (hx : ix < 512) :
    plainBlock (sram 0xA u (16 * ix) / 8) = false ∧ plainBlock (sram 0xA u (16 * ix) / 8 + 1) = false := by
  have key : ∀ k, sram 0xA u (16 * ix) ≤ 8 * k → 8 * k < sram 0xA u (16 * ix) + 16 → plainBlock k = false := by
    intro k h1 h2
    unfold sram at h1 h2
    unfold plainBlock
    rw [sramOf_internal (m := 0xA) (by omega) (by omega) (by decide) (by decide)]
    rfl
  have h8 : 8 ∣ sram 0xA u (16 * ix) := by unfold sram; omega
  generalize sram 0xA u (16 * ix) = a at key h8
  exact ⟨key _ (by omega) (by omega), key _ (by omega) (by omega)⟩

theorem samePlain_capFresh (hc : s.canonical = true) (hu : u < 128) {ix : Nat} (hx : ix < 512) :
    SamePlain s ((capFresh u ix).run s) := by
  obtain ⟨h1, h2⟩ := plainBlock_capBlock hu hx
  have ne : ∀ {j k : Nat}, plainBlock j = true → plainBlock k = false → j ≠ k := by rintro j k hj hk rfl; simp_all
  have hw : ∀ s : State, s.canonical = true → Tab.wf (fun _ => 0) s.xp = true := fun s h => (State.canonical_iff.1 h).2.1
  refine ⟨(touches_capFresh u ix s).1 .mem (by decide), fun j hj => ?_⟩
  simp only [capFresh, run_block_cons, run_block_nil, Eff.run_prog]
  rw [Eff.xp_xp, Tab.get_put_ne (hw _ (Eff.apply_canonical _ _ hc)) (ne hj h2), Eff.xp_xp,
    Tab.get_put_ne (hw _ hc) (ne hj h1)]

/-- A write of the capability with key `k` of unit `u`, whose blocks have number `ix`. -/
def capWrite (u k ix : Nat) (v : Cap) : Prog := block [(Eff.cap (u * 512 + k) v).prog, capFresh u ix]

theorem setCreg_eq (u r : Nat) (v : Cap) : setCreg u r v = capWrite u r (capIx r) v := rfl

theorem setStore_eq (u e : Nat) (v : Cap) : setStore u e v = capWrite u (256 + e) e v := by
  unfold setStore capWrite; rw [Nat.add_assoc]

/-- The capability with key `k` of unit `u`: registers have the keys 0 to 15, Store entries those from 256; keys 0 and 256
hold nothing (R372, R373). -/
def State.capOf (s : State) (u k : Nat) : Cap := if k % 256 = 0 then 0 else Tab.get (fun _ => 0) s.caps (u * 512 + k)

theorem State.creg_eq_capOf {r : Nat} (hr : r < 16) : s.creg u r = s.capOf u r := by
  unfold State.creg State.capOf; exact if_congr (by omega) rfl rfl

theorem State.store_eq_capOf {e : Nat} (he : e < 256) : s.store u e = s.capOf u (256 + e) := by
  unfold State.store State.capOf; rw [← Nat.add_assoc]; exact if_congr (by omega) rfl rfl

theorem samePlain_capWrite (hc : s.canonical = true) (hu : u < 128) {k ix : Nat} (hx : ix < 512) (v : Cap) :
    SamePlain s ((capWrite u k ix v).run s) := by
  simp only [capWrite, run_block_cons, run_block_nil, Eff.run_prog]
  exact (SamePlain.of_same (by simp) (by simp)).trans (samePlain_capFresh (Eff.apply_canonical _ _ hc) hu hx)

/-- The capabilities of a unit after a write of one of them. -/
theorem State.capOf_capWrite (hc : s.canonical = true) {k : Nat} (hk : k % 256 ≠ 0) (ix : Nat) (v : Cap) (j : Nat) :
    ((capWrite u k ix v).run s).capOf u j = if j = k then v else s.capOf u j := by
  have hx : ((capFresh u ix).run ((Eff.cap (u * 512 + k) v).apply s)).caps = ((Eff.cap (u * 512 + k) v).apply s).caps :=
    (touches_capFresh u ix _).1 .caps (by decide)
  simp only [capWrite, run_block_cons, run_block_nil, Eff.run_prog]
  unfold State.capOf
  rw [hx, Eff.cap_caps, if_neg (show ¬(u * 512 + k) % 256 = 0 by omega),
    Tab.get_put (State.canonical_iff.1 hc).2.2.2.2.1]
  by_cases hj : j = k
  · rw [if_pos hj, if_neg (by omega), if_pos (by omega)]
  · rw [if_neg hj]; exact if_congr Iff.rfl rfl (if_neg (by omega))

/-- A run of capability writes leaves each value under its key and every other capability of the unit as it was. -/
theorem capWrites_run (hc : s.canonical = true) (hu : u < 128) (key ix : Nat → Nat) (f : Nat → Cap) (lo n : Nat)
    (hkey : ∀ i, lo ≤ i → i < lo + n → key i % 256 ≠ 0 ∧ ix i < 512) (hinj : ∀ i j, key i = key j → i = j) :
    let t := (forEach (range lo n) fun i => capWrite u (key i) (ix i) (f i)).run s
    SamePlain s t ∧ (∀ i, lo ≤ i → i < lo + n → t.capOf u (key i) = f i) ∧
      ∀ k, (∀ i, lo ≤ i → i < lo + n → k ≠ key i) → t.capOf u k = s.capOf u k := by
  induction n generalizing lo s with
  | zero => exact ⟨SamePlain.refl s, fun i _ _ => by omega, fun _ _ => rfl⟩
  | succ n ih =>
    obtain ⟨h0, hx⟩ := hkey lo (by omega) (by omega)
    obtain ⟨hp, hs, hk⟩ := ih (Prog.run_canonical (capWrite u (key lo) (ix lo) (f lo)) hc) (lo + 1)
      fun i h1 h2 => hkey i (by omega) (by omega)
    simp only [range, run_forEach_cons]
    refine ⟨(samePlain_capWrite hc hu hx _).trans hp, fun i h1 h2 => ?_, fun k h => ?_⟩
    · by_cases h : i = lo
      · rw [h, hk _ fun j h1 _ e => by have := hinj _ _ e; omega, State.capOf_capWrite hc h0, if_pos rfl]
      · exact hs i (by omega) (by omega)
    · rw [hk k fun i h1 h2 => h i (by omega) (by omega), State.capOf_capWrite hc h0, if_neg (h lo (by omega) (by omega))]

/-- Store entries `b + 1` to `b + 15` after each has been written with its value of `f`. -/
theorem setStores_run (hc : s.canonical = true) (hu : u < 128) {b : Nat} (hb : b ≤ 240) (f : Nat → Cap) :
    let t := (forEach (range 1 15) fun i => setStore u (b + i) (f i)).run s
    SamePlain s t ∧ ∀ i, 1 ≤ i → i < 16 → t.store u (b + i) = f i := by
  simp only [setStore_eq]
  obtain ⟨hp, hs, -⟩ := capWrites_run hc hu (fun i => 256 + (b + i)) (fun i => b + i) f 1 15
    (fun i _ _ => ⟨by omega, by omega⟩) (fun _ _ _ => by omega)
  exact ⟨hp, fun i h1 h2 => by rw [State.store_eq_capOf (by omega)]; exact hs i h1 (by omega)⟩

/-- Capability registers 1 to 15 after each has been written with its value of `f`; the Store stays. -/
theorem setCregs_run (hc : s.canonical = true) (hu : u < 128) (f : Nat → Cap) :
    let t := (forEach (range 1 15) fun i => setCreg u i (f i)).run s
    SamePlain s t ∧ (∀ i, 1 ≤ i → i < 16 → t.creg u i = f i) ∧ ∀ e, e < 256 → t.store u e = s.store u e := by
  simp only [setCreg_eq]
  obtain ⟨hp, hs, hk⟩ := capWrites_run hc hu (fun i => i) capIx f 1 15
    (fun i _ _ => ⟨by omega, by unfold capIx; omega⟩) (fun _ _ e => e)
  exact ⟨hp, fun i h1 h2 => by rw [State.creg_eq_capOf h2]; exact hs i h1 (by omega), fun e he => by
    rw [State.store_eq_capOf he, State.store_eq_capOf he, hk _ fun i _ _ => by omega]⟩

end Sys2Proof.Machine
end

section
/-! SUPPORT. Direct stores of a unit to whole blocks of a protected SRAM (R84, R187, R216): where no store of it waits and no
line is cached, they are plain writes. -/
namespace Sys2Proof.Machine
variable {s t w : State} {u : Nat}

/-! ### Direct stores to plain blocks -/

theorem runs_zipIdx {bs : List Byte} (hb : bs ≠ []) (b k : Nat) :
    runs ((bs.zipIdx k).map fun x => (b + x.2, x.1)) = [(b + k, bs)] := by
  induction bs generalizing k with
  | nil => exact absurd rfl hb
  | cons x bs ih =>
    cases bs with
    | nil => rfl
    | cons y bs =>
      rw [List.zipIdx_cons, List.map_cons, runs, ih (by simp) (k + 1)]
      simp [Nat.add_assoc]

/-- A unit without cached lines has no copy to keep (R185). -/
theorem cacheSync_run (h : (s.hart u).cache = []) (pa n : Nat) : (cacheSync u pa n).run s = s := by
  have hit : ∀ b, s.cacheHit u b = none := by
    intro b
    unfold State.cacheHit
    simp [Hart.line, h, Tab.get]
  unfold cacheSync
  induction pieces n pa n with
  | nil => rfl
  | cons x xs ih => rw [run_forEach_cons, Prog.run_ask, hit]; exact ih

/-- A DRAM bank knows at most the unit itself by its page (R174). -/
theorem pageUnit_unitPage (hu : u < 128) : pageUnit (unitPage u) = none ∨ pageUnit (unitPage u) = some u := by
  unfold pageUnit unitPage corePage callerPage
  split <;> [skip; split] <;> grind

/-- A write of a whole plain block changes bytes and check bits alone. -/
theorem only_writePiece_block (h : s.canonical = true) {k : Nat} (hk : plainBlock k = true) {bs : List Byte}
    (hl : bs.length = 8) : Only [.mem, .xp] s ((writePiece (8 * k) bs).run s) := by
  obtain ⟨m, u, b, hs, -⟩ := plainBlock_iff.1 hk
  have hw : (writePiece (8 * k) bs).touches [.mem, .xp, .caps] := by
    unfold writePiece
    refine touches_ask fun s => ?_
    rw [bankOf_of_sram hs, hs]
    refine touches_cons ?_ (touches_cons (touches_ask fun _ => touches_ite touches_done ?_) touches_nil)
    · unfold onlyIf; rw [if_neg (by omega)]; exact touches_done
    · exact touches_cons (touches_onlyIf ((touches_setBlk _ _).mono (by decide))) <|
        touches_cons ((touches_setBytes _ _).mono (by decide)) <|
        touches_cons (touches_ask fun _ => (touches_freshChk _ _).mono (by decide)) touches_nil
  refine ⟨fun p hp => ?_, (hw s).2⟩
  by_cases hc : p = .caps
  · rw [hc]; exact (writePiece_block h hk hl).2.2.2
  · exact (hw s).1 p (by simp_all)

/-- Bytes that land on a whole plain block, of a unit without cached lines, are written there and nowhere else. -/
theorem landBytes_block (hu : u < 128) (h : (s.hart u).cache = []) (hc : s.canonical = true) {k : Nat}
    (hk : plainBlock k = true) {bs : List Byte} (hl : bs.length = 8) :
    (landBytes (unitPage u) (bs.zipIdx.map fun x => (8 * k + x.2, x.1)) false).run s = (writePiece (8 * k) bs).run s := by
  have hr : runs (bs.zipIdx.map fun x => (8 * k + x.2, x.1)) = [(8 * k, bs)] :=
    runs_zipIdx (by rintro rfl; simp at hl) (8 * k) 0
  have hw : (writeAt (8 * k) bs).run s = (writePiece (8 * k) bs).run s := by
    have := pieces_blocks (f := 8) (k := k) (n := 1) (by omega) (by simpa using hk)
    unfold writeAt
    rw [hl, show pieces 8 (8 * k) 8 = [(8 * k, 8)] from this]
    simp [← hl]
  have hq : (((writePiece (8 * k) bs).run s).hart u).cache = [] := by
    rw [State.hart_congr ((only_writePiece_block hc hk hl).1 .harts (by decide)), h]
  simp only [landBytes, hr, run_block_cons, run_block_nil, run_forEach_cons, run_forEach_nil, hw, run_onlyIf_neg,
    Bool.false_eq_true, not_false_eq_true]
  rcases pageUnit_unitPage hu with e | e <;> rw [e]
  · rfl
  · refine (run_forEach_cons (8 * k, bs) [] fun x => cacheSync u x.1 x.2.length).trans ?_
    rw [run_forEach_nil]; exact cacheSync_run hq _ _

/-- A write that touches no durable range is not refused (R216). -/
theorem guarded_run {g : Guard} (h : s.durable g.va g.n = false) (p : Prog) : (guarded g p).run s = p.run s := by
  have : s.refuses g = false := by simp [State.refuses, h]
  simp only [guarded, Prog.run_ask, this]; rfl

theorem State.durable_congr (h : t.io = s.io) (va n : Nat) : t.durable va n = s.durable va n := by
  unfold State.durable State.fld; simp only [State.ioVal_congr h]

/-- Where a program does the same as another as long as a fact holds that the other keeps, so do their repetitions. -/
theorem forEach_congr {α : Type} {R : State → Prop} {f g : α → Prog} {xs : List α}
    (h : ∀ x ∈ xs, ∀ s, R s → (f x).run s = (g x).run s ∧ R ((g x).run s)) (hs : R s) :
    (forEach xs f).run s = (forEach xs g).run s := by
  induction xs generalizing s with
  | nil => rfl
  | cons x xs ih =>
    obtain ⟨he, hr⟩ := h x List.mem_cons_self s hs
    rw [run_forEach_cons, run_forEach_cons, he]
    exact ih (fun y hy => h y (List.mem_cons_of_mem _ hy)) hr

/-- What makes a direct store of unit `u` to plain blocks a plain write: no store of the unit waits, no line is cached,
and the durable ranges leave the write alone. -/
structure BareStore (s : State) (u va n : Nat) : Prop where
  canonical : s.canonical = true
  unit : u < 128
  mbuf : (s.hart u).mbuf = []
  cache : (s.hart u).cache = []
  durable : s.durable va n = false

theorem BareStore.keep {va n : Nat} (h : BareStore s u va n) (p : Prog) {ps : List Piece} (ho : Only ps s (p.run s))
    (hh : .harts ∉ ps) (hio : .io ∉ ps) : BareStore (p.run s) u va n :=
  have e := State.hart_congr (ho.1 .harts hh) u
  ⟨Prog.run_canonical p h.canonical, h.unit, by rw [e, h.mbuf], by rw [e, h.cache],
    by rw [State.durable_congr (ho.1 .io hio), h.durable]⟩

/-- A direct store to whole plain blocks writes them and does nothing else (R84, R122, R151). -/
theorem storeRow_blocks {va k n : Nat} {bs : List Byte} (h : BareStore s u va bs.length) (hl : bs.length = 8 * n)
    (hk : ∀ i, i < n → plainBlock (k + i) = true) :
    (storeRow u va [(va, 8 * k, bs.length)] bs []).run s = (writeAt (8 * k) bs).run s := by
  have hd : (drainOver u (8 * k) bs.length).run s = s := by simp [drainOver, h.mbuf]
  simp only [storeRow, run_forEach_cons, run_forEach_nil, run_block_cons, run_block_nil, hd, writeAt]
  refine forEach_congr (R := fun s => BareStore s u va bs.length) (fun x hx s h => ?_) h
  rw [hl, pieces_blocks (by omega) hk] at hx
  obtain ⟨j, hj, rfl⟩ := List.mem_map.1 hx
  obtain ⟨hj1, hj2⟩ := mem_range.1 hj
  have hp : plainBlock j = true := by have := hk (j - k) (by omega); rwa [show k + (j - k) = j by omega] at this
  have hb : ((bs.drop (8 * j - 8 * k)).take 8).length = 8 := by simp; omega
  refine ⟨?_, h.keep _ (only_writePiece_block h.canonical hp hb) (by decide) (by decide)⟩
  rw [← landBytes_block h.unit h.cache h.canonical hp hb]
  obtain ⟨m, v, b, hs, -⟩ := plainBlock_iff.1 hp
  have h0 : ((((bs.drop (8 * j - 8 * k)).take 8).zipIdx.map fun x => (8 * j + x.2, x.1)).headD (0, 0)).1 = 8 * j := by
    revert hb
    cases (bs.drop (8 * j - 8 * k)).take 8 <;> simp
  simp only [storeGrain, Nat.sub_self, Nat.zero_add, h0, bankOf_of_sram hs, List.any_nil]
  exact guarded_run h.durable _

end Sys2Proof.Machine
end

section
/-! SUPPORT. Entry to the handler (R382, R383): what it leaves where the unit can enter. -/
namespace Sys2Proof.Machine
variable {s t w : State} {u : Nat}

/-! ### Words of little-endian bytes -/

theorem length_toBytes (n v : Nat) : (toBytes n v).length = n := by
  induction n generalizing v with
  | zero => rfl
  | succ n ih => simp [toBytes, ih]

theorem ofBytes_toBytes (n v : Nat) : ofBytes (toBytes n v) = v % 256 ^ n := by
  induction n generalizing v with
  | zero => simp [toBytes, ofBytes, Nat.mod_one]
  | succ n ih =>
    have hm : v % (256 * 256 ^ n) = v % 256 + 256 * (v / 256 % 256 ^ n) := Nat.mod_mul
    rw [Nat.pow_succ', hm, toBytes, ofBytes, ih, BitVec.toNat_ofNat]

theorem rdNat_of_bytes {a n : Nat} {bs : List Byte} (hl : bs.length = n) (h : ∀ i, i < n → s.rdByte (a + i) = bs.getD i 0) :
    s.rdNat a n = ofBytes bs := by
  unfold State.rdNat State.rd
  induction bs generalizing a n with
  | nil => subst hl; rfl
  | cons b bs ih =>
    subst hl
    have h0 := h 0 (by simp)
    simp only [List.length_cons, range, List.map_cons, ofBytes, Nat.add_zero, List.getD_cons_zero] at h0 ⊢
    rw [h0, ih rfl fun i hi => ?_]
    have := h (i + 1) (by simpa using hi)
    rwa [List.getD_cons_succ, show a + (i + 1) = a + 1 + i by omega] at this

/-! ### The frame -/

/-- The first word of a frame: the cause, the kind, the source, the priority and the PC (R383). -/
def State.causeWord (s : State) (u kind cause source prio : Nat) : Nat :=
  cause * 2 ^ 56 + kind * 2 ^ 55 + source * 2 ^ 47 + prio * 2 ^ 43 + (s.hart u).pc.toNat

theorem State.length_frame (kind cause source prio bad insn : Nat) :
    (s.frame u kind cause source prio bad insn).length = 64 := by
  simp [State.frame, length_toBytes, length_range]

/-- A frame begins with the cause word and the status word (R383). -/
theorem State.frame_words (kind cause source prio bad insn : Nat) :
    ∃ rest, s.frame u kind cause source prio bad insn =
      toBytes 8 (s.causeWord u kind cause source prio) ++ (toBytes 8 (s.statusWord u) ++ rest) :=
  ⟨_, by simp only [State.frame, State.causeWord, List.append_assoc]; rfl⟩

theorem getD_frame {kind cause source prio bad insn i : Nat} (hi : i < 8) :
    (s.frame u kind cause source prio bad insn).getD i 0 = (toBytes 8 (s.causeWord u kind cause source prio)).getD i 0 ∧
      (s.frame u kind cause source prio bad insn).getD (8 + i) 0 = (toBytes 8 (s.statusWord u)).getD i 0 := by
  obtain ⟨rest, hf⟩ := s.frame_words (u := u) kind cause source prio bad insn
  have h8 := length_toBytes 8
  rw [hf]
  constructor
  · rw [List.getD_append _ _ _ _ (by rw [h8]; exact hi)]
  · rw [List.getD_append_right _ _ _ _ (by rw [h8]; omega), h8, List.getD_append _ _ _ _ (by rw [h8]; omega)]
    simp

/-- The frame of an exception of `cause` stands at `pa`. -/
structure FrameAt (s t : State) (u cause pa : Nat) : Prop where
  cause : t.rdByte (pa + 7) = BitVec.ofNat 8 cause
  pc : bits (t.rdNat pa 8) 17 0 = (s.hart u).pc.toNat
  ld : bits (t.rdNat (pa + 8) 8) 8 6 = (s.hart u).ld
  lbase : bits (t.rdNat (pa + 8) 8) 5 3 = (s.hart u).lbase
  domain : bits (t.rdNat (pa + 8) 8) 19 16 = (s.creg u 15).domain

/-- The bytes of a frame, where they stand, give the cause, the PC, the loop depths and the domain (R383). -/
theorem frameAt_of_bytes {cause pa bad insn : Nat} (hcause : cause < 256) (hld : (s.hart u).ld ≤ 4)
    (hlb : (s.hart u).lbase ≤ 4) (hcd : (s.hart u).capdepth < 4)
    (h : ∀ i, i < 64 → t.rdByte (pa + i) = (s.frame u 0 cause 0 0 bad insn).getD i 0) : FrameAt s t u cause pa := by
  have hpc := (s.hart u).pc.isLt
  have hdom : (s.creg u 15).domain < 16 := by unfold Cap.domain bits; omega
  have w0 : t.rdNat pa 8 = s.causeWord u 0 cause 0 0 := by
    rw [rdNat_of_bytes (length_toBytes 8 _) fun i hi => (h i (by omega)).trans (getD_frame hi).1, ofBytes_toBytes]
    unfold State.causeWord; omega
  have w1 : t.rdNat (pa + 8) 8 = s.statusWord u := by
    rw [rdNat_of_bytes (length_toBytes 8 _) fun i hi => by
      rw [Nat.add_assoc]; exact (h (8 + i) (by omega)).trans (getD_frame hi).2, ofBytes_toBytes]
    unfold State.statusWord; dsimp only; omega
  refine ⟨?_, ?_, ?_, ?_, ?_⟩
  · have hw : s.causeWord u 0 cause 0 0 % 256 ^ 8 / 2 ^ (8 * 7) = cause := by unfold State.causeWord; omega
    rw [h 7 (by omega), (getD_frame (by omega)).1, ← ofBytes_byte, ofBytes_toBytes, hw]
  · rw [w0]; unfold State.causeWord bits; omega
  all_goals rw [w1]; unfold State.statusWord bits; dsimp only; omega

/-! ### Exception entry -/

theorem run_block_append (ps qs : List Prog) (s : State) : (block (ps ++ qs)).run s = (block qs).run ((block ps).run s) := by
  induction ps generalizing s with
  | nil => rfl
  | cons p ps ih => rw [List.cons_append, run_block_cons, run_block_cons, ih]

/-- At a quiet boundary no shadow is open: completing them changes nothing that any rule reads. -/
theorem completeShadows_run (h : (s.hart u).shadows = []) :
    Only [.harts] s ((completeShadows u).run s) ∧ ((completeShadows u).run s).hart u = s.hart u := by
  simp only [completeShadows, Prog.run_ask, h, run_block_cons, run_block_nil, run_forEach_nil]
  refine ⟨only_modHart _, ?_⟩
  rw [State.hart_modHart_same, ← h]

/-- Whole plain blocks take every write (R179, R423). -/
theorem writeLost_blocks {k n : Nat} (hk : ∀ i, i < n → plainBlock (k + i) = true) : s.writeLost (8 * k) (8 * n) = false := by
  unfold State.writeLost
  rw [pieces_blocks (by omega) hk, List.any_eq_false]
  intro x hx
  obtain ⟨j, hj, rfl⟩ := List.mem_map.1 hx
  obtain ⟨h1, h2⟩ := mem_range.1 hj
  have hp : plainBlock j = true := by have := hk (j - k) (by omega); rwa [show k + (j - k) = j by omega] at this
  obtain ⟨m, v, b, hs, -⟩ := plainBlock_iff.1 hp
  simp [State.pieceLost, State.disabled, bankOf_of_sram hs, grain_of_sram hs]

/-- What a unit holds once it has entered its handler at `pc`, with the cached entries `tlb` (R382). -/
def Hart.inHandler (h : Hart) (pc : Nat) (tlb : List TlbEntry) : Hart :=
  { h with
    esp := BitVec.ofNat 32 (h.esp.toNat - 64), capdepth := h.capdepth + 1, lbase := h.ld, wait := none,
    pc := BitVec.ofNat 18 pc, haltReq := none, stepping := none, tlb := tlb }

/-- The partition address of the frame that unit `u` pushes next (R382). -/
def State.frameVa (s : State) (u : Nat) : Nat := (s.store u 14).base + (s.hart u).esp.toNat - 64

/-- An entry to the handler pushes frame `fr` to `pa` (R382). -/
def State.pushFrame (s : State) (u pa : Nat) (fr : List Byte) : List Prog :=
  [forEach [(s.frameVa u, pa, 64)] fun (va, _, _) => trUse u va,
   storeRow u (s.frameVa u) [(s.frameVa u, pa, 64)] fr []]

/-- What an entry to the handler from `s` makes of unit `u` (R382, R449). -/
def State.toHandler (s : State) (u : Nat) (x : Hart) : Hart :=
  { x with
    esp := BitVec.ofNat 32 ((s.hart u).esp.toNat - 64), capdepth := (s.hart u).capdepth + 1, lbase := x.ld, wait := none,
    pc := BitVec.ofNat 18 ((s.store u 15).base % pmSize u),
    haltReq := if x.stepping = some 1 then some (x.haltReq.getD 2) else x.haltReq,
    stepping := none }

/-- The interrupted capabilities go to the Store block of the old depth, those of the handler come from entries 1 to 15,
and the unit goes to its handler (R382). -/
def State.switchCaps (s : State) (u : Nat) : List Prog :=
  [forEach (range 1 15) fun i => setStore u (192 + 16 * (s.hart u).capdepth + i) (s.creg u i),
   modHart u (s.toHandler u),
   forEach (range 1 15) fun i => setCreg u i (s.store u i),
   tryHalt u]

/-- Whether a unit can enter depends on its own state and on memory, capabilities and I/O registers alone. -/
theorem canEnter_congr {pa : Nat} (h : canEnter s u pa) (ho : Only [.harts] s t) (hh : t.hart u = s.hart u) :
    canEnter t u pa := by
  unfold canEnter at *
  dsimp only at *
  rw [hh, State.store_congr (ho.1 .caps (by decide)), ho.harts_capsClean, ho.harts_trRange (by rw [hh]),
    State.durable_congr (ho.1 .io (by decide))]
  exact h

/-- Where the unit can enter, every check of the entry passes (R382). -/
theorem enter_run {pa : Nat} (h : canEnter s u pa) (hq : (s.hart u).shadows = []) (cause bad insn : Nat) :
    let s1 := (completeShadows u).run s
    (enter u 0 cause 0 0 bad insn).run s =
      (block (s1.switchCaps u)).run ((block (s1.pushFrame u pa (s1.frame u 0 cause 0 0 bad insn))).run s1) := by
  intro s1
  obtain ⟨ho, hh⟩ := completeShadows_run hq
  obtain ⟨-, hd, ha, ht1, ht2, hcl, htr, hpa, hpl, -, -, -⟩ := canEnter_congr h ho hh
  have hw : s1.writeLost pa 64 = false := by
    have := writeLost_blocks (s := s1) (k := pa / 8) (n := 8) fun i hi =>
      List.all_eq_true.1 hpl i (mem_range.2 ⟨by omega, by omega⟩)
    rwa [show 8 * (pa / 8) = pa by omega] at this
  unfold enter
  rw [run_block_cons, run_block_cons, run_block_nil, capUse_run hcl, Prog.run_ask]
  dsimp only
  rw [if_neg (by omega), if_neg (not_not.2 ha), if_neg (by omega), htr]
  dsimp only
  rw [if_neg (by simpa using Bool.eq_false_iff.1 hw)]
  exact run_block_append (s1.pushFrame u pa _) (s1.switchCaps u) s1

/-- Where the unit can enter, its frame is written at `pa`; of the unit only the cached entries of its translation change,
and the capabilities and the scalar registers stay (R382). -/
theorem pushFrame_run {pa : Nat} {fr : List Byte} (h : canEnter s u pa) (hc : s.canonical = true) (hl : fr.length = 64) :
    let t := (block (s.pushFrame u pa fr)).run s
    (∃ l, t.hart u = { s.hart u with tlb := l }) ∧ (∀ i, i < 64 → t.rdByte (pa + i) = fr.getD i 0) ∧
      t.caps = s.caps ∧ t.regs = s.regs := by
  obtain ⟨hu, -, -, -, -, -, -, hpa, hpl, hdur, hmb, hca⟩ := h
  have hpl8 : ∀ i, i < 8 → plainBlock (pa / 8 + i) = true := fun i hi =>
    List.all_eq_true.1 hpl i (mem_range.2 ⟨by omega, by omega⟩)
  have hpa8 : pa = 8 * (pa / 8) := by omega
  obtain ⟨ho1, l, hh1⟩ := only_trUse u (s.frameVa u) s
  have hc1 := Prog.run_canonical (trUse u (s.frameVa u)) hc
  have hrun : (block (s.pushFrame u pa fr)).run s =
      (storeRow u (s.frameVa u) [(s.frameVa u, pa, 64)] fr []).run ((trUse u (s.frameVa u)).run s) := by
    rw [State.pushFrame, run_block_cons, run_block_cons, run_block_nil, run_forEach_cons, run_forEach_nil]
  rw [hrun]
  generalize (trUse u (s.frameVa u)).run s = s1 at ho1 hh1 hc1 ⊢
  have hbare : BareStore s1 u (s.frameVa u) fr.length :=
    ⟨hc1, hu, by rw [hh1]; exact hmb, by rw [hh1]; exact hca, by
      rw [State.durable_congr (ho1.1 .io (by decide)), hl]; exact hdur⟩
  generalize pa / 8 = k at hpa8 hpl8
  subst hpa8
  have hrow := storeRow_blocks hbare (n := 8) hl hpl8
  rw [hl] at hrow
  rw [hrow]
  obtain ⟨hrd, -, hcaps⟩ := writeAt_blocks hc1 (n := 8) hl hpl8
  have ho2 := touches_writeAt (8 * k) fr s1
  refine ⟨⟨l, (State.hart_congr (ho2.1 .harts (by decide)) u).trans hh1⟩, fun i hi => ?_,
    hcaps.trans (ho1.1 .caps (by decide)), (ho2.1 .regs (by decide)).trans (ho1.1 .regs (by decide))⟩
  rw [hrd, if_pos (by omega), Nat.add_sub_cancel_left]

/-- The unit's halts: none is asked for, so none is taken (R449). -/
theorem tryHalt_run (h : (s.hart u).haltReq = none) : (tryHalt u).run s = s := by
  rw [tryHalt, Prog.run_ask]; dsimp only; rw [h]; rfl

/-- A switch of the capabilities leaves each in its place and the unit in its handler; it keeps the plain blocks and the
scalar registers (R382). -/
theorem switchCaps_run {l : List TlbEntry} (hc : w.canonical = true) (hu : u < 128) (hd : (s.hart u).capdepth < 4)
    (hq : (s.hart u).quiet = true) (hh : w.hart u = { s.hart u with tlb := l }) :
    let t := (block (s.switchCaps u)).run w
    t.hart u = (s.hart u).inHandler ((s.store u 15).base % pmSize u) l ∧ SamePlain w t ∧
      (∀ i, 1 ≤ i → i < 16 → t.creg u i = s.store u i) ∧
      (∀ i, 1 ≤ i → i < 16 → t.store u (192 + 16 * (s.hart u).capdepth + i) = s.creg u i) ∧ t.regs = w.regs := by
  obtain ⟨-, hreq, hstep⟩ := Hart.quiet_iff.1 hq
  rw [State.switchCaps, run_block_cons, run_block_cons, run_block_cons, run_block_cons, run_block_nil]
  obtain ⟨hp1, hs1⟩ := setStores_run hc hu (b := 192 + 16 * (s.hart u).capdepth) (by omega) fun i => s.creg u i
  have ho1 := touches_forEach (l := range 1 15)
    (fun i => touches_setStore u (192 + 16 * (s.hart u).capdepth + i) (s.creg u i)) w
  have hc1 := Prog.run_canonical (forEach (range 1 15) fun i => setStore u (192 + 16 * (s.hart u).capdepth + i) (s.creg u i)) hc
  generalize (forEach (range 1 15) fun i => setStore u (192 + 16 * (s.hart u).capdepth + i) (s.creg u i)).run w = w1
    at hp1 hs1 ho1 hc1 ⊢
  have hh1 : w1.hart u = { s.hart u with tlb := l } := (State.hart_congr (ho1.1 .harts (by decide)) u).trans hh
  have hh2 : ((modHart u (s.toHandler u)).run w1).hart u = (s.hart u).inHandler ((s.store u 15).base % pmSize u) l := by
    rw [State.hart_modHart_same, hh1]
    simp only [State.toHandler, Hart.inHandler, hreq, hstep]
    rfl
  have ho2 := only_modHart (s := w1) (u := u) (s.toHandler u)
  have hc2 := Prog.run_canonical (modHart u (s.toHandler u)) hc1
  generalize (modHart u (s.toHandler u)).run w1 = w2 at hh2 ho2 hc2 ⊢
  obtain ⟨hp3, hg3, hs3⟩ := setCregs_run hc2 hu fun i => s.store u i
  have ho3 := touches_forEach (l := range 1 15) (fun i => touches_setCreg u i (s.store u i)) w2
  generalize (forEach (range 1 15) fun i => setCreg u i (s.store u i)).run w2 = t at hp3 hg3 hs3 ho3 ⊢
  have hh3 : t.hart u = (s.hart u).inHandler ((s.store u 15).base % pmSize u) l :=
    (State.hart_congr (ho3.1 .harts (by decide)) u).trans hh2
  rw [tryHalt_run (by rw [hh3]; rfl)]
  refine ⟨hh3, (hp1.trans (SamePlain.of_same (ho2.1 .mem (by decide)) (ho2.1 .xp (by decide)))).trans hp3, hg3,
    fun i h1 h2 => ?_, ((ho3.1 .regs (by decide)).trans (ho2.1 .regs (by decide))).trans (ho1.1 .regs (by decide))⟩
  rw [hs3 _ (by omega), State.store_congr (ho2.1 .caps (by decide)), hs1 i h1 (by omega)]

/-- Where a unit can enter at a quiet boundary, an exception leaves what R382 and R383 say, and keeps the loop
registers. -/
theorem enter_entered {cause pa : Nat} (hc : s.canonical = true) (hq : (s.hart u).quiet = true) (h : canEnter s u pa)
    (hcause : cause < 256) (hld : (s.hart u).ld ≤ 4) (hlb : (s.hart u).lbase ≤ 4) (bad insn : Nat) :
    let t := (enter u 0 cause 0 0 bad insn).run s
    entered s t u cause pa ∧ (t.hart u).ls = (s.hart u).ls ∧ (t.hart u).le = (s.hart u).le ∧ (t.hart u).lc = (s.hart u).lc := by
  have hsh := (Hart.quiet_iff.1 hq).1
  rw [enter_run h hsh]
  obtain ⟨ho, hh⟩ := completeShadows_run hsh
  have hc1 := Prog.run_canonical (completeShadows u) hc
  generalize (completeShadows u).run s = s1 at ho hh hc1 ⊢
  have h1 := canEnter_congr h ho hh
  obtain ⟨⟨l, hh2⟩, hfr, -, hreg2⟩ :=
    pushFrame_run h1 hc1 (State.length_frame (s := s1) (u := u) 0 cause 0 0 bad insn)
  have hc2 := Prog.run_canonical (block (s1.pushFrame u pa (s1.frame u 0 cause 0 0 bad insn))) hc1
  generalize (block (s1.pushFrame u pa (s1.frame u 0 cause 0 0 bad insn))).run s1 = s2 at hh2 hfr hreg2 hc2 ⊢
  obtain ⟨hu, hd, -, htop, -, -, -, hpa, hpl, -⟩ := h
  obtain ⟨hh3, hp3, hg3, hs3, hreg3⟩ := switchCaps_run hc2 hu (by rw [hh]; exact hd) (by rw [hh]; exact hq) hh2
  generalize (block (s1.switchCaps u)).run s2 = t at hh3 hp3 hg3 hs3 hreg3 ⊢
  have hcaps : s1.caps = s.caps := ho.1 .caps (by decide)
  have hregs : t.regs = s.regs := hreg3.trans (hreg2.trans (ho.1 .regs (by decide)))
  obtain ⟨f1, f2, f3, f4, f5⟩ : FrameAt s1 t u cause pa :=
    frameAt_of_bytes hcause (by rw [hh]; exact hld) (by rw [hh]; exact hlb) (by rw [hh]; exact hd) fun i hi => by
      rw [hp3.rdByte ?_, hfr i hi]
      have := List.all_eq_true.1 hpl (i / 8) (mem_range.2 ⟨by omega, by omega⟩)
      rwa [show (pa + i) / 8 = pa / 8 + i / 8 by omega]
  rw [hh] at hh3 f2 f3 f4 hs3
  simp only [State.creg_congr hcaps, State.store_congr hcaps] at hh3 f5 hg3 hs3
  have hesp : BitVec.ofNat 32 ((s.hart u).esp.toNat - 64) = (s.hart u).esp - 64 := by
    apply BitVec.eq_of_toNat_eq
    have := (s.hart u).esp.isLt
    rw [BitVec.toNat_ofNat, BitVec.toNat_sub_of_le (by bv_omega)]
    bv_omega
  show entered s t u cause pa ∧ _
  rw [hh3]
  exact ⟨⟨by rw [hh3]; rfl, by rw [hh3]; rfl, by rw [hh3]; exact hesp, by rw [hh3]; rfl, by rw [hh3]; rfl,
    by rw [hh3]; rfl, hg3, hs3, f1, f2, f3, f4, f5, State.reg_congr hregs⟩, rfl, rfl, rfl⟩

end Sys2Proof.Machine
end

section
/-! SUPPORT. Reports of errors (R427): a report leaves its code in ERR_STAT of its page, since all else that it writes to I/O
registers lies in the first sixteen pages; and what a sequencer's fault leaves (R285). -/
namespace Sys2Proof.Machine
variable {s t : State} {p q : Prog}

/-- The program leaves every I/O register from offset 0x10000 on, that of every page from 0x10, as it was. -/
def Prog.keepsHighIo (p : Prog) : Prop :=
  ∀ s : State, s.canonical = true → ∀ a, 0x10000 ≤ a → (p.run s).ioVal a = s.ioVal a

theorem keepsHighIo_of_touches {ps : List Piece} (h : p.touches ps) (hio : Piece.io ∉ ps) : p.keepsHighIo :=
  fun s _ a _ => State.ioVal_congr ((h s).1 .io hio) a

theorem keepsHighIo_done : Prog.done.keepsHighIo := fun _ _ _ _ => rfl

theorem keepsHighIo_ask {k : State → Prog} (h : ∀ s, (k s).keepsHighIo) : (ask k).keepsHighIo := fun s => h s s

theorem keepsHighIo_andThen (hp : p.keepsHighIo) (hq : q.keepsHighIo) : (p.andThen q).keepsHighIo := fun s hc a ha => by
  rw [Prog.run_andThen, hq _ (Prog.run_canonical p hc) a ha, hp s hc a ha]

theorem keepsHighIo_nil : (block []).keepsHighIo := keepsHighIo_done

theorem keepsHighIo_cons {l : List Prog} (hp : p.keepsHighIo) (hl : (block l).keepsHighIo) : (block (p :: l)).keepsHighIo :=
  keepsHighIo_andThen hp hl

theorem keepsHighIo_forEach {α : Type} {l : List α} {f : α → Prog} (h : ∀ x ∈ l, (f x).keepsHighIo) :
    (forEach l f).keepsHighIo := by
  induction l with
  | nil => exact keepsHighIo_done
  | cons x l ih =>
    exact keepsHighIo_andThen (h x List.mem_cons_self) (ih fun y hy => h y (List.mem_cons_of_mem _ hy))

theorem keepsHighIo_onlyIf {c : Prop} [Decidable c] (h : p.keepsHighIo) : (onlyIf c p).keepsHighIo := by
  unfold onlyIf; split <;> [exact h; exact keepsHighIo_done]

theorem keepsHighIo_ite {c : Prop} [Decidable c] (hp : p.keepsHighIo) (hq : q.keepsHighIo) :
    (if c then p else q).keepsHighIo := by split <;> assumption

theorem keepsHighIo_ioSet {b : Nat} (hb : b < 0x10000) (v : Reg32) : (ioSet b v).keepsHighIo := fun s hc a ha => by
  rw [State.ioVal_ioSet hc, if_neg (by omega)]

theorem keepsHighIo_setMask {b : Nat} (hb : b < 0x10000) (m : Reg32) : (setMask b m).keepsHighIo :=
  keepsHighIo_ask fun _ => keepsHighIo_ioSet hb _

theorem keepsHighIo_setFld {b : Nat} (hb : b < 0x10000) (hi lo x : Nat) : (setFld b hi lo x).keepsHighIo :=
  keepsHighIo_ask fun _ => keepsHighIo_ioSet hb _

theorem keepsHighIo_satAdd {b : Nat} (hb : b < 0x10000) (hi lo n : Nat) : (satAdd b hi lo n).keepsHighIo :=
  keepsHighIo_ask fun _ => keepsHighIo_setFld hb hi lo _

theorem keepsHighIo_setPair {b : Nat} (hb : b + 4 < 0x10000) (v : Nat) : (setPair b v).keepsHighIo :=
  keepsHighIo_cons (keepsHighIo_ioSet (by omega) _) (keepsHighIo_cons (keepsHighIo_ioSet hb _) keepsHighIo_nil)

theorem keepsHighIo_modStop (f : StopSt → StopSt) : (modStop f).keepsHighIo :=
  keepsHighIo_of_touches (touches_modStop f) (by decide)

theorem keepsHighIo_modIcu (f : IcuSt → IcuSt) : (modIcu f).keepsHighIo :=
  keepsHighIo_of_touches (touches_modIcu f) (by decide)

theorem ioa_lt {page off : Nat} (hp : page < 0x10) (ho : off < 0x1000) : ioa page off < 0x10000 := by unfold ioa; omega

theorem le_ioa {page : Nat} (hp : 0x10 ≤ page) (off : Nat) : 0x10000 ≤ ioa page off := by unfold ioa; omega

/-! ### Interrupts -/

theorem lt_of_mem_bitsSet {n v x : Nat} (h : x ∈ bitsSet n v) : x < n := by
  have := (mem_range.1 (List.mem_filter.1 h).1).2
  omega

theorem lt_of_mem_filter_range {n x : Nat} {c : Nat → Bool} (h : x ∈ (range 0 n).filter c) : x < n := by
  have := (mem_range.1 (List.mem_filter.1 h).1).2
  omega

theorem keepsHighIo_hpIrq {i : Nat} (hi : i < 4) (b : Nat) : (hpIrq i b).keepsHighIo := by
  unfold hpIrq
  refine keepsHighIo_ask fun _ =>
    keepsHighIo_cons (keepsHighIo_setMask (ioa_lt (by unfold hpPage; omega) (by omega)) _) (keepsHighIo_cons ?_ keepsHighIo_nil)
  exact keepsHighIo_onlyIf (keepsHighIo_of_touches (touches_modPart _ _) (by decide))

theorem keepsHighIo_icuEvent (n : Nat) : (icuEvent n).keepsHighIo := by
  unfold icuEvent
  refine keepsHighIo_ite keepsHighIo_done (keepsHighIo_ask fun s => ?_)
  refine keepsHighIo_cons (keepsHighIo_forEach fun i hi => keepsHighIo_hpIrq ?_ 4)
    (keepsHighIo_cons (keepsHighIo_modIcu _) keepsHighIo_nil)
  split at hi
  · exact lt_of_mem_bitsSet (List.mem_filter.1 hi).1
  · simp at hi

theorem keepsHighIo_icuLevel (n : Nat) (on : Bool) : (icuLevel n on).keepsHighIo :=
  keepsHighIo_ask fun _ => keepsHighIo_cons (keepsHighIo_modIcu _) <|
    keepsHighIo_cons (keepsHighIo_onlyIf (keepsHighIo_icuEvent n)) <|
      keepsHighIo_cons (keepsHighIo_onlyIf (keepsHighIo_modIcu _)) keepsHighIo_nil

/-! ### The collector -/

theorem keepsHighIo_setSlotSt {v : Nat} (x : Nat) : (setSlotSt v x).keepsHighIo :=
  keepsHighIo_cons (keepsHighIo_setFld (by decide) _ _ _) <|
    keepsHighIo_cons (keepsHighIo_ask fun _ => keepsHighIo_icuLevel _ _) keepsHighIo_nil

theorem keepsHighIo_hostErrPoint : hostErrPoint.keepsHighIo :=
  keepsHighIo_ask fun _ =>
    keepsHighIo_cons
      (keepsHighIo_onlyIf (keepsHighIo_forEach fun _ hi => keepsHighIo_hpIrq (lt_of_mem_filter_range hi) 2)) <|
    keepsHighIo_cons (keepsHighIo_modStop _) keepsHighIo_nil

theorem keepsHighIo_jobIrqPoint : jobIrqPoint.keepsHighIo :=
  keepsHighIo_cons
    (keepsHighIo_ask fun _ => keepsHighIo_forEach fun _ hi => keepsHighIo_hpIrq (lt_of_mem_bitsSet hi) 1) <|
  keepsHighIo_cons keepsHighIo_hostErrPoint (keepsHighIo_cons (keepsHighIo_modStop _) keepsHighIo_nil)

theorem keepsHighIo_nesting (v : Nat) : (nesting v).keepsHighIo := by
  unfold nesting
  refine keepsHighIo_ask fun s => ?_
  split
  · exact keepsHighIo_done
  · refine keepsHighIo_cons (keepsHighIo_onlyIf (keepsHighIo_cons (keepsHighIo_setSlotSt 1) <|
      keepsHighIo_cons (keepsHighIo_setMask (by decide) _) keepsHighIo_nil)) (keepsHighIo_cons ?_ keepsHighIo_nil)
    exact keepsHighIo_onlyIf (keepsHighIo_cons (keepsHighIo_setMask (by decide) _) <|
      keepsHighIo_cons (keepsHighIo_ite keepsHighIo_jobIrqPoint (keepsHighIo_modStop _)) keepsHighIo_nil)

theorem keepsHighIo_fillSlot {v : Nat} (hv : v < 4) (page code info addr : Nat) :
    (fillSlot v page code info addr).keepsHighIo := by
  have hb : ioa 0xE (0x110 + 0x20 * v) + 20 < 0x10000 := by unfold ioa; omega
  unfold fillSlot
  refine keepsHighIo_ask fun s => keepsHighIo_cons (keepsHighIo_satAdd (ioa_lt (by omega) (by omega)) _ _ _) <|
    keepsHighIo_cons (keepsHighIo_modStop _) (keepsHighIo_cons (keepsHighIo_ite ?_ ?_) keepsHighIo_nil)
  · exact keepsHighIo_cons (keepsHighIo_ioSet (by omega) _) <| keepsHighIo_cons (keepsHighIo_ioSet (by omega) _) <|
      keepsHighIo_cons (keepsHighIo_ioSet (by omega) _) <| keepsHighIo_cons (keepsHighIo_ioSet (by omega) _) <|
      keepsHighIo_cons (keepsHighIo_setPair (by omega) _) (keepsHighIo_cons (keepsHighIo_setSlotSt 1) keepsHighIo_nil)
  · exact keepsHighIo_satAdd (by omega) _ _ _

/-! ### The report -/

theorem effSev_lt (e : ErrCode) (job : Bool) (map : Nat) : effSev (e.floor job) map < 4 := by
  have hf : e.floor job < 4 := by cases e <;> cases job <;> decide
  have hb : bits map 0 0 < 2 := by unfold bits; omega
  unfold effSev
  split <;> [omega; split] <;> omega

theorem ErrCode.code_lt (e : ErrCode) : e.code < 2 ^ 16 := by cases e <;> decide

theorem fld_setFld_low (h : s.canonical = true) (a x : Nat) :
    ((setFld a 15 0 x).run s).fld a 15 0 = x % 2 ^ 16 := by
  have hv := (s.ioVal a).isLt
  simp only [setFld, Prog.run_ask, State.fld, State.ioVal_ioSet h, if_true, bits, putBits, BitVec.toNat_ofNat]
  omega

/-- A report leaves its code in ERR_STAT of the page that reports (R427), where the page is none of the first sixteen. -/
theorem fld_report (h : s.canonical = true) {page : Nat} (hp : 0x10 ≤ page) (e : ErrCode) (info addr : Nat) :
    ((report page e info addr).run s).fld (ioa page 0x14) 15 0 = e.code := by
  have hv := effSev_lt e s.job (s.ioVal (ioa page 0x18)).toNat
  simp only [report, Prog.run_ask]
  rw [run_block_cons, run_block_cons]
  generalize effSev (e.floor s.job) (s.ioVal (ioa page 0x18)).toNat = v at hv ⊢
  have hm : ((setMask (ioa page 0x14) (BitVec.ofNat 32 (2 ^ (28 + v)))).run s).canonical = true := Prog.run_canonical _ h
  rw [State.fld, keepsHighIo_cons (keepsHighIo_nesting v) ?_ _ (Prog.run_canonical _ hm) _ (le_ioa hp _)]
  · exact (fld_setFld_low hm _ _).trans (Nat.mod_eq_of_lt e.code_lt)
  refine keepsHighIo_cons (keepsHighIo_fillSlot hv _ _ _ _) <|
    keepsHighIo_cons (keepsHighIo_of_touches (touches_offer _) (by decide)) <|
    keepsHighIo_cons (keepsHighIo_onlyIf ?_) <|
    keepsHighIo_cons (keepsHighIo_onlyIf (keepsHighIo_of_touches (touches_snapTrigger _ _ _) (by decide))) <|
    keepsHighIo_cons (keepsHighIo_onlyIf (keepsHighIo_modStop _)) <|
    keepsHighIo_cons (keepsHighIo_onlyIf ?_) keepsHighIo_nil
  · split <;> [exact keepsHighIo_icuEvent _; exact keepsHighIo_done]
  · refine keepsHighIo_cons (keepsHighIo_onlyIf ?_) <| keepsHighIo_cons (keepsHighIo_setFld (by decide) _ _ _) <|
      keepsHighIo_cons (keepsHighIo_ask fun _ => keepsHighIo_icuLevel _ _) <|
      keepsHighIo_cons keepsHighIo_hostErrPoint keepsHighIo_nil
    exact keepsHighIo_cons (keepsHighIo_modStop _) <| keepsHighIo_cons
      (keepsHighIo_forEach fun _ hi => keepsHighIo_hpIrq (lt_of_mem_filter_range hi) 1) keepsHighIo_nil

/-- A sequencer that faults stops at its instruction with SEQ_FAULT on its link's page (R285), and its registers and
memory stay. -/
theorem seqFault_stops (h : s.canonical = true) {u : Nat} (hu : 128 ≤ u) :
    let t := (seqFault u).run s
    t.hart u = { s.hart u with run := false, wait := none } ∧ t.fld (ioa (unitPage u) 0x14) 15 0 = 0x3A ∧
      t.regs = s.regs ∧ t.mem = s.mem := by
  have hp : 0x10 ≤ unitPage u := by unfold unitPage linkPage; split <;> [omega; split] <;> omega
  have htouch := touches_seqFault u s
  refine ⟨?_, ?_, htouch.1 .regs (by decide), htouch.1 .mem (by decide)⟩
  · simp only [seqFault, Prog.run_ask, run_block_cons, run_block_nil]
    rw [State.hart_congr ((touches_report _ _ _ _ _).1 .harts (by decide)), State.hart_modHart_same]
  · simp only [seqFault, Prog.run_ask, run_block_cons, run_block_nil]
    exact fld_report (Prog.run_canonical _ h) hp .seqFault _ _

end Sys2Proof.Machine
end

section
/-! LOOP at depth four (R60, R63): it raises LOOP_NEST for a count other than 0, and skips its body for 0. -/
namespace Sys2Proof.Machine
variable {s t w : State} {u : Nat}

/-! ### Loops -/

theorem endTest_keeps (n : Nat) (h : Hart) : (endTest n h).capdepth = h.capdepth ∧ (endTest n h).run = h.run := by
  induction n generalizing h with
  | zero => exact ⟨rfl, rfl⟩
  | succ n ih =>
    simp only [endTest]; split <;> [split; exact ⟨rfl, rfl⟩]
    · exact ⟨rfl, rfl⟩
    · exact ih _

theorem closeLoops_keeps (n : Nat) (h : Hart) : (closeLoops n h).capdepth = h.capdepth ∧ (closeLoops n h).run = h.run := by
  induction n generalizing h with
  | zero => exact ⟨rfl, rfl⟩
  | succ n ih => simp only [closeLoops]; split <;> [exact ih _; exact ⟨rfl, rfl⟩]

theorem skipLoop_keeps (u len : Nat) (h : Hart) :
    (skipLoop u len h).capdepth = h.capdepth ∧ (skipLoop u len h).run = h.run := by
  simp only [skipLoop]; split <;> [exact endTest_keeps 4 _; exact closeLoops_keeps 4 _]

theorem skipLoop_quiet {len : Nat} {h : Hart} (q : h.quiet = true) : (skipLoop u len h).quiet = true := by
  simp only [skipLoop]
  split <;> [exact Hart.quiet_congr (endTest_quiet 4 _) q; exact Hart.quiet_congr (closeLoops_quiet 4 _) q]

theorem State.run_of_issues {len : Nat} (h : s.issues u len = true) : (s.hart u).run = true := by
  obtain ⟨-, hr, -⟩ := State.canIssue_iff.1 (State.issues_iff.1 h).1
  simp only [State.ready, Bool.and_eq_true] at hr
  exact hr.1.1.1.1.1

/-- LOOP with count 0 skips its body (R60). -/
theorem loop_zero {u : UnitId} {f : S2L} (h : s.issues u.num 2 = true) (hl : f.len ≠ 0) (hr : f.rsv = 0)
    (hz : (s.reg u.num f.rs.toNat).toNat % 2 ^ 32 = 0) :
    exec (.loop u f) s = .next ((modHart u.num (skipLoop u.num f.len.toNat)).run s) := by
  have hq := (State.issues_iff.1 h).2
  show execLoop u f s = _
  rw [execLoop, instr_run h (decide_eq_true ⟨hl, hr⟩), Prog.run_ask]
  dsimp only
  rw [if_pos hz, finish_run hq (skipLoop_quiet hq)]

/-- LOOP with a count other than 0 at depth 4 raises LOOP_NEST (R63). -/
theorem loop_nest {u : UnitId} {f : S2L} (h : s.issues u.num 2 = true) (hl : f.len ≠ 0) (hr : f.rsv = 0)
    (hd : (s.hart u.num).ld = 4) (hz : (s.reg u.num f.rs.toNat).toNat % 2 ^ 32 ≠ 0) :
    exec (.loop u f) s = .next ((raise u.num .loopNest 0).run s) := by
  show execLoop u f s = _
  rw [execLoop, instr_run h (decide_eq_true ⟨hl, hr⟩), Prog.run_ask]
  dsimp only
  rw [if_neg hz, if_pos hd]

/-! ### Raising an exception -/

/-- A sequencer takes no exception: it stops (R285). -/
theorem raise_seq (hu : 128 ≤ u) (c : Cause) (bad : Nat) : raise u c bad = seqFault u := by unfold raise; rw [if_pos hu]

/-- At a quiet boundary a core enters its handler with the cause, for every cause that raises no error (R381, R382). -/
theorem raise_core (hu : u < 128) (hq : (s.hart u).quiet = true) {c : Cause} (hp : c ≠ .poisonConsumed)
    (ht : c ≠ .tokenTimeout) (bad : Nat) :
    (raise u c bad).run s = (enter u 0 c.code 0 0 bad (s.pldWord u (s.hart u).pc.toNat)).run s := by
  have ho : (s.hart u).commitOpen = false := by simp [Hart.commitOpen, (Hart.quiet_iff.1 hq).1]
  unfold raise
  rw [if_neg (by omega), Prog.run_ask, run_onlyIf_pos (by simp [ho]), run_block_cons, run_block_cons, run_block_cons,
    run_block_nil, run_onlyIf_neg hp, run_onlyIf_neg ht, Prog.run_ask]

/-- Settles O58: LOOP at depth 4 goes to `raise` when its count is not 0, which a core answers by entering its handler and a
sequencer by stopping, and to `skipLoop` when it is. -/
theorem loopNestIsRaisedAtDepthFour : Obligations.LoopNestIsRaisedAtDepthFour := by
  intro s u f hi h hl hr hd c
  have hq := (State.issues_iff.1 h).2
  refine ⟨fun hz hu hlb pa hpa => ⟨_, loop_nest h hl hr hd hz, ?_⟩, fun hz hu => ⟨_, loop_nest h hl hr hd hz, ?_⟩,
    fun hz => ⟨_, loop_zero h hl hr hz, only_modHart _, ?_⟩⟩
  · rw [raise_core hu hq (by decide) (by decide)]
    exact enter_entered hi.1 hq hpa (by decide) (by omega) hlb _ _
  · rw [raise_seq hu]
    obtain ⟨hh, hf, hregs, hmem⟩ := seqFault_stops hi.1 hu
    rw [hh]
    exact ⟨rfl, rfl, hd, hf, hregs, hmem⟩
  · rw [State.hart_modHart_same]
    obtain ⟨hk, hrun⟩ := skipLoop_keeps u.num f.len.toNat (s.hart u.num)
    exact ⟨hk, hrun.trans (State.run_of_issues h)⟩

end Sys2Proof.Machine
end

section
/-! SUPPORT. Register writes as commands of their own (R343-R346): where the agent may write, the command is the register's
own write; and a write-only register keeps nothing of it. -/
namespace Sys2Proof.Machine
variable {s : State} {g : Agent} {a b : Nat}

/-! ### Fields after a write -/

theorem State.fld_ioSet_same (h : s.canonical = true) (a hi lo : Nat) (x : Reg32) :
    ((ioSet a x).run s).fld a hi lo = bits x.toNat hi lo := by
  rw [State.fld, State.ioVal_ioSet h, if_pos rfl]

theorem State.fld_ioSet_ne (h : s.canonical = true) (hb : b ≠ a) (hi lo : Nat) (x : Reg32) :
    ((ioSet a x).run s).fld b hi lo = s.fld b hi lo := by
  rw [State.fld, State.ioVal_ioSet h, if_neg hb, State.fld]

theorem State.fld_satAdd_ne (h : s.canonical = true) (hb : b ≠ a) (hi lo hi' lo' n : Nat) :
    ((satAdd a hi' lo' n).run s).fld b hi lo = s.fld b hi lo := State.fld_ioSet_ne h hb hi lo _

/-- A counter that fills its register counts up to its greatest value and stays there. -/
theorem State.fld_satAdd_word (h : s.canonical = true) (a n : Nat) :
    ((satAdd a 31 0 n).run s).fld a 31 0 = min (s.fld a 31 0 + n) (2 ^ 32 - 1) := by
  rw [satAdd, Prog.run_ask, setFld, Prog.run_ask, State.fld_ioSet_same h]
  simp only [bits, putBits, BitVec.toNat_ofNat]
  omega

/-! ### The checks of a write -/

/-- No check stops a write that the agent may make (R344-R346, R451). -/
theorem ioWrite_of_writable (h : writable s g a) (hp : (pageKind (a / 0x1000)).isSome = true) (v : Reg32) :
    (ioWrite g a v).run s = (regWrite g a v).run s := by
  obtain ⟨-, -, -, hdbg, hhost⟩ := h
  rw [ioWrite, if_neg (by rw [Option.isNone_eq_false_iff.2 hp]; decide), Prog.run_ask]
  cases g with
  | host p =>
    obtain ⟨hmay, hlock⟩ := hhost
    simp [hmay, hlock, hdbg]
  | caller | core | debug => simp [hdbg]

/-- Outside the command words of the DBG page, a register write is all that a write does (R446). -/
theorem ioStore_of_not_dbgCmd (h : isDbgCmd a = false) (v : Reg32) : (ioStore g a v).run s = (ioWrite g a v).run s := by
  have ha : a ≠ ioa 0x10 0x11C := by rintro rfl; exact absurd h (by decide)
  simp [ioStore, ha]

/-- Where the agent may write, the command is the register's own write (R343). -/
theorem writeCmd_of_writable (h : writable s g a) (hp : (pageKind (a / 0x1000)).isSome = true) (v : Reg32) :
    writeCmd g a v s = .next ((regWrite g a v).run s) := by
  have ⟨hon, hlive, halign, hdbg, _⟩ := h
  rw [writeCmd, perform, if_pos hon, Prog.run_ask, run_onlyIf_pos ⟨hlive, halign⟩, ioStore_of_not_dbgCmd hdbg,
    ioWrite_of_writable h hp]

/-! ### Write-only registers -/

theorem writeMask_eq_zero {r : RegRow} {c : FClass} (h : r.mask c = 0) : writeMask a r c = 0 := by
  unfold writeMask; split <;> simp [h]

/-- A register without a field that a write sets keeps nothing of the written value (R3). -/
theorem takeWrite_unwritten {r : RegRow} (hd : dcctlOf a = none) (hh : r.mask .h = 0) (hl : r.mask .l = 0)
    (hs : r.mask .s = 0) (v : Reg32) : (takeWrite a r v).run s = s := by
  simp [takeWrite, hd, writeFields, writeMask_eq_zero hh, writeMask_eq_zero hl, writeMask_eq_zero hs]

end Sys2Proof.Machine
end

section
/-! PREREPORT (R259): a write to it is the effect `preReport` alone, which acts in the open window under APPLY only. -/
namespace Sys2Proof.Machine
variable {s : State} {g : Agent}

/-- The row of PREREPORT (R262). -/
def prereportRow : RegRow := ⟨0x214, 1, 0, [⟨11, 0, .wo, 0x0⟩]⟩

theorem regAt_prereport : regAt (upd 0x214) = some prereportRow := by decide

theorem regWrite_prereport (g : Agent) (v : Reg32) (s : State) :
    (regWrite g (upd 0x214) v).run s = (preReport v).run s := by
  have hclear : clearedRecord (upd 0x214) v = .done := rfl
  have heffect : writeEffect g (upd 0x214) v = preReport v := rfl
  have htake := takeWrite_unwritten (a := upd 0x214) (r := prereportRow) (s := s) (by decide) (by decide) (by decide)
    (by decide) v
  simp [regWrite, regAt_prereport, htake, hclear, heffect]

theorem exec_prereport (h : writable s g (upd 0x214)) (v : Reg32) :
    exec (.prereport g v) s = .next ((preReport v).run s) := by
  show writeCmd g (upd 0x214) v s = _
  rw [writeCmd_of_writable h (by decide), regWrite_prereport]

/-- The record PRE_STALE of the index in `v` (R259). -/
def preStale (s : State) (v : Reg32) : Offer :=
  { page := 0xD0, code := 0x82, sev := 0, payload := toBytes 4 (v.toNat % 4096) ++ toBytes 4 s.stepT }

/-- PRESTAT after a write of `v`: PRE_STALE and the index (R262). -/
def preStat (v : Reg32) : Reg32 := BitVec.ofNat 32 (2 ^ 31 + v.toNat % 4096)

theorem bits_preStat (v : Reg32) :
    bits (preStat v).toNat 31 31 = 1 ∧ bits (preStat v).toNat 11 0 = v.toNat % 4096 := by
  simp only [preStat, bits, BitVec.toNat_ofNat]; omega

theorem preReport_open (hw : s.window = true) (ho : s.outcome = 1) (v : Reg32) :
    (preReport v).run s =
      (offer (preStale s v)).run ((satAdd (upd 0x210) 31 0 1).run ((ioSet (upd 0x20C) (preStat v)).run s)) := by
  rw [preReport, Prog.run_ask, run_onlyIf_pos ⟨hw, ho⟩]; rfl

theorem preReport_closed (h : ¬(s.window = true ∧ s.outcome = 1)) (v : Reg32) : (preReport v).run s = s := by
  rw [preReport, Prog.run_ask, run_onlyIf_neg h]

theorem fld_offer (o : Offer) (a hi lo : Nat) : ((offer o).run s).fld a hi lo = s.fld a hi lo := rfl

theorem offers_offer (o : Offer) : ((offer o).run s).dev.recd.offers = s.dev.recd.offers ++ [o] := rfl

/-- Settles O59: the write is `preReport`, whose three effects stand in registers and state of their own. -/
theorem prereportRecordsAStaleParameter : Obligations.PrereportRecordsAStaleParameter := by
  intro s g v hi hwr
  rw [exec_prereport hwr]
  refine ⟨fun hw ho => ⟨_, rfl, touches_preReport v s, ?_⟩, fun h => by rw [preReport_closed h]⟩
  have hc := hi.1
  have hc' := Prog.run_canonical (ioSet (upd 0x20C) (preStat v)) hc
  have hne : upd 0x20C ≠ upd 0x210 := by decide
  obtain ⟨hstale, hlast⟩ := bits_preStat v
  rw [preReport_open hw ho, offers_offer]
  simp only [fld_offer]
  refine ⟨?_, ?_, ?_, ?_⟩
  · rw [State.fld_satAdd_ne hc' hne, State.fld_ioSet_same hc, hstale]
  · rw [State.fld_satAdd_ne hc' hne, State.fld_ioSet_same hc, hlast]
  · rw [State.fld_satAdd_word hc', State.fld_ioSet_ne hc hne.symm]
  · rfl

end Sys2Proof.Machine
end

section
/-! SUPPORT. What an interrupt, a field write and a register read change: an interrupt to a host writes I/O registers of the
host pages alone (R341), a field write the bits of its field alone, and a register read answers before its effect (R343). -/
namespace Sys2Proof.Machine
variable {s : State} {g : Agent} {a : Nat}

/-! ### Interrupts -/

/-- HP.IRQ stands on the pages 1 to 4; beyond them `hpIrq` writes no I/O register (R341). -/
theorem State.ioVal_hpIrq (h : s.canonical = true) {p : Nat} (hp : p < 4) (ha : 0x5000 ≤ a) (b : Nat) :
    ((hpIrq p b).run s).ioVal a = s.ioVal a := by
  have hne : a ≠ ioa (hpPage p) 0x120 := by unfold ioa hpPage; omega
  simp only [hpIrq, Prog.run_ask, run_block_cons, run_block_nil]
  rw [State.ioVal_congr ((touches_onlyIf (touches_modPart _ _) _).1 .io (by decide)), setMask, Prog.run_ask,
    State.ioVal_ioSet h, if_neg hne]

theorem State.ioVal_hpIrqs (h : s.canonical = true) {ps : List Nat} (hps : ∀ p ∈ ps, p < 4) (ha : 0x5000 ≤ a) (b : Nat) :
    ((forEach ps fun p => hpIrq p b).run s).ioVal a = s.ioVal a := by
  induction ps generalizing s with
  | nil => rfl
  | cons p ps ih =>
    rw [run_forEach_cons, ih (Prog.run_canonical _ h) fun q hq => hps q (List.mem_cons_of_mem _ hq),
      State.ioVal_hpIrq h (hps p List.mem_cons_self) ha]

theorem State.ioVal_icuEvent (h : s.canonical = true) (ha : 0x5000 ≤ a) (n : Nat) :
    ((icuEvent n).run s).ioVal a = s.ioVal a := by
  unfold icuEvent
  split
  · rfl
  · simp only [Prog.run_ask, run_block_cons, run_block_nil, State.ioVal_modIcu]
    refine State.ioVal_hpIrqs h (fun p hp => ?_) ha 4
    split at hp
    · exact lt_of_mem_bitsSet (List.mem_filter.1 hp).1
    · cases hp

theorem State.ioVal_icuLevel (h : s.canonical = true) (ha : 0x5000 ≤ a) (n : Nat) (on : Bool) :
    ((icuLevel n on).run s).ioVal a = s.ioVal a := by
  simp only [icuLevel, Prog.run_ask, run_block_cons, run_block_nil]
  rw [State.ioVal_congr ((touches_onlyIf (touches_modIcu _) _).1 .io (by decide)), run_onlyIf]
  split
  · rw [State.ioVal_icuEvent (Prog.run_canonical _ h) ha, State.ioVal_modIcu]
  · rw [State.ioVal_modIcu]

theorem State.ioVal_hostErrPoint (h : s.canonical = true) (ha : 0x5000 ≤ a) :
    (hostErrPoint.run s).ioVal a = s.ioVal a := by
  simp only [hostErrPoint, Prog.run_ask, run_block_cons, run_block_nil, State.ioVal_modStop, run_onlyIf]
  split
  · exact State.ioVal_hpIrqs h (fun _ hp => lt_of_mem_filter_range hp) ha 2
  · rfl

theorem State.ioVal_jobIrqPoint (h : s.canonical = true) (ha : 0x5000 ≤ a) :
    (jobIrqPoint.run s).ioVal a = s.ioVal a := by
  simp only [jobIrqPoint, Prog.run_ask, run_block_cons, run_block_nil, State.ioVal_modStop]
  rw [State.ioVal_hostErrPoint (Prog.run_canonical _ h) ha,
    State.ioVal_hpIrqs h (fun _ hp => lt_of_mem_bitsSet hp) ha]

/-! ### Fields of a word -/

theorem testBit_bits (v hi lo i : Nat) : (bits v hi lo).testBit i = (decide (i < hi - lo + 1) && v.testBit (lo + i)) := by
  rw [bits, Nat.testBit_mod_two_pow, Nat.testBit_div_two_pow, Nat.add_comm i lo]

/-- A number whose field hi:lo makes way for `y` is what lies above the field, `y`, and what lies below. -/
theorem sub_bits_add (v hi lo y : Nat) :
    v - bits v hi lo * 2 ^ lo + y * 2 ^ lo =
      2 ^ lo * (2 ^ (hi - lo + 1) * (v / 2 ^ lo / 2 ^ (hi - lo + 1)) + y) + v % 2 ^ lo := by
  have hv := Nat.div_add_mod v (2 ^ lo)
  have hf := congrArg (2 ^ lo * ·) (Nat.div_add_mod (v / 2 ^ lo) (2 ^ (hi - lo + 1)))
  simp only [Nat.mul_add] at hf
  rw [bits, Nat.mul_add, Nat.mul_comm _ (2 ^ lo), Nat.mul_comm y]
  omega

/-- A field write replaces the bits of its field and no other. -/
theorem testBit_putBits {hi lo : Nat} (hlo : lo ≤ hi) (hhi : hi < 32) (v : Reg32) (x i : Nat) :
    (putBits v hi lo x).toNat.testBit i =
      if lo ≤ i ∧ i ≤ hi then x.testBit (i - lo) else v.toNat.testBit i := by
  rw [putBits, BitVec.toNat_ofNat, sub_bits_add, Nat.testBit_mod_two_pow,
    Nat.testBit_two_pow_mul_add _ (Nat.mod_lt _ (Nat.two_pow_pos lo)),
    Nat.testBit_two_pow_mul_add _ (Nat.mod_lt _ (Nat.two_pow_pos _)), Nat.testBit_mod_two_pow, Nat.testBit_mod_two_pow,
    Nat.testBit_div_two_pow, Nat.testBit_div_two_pow]
  rcases Nat.lt_or_ge i lo with hlow | hlow
  · simp [hlow, show i < 32 by omega, show ¬lo ≤ i by omega]
  rw [if_neg (by omega)]
  rcases Nat.lt_or_ge hi i with hhigh | hhigh
  · rw [if_neg (by omega), if_neg (by omega), show i - lo - (hi - lo + 1) + (hi - lo + 1) + lo = i by omega,
      ← Nat.testBit_mod_two_pow, Nat.mod_eq_of_lt v.isLt]
  · have hin : i - lo < hi - lo + 1 := by omega
    simp [hin, hlow, hhigh, show i < 32 by omega]

theorem bits_putBits_same {hi lo : Nat} (hlo : lo ≤ hi) (hhi : hi < 32) (v : Reg32) (x : Nat) :
    bits (putBits v hi lo x).toNat hi lo = x % 2 ^ (hi - lo + 1) := by
  refine Nat.eq_of_testBit_eq fun i => ?_
  rw [testBit_bits, testBit_putBits hlo hhi, Nat.testBit_mod_two_pow]
  by_cases hin : i < hi - lo + 1
  · rw [if_pos (by omega), Nat.add_sub_cancel_left]
  · simp [hin]

theorem bits_putBits_disjoint {hi lo hi' lo' : Nat} (hlo : lo ≤ hi) (hhi : hi < 32) (hlo' : lo' ≤ hi')
    (hd : hi < lo' ∨ hi' < lo) (v : Reg32) (x : Nat) :
    bits (putBits v hi lo x).toNat hi' lo' = bits v.toNat hi' lo' := by
  refine Nat.eq_of_testBit_eq fun i => ?_
  rw [testBit_bits, testBit_bits, testBit_putBits hlo hhi]
  by_cases h : i < hi' - lo' + 1
  · rw [if_neg (by omega)]
  · simp [h]

theorem State.fld_setFld_same (h : s.canonical = true) {hi lo : Nat} (hlo : lo ≤ hi) (hhi : hi < 32) (a x : Nat) :
    ((setFld a hi lo x).run s).fld a hi lo = x % 2 ^ (hi - lo + 1) := by
  rw [setFld, Prog.run_ask, State.fld_ioSet_same h, bits_putBits_same hlo hhi]

theorem State.fld_setFld_disjoint (h : s.canonical = true) {hi lo hi' lo' : Nat} (hlo : lo ≤ hi) (hhi : hi < 32)
    (hlo' : lo' ≤ hi') (hd : hi < lo' ∨ hi' < lo) (a x : Nat) :
    ((setFld a hi lo x).run s).fld a hi' lo' = s.fld a hi' lo' := by
  rw [setFld, Prog.run_ask, State.fld_ioSet_same h, bits_putBits_disjoint hlo hhi hlo' hd, State.fld]

/-! ### Reads and writes of one register -/

/-- A read by an agent that is there answers the value, and then has the register's effect (R343). -/
theorem readCmd_of_live (hon : s.dev.pwr.on = true) (hl : s.live g = true) (a : Nat) :
    readCmd g a s = .next ((readEffect a).run ((answer (toBytes 4 (s.ioRead a))).run s)) := by
  rw [readCmd, perform, if_pos hon, Prog.run_ask, run_onlyIf_pos hl, run_block_cons, run_block_cons, run_block_nil]

/-- A write to a register that keeps nothing of it is the register's effect alone (R3). -/
theorem regWrite_unwritten {r : RegRow} (hr : regAt a = some r) (hlock : a % 0x1000 ≠ 0x44) (hpost : a ≠ ioa 0xF 0x130)
    (hdog : a % 0x1000 ≠ 0x100) {v : Reg32} (hclear : clearedRecord a v = .done)
    (htake : (takeWrite a r v).run s = s) :
    (regWrite g a v).run s = (writeEffect g a v).run s := by
  simp [regWrite, hr, hlock, hpost, hdog, hclear, htake]

end Sys2Proof.Machine
end

section
/-! CLAIM and DONE (R430): both act on the slots' states, which stand with HSEV in HSTAT (R435). -/
namespace Sys2Proof.Machine
variable {s : State} {g : Agent} {n : Nat}

/-! ### The slots -/

/-- HSTAT after a change of a slot: ICU source 0x06 does not write there. -/
theorem State.fld_setSlotSt (h : s.canonical = true) (n x hi lo : Nat) :
    ((setSlotSt n x).run s).fld (ioa 0xE 0x104) hi lo =
      ((setFld (ioa 0xE 0x104) (2 * n + 1) (2 * n) x).run s).fld (ioa 0xE 0x104) hi lo := by
  rw [setSlotSt, run_block_cons, run_block_cons, run_block_nil, Prog.run_ask, State.fld,
    State.ioVal_icuLevel (Prog.run_canonical _ h) (by decide), State.fld]

theorem State.slotSt_setSlotSt_same (h : s.canonical = true) (hn : n < 4) (x : Nat) :
    ((setSlotSt n x).run s).slotSt n = x % 4 := by
  rw [State.slotSt, State.fld_setSlotSt h, State.fld_setFld_same h (by omega) (by omega),
    show 2 * n + 1 - 2 * n + 1 = 2 by omega]
  rfl

theorem State.slotSt_setSlotSt_ne (h : s.canonical = true) (hn : n < 4) {m : Nat} (hm : m ≠ n) (x : Nat) :
    ((setSlotSt n x).run s).slotSt m = s.slotSt m := by
  rw [State.slotSt, State.fld_setSlotSt h, State.fld_setFld_disjoint h (by omega) (by omega) (by omega) (by omega),
    State.slotSt]

/-- HSEV stands beyond the slots (R435). -/
theorem State.slotSt_setHsev (h : s.canonical = true) (x : Nat) {m : Nat} (hm : m < 4) :
    ((setFld (ioa 0xE 0x104) 9 8 x).run s).slotSt m = s.slotSt m := by
  rw [State.slotSt, State.fld_setFld_disjoint h (by omega) (by omega) (by omega) (by omega), State.slotSt]

/-! ### CLAIM -/

/-- The highest severity of a PENDING slot. -/
def State.topPending (s : State) : Option Nat := (range 0 4).reverse.find? fun v => s.slotSt v = 1

theorem State.topPending_eq_some (hn : n < 4) (h1 : s.slotSt n = 1) (hmax : ∀ m, n < m → m < 4 → s.slotSt m ≠ 1) :
    s.topPending = some n := by
  rw [State.topPending, show (range 0 4).reverse = [3, 2, 1, 0] from rfl]
  interval_cases n <;> simp [h1, hmax]

theorem State.topPending_eq_none (h : ∀ n, n < 4 → s.slotSt n ≠ 1) : s.topPending = none := by
  simp only [State.topPending, List.find?_eq_none, List.mem_reverse, mem_range, decide_eq_true_eq]
  exact fun m hm => h m (by omega)

theorem State.claimVal_of_some (h : s.topPending = some n) : s.claimVal = 2 ^ 31 + n := by
  rw [State.claimVal, ← State.topPending, h]

theorem State.claimVal_of_none (h : s.topPending = none) : s.claimVal = 0 := by
  rw [State.claimVal, ← State.topPending, h]

theorem claimEffect_of_some (h : s.topPending = some n) :
    claimEffect.run s = (setFld (ioa 0xE 0x104) 9 8 n).run ((setSlotSt n 2).run s) := by
  rw [claimEffect, Prog.run_ask, ← State.topPending, h]
  simp only [run_block_cons, run_block_nil]

/-- A CLAIM of slot `n` marks it, names its severity in HSEV, and leaves the other slots and the answer (R430). -/
theorem claimEffect_claims (h : s.canonical = true) (hn : n < 4) (htop : s.topPending = some n) :
    let t := claimEffect.run s
    t.dev.readData = s.dev.readData ∧ t.slotSt n = 2 ∧ t.fld (ioa 0xE 0x104) 9 8 = n ∧
      ∀ m, m < 4 → m ≠ n → t.slotSt m = s.slotSt m := by
  have h' := Prog.run_canonical (setSlotSt n 2) h
  obtain ⟨hout, -, -⟩ := (touches_claimEffect s).1 .out (by decide)
  refine ⟨hout, ?_⟩
  rw [claimEffect_of_some htop]
  refine ⟨?_, ?_, fun m hm hne => ?_⟩
  · rw [State.slotSt_setHsev h' n hn, State.slotSt_setSlotSt_same h hn]
  · rw [State.fld_setFld_same h' (by decide) (by decide)]
    exact Nat.mod_eq_of_lt hn
  · rw [State.slotSt_setHsev h' n hm, State.slotSt_setSlotSt_ne h hn hne]

theorem claimEffect_of_none (h : s.topPending = none) : claimEffect.run s = s := by
  rw [claimEffect, Prog.run_ask, ← State.topPending, h]
  rfl

theorem ioRead_claim (s : State) : s.ioRead (ioa 0xE 0x108) = s.claimVal % 2 ^ 32 := rfl

theorem topPending_answer (b : List Byte) : ((answer b).run s).topPending = s.topPending := rfl

theorem exec_claim (hon : s.dev.pwr.on = true) (hl : s.live g = true) :
    exec (.claim g) s = .next (claimEffect.run ((answer (toBytes 4 (s.claimVal % 2 ^ 32))).run s)) := by
  have heffect : readEffect (ioa 0xE 0x108) = claimEffect := rfl
  show readCmd g (ioa 0xE 0x108) s = _
  rw [readCmd_of_live hon hl, ioRead_claim, heffect]

/-! ### DONE -/

/-- The row of DONE (R435). -/
def doneRow : RegRow := ⟨0x10C, 1, 0, [⟨1, 0, .wo, 0x0⟩]⟩

theorem regAt_done : regAt (ioa 0xE 0x10C) = some doneRow := by decide

theorem exec_done (h : writable s g (ioa 0xE 0x10C)) (v : Reg32) : exec (.done g v) s = .next ((doneEffect v).run s) := by
  have heffect : writeEffect g (ioa 0xE 0x10C) v = doneEffect v := rfl
  have htake := takeWrite_unwritten (a := ioa 0xE 0x10C) (r := doneRow) (s := s) (by decide) (by decide) (by decide)
    (by decide) v
  show writeCmd g (ioa 0xE 0x10C) v s = _
  rw [writeCmd_of_writable h (by decide),
    regWrite_unwritten regAt_done (by decide) (by decide) (by decide) rfl htake, heffect]

theorem doneEffect_of_claimed {v : Reg32} (h : s.slotSt (v.toNat % 4) = 2) :
    (doneEffect v).run s =
      (onlyIf (v.toNat % 4 = 2 ∧ s.dev.stop.forceAt.isSome) jobIrqPoint).run ((setSlotSt (v.toNat % 4) 0).run s) := by
  rw [doneEffect, Prog.run_ask, run_onlyIf_pos h, run_block_cons, run_block_cons, run_block_nil]

theorem doneEffect_of_not_claimed {v : Reg32} (h : s.slotSt (v.toNat % 4) ≠ 2) : (doneEffect v).run s = s := by
  rw [doneEffect, Prog.run_ask, run_onlyIf_neg h]

/-- The JOB interrupt that a DONE may bring leaves the slots (R432). -/
theorem State.slotSt_jobIrqIf (h : s.canonical = true) (c : Prop) [Decidable c] (m : Nat) :
    ((onlyIf c jobIrqPoint).run s).slotSt m = s.slotSt m := by
  rw [run_onlyIf]
  split
  · rw [State.slotSt, State.fld, State.ioVal_jobIrqPoint h (by decide), State.slotSt, State.fld]
  · rfl

/-- Settles O60: CLAIM and DONE each rewrite one slot's field of HSTAT, CLAIM also HSEV beside the slots; the interrupts
that they bring write elsewhere. -/
theorem claimAndDoneMoveTheSlots : Obligations.ClaimAndDoneMoveTheSlots := by
  intro s g hi hon hl
  have hc := hi.1
  refine ⟨fun n hn h1 hmax => ⟨_, exec_claim hon hl, ?_⟩, fun hnone => ⟨_, exec_claim hon hl, ?_⟩,
    fun v hw => ⟨fun h2 => ⟨_, exec_done hw v, ?_⟩, fun h2 => by rw [exec_done hw, doneEffect_of_not_claimed h2]⟩⟩
  · have htop := State.topPending_eq_some hn h1 hmax
    have hval : s.claimVal % 2 ^ 32 = 2 ^ 31 + n := by rw [State.claimVal_of_some htop]; omega
    rw [hval]
    have hans := touches_answer (toBytes 4 (2 ^ 31 + n)) s
    obtain ⟨hout, hst, hsev, hkeep⟩ :=
      claimEffect_claims (Prog.run_canonical (answer (toBytes 4 (2 ^ 31 + n))) hc) hn ((topPending_answer _).trans htop)
    exact ⟨(hans.mono (by decide)).trans (touches_claimEffect.mono (by decide) _), hout, hst, hsev, hkeep⟩
  · have htop := State.topPending_eq_none hnone
    rw [State.claimVal_of_none htop, claimEffect_of_none ((topPending_answer _).trans htop)]
    exact ⟨touches_answer _ s, rfl⟩
  · have hn : v.toNat % 4 < 4 := Nat.mod_lt _ (by decide)
    have hc' := Prog.run_canonical (setSlotSt (v.toNat % 4) 0) hc
    refine ⟨(touches_doneEffect v).mono (by decide) s, ?_, fun m _ hm => ?_⟩ <;>
      rw [doneEffect_of_claimed h2, State.slotSt_jobIrqIf hc']
    · exact State.slotSt_setSlotSt_same hc hn 0
    · exact State.slotSt_setSlotSt_ne hc hn hm 0

end Sys2Proof.Machine
end
